-- ==== Sys2Proof/Word.lean ====
section
/-! DEFINITION. The word types of the core (spec/00_scope.md R6, R8). -/

namespace Sys2Proof

/-- A 32-bit register, address or instruction word (R6). -/
abbrev Word := BitVec 32

/-- A byte of memory. -/
abbrev Byte := BitVec 8

/-- A 64-bit pair: a double, an instruction pair, KR, KI, T or MERGE. -/
abbrev DWord := BitVec 64

/-- A 5-bit register field: it names r0 to r31, or f0 to f31 (spec/30_encoding.md R113). -/
abbrev Reg := BitVec 5

end Sys2Proof
end

