-- ==== Sys2Proof/Syntax.lean ====
section
/-! DEFINITION. The instructions: one constructor per row of spec/opcode_table.json, with the operand fields
of its format (spec/30_encoding.md R113). A field the format ignores is not an operand (R122). -/

namespace Sys2Proof

/-- REG format: three registers. -/
structure RegOps where
  src2 : Reg
  dest : Reg
  src1 : Reg
  deriving DecidableEq, Repr

/-- IMM format: `imm` is bits 15:0 whole, size code and auto-increment bit included (46 R311). -/
structure ImmOps where
  src2 : Reg
  dest : Reg
  imm : BitVec 16
  deriving DecidableEq, Repr

/-- SPLIT format: `off` is `offh ++ offl`. -/
structure SplitOps where
  src2 : Reg
  src1 : Reg
  off : BitVec 16
  deriving DecidableEq, Repr

/-- SPLIT5 format: a 5-bit immediate stands in the src1 field. -/
structure Split5Ops where
  src2 : Reg
  imm5 : BitVec 5
  off : BitVec 16
  deriving DecidableEq, Repr

/-- REG format of fld, fst and pfld: `inc` is bit 0, the auto-increment flag (46 R311). -/
structure FRegOps where
  src2 : Reg
  dest : Reg
  src1 : Reg
  inc : Bool
  deriving DecidableEq, Repr

/-- ixfr: an integer source and a floating destination. -/
structure XferOps where
  dest : Reg
  src1 : Reg
  deriving DecidableEq, Repr

/-- ld.c: the control register index and the destination. -/
structure LdcOps where
  creg : BitVec 5
  dest : Reg
  deriving DecidableEq, Repr

/-- st.c: the control register index and the source. -/
structure StcOps where
  creg : BitVec 5
  src1 : Reg
  deriving DecidableEq, Repr

/-- flush: the base register and the immediate, whose bit 0 is the auto-increment flag. -/
structure FlushOps where
  src2 : Reg
  imm : BitVec 16
  deriving DecidableEq, Repr

/-- FP format: D marks the word dual-mode capable, S and R are the source and result precision (true for
double, R114). The P bit is in the constructor where it tells two instructions apart, and is dropped where
it is not examined (R117). -/
structure FpOps where
  src1 : Reg
  src2 : Reg
  dest : Reg
  d : Bool
  s : Bool
  r : Bool
  deriving DecidableEq, Repr

/-- The instruction set (30 R116 to R118), in the order of spec/opcode_table.json. -/
inductive Instr where
  /-- `ld.b` (register form): 46 R312. -/
  | ldbReg (o : RegOps)
  /-- `ld.b` (immediate form): 46 R312. -/
  | ldbImm (o : ImmOps)
  /-- `ixfr`: 46 R331. -/
  | ixfr (o : XferOps)
  /-- `st.b`: 46 R316. -/
  | stb (o : SplitOps)
  /-- `ld.s` (register form): 46 R313. -/
  | ldsReg (o : RegOps)
  /-- `ld.l` (register form): 46 R314. -/
  | ldlReg (o : RegOps)
  /-- `ld.s` (immediate form): 46 R313. -/
  | ldsImm (o : ImmOps)
  /-- `ld.l` (immediate form): 46 R314. -/
  | ldlImm (o : ImmOps)
  /-- `st.s`: 46 R317. -/
  | sts (o : SplitOps)
  /-- `st.l`: 46 R318. -/
  | stl (o : SplitOps)
  /-- `fld.d` (register form): 46 R321. -/
  | flddReg (o : FRegOps)
  /-- `fld.l` (register form): 46 R320. -/
  | fldlReg (o : FRegOps)
  /-- `fld.q` (register form): 46 R322. -/
  | fldqReg (o : FRegOps)
  /-- `fld.d` (immediate form): 46 R321. -/
  | flddImm (o : ImmOps)
  /-- `fld.l` (immediate form): 46 R320. -/
  | fldlImm (o : ImmOps)
  /-- `fld.q` (immediate form): 46 R322. -/
  | fldqImm (o : ImmOps)
  /-- `fst.d` (register form): 46 R324. -/
  | fstdReg (o : FRegOps)
  /-- `fst.l` (register form): 46 R323. -/
  | fstlReg (o : FRegOps)
  /-- `fst.q` (register form): 46 R325. -/
  | fstqReg (o : FRegOps)
  /-- `fst.d` (immediate form): 46 R324. -/
  | fstdImm (o : ImmOps)
  /-- `fst.l` (immediate form): 46 R323. -/
  | fstlImm (o : ImmOps)
  /-- `fst.q` (immediate form): 46 R325. -/
  | fstqImm (o : ImmOps)
  /-- `ld.c`: 45 R292. -/
  | ldc (o : LdcOps)
  /-- `flush`: 46 R330. -/
  | flush (o : FlushOps)
  /-- `st.c`: 45 R293. -/
  | stc (o : StcOps)
  /-- `pst.d`: 46 R328. -/
  | pstd (o : ImmOps)
  /-- `bri`: 47 R348. -/
  | bri (src1 : Reg)
  /-- `trap`: 47 R350. -/
  | trap (o : RegOps)
  /-- `btne` (register form): 47 R355. -/
  | btneReg (o : SplitOps)
  /-- `btne` (immediate form): 47 R356. -/
  | btneImm (o : Split5Ops)
  /-- `bte` (register form): 47 R353. -/
  | bteReg (o : SplitOps)
  /-- `bte` (immediate form): 47 R354. -/
  | bteImm (o : Split5Ops)
  /-- `pfld.d` (register form): 46 R327. -/
  | pflddReg (o : FRegOps)
  /-- `pfld.l` (register form): 46 R326. -/
  | pfldlReg (o : FRegOps)
  /-- `pfld.d` (immediate form): 46 R327. -/
  | pflddImm (o : ImmOps)
  /-- `pfld.l` (immediate form): 46 R326. -/
  | pfldlImm (o : ImmOps)
  /-- `br`: 47 R342. -/
  | br (off : BitVec 26)
  /-- `call`: 47 R346. -/
  | call (off : BitVec 26)
  /-- `bc`: 47 R343. -/
  | bc (off : BitVec 26)
  /-- `bc.t`: 47 R344. -/
  | bct (off : BitVec 26)
  /-- `bnc`: 47 R343. -/
  | bnc (off : BitVec 26)
  /-- `bnc.t`: 47 R344. -/
  | bnct (off : BitVec 26)
  /-- `addu` (register form): 44 R251. -/
  | adduReg (o : RegOps)
  /-- `addu` (immediate form): 44 R251. -/
  | adduImm (o : ImmOps)
  /-- `subu` (register form): 44 R252. -/
  | subuReg (o : RegOps)
  /-- `subu` (immediate form): 44 R252. -/
  | subuImm (o : ImmOps)
  /-- `adds` (register form): 44 R253. -/
  | addsReg (o : RegOps)
  /-- `adds` (immediate form): 44 R253. -/
  | addsImm (o : ImmOps)
  /-- `subs` (register form): 44 R254. -/
  | subsReg (o : RegOps)
  /-- `subs` (immediate form): 44 R254. -/
  | subsImm (o : ImmOps)
  /-- `shl` (register form): 44 R260. -/
  | shlReg (o : RegOps)
  /-- `shl` (immediate form): 44 R260. -/
  | shlImm (o : ImmOps)
  /-- `shr` (register form): 44 R261. -/
  | shrReg (o : RegOps)
  /-- `shr` (immediate form): 44 R261. -/
  | shrImm (o : ImmOps)
  /-- `shra` (register form): 44 R262. -/
  | shraReg (o : RegOps)
  /-- `shra` (immediate form): 44 R262. -/
  | shraImm (o : ImmOps)
  /-- `and` (register form): 44 R270. -/
  | andReg (o : RegOps)
  /-- `and` (immediate form): 44 R270. -/
  | andImm (o : ImmOps)
  /-- `andnot` (register form): 44 R272. -/
  | andnotReg (o : RegOps)
  /-- `andnot` (immediate form): 44 R272. -/
  | andnotImm (o : ImmOps)
  /-- `or` (register form): 44 R274. -/
  | orReg (o : RegOps)
  /-- `or` (immediate form): 44 R274. -/
  | orImm (o : ImmOps)
  /-- `xor` (register form): 44 R276. -/
  | xorReg (o : RegOps)
  /-- `xor` (immediate form): 44 R276. -/
  | xorImm (o : ImmOps)
  /-- `shrd`: 44 R263. -/
  | shrd (o : RegOps)
  /-- `bla`: 47 R345. -/
  | bla (o : SplitOps)
  /-- `andh`: 44 R271. -/
  | andh (o : ImmOps)
  /-- `andnoth`: 44 R273. -/
  | andnoth (o : ImmOps)
  /-- `orh`: 44 R275. -/
  | orh (o : ImmOps)
  /-- `xorh`: 44 R277. -/
  | xorh (o : ImmOps)
  /-- `pfam`: 42 R212. -/
  | pfam (dpc : BitVec 4) (o : FpOps)
  /-- `pfmam`: 42 R212. -/
  | pfmam (dpc : BitVec 4) (o : FpOps)
  /-- `pfsm`: 42 R212. -/
  | pfsm (dpc : BitVec 4) (o : FpOps)
  /-- `pfmsm`: 42 R212. -/
  | pfmsm (dpc : BitVec 4) (o : FpOps)
  /-- `fmul`: 41 R175. -/
  | fmul (o : FpOps)
  /-- `pfmul`: 41 R175. -/
  | pfmul (o : FpOps)
  /-- `fmlow.dd`: 41 R178. -/
  | fmlow (o : FpOps)
  /-- `frcp`: 41 R180. -/
  | frcp (o : FpOps)
  /-- `frsqr`: 41 R181. -/
  | frsqr (o : FpOps)
  /-- `pfmul3.dd`: 41 R176. -/
  | pfmul3 (p : Bool) (o : FpOps)
  /-- `fadd`: 41 R172. -/
  | fadd (o : FpOps)
  /-- `pfadd`: 41 R172. -/
  | pfadd (o : FpOps)
  /-- `fsub`: 41 R173. -/
  | fsub (o : FpOps)
  /-- `pfsub`: 41 R173. -/
  | pfsub (o : FpOps)
  /-- `fix`: 41 R184. -/
  | fix (o : FpOps)
  /-- `pfix`: 41 R184. -/
  | pfix (o : FpOps)
  /-- `famov`: 41 R186. -/
  | famov (o : FpOps)
  /-- `pfamov`: 41 R186. -/
  | pfamov (o : FpOps)
  /-- `pfgt`: 41 R189. -/
  | pfgt (o : FpOps)
  /-- `pfle`: 41 R189. -/
  | pfle (o : FpOps)
  /-- `pfeq`: 41 R189. -/
  | pfeq (o : FpOps)
  /-- `ftrunc`: 41 R185. -/
  | ftrunc (o : FpOps)
  /-- `pftrunc`: 41 R185. -/
  | pftrunc (o : FpOps)
  /-- `fxfr`: 43 R245. -/
  | fxfr (o : FpOps)
  /-- `fiadd`: 43 R232. -/
  | fiadd (o : FpOps)
  /-- `pfiadd`: 43 R232. -/
  | pfiadd (o : FpOps)
  /-- `fisub`: 43 R233. -/
  | fisub (o : FpOps)
  /-- `pfisub`: 43 R233. -/
  | pfisub (o : FpOps)
  /-- `faddp`: 43 R236. -/
  | faddp (o : FpOps)
  /-- `pfaddp`: 43 R236. -/
  | pfaddp (o : FpOps)
  /-- `faddz`: 43 R237. -/
  | faddz (o : FpOps)
  /-- `pfaddz`: 43 R237. -/
  | pfaddz (o : FpOps)
  /-- `fzchkl`: 43 R241. -/
  | fzchkl (o : FpOps)
  /-- `pfzchkl`: 43 R241. -/
  | pfzchkl (o : FpOps)
  /-- `form`: 43 R238. -/
  | form (o : FpOps)
  /-- `pform`: 43 R238. -/
  | pform (o : FpOps)
  /-- `fzchks`: 43 R240. -/
  | fzchks (o : FpOps)
  /-- `pfzchks`: 43 R240. -/
  | pfzchks (o : FpOps)
  /-- `lock`: 47 R352. -/
  | lock
  /-- `calli`: 47 R347. -/
  | calli (src1 : Reg)
  /-- `intovr`: 47 R351. -/
  | intovr
  /-- `unlock`: 47 R352. -/
  | unlock
  deriving DecidableEq, Repr

end Sys2Proof
end

