-- ==== Sys2Proof/WellFormed.lean ====
section
/-! DEFINITION. The instructions an encoding admits: where the immediate's low bits carry the size code, they
must carry the code of the instruction (spec/46_load_store.md R311), and pfgt and pfle must carry the R bit
that tells them apart (spec/30_encoding.md R117). Every other field takes every value. -/

namespace Sys2Proof

/-- Bit 0 of a 16-bit displacement is the size code of ld.s, st.s (0) and ld.l, st.l (1). -/
def halfCode (imm : BitVec 16) : Bool := !imm.getLsbD 0

/-- Bit 0 set: the 4-byte code of ld and st. -/
def wordCode (imm : BitVec 16) : Bool := imm.getLsbD 0

/-- Bits 2:1 = 01 or 11: the 4-byte code of fld, fst and pfld. -/
def singleCode (imm : BitVec 16) : Bool := imm.getLsbD 1

/-- Bits 2:1 = 00: the 8-byte code. -/
def doubleCode (imm : BitVec 16) : Bool := !imm.getLsbD 2 && !imm.getLsbD 1

/-- Bits 2:1 = 10: the 16-byte code. -/
def quadCode (imm : BitVec 16) : Bool := imm.getLsbD 2 && !imm.getLsbD 1

/-- The instruction's own fields agree with the constructor it stands under. -/
def Instr.wellFormed : Instr → Bool
  | .ldsImm o => halfCode o.imm
  | .ldlImm o => wordCode o.imm
  | .sts o => halfCode o.off
  | .stl o => wordCode o.off
  | .flddImm o => doubleCode o.imm
  | .fldlImm o => singleCode o.imm
  | .fldqImm o => quadCode o.imm
  | .fstdImm o => doubleCode o.imm
  | .fstlImm o => singleCode o.imm
  | .fstqImm o => quadCode o.imm
  | .pflddImm o => doubleCode o.imm
  | .pfldlImm o => singleCode o.imm
  | .pfgt o => !o.r
  | .pfle o => o.r
  | _ => true

end Sys2Proof
end

