-- ==== Sys2Proof/Decode.lean ====
section
/-! DEFINITION. The decoder, total on every 32-bit word, and after it the encoder, both from the encoding
tables of spec/30_encoding.md (R111 to R118). A word the decoder rejects, by a name, is one the core answers
with the instruction trap (R112, R120). -/

namespace Sys2Proof

/-- Why a word is no instruction. Each is a slot that R112 maps to the unrecognised handler. -/
inductive DecodeError where
  /-- A primary opcode R116 leaves unassigned. -/
  | unassignedPrimary
  /-- An extended opcode of the FP escape that R117 does not list. -/
  | unassignedFp
  /-- An extended opcode of the core escape that R118 leaves unassigned. -/
  | unassignedEsc
  /-- pfld with the 16-byte size code (R120, 46 R327). -/
  | pfldQuad
  deriving DecidableEq, Repr

/-- The primary opcode, bits 31:26 (R111). -/
def opOf (w : Word) : BitVec 6 := w.extractLsb' 26 6
/-- The src2 field, bits 25:21 (R113); the control register index of ld.c and st.c. -/
def src2Of (w : Word) : Reg := w.extractLsb' 21 5
/-- The dest field, bits 20:16; offh in the SPLIT formats. -/
def destOf (w : Word) : Reg := w.extractLsb' 16 5
/-- The src1 field, bits 15:11; imm5 in the SPLIT5 format. -/
def src1Of (w : Word) : Reg := w.extractLsb' 11 5
/-- Bits 10:0: offl in the SPLIT formats. -/
def low11Of (w : Word) : BitVec 11 := w.extractLsb' 0 11
/-- imm16, bits 15:0. -/
def imm16Of (w : Word) : BitVec 16 := w.extractLsb' 0 16
/-- The split 16-bit offset, `offh ++ offl` (R115). -/
def splitOffOf (w : Word) : BitVec 16 := destOf w ++ low11Of w
/-- lbroff, bits 25:0. -/
def lbroffOf (w : Word) : BitVec 26 := w.extractLsb' 0 26
/-- The P bit (R114). -/
def pOf (w : Word) : Bool := w.getLsbD 10
/-- The D bit (R114). -/
def dOf (w : Word) : Bool := w.getLsbD 9
/-- The S bit (R114). -/
def sOf (w : Word) : Bool := w.getLsbD 8
/-- The R bit (R114). -/
def rOf (w : Word) : Bool := w.getLsbD 7
/-- fop, bits 6:0 (R111). -/
def fopOf (w : Word) : BitVec 7 := w.extractLsb' 0 7
/-- DPC, bits 3:0 of fop (42 R210). -/
def dpcOf (w : Word) : BitVec 4 := w.extractLsb' 0 4
/-- cop, bits 2:0 (R111). -/
def copOf (w : Word) : BitVec 3 := w.extractLsb' 0 3

/-- The fields of a REG word. -/
def regOps (w : Word) : RegOps := ⟨src2Of w, destOf w, src1Of w⟩
/-- The fields of an IMM word. -/
def immOps (w : Word) : ImmOps := ⟨src2Of w, destOf w, imm16Of w⟩
/-- The fields of a SPLIT word. -/
def splitOps (w : Word) : SplitOps := ⟨src2Of w, src1Of w, splitOffOf w⟩
/-- The fields of a SPLIT5 word. -/
def split5Ops (w : Word) : Split5Ops := ⟨src2Of w, src1Of w, splitOffOf w⟩
/-- The fields of a REG word of fld, fst or pfld. -/
def fregOps (w : Word) : FRegOps := ⟨src2Of w, destOf w, src1Of w, w.getLsbD 0⟩
/-- The fields of an FP word. -/
def fpOps (w : Word) : FpOps := ⟨src1Of w, src2Of w, destOf w, dOf w, sOf w, rOf w⟩

/-- The core escape, op = 0x13, by cop (R118). -/
def decodeEsc (w : Word) : Except DecodeError Instr :=
  match copOf w with
  | 1#3 => .ok .lock
  | 2#3 => .ok (.calli (src1Of w))
  | 4#3 => .ok .intovr
  | 7#3 => .ok .unlock
  | _ => .error .unassignedEsc

/-- The dual-operation words, fop[6:5] = 00: fop[4] tells add from subtract and P tells pfam from pfmam
(R117). -/
def decodeDual (w : Word) : Instr :=
  match w.getLsbD 4, pOf w with
  | false, true => .pfam (dpcOf w) (fpOps w)
  | false, false => .pfmam (dpcOf w) (fpOps w)
  | true, true => .pfsm (dpcOf w) (fpOps w)
  | true, false => .pfmsm (dpcOf w) (fpOps w)

/-- The FP escape words with fop[6:5] not 00, by fop (R117). -/
def decodeFpSingle (w : Word) : Except DecodeError Instr :=
  match fopOf w with
  | 0x20#7 => if pOf w then .ok (.pfmul (fpOps w)) else .ok (.fmul (fpOps w))
  | 0x21#7 => .ok (.fmlow (fpOps w))
  | 0x22#7 => .ok (.frcp (fpOps w))
  | 0x23#7 => .ok (.frsqr (fpOps w))
  | 0x24#7 => .ok (.pfmul3 (pOf w) (fpOps w))
  | 0x30#7 => if pOf w then .ok (.pfadd (fpOps w)) else .ok (.fadd (fpOps w))
  | 0x31#7 => if pOf w then .ok (.pfsub (fpOps w)) else .ok (.fsub (fpOps w))
  | 0x32#7 => if pOf w then .ok (.pfix (fpOps w)) else .ok (.fix (fpOps w))
  | 0x33#7 => if pOf w then .ok (.pfamov (fpOps w)) else .ok (.famov (fpOps w))
  | 0x34#7 => if rOf w then .ok (.pfle (fpOps w)) else .ok (.pfgt (fpOps w))
  | 0x35#7 => .ok (.pfeq (fpOps w))
  | 0x3A#7 => if pOf w then .ok (.pftrunc (fpOps w)) else .ok (.ftrunc (fpOps w))
  | 0x40#7 => .ok (.fxfr (fpOps w))
  | 0x49#7 => if pOf w then .ok (.pfiadd (fpOps w)) else .ok (.fiadd (fpOps w))
  | 0x4D#7 => if pOf w then .ok (.pfisub (fpOps w)) else .ok (.fisub (fpOps w))
  | 0x50#7 => if pOf w then .ok (.pfaddp (fpOps w)) else .ok (.faddp (fpOps w))
  | 0x51#7 => if pOf w then .ok (.pfaddz (fpOps w)) else .ok (.faddz (fpOps w))
  | 0x57#7 => if pOf w then .ok (.pfzchkl (fpOps w)) else .ok (.fzchkl (fpOps w))
  | 0x5A#7 => if pOf w then .ok (.pform (fpOps w)) else .ok (.form (fpOps w))
  | 0x5F#7 => if pOf w then .ok (.pfzchks (fpOps w)) else .ok (.fzchks (fpOps w))
  | _ => .error .unassignedFp

/-- The FP escape, op = 0x12, by fop (R117). -/
def decodeFp (w : Word) : Except DecodeError Instr :=
  if w.extractLsb' 5 2 = 0#2 then .ok (decodeDual w) else decodeFpSingle w

/-- The decoder (R111, R112, R116): it reads the word and no mode bit (40 R152). -/
def decode (w : Word) : Except DecodeError Instr :=
  match opOf w with
  | 0x00#6 => .ok (.ldbReg (regOps w))
  | 0x01#6 => .ok (.ldbImm (immOps w))
  | 0x02#6 => .ok (.ixfr ⟨destOf w, src1Of w⟩)
  | 0x03#6 => .ok (.stb (splitOps w))
  | 0x04#6 => if w.getLsbD 0 then .ok (.ldlReg (regOps w)) else .ok (.ldsReg (regOps w))
  | 0x05#6 => if w.getLsbD 0 then .ok (.ldlImm (immOps w)) else .ok (.ldsImm (immOps w))
  | 0x07#6 => if w.getLsbD 0 then .ok (.stl (splitOps w)) else .ok (.sts (splitOps w))
  | 0x08#6 =>
    if w.getLsbD 1 then .ok (.fldlReg (fregOps w))
    else if w.getLsbD 2 then .ok (.fldqReg (fregOps w))
    else .ok (.flddReg (fregOps w))
  | 0x09#6 =>
    if w.getLsbD 1 then .ok (.fldlImm (immOps w))
    else if w.getLsbD 2 then .ok (.fldqImm (immOps w))
    else .ok (.flddImm (immOps w))
  | 0x0A#6 =>
    if w.getLsbD 1 then .ok (.fstlReg (fregOps w))
    else if w.getLsbD 2 then .ok (.fstqReg (fregOps w))
    else .ok (.fstdReg (fregOps w))
  | 0x0B#6 =>
    if w.getLsbD 1 then .ok (.fstlImm (immOps w))
    else if w.getLsbD 2 then .ok (.fstqImm (immOps w))
    else .ok (.fstdImm (immOps w))
  | 0x0C#6 => .ok (.ldc ⟨src2Of w, destOf w⟩)
  | 0x0D#6 => .ok (.flush ⟨src2Of w, imm16Of w⟩)
  | 0x0E#6 => .ok (.stc ⟨src2Of w, src1Of w⟩)
  | 0x0F#6 => .ok (.pstd (immOps w))
  | 0x10#6 => .ok (.bri (src1Of w))
  | 0x11#6 => .ok (.trap (regOps w))
  | 0x12#6 => decodeFp w
  | 0x13#6 => decodeEsc w
  | 0x14#6 => .ok (.btneReg (splitOps w))
  | 0x15#6 => .ok (.btneImm (split5Ops w))
  | 0x16#6 => .ok (.bteReg (splitOps w))
  | 0x17#6 => .ok (.bteImm (split5Ops w))
  | 0x18#6 =>
    if w.getLsbD 1 then .ok (.pfldlReg (fregOps w))
    else if w.getLsbD 2 then .error .pfldQuad
    else .ok (.pflddReg (fregOps w))
  | 0x19#6 =>
    if w.getLsbD 1 then .ok (.pfldlImm (immOps w))
    else if w.getLsbD 2 then .error .pfldQuad
    else .ok (.pflddImm (immOps w))
  | 0x1A#6 => .ok (.br (lbroffOf w))
  | 0x1B#6 => .ok (.call (lbroffOf w))
  | 0x1C#6 => .ok (.bc (lbroffOf w))
  | 0x1D#6 => .ok (.bct (lbroffOf w))
  | 0x1E#6 => .ok (.bnc (lbroffOf w))
  | 0x1F#6 => .ok (.bnct (lbroffOf w))
  | 0x20#6 => .ok (.adduReg (regOps w))
  | 0x21#6 => .ok (.adduImm (immOps w))
  | 0x22#6 => .ok (.subuReg (regOps w))
  | 0x23#6 => .ok (.subuImm (immOps w))
  | 0x24#6 => .ok (.addsReg (regOps w))
  | 0x25#6 => .ok (.addsImm (immOps w))
  | 0x26#6 => .ok (.subsReg (regOps w))
  | 0x27#6 => .ok (.subsImm (immOps w))
  | 0x28#6 => .ok (.shlReg (regOps w))
  | 0x29#6 => .ok (.shlImm (immOps w))
  | 0x2A#6 => .ok (.shrReg (regOps w))
  | 0x2B#6 => .ok (.shrImm (immOps w))
  | 0x2C#6 => .ok (.shrd (regOps w))
  | 0x2D#6 => .ok (.bla (splitOps w))
  | 0x2E#6 => .ok (.shraReg (regOps w))
  | 0x2F#6 => .ok (.shraImm (immOps w))
  | 0x30#6 => .ok (.andReg (regOps w))
  | 0x31#6 => .ok (.andImm (immOps w))
  | 0x33#6 => .ok (.andh (immOps w))
  | 0x34#6 => .ok (.andnotReg (regOps w))
  | 0x35#6 => .ok (.andnotImm (immOps w))
  | 0x37#6 => .ok (.andnoth (immOps w))
  | 0x38#6 => .ok (.orReg (regOps w))
  | 0x39#6 => .ok (.orImm (immOps w))
  | 0x3B#6 => .ok (.orh (immOps w))
  | 0x3C#6 => .ok (.xorReg (regOps w))
  | 0x3D#6 => .ok (.xorImm (immOps w))
  | 0x3F#6 => .ok (.xorh (immOps w))
  | _ => .error .unassignedPrimary

/-- The word of a format that has the three register fields (R113). -/
def asm (op : BitVec 6) (src2 dest src1 : Reg) (low : BitVec 11) : Word :=
  op ++ src2 ++ dest ++ src1 ++ low
/-- A REG word. -/
def regWord (op : BitVec 6) (o : RegOps) (low : BitVec 11) : Word := asm op o.src2 o.dest o.src1 low
/-- An IMM word. -/
def immWord (op : BitVec 6) (o : ImmOps) : Word := op ++ o.src2 ++ o.dest ++ o.imm
/-- A SPLIT or SPLIT5 word: `x` stands in the src1 field. -/
def splitWord (op : BitVec 6) (src2 : Reg) (x : BitVec 5) (off : BitVec 16) : Word :=
  asm op src2 (off.extractLsb' 11 5) x (off.extractLsb' 0 11)
/-- A REG word of fld, fst or pfld, with its size code in bits 2:1 (46 R311). -/
def fregWord (op : BitVec 6) (o : FRegOps) (size : BitVec 2) : Word :=
  asm op o.src2 o.dest o.src1 (0#8 ++ size ++ BitVec.ofBool o.inc)
/-- An FP word: fop is `hi ++ lo`. -/
def fpWord (hi : BitVec 3) (lo : BitVec 4) (p : Bool) (o : FpOps) : Word :=
  asm 0x12#6 o.src2 o.dest o.src1
    (BitVec.ofBool p ++ BitVec.ofBool o.d ++ BitVec.ofBool o.s ++ BitVec.ofBool o.r ++ hi ++ lo)

/-- The word of an instruction, ignored bits zero; a compare, which is always pipelined, with P = 1
(log 32). -/
def encode : Instr → Word
  | .ldbReg o => regWord 0x00#6 o 0x000#11
  | .ldbImm o => immWord 0x01#6 o
  | .ixfr o => asm 0x02#6 0#5 o.dest o.src1 0#11
  | .stb o => splitWord 0x03#6 o.src2 o.src1 o.off
  | .ldsReg o => regWord 0x04#6 o 0x000#11
  | .ldlReg o => regWord 0x04#6 o 0x001#11
  | .ldsImm o => immWord 0x05#6 o
  | .ldlImm o => immWord 0x05#6 o
  | .sts o => splitWord 0x07#6 o.src2 o.src1 o.off
  | .stl o => splitWord 0x07#6 o.src2 o.src1 o.off
  | .flddReg o => fregWord 0x08#6 o 0b00#2
  | .fldlReg o => fregWord 0x08#6 o 0b01#2
  | .fldqReg o => fregWord 0x08#6 o 0b10#2
  | .flddImm o => immWord 0x09#6 o
  | .fldlImm o => immWord 0x09#6 o
  | .fldqImm o => immWord 0x09#6 o
  | .fstdReg o => fregWord 0x0A#6 o 0b00#2
  | .fstlReg o => fregWord 0x0A#6 o 0b01#2
  | .fstqReg o => fregWord 0x0A#6 o 0b10#2
  | .fstdImm o => immWord 0x0B#6 o
  | .fstlImm o => immWord 0x0B#6 o
  | .fstqImm o => immWord 0x0B#6 o
  | .ldc o => asm 0x0C#6 o.creg o.dest 0#5 0#11
  | .flush o => immWord 0x0D#6 ⟨o.src2, 0#5, o.imm⟩
  | .stc o => asm 0x0E#6 o.creg 0#5 o.src1 0#11
  | .pstd o => immWord 0x0F#6 o
  | .bri src1 => asm 0x10#6 0#5 0#5 src1 0#11
  | .trap o => regWord 0x11#6 o 0x000#11
  | .btneReg o => splitWord 0x14#6 o.src2 o.src1 o.off
  | .btneImm o => splitWord 0x15#6 o.src2 o.imm5 o.off
  | .bteReg o => splitWord 0x16#6 o.src2 o.src1 o.off
  | .bteImm o => splitWord 0x17#6 o.src2 o.imm5 o.off
  | .pflddReg o => fregWord 0x18#6 o 0b00#2
  | .pfldlReg o => fregWord 0x18#6 o 0b01#2
  | .pflddImm o => immWord 0x19#6 o
  | .pfldlImm o => immWord 0x19#6 o
  | .br off => 0x1A#6 ++ off
  | .call off => 0x1B#6 ++ off
  | .bc off => 0x1C#6 ++ off
  | .bct off => 0x1D#6 ++ off
  | .bnc off => 0x1E#6 ++ off
  | .bnct off => 0x1F#6 ++ off
  | .adduReg o => regWord 0x20#6 o 0x000#11
  | .adduImm o => immWord 0x21#6 o
  | .subuReg o => regWord 0x22#6 o 0x000#11
  | .subuImm o => immWord 0x23#6 o
  | .addsReg o => regWord 0x24#6 o 0x000#11
  | .addsImm o => immWord 0x25#6 o
  | .subsReg o => regWord 0x26#6 o 0x000#11
  | .subsImm o => immWord 0x27#6 o
  | .shlReg o => regWord 0x28#6 o 0x000#11
  | .shlImm o => immWord 0x29#6 o
  | .shrReg o => regWord 0x2A#6 o 0x000#11
  | .shrImm o => immWord 0x2B#6 o
  | .shraReg o => regWord 0x2E#6 o 0x000#11
  | .shraImm o => immWord 0x2F#6 o
  | .andReg o => regWord 0x30#6 o 0x000#11
  | .andImm o => immWord 0x31#6 o
  | .andnotReg o => regWord 0x34#6 o 0x000#11
  | .andnotImm o => immWord 0x35#6 o
  | .orReg o => regWord 0x38#6 o 0x000#11
  | .orImm o => immWord 0x39#6 o
  | .xorReg o => regWord 0x3C#6 o 0x000#11
  | .xorImm o => immWord 0x3D#6 o
  | .shrd o => regWord 0x2C#6 o 0x000#11
  | .bla o => splitWord 0x2D#6 o.src2 o.src1 o.off
  | .andh o => immWord 0x33#6 o
  | .andnoth o => immWord 0x37#6 o
  | .orh o => immWord 0x3B#6 o
  | .xorh o => immWord 0x3F#6 o
  | .pfam dpc o => fpWord 0b000#3 dpc true o
  | .pfmam dpc o => fpWord 0b000#3 dpc false o
  | .pfsm dpc o => fpWord 0b001#3 dpc true o
  | .pfmsm dpc o => fpWord 0b001#3 dpc false o
  | .fmul o => fpWord 0b010#3 0x0#4 false o
  | .pfmul o => fpWord 0b010#3 0x0#4 true o
  | .fmlow o => fpWord 0b010#3 0x1#4 false o
  | .frcp o => fpWord 0b010#3 0x2#4 false o
  | .frsqr o => fpWord 0b010#3 0x3#4 false o
  | .pfmul3 p o => fpWord 0b010#3 0x4#4 p o
  | .fadd o => fpWord 0b011#3 0x0#4 false o
  | .pfadd o => fpWord 0b011#3 0x0#4 true o
  | .fsub o => fpWord 0b011#3 0x1#4 false o
  | .pfsub o => fpWord 0b011#3 0x1#4 true o
  | .fix o => fpWord 0b011#3 0x2#4 false o
  | .pfix o => fpWord 0b011#3 0x2#4 true o
  | .famov o => fpWord 0b011#3 0x3#4 false o
  | .pfamov o => fpWord 0b011#3 0x3#4 true o
  | .pfgt o => fpWord 0b011#3 0x4#4 true o
  | .pfle o => fpWord 0b011#3 0x4#4 true o
  | .pfeq o => fpWord 0b011#3 0x5#4 true o
  | .ftrunc o => fpWord 0b011#3 0xA#4 false o
  | .pftrunc o => fpWord 0b011#3 0xA#4 true o
  | .fxfr o => fpWord 0b100#3 0x0#4 false o
  | .fiadd o => fpWord 0b100#3 0x9#4 false o
  | .pfiadd o => fpWord 0b100#3 0x9#4 true o
  | .fisub o => fpWord 0b100#3 0xD#4 false o
  | .pfisub o => fpWord 0b100#3 0xD#4 true o
  | .faddp o => fpWord 0b101#3 0x0#4 false o
  | .pfaddp o => fpWord 0b101#3 0x0#4 true o
  | .faddz o => fpWord 0b101#3 0x1#4 false o
  | .pfaddz o => fpWord 0b101#3 0x1#4 true o
  | .fzchkl o => fpWord 0b101#3 0x7#4 false o
  | .pfzchkl o => fpWord 0b101#3 0x7#4 true o
  | .form o => fpWord 0b101#3 0xA#4 false o
  | .pform o => fpWord 0b101#3 0xA#4 true o
  | .fzchks o => fpWord 0b101#3 0xF#4 false o
  | .pfzchks o => fpWord 0b101#3 0xF#4 true o
  | .lock => asm 0x13#6 0#5 0#5 0#5 0x001#11
  | .calli src1 => asm 0x13#6 0#5 0#5 src1 0x002#11
  | .intovr => asm 0x13#6 0#5 0#5 0#5 0x004#11
  | .unlock => asm 0x13#6 0#5 0#5 0#5 0x007#11

/-- The instruction the decoder reads from a table row's bits. An instruction is one 32-bit word (R110),
stored little-endian (20 R64), so the table's numbering is the word's own. -/
def decodeTableWord (nbits w : Nat) : Option Instr :=
  match decode (BitVec.ofNat 32 (w % 2 ^ nbits)) with
  | .ok i => some i
  | .error _ => none

end Sys2Proof
end

