-- ==== Sys2Proof/Machine/Bits.lean ====
section
/-! DEFINITION. Bits and fields of a 32-bit register, and the bytes of a value (spec/00_scope.md R8). -/

namespace Sys2Proof.Machine

/-- `w` with bit `i` set to `b`. -/
def setBit (w : Word) (i : Nat) (b : Bool) : Word :=
  if b then w ||| (1#32 <<< i) else w &&& ~~~(1#32 <<< i)

/-- `w` with the field of `len` bits from bit `lo` up replaced by `v`. -/
def setField (w : Word) (lo len : Nat) (v : BitVec len) : Word :=
  (w &&& ~~~((BitVec.allOnes len).setWidth 32 <<< lo)) ||| (v.setWidth 32 <<< lo)

/-- The bits of `new` where `mask` is 1, and of `old` elsewhere. -/
def mergeBits (mask new old : Word) : Word := (new &&& mask) ||| (old &&& ~~~mask)

/-- `a` with its low bits cleared, for a power of two `n`: the multiple of `n` at or below it. -/
def alignDown (a : Word) (n : Nat) : Word := a &&& ~~~(BitVec.ofNat 32 (n - 1))

/-- The low word of a pair. -/
def lowWord (d : DWord) : Word := d.extractLsb' 0 32

/-- The high word of a pair. -/
def highWord (d : DWord) : Word := d.extractLsb' 32 32

/-- Byte `i` of a value: bits 8i+7 to 8i. -/
def byteOf {w : Nat} (v : BitVec w) (i : Nat) : Byte := v.extractLsb' (8 * i) 8

end Sys2Proof.Machine
end

