-- ==== Sys2Proof/Config.lean ====
section
/-! DEFINITION. What an implementation fixes (spec/00_scope.md R7) and the values the spec leaves open.
A constant declared without a body is a free value: nothing can be proved of it but that it exists. -/

namespace Sys2Proof

/-- The parameters of 00 R7 that instructions read. They are plain data of the state (log 31), so that a
statement about every state holds for every value of them; no step changes them. -/
structure Params where
  /-- P_TLB_SETS: page indexes of the TLB (D12). Open; the rules ask for a power of two. -/
  tlbSets : Nat
  /-- P_ICACHE_LINES: 64-bit lines of the instruction cache (D13). Open; a power of two. -/
  icacheLines : Nat
  /-- P_TLB_CROSS_HIT: a lookup consults the other direction's slot as well (C2). -/
  tlbCrossHit : Bool
  /-- P_ALIGN_CHECK: a misaligned data access traps (D16). -/
  alignCheck : Bool
  /-- P_SCALAR_FADD_ADVANCES: a scalar fadd or fsub also shifts the adder pipe (C3). -/
  scalarFaddAdvances : Bool
  /-- P_FP_TRAPS_ENABLED: frcp and frsqr signal the source exception (D21). -/
  fpTrapsEnabled : Bool
  /-- P_FZCHK_CLEARS_MERGE: fzchks and fzchkl zero MERGE (D42). -/
  fzchkClearsMerge : Bool
  deriving DecidableEq, Repr

namespace Config

/-- The values 00 R7 takes. The two sizes are open there: 64 and 512 are DESIGN CHOICE (log 5). -/
def defaultParams : Params where
  tlbSets := 64
  icacheLines := 512
  tlbCrossHit := false
  alignCheck := true
  scalarFaddAdvances := false
  fpTrapsEnabled := false
  fzchkClearsMerge := false

/-- P_TRAP_VECTOR: the one trap and reset address (00 R7, 60 R383). -/
def trapVector : Word := 0xFFFFFF00#32

/-- P_RESET_IREG(i): a fixed recognizable pattern OR'd with the register index (10 R12). The pattern
0x55AA5500 is PRESUMED (log 1). -/
def resetIreg (i : Nat) : Word := 0x55AA5500#32 ||| BitVec.ofNat 32 i

/-- The stepping field of P_EPSR_ID (10 R22), open: DESIGN CHOICE 0 (log 6). -/
def epsrStep : BitVec 5 := 0#5

/-- EPSR after reset: TYPE = 1, STEP, DCS = 1, every other bit 0 (70 R411). -/
def resetEpsr : Word := 0x00040001#32 ||| (epsrStep.setWidth 32 <<< 8)

/-- FIR after reset: unspecified (10 R24); DESIGN CHOICE 0 (log 2). -/
def resetFir : Word := 0#32

/-- What a byte of memory that nothing has written reads as: DESIGN CHOICE 0 (log 3). -/
def unwrittenByte : Byte := 0#8

/-- The free values: the n-th unspecified value of a run is the n-th of these (log 8). -/
opaque freeBits : Nat → DWord

/-- The operations of the arithmetic provider FPArith whose result an operand may leave open (41 R192). -/
inductive FpOp where
  | add
  | sub
  | mul
  | div
  | sqrt
  | widen
  | narrow
  deriving DecidableEq, Repr

/-- The provider's answer where 41 R192 leaves it open (NaN, subnormal operands, overflow, underflow): a
function of the operation, the precision (true for double), the rounding mode and the operands (log 7). -/
opaque fpOpen : FpOp → Bool → BitVec 2 → DWord → DWord → DWord

/-- The relations of the provider's compare (41 R189). -/
inductive FpRel where
  | gt
  | le
  | eq
  deriving DecidableEq, Repr

/-- The provider's compare where an operand is subnormal (41 R192): a function of the relation, the precision, the
rounding mode and the operands, so that compares under two rounding modes need not agree (log 7). -/
opaque fpCmpOpen : FpRel → Bool → BitVec 2 → DWord → DWord → Bool

/-- How many steps the mailbox that a message is posted into waits for its drain: any finite number (40 R141, 70 R430,
93 U21; log 23). -/
opaque drainDelay : Nat → Nat

/-- Of a RESET and an INTERRUPT drained together, whether the INTERRUPT acts last (log 23). -/
opaque interruptAfterReset : Nat → Bool

/-- Of a HALT and a RESUME drained together, whether the HALT acts last (log 23). -/
opaque haltAfterResume : Nat → Bool

/-- Where the register a dual operation writes out overlaps fsrc1, whether its K load sees the value written: the order of
42 R212 says so, the one of 40 R153 says otherwise (log 36). -/
opaque kLoadSeesWriteOut : Nat → Bool

end Config

end Sys2Proof
end

