-- ==== Sys2Proof/Machine/State.lean ====
section
/-! DEFINITION. The state of the machine (spec/10_state.md), its reasons to stop, and the state after reset
(spec/70_reset_and_hazards.md R411). -/

namespace Sys2Proof.Machine

/-- The slot of a floating-point pipe: a value and its precision tag (10 R30). -/
inductive Slot where
  /-- Tag SGL. -/
  | sgl (v : Word)
  /-- Tag DBL. -/
  | dbl (v : DWord)
  deriving DecidableEq, Repr

/-- A pipe of three slots: `s0` is the newest stage, `s2` the oldest (10 R30). -/
structure Pipe where
  s0 : Slot
  s1 : Slot
  s2 : Slot
  deriving DecidableEq, Repr

/-- The state of dual-instruction mode (10 R41). -/
inductive DimState where
  | none
  | temp
  | full
  deriving DecidableEq, Repr

/-- A valid TLB entry (10 R35): bits 31:12 of the virtual and of the physical address. -/
structure TlbEntry where
  vpage : BitVec 20
  pframe : BitVec 20
  deriving DecidableEq, Repr

/-- A valid line of the instruction cache (10 R36): bits 31:3 of the virtual address, and the pair. -/
structure ICacheLine where
  tag : BitVec 29
  data : DWord
  deriving DecidableEq, Repr

/-- The mailbox: one bit for each message the host can post (60 R396, R397). -/
structure Mailbox where
  reset : Bool
  kill : Bool
  interrupt : Bool
  debugBreak : Bool
  displayBlank : Bool
  videoBlank : Bool
  halt : Bool
  resume : Bool
  deriving DecidableEq, Repr

/-- The mailbox with nothing posted. -/
def Mailbox.empty : Mailbox := ⟨false, false, false, false, false, false, false, false⟩

/-- A sparse table by key: the keys rise strictly, and a key that is not listed is empty. -/
abbrev Table (α : Type) := List (Nat × α)

/-- Physical memory, in canonical form: addresses rise strictly, and no byte is listed that equals what an
unlisted address reads as. -/
abbrev Memory := List Host.Cell

/-- Everything the spec gives the machine. The last two fields are the model's own. -/
structure State where
  /-- r0 to r31 (R10). Read and written through `State.readReg` and `State.writeReg`. -/
  iregs : Vector Word 32
  /-- f0 to f31 (R13). -/
  fregs : Vector Word 32
  /-- The program counter (R16). -/
  pc : Word
  /-- Control register 0, the fault instruction register (R24). -/
  fir : Word
  /-- Control register 1 (R21). -/
  psr : Word
  /-- Control register 2 (R23). -/
  dirbase : Word
  /-- Control register 3 (R25). -/
  db : Word
  /-- Control register 4 (R26). -/
  fsr : Word
  /-- Control register 5 (R22). -/
  epsr : Word
  /-- FIR holds a trap's address that no ld.c has read (R24). -/
  firLatched : Bool
  /-- KI (R28). -/
  ki : DWord
  /-- KR (R28). -/
  kr : DWord
  /-- T (R28). -/
  t : DWord
  /-- MERGE (R29). -/
  merge : DWord
  /-- The adder pipe A (R30). -/
  pipeA : Pipe
  /-- The multiplier pipe M (R30, R31). -/
  pipeM : Pipe
  /-- The load pipe L (R30). -/
  pipeL : Pipe
  /-- The graphics pipe G (R30). -/
  pipeG : Slot
  /-- The TLB (R35), by 2 * set for a read slot and 2 * set + 1 for a write slot. -/
  tlb : Table TlbEntry
  /-- The instruction cache (R36), by line index. -/
  icache : Table ICacheLine
  /-- Flow word (R40): a trap has been raised in this step. -/
  trapPending : Bool
  /-- Flow word: the trap was raised by a delay-slot instruction. -/
  trapInDelaySlot : Bool
  /-- Flow word: the trap is the external interrupt. -/
  trapExternal : Bool
  /-- Flow word: an instruction wrote the program counter. -/
  pcUpdated : Bool
  /-- Flow word: a data access exited early. -/
  exitedEarly : Bool
  /-- Flow word: an instruction fetch faulted (20 R91). -/
  exitingIfetch : Bool
  /-- Flow word: the low half of this step's pair is DIM-capable. -/
  dimOp : Bool
  /-- Flow word: an external interrupt waits to be sampled (60 R390). -/
  extIntr : Bool
  /-- The state of dual-instruction mode (R41). -/
  dim : DimState
  /-- Trap snapshot (R42). -/
  snapDim : DimState
  /-- Trap snapshot. -/
  snapDimOp : Bool
  /-- Trap snapshot. -/
  snapCcValid : Bool
  /-- Trap snapshot. -/
  snapCc : Bool
  /-- The compare side channel holds a result (R43). -/
  ccValid : Bool
  /-- The raw compare result (R43). -/
  ccRaw : Bool
  /-- The host has halted the core (R44). -/
  halted : Bool
  /-- Messages posted and not yet drained (60 R396). -/
  mailbox : Mailbox
  /-- The model's own: how many steps pass before the posted messages are drained, a finite number and a free one (40 R141,
  70 R430; log 23). Read only while a message is posted. -/
  drainDelay : Nat
  /-- A KILL message has been drained (40 R165). -/
  killed : Bool
  /-- Physical memory behind the bus (20 R60). -/
  mem : Memory
  /-- The model's own: the parameters of 00 R7, constant in every run (log 31). -/
  par : Params
  /-- The model's own: how many free values have been drawn (log 8). -/
  freeCount : Nat
  deriving DecidableEq, Repr

/-- Why the machine stops with no next state. -/
inductive Fault where
  /-- Raised by `step` when the host's KILL has been drained: the run has ended (40 R165). Safe: no claim about
  a next state can rest on it (log 24). -/
  | killed
  deriving DecidableEq, Repr

/-- Why the model gives no meaning. -/
inductive Refusal where
  /-- Raised by `exec` for an instruction without a meaning. Safe. -/
  | notModelled (mnemonic : String)
  /-- Raised by the floating-point instructions for a 64-bit operand with an odd register number, or a 128-bit one
  whose number is no multiple of 4: undefined (10 R14, 93 U6). Safe (log 18). -/
  | unalignedFpOperand
  /-- Raised by the delayed branches when the word in their delay slot is a control transfer: undefined
  (47 R349, 93 U13). Safe (log 19). -/
  | controlTransferInDelaySlot
  /-- Raised by the delayed branches when the word in their delay slot is trap or intovr: undefined
  (47 R349, 93 U13). Safe (log 19). -/
  | trapInDelaySlot
  /-- Raised by a misaligned data access when P_ALIGN_CHECK is false: implementation-defined (20 R79, 93 U1).
  Safe (log 20). -/
  | misalignedUnchecked
  deriving DecidableEq, Repr

/-- What an instruction or a step answers. -/
abbrev Out := Host.Outcome State Fault Refusal

/-- Every slot (SGL, 0) (10 R34). -/
def Pipe.reset : Pipe := ⟨.sgl 0#32, .sgl 0#32, .sgl 0#32⟩

/-- The integer registers after reset: r0 is 0, the others hold the pattern of 10 R12 (log 1). -/
def resetIregs : Vector Word 32 :=
  #v[0#32, Config.resetIreg 1, Config.resetIreg 2, Config.resetIreg 3,
    Config.resetIreg 4, Config.resetIreg 5, Config.resetIreg 6, Config.resetIreg 7,
    Config.resetIreg 8, Config.resetIreg 9, Config.resetIreg 10, Config.resetIreg 11,
    Config.resetIreg 12, Config.resetIreg 13, Config.resetIreg 14, Config.resetIreg 15,
    Config.resetIreg 16, Config.resetIreg 17, Config.resetIreg 18, Config.resetIreg 19,
    Config.resetIreg 20, Config.resetIreg 21, Config.resetIreg 22, Config.resetIreg 23,
    Config.resetIreg 24, Config.resetIreg 25, Config.resetIreg 26, Config.resetIreg 27,
    Config.resetIreg 28, Config.resetIreg 29, Config.resetIreg 30, Config.resetIreg 31]

/-- The floating registers after reset (10 R15). -/
def resetFregs : Vector Word 32 :=
  #v[0#32, 0#32, 0#32, 0#32, 0#32, 0#32, 0#32, 0#32, 0#32, 0#32, 0#32, 0#32, 0#32, 0#32, 0#32, 0#32,
    0#32, 0#32, 0#32, 0#32, 0#32, 0#32, 0#32, 0#32, 0#32, 0#32, 0#32, 0#32, 0#32, 0#32, 0#32, 0#32]

/-- The machine right after power-on reset (70 R411), with nothing placed in memory. -/
def State.reset : State where
  iregs := resetIregs
  fregs := resetFregs
  pc := Config.trapVector
  fir := Config.resetFir
  psr := 0#32
  dirbase := 0#32
  db := 0#32
  fsr := 0#32
  epsr := Config.resetEpsr
  firLatched := false
  ki := 0#64
  kr := 0#64
  t := 0#64
  merge := 0#64
  pipeA := Pipe.reset
  pipeM := Pipe.reset
  pipeL := Pipe.reset
  pipeG := .sgl 0#32
  tlb := []
  icache := []
  trapPending := false
  trapInDelaySlot := false
  trapExternal := false
  pcUpdated := false
  exitedEarly := false
  exitingIfetch := false
  dimOp := false
  extIntr := false
  dim := .none
  snapDim := .none
  snapDimOp := false
  snapCcValid := false
  snapCc := false
  ccValid := false
  ccRaw := false
  halted := false
  mailbox := Mailbox.empty
  drainDelay := 0
  killed := false
  mem := []
  par := Config.defaultParams
  freeCount := 0

end Sys2Proof.Machine
end

