-- ==== Sys2Proof/Machine/Memory.lean ====
section
/-! DEFINITION. Physical memory and the sparse tables of the TLB and the instruction cache, in canonical form
(spec/20_memory.md R60 to R64). -/

namespace Sys2Proof.Machine

/-- The byte at a physical address; one that is not listed reads as `Config.unwrittenByte` (log 3). -/
def Memory.byte : Memory → Nat → Byte
  | [], _ => Config.unwrittenByte
  | (a, b) :: rest, x => if x = a then b else Memory.byte rest x

/-- Memory with the byte at `x` replaced, in canonical form. -/
def Memory.set : Memory → Nat → Byte → Memory
  | [], x, v => if v = Config.unwrittenByte then [] else [(x, v)]
  | (a, b) :: rest, x, v =>
    if x < a then
      if v = Config.unwrittenByte then (a, b) :: rest else (x, v) :: (a, b) :: rest
    else if x = a then
      if v = Config.unwrittenByte then rest else (x, v) :: rest
    else (a, b) :: Memory.set rest x v

/-- Every key of the table is greater than `x`. -/
def Table.above {α : Type} (x : Nat) : Table α → Bool
  | [] => true
  | (a, _) :: rest => decide (x < a) && Table.above x rest

/-- The keys of the table rise strictly. -/
def Table.sorted {α : Type} : Table α → Bool
  | [] => true
  | (a, _) :: rest => Table.above a rest && Table.sorted rest

/-- The canonical form of memory: addresses rise strictly and lie in the 32-bit space (R61), and no byte is listed
that an unlisted address reads as. -/
def Memory.wf (m : Memory) : Bool :=
  Table.sorted m && m.all fun c => decide (c.1 < 2 ^ 32) && decide (c.2 ≠ Config.unwrittenByte)

/-- The entry at a key. -/
def Table.lookup {α : Type} : Table α → Nat → Option α
  | [], _ => none
  | (a, v) :: rest, x => if x = a then some v else Table.lookup rest x

/-- The table with the entry at a key replaced. -/
def Table.insert {α : Type} : Table α → Nat → α → Table α
  | [], x, v => [(x, v)]
  | (a, b) :: rest, x, v =>
    if x < a then (x, v) :: (a, b) :: rest
    else if x = a then (x, v) :: rest
    else (a, b) :: Table.insert rest x v

/-- The table without the entry at a key. -/
def Table.erase {α : Type} : Table α → Nat → Table α
  | [], _ => []
  | (a, b) :: rest, x => if x = a then rest else (a, b) :: Table.erase rest x

/-- The address of byte `i` of an access of `n` bytes at `p`: `p + i` little-endian, `p + n - 1 - i` big-endian
(R63), modulo 2^32. -/
def byteAddr (be : Bool) (p : Word) (n i : Nat) : Nat :=
  (p + BitVec.ofNat 32 (if be then n - 1 - i else i)).toNat

/-- The low `k` bytes of an access of `n` bytes, as a value (R63). -/
def readBytes (m : Memory) (be : Bool) (p : Word) (n w : Nat) : Nat → BitVec w
  | 0 => 0#w
  | k + 1 => readBytes m be p n w k ||| ((m.byte (byteAddr be p n k)).setWidth w <<< (8 * k))

/-- Memory after writing the low `k` bytes of an access of `n` bytes (R63). -/
def writeBytes (m : Memory) (be : Bool) (p : Word) (n : Nat) {w : Nat} (v : BitVec w) : Nat → Memory
  | 0 => m
  | k + 1 => (writeBytes m be p n v k).set (byteAddr be p n k) (byteOf v k)

/-- Memory after writing those of the low `k` bytes of an 8-byte access whose mask bit is set; mask bit `i` stands
for the byte at `p + i`, which holds byte `i` of the value or, big-endian, byte `7 - i` (R78). -/
def writeMasked (m : Memory) (be : Bool) (p : Word) (v : DWord) (mask : BitVec 8) : Nat → Memory
  | 0 => m
  | k + 1 =>
    let m' := writeMasked m be p v mask k
    if mask.getLsbD k then
      m'.set (byteAddr false p 8 k) (byteOf v (if be then 7 - k else k))
    else m'

/-- BusRead_n: the value of `n` bytes at a physical address in a byte order (R60, R63). -/
def Memory.busRead (m : Memory) (be : Bool) (n : Nat) (p : Word) : BitVec (8 * n) :=
  readBytes m be p n (8 * n) n

/-- BusWrite_n: memory after a write of `n` bytes (R60, R63). -/
def Memory.busWrite (m : Memory) (be : Bool) (n : Nat) (p : Word) (v : BitVec (8 * n)) : Memory :=
  writeBytes m be p n v n

end Sys2Proof.Machine
end

