-- ==== Sys2Proof/Machine/Ops.lean ====
section
/-! DEFINITION. The named operations every instruction is written with: register and field access, raising,
taking and leaving a trap, translation, the data access and the fetch. -/

namespace Sys2Proof.Machine

/-- One operation after another: a stop of the first is a stop of both. -/
def andThen (o : Out) (f : State → Out) : Out :=
  match o with
  | .next s => f s
  | .fault r => .fault r
  | .refused r => .refused r

/-! ## Registers (10 R10 to R15) -/

/-- `r[i]`: r0 reads 0 (R10). -/
def State.readReg (s : State) (i : Reg) : Word :=
  if i = 0#5 then 0#32 else s.iregs[i.toNat]'i.isLt

/-- `r[i] <- v`: a write to r0 is discarded (R10). -/
def State.writeReg (s : State) (i : Reg) (v : Word) : State :=
  { s with iregs := if i = 0#5 then s.iregs else s.iregs.set i.toNat v i.isLt }

/-- `f[i]`: f0 and f1 read 0 (R13). -/
def State.readF (s : State) (i : Reg) : Word :=
  if i.toNat < 2 then 0#32 else s.fregs[i.toNat]'i.isLt

/-- `f[i] <- v`: a write to f0 or f1 is suppressed (R13). -/
def State.writeF (s : State) (i : Reg) (v : Word) : State :=
  { s with fregs := if i.toNat < 2 then s.fregs else s.fregs.set i.toNat v i.isLt }

/-- `fd[i]`, i even: the even lane is the low word (R14). -/
def State.readFd (s : State) (i : Reg) : DWord := s.readF (i + 1#5) ++ s.readF i

/-- `fd[i] <- v`, i even (R14). -/
def State.writeFd (s : State) (i : Reg) (v : DWord) : State :=
  (s.writeF i (lowWord v)).writeF (i + 1#5) (highWord v)

/-- `fq[i]`, i a multiple of 4 (R14). -/
def State.readFq (s : State) (i : Reg) : BitVec 128 := s.readFd (i + 2#5) ++ s.readFd i

/-- `fq[i] <- v`, i a multiple of 4: lane i+k receives bits 32k+31 to 32k (R14, 46 R322). -/
def State.writeFq (s : State) (i : Reg) (v : BitVec 128) : State :=
  (s.writeFd i (v.extractLsb' 0 64)).writeFd (i + 2#5) (v.extractLsb' 64 64)

/-! ## Fields of the control registers (10 R21 to R26) -/

/-- PSR.BR: the DB compare on data reads. -/
def State.psrBr (s : State) : Bool := s.psr.getLsbD 0
/-- PSR.BW: the DB compare on data writes. -/
def State.psrBw (s : State) : Bool := s.psr.getLsbD 1
/-- PSR.CC. -/
def State.cc (s : State) : Bool := s.psr.getLsbD 2
/-- PSR.LCC. -/
def State.lcc (s : State) : Bool := s.psr.getLsbD 3
/-- PSR.IM: external interrupts enabled. -/
def State.im (s : State) : Bool := s.psr.getLsbD 4
/-- PSR.PIM. -/
def State.pim (s : State) : Bool := s.psr.getLsbD 5
/-- PSR.U: user mode. -/
def State.user (s : State) : Bool := s.psr.getLsbD 6
/-- PSR.PU. -/
def State.pu (s : State) : Bool := s.psr.getLsbD 7
/-- PSR.SC, bits 21:17. -/
def State.sc (s : State) : BitVec 5 := s.psr.extractLsb' 17 5
/-- PSR.PS, bits 23:22. -/
def State.ps (s : State) : BitVec 2 := s.psr.extractLsb' 22 2
/-- PSR.PM, bits 31:24. -/
def State.pm (s : State) : BitVec 8 := s.psr.extractLsb' 24 8
/-- EPSR.WP. -/
def State.wp (s : State) : Bool := s.epsr.getLsbD 14
/-- EPSR.INT. -/
def State.intPin (s : State) : Bool := s.epsr.getLsbD 17
/-- EPSR.BE: big-endian data (C1). -/
def State.be (s : State) : Bool := s.epsr.getLsbD 23
/-- EPSR.OF. -/
def State.overflow (s : State) : Bool := s.epsr.getLsbD 24
/-- DIRBASE.ATE. -/
def State.ate (s : State) : Bool := s.dirbase.getLsbD 0
/-- DIRBASE.DTB. -/
def State.dtb (s : State) : BitVec 20 := s.dirbase.extractLsb' 12 20
/-- FSR.RM. -/
def State.rm (s : State) : BitVec 2 := s.fsr.extractLsb' 2 2
/-- FSR.FTE. -/
def State.fte (s : State) : Bool := s.fsr.getLsbD 5

/-- PSR.CC <- b. -/
def State.setCC (s : State) (b : Bool) : State := { s with psr := setBit s.psr 2 b }
/-- PSR.LCC <- b. -/
def State.setLCC (s : State) (b : Bool) : State := { s with psr := setBit s.psr 3 b }
/-- PSR.SC <- v. -/
def State.setSC (s : State) (v : BitVec 5) : State := { s with psr := setField s.psr 17 5 v }
/-- PSR.PM <- v. -/
def State.setPM (s : State) (v : BitVec 8) : State := { s with psr := setField s.psr 24 8 v }
/-- EPSR.INT <- b. -/
def State.setIntPin (s : State) (b : Bool) : State := { s with epsr := setBit s.epsr 17 b }
/-- EPSR.OF <- b. -/
def State.setOF (s : State) (b : Bool) : State := { s with epsr := setBit s.epsr 24 b }
/-- FSR.SE <- b. -/
def State.setSE (s : State) (b : Bool) : State := { s with fsr := setBit s.fsr 8 b }

/-! ## Free values (log 8) -/

/-- The next free value of the run. -/
def State.free (s : State) : DWord := Config.freeBits s.freeCount

/-- The state after a free value has been drawn. -/
def State.drawn (s : State) : State := { s with freeCount := s.freeCount + 1 }

/-! ## The program counter (00 R9, 47 R340) -/

/-- `pc <- target`: writes the program counter and sets `pc_updated`. -/
def State.jump (s : State) (target : Word) : State := { s with pc := target, pcUpdated := true }

/-- The program counter set without `pc_updated` (40 R150, 47 R341). -/
def State.atPc (s : State) (pc : Word) : State := { s with pc := pc }

/-! ## Raising, entering and leaving a trap (60 R370 to R386) -/

/-- The trap kinds (60 R370). -/
inductive TrapKind where
  | instruction
  | interrupt
  | instructionAccess
  | dataAccess
  | floating
  deriving DecidableEq, Repr

/-- The PSR bit of a kind: IT, IN, IAT, DAT, FT (60 R370). -/
def TrapKind.bit : TrapKind → Nat
  | .instruction => 8
  | .interrupt => 9
  | .instructionAccess => 10
  | .dataAccess => 11
  | .floating => 12

/-- `raise K` (60 R371): sets the PSR bit and `trap_pending`; the step loop enters the handler. -/
def State.raise (s : State) (k : TrapKind) : State :=
  { s with psr := setBit s.psr k.bit true, trapPending := true }

/-- One of IT, IN, IAT, DAT, FT is set (47 R348). -/
def State.anyTrapBit (s : State) : Bool :=
  s.psr.getLsbD 8 || s.psr.getLsbD 9 || s.psr.getLsbD 10 || s.psr.getLsbD 11 || s.psr.getLsbD 12

/-- The address trap entry saves in FIR (60 R380): the external case first, then the delay slot. -/
def State.faultAddress (s : State) (savepc : Word) : Word :=
  if s.trapExternal then (if s.pcUpdated then s.pc else savepc + 4#32)
  else if s.trapInDelaySlot then savepc + 4#32
  else savepc

/-- The PSR of trap entry (60 R380): PU <- U, PIM <- IM, U <- 0, IM <- 0; the trap bits stay. -/
def entryPsr (psr : Word) : Word :=
  setBit (setBit (setBit (setBit psr 7 (psr.getLsbD 6)) 5 (psr.getLsbD 4)) 6 false) 4 false

/-- TakeTrap(savepc) (60 R380, R381). -/
def State.takeTrap (s : State) (savepc : Word) : State :=
  { s with
    fir := s.faultAddress savepc
    firLatched := true
    psr := entryPsr s.psr
    snapDim := s.dim
    snapDimOp := s.dimOp
    snapCcValid := s.ccValid
    snapCc := s.ccRaw
    dim := .none
    dimOp := false
    ccValid := false
    pc := Config.trapVector
    trapPending := false
    trapInDelaySlot := false
    trapExternal := false
    pcUpdated := false }

/-- The PSR of trap exit (60 R386): U <- PU, IM <- PIM; IT, IN, IAT, DAT, FT, DS and DIM (bits 14:8) <- 0. -/
def exitPsr (psr : Word) : Word :=
  setField (setBit (setBit psr 6 (psr.getLsbD 7)) 4 (psr.getLsbD 5)) 8 7 0#7

/-- TrapExit() (60 R386). -/
def State.trapExit (s : State) : State :=
  { s with
    psr := exitPsr s.psr
    firLatched := false
    dim := s.snapDim
    dimOp := s.snapDimOp
    ccValid := s.snapCcValid
    ccRaw := s.snapCc }

/-- SampleInterrupt() (60 R392). -/
def State.sampleInterrupt (s : State) : State :=
  if s.extIntr then
    if s.im then
      { ((s.raise .interrupt).setIntPin true) with extIntr := false, trapExternal := true }
    else { s with extIntr := false }
  else s.setIntPin false

/-! ## Translation (20 R65 to R72) -/

/-- The set of a page in the TLB: the page number modulo P_TLB_SETS (R68). -/
def State.tlbSet (s : State) (va : Word) : Nat := (va.extractLsb' 12 20).toNat % s.par.tlbSets

/-- The key of a set's slot: even for reads, odd for writes (10 R35). -/
def tlbKey (set : Nat) (isWrite : Bool) : Nat := 2 * set + (if isWrite then 1 else 0)

/-- The frame a slot of the TLB holds for a page, if its entry is valid and matches. -/
def State.tlbProbe (s : State) (va : Word) (isWrite : Bool) : Option (BitVec 20) :=
  match s.tlb.lookup (tlbKey (s.tlbSet va) isWrite) with
  | some e => if e.vpage = va.extractLsb' 12 20 then some e.pframe else none
  | none => none

/-- The TLB lookup (R68): the slot of the access direction, and with P_TLB_CROSS_HIT the other one too. -/
def State.tlbLookup (s : State) (va : Word) (isWrite : Bool) : Option (BitVec 20) :=
  match s.tlbProbe va isWrite with
  | some f => some f
  | none => if s.par.tlbCrossHit then s.tlbProbe va (!isWrite) else none

/-- PhysRead32: a 4-byte little-endian bus read, never translated (R71). -/
def State.physRead32 (s : State) (p : Word) : Word := s.mem.busRead false 4 p

/-- PhysWrite32 (R71). -/
def State.physWrite32 (s : State) (p : Word) (v : Word) : State :=
  { s with mem := s.mem.busWrite false 4 p v }

/-- `check(e)` of the walk: the entry e violates the access (R70). -/
def State.entryViolates (s : State) (e : Word) (isData isWrite : Bool) : Bool :=
  !e.getLsbD 0
    || (isData && isWrite && !e.getLsbD 1 && (s.user || s.wp))
    || (s.user && !e.getLsbD 2)

/-- The address of the directory entry of a virtual address (R67, R70). -/
def State.pdeAddr (s : State) (va : Word) : Word :=
  s.dtb ++ (va.extractLsb' 22 10 ++ 0#2 : BitVec 12)

/-- The address of the table entry of a virtual address, from the directory entry (R70). -/
def pteAddr (pde va : Word) : Word :=
  pde.extractLsb' 12 20 ++ (va.extractLsb' 12 10 ++ 0#2 : BitVec 12)

/-- The physical address of a frame and a virtual address's offset (R67). -/
def physAddr (frame : BitVec 20) (va : Word) : Word := frame ++ va.extractLsb' 0 12

/-- The TLB with an entry for a page in the slot of a direction (R70). -/
def State.tlbFill (s : State) (va : Word) (isWrite : Bool) (frame : BitVec 20) : State :=
  { s with tlb := s.tlb.insert (tlbKey (s.tlbSet va) isWrite) ⟨va.extractLsb' 12 20, frame⟩ }

/-- The translator's fault: DAT for a data reference, IAT otherwise (R65). -/
def State.accessFault (s : State) (isData : Bool) : State :=
  s.raise (if isData then .dataAccess else .instructionAccess)

/-- The two-level walk of a TLB miss, in the order of R70: the state after it, and the physical address unless it
faulted. -/
def State.walk (s : State) (va : Word) (isData isWrite : Bool) : State × Option Word :=
  let pdeA := s.pdeAddr va
  let pde := s.physRead32 pdeA
  if s.entryViolates pde isData isWrite then (s.accessFault isData, none)
  else
    let pteA := pteAddr pde va
    let pte := s.physRead32 pteA
    if s.entryViolates pte isData isWrite then (s.accessFault isData, none)
    else
      let s1 := (s.physWrite32 pdeA (pde ||| 0x20#32)).physWrite32 pteA (pte ||| 0x20#32)
      if isData && isWrite && !pte.getLsbD 6 then (s1.accessFault isData, none)
      else
        let frame := pte.extractLsb' 12 20
        (s1.tlbFill va isWrite frame, some (physAddr frame va))

/-- `translate` with translation on: a TLB hit, or the walk (R68, R70). -/
def State.translate (s : State) (va : Word) (isData isWrite : Bool) : State × Option Word :=
  match s.tlbLookup va isWrite with
  | some frame => (s, some (physAddr frame va))
  | none => s.walk va isData isWrite

/-- The physical address of an access: the virtual one when DIRBASE.ATE = 0 (R66). -/
def State.physical (s : State) (va : Word) (isData isWrite : Bool) : State × Option Word :=
  if s.ate then s.translate va isData isWrite else (s, some va)

/-! ## The data access (20 R75 to R79) -/

/-- What comes of the checks of a data access. -/
inductive Access where
  /-- The bus access may be made, at this physical address. -/
  | go (s : State) (p : Word)
  /-- A fault was raised and `exited_early` set. -/
  | early (s : State)
  /-- The behaviour is implementation-defined. -/
  | refuse (r : Refusal)

/-- The data-access fault of the access layer: it sets `exited_early` (R75). -/
def State.exitEarly (s : State) : State := { (s.raise .dataAccess) with exitedEarly := true }

/-- The breakpoint compare of R77: on the translated address with its low bits cleared, against all of DB. -/
def State.breakpointHit (s : State) (n : Nat) (isWrite : Bool) (p : Word) : Bool :=
  (if isWrite then s.psrBw else s.psrBr) && decide (alignDown p n = s.db)

/-- The checks of a data access, in the order of R75 and R76: alignment, translation, breakpoint. -/
def State.access (s : State) (n : Nat) (addr : Word) (isWrite : Bool) : Access :=
  if addr.toNat % n ≠ 0 then
    if s.par.alignCheck then .early s.exitEarly else .refuse .misalignedUnchecked
  else
    match s.physical addr true isWrite with
    | (s', none) => .early { s' with exitedEarly := true }
    | (s', some p) => if s'.breakpointHit n isWrite p then .early s'.exitEarly else .go s' p

/-- MemRead (R75): `k` is what follows when the access did not exit early. -/
def State.load (s : State) (n : Nat) (addr : Word) (k : State → BitVec (8 * n) → Out) : Out :=
  match s.access n addr false with
  | .go s' p => k s' (s'.mem.busRead s'.be n p)
  | .early s' => .next s'
  | .refuse r => .refused r

/-- MemWrite (R76): `k` is what follows when the access did not exit early. -/
def State.store (s : State) (n : Nat) (addr : Word) (v : BitVec (8 * n)) (k : State → Out) : Out :=
  match s.access n addr true with
  | .go s' p => k { s' with mem := s'.mem.busWrite s'.be n p v }
  | .early s' => .next s'
  | .refuse r => .refused r

/-- MemWriteMasked (R78): one bulk write when the mask is all ones, else the masked bytes in ascending order. -/
def State.storeMasked (s : State) (addr : Word) (v : DWord) (mask : BitVec 8) (k : State → Out) : Out :=
  match s.access 8 addr true with
  | .go s' p =>
    k { s' with
        mem := if mask = 0xFF#8 then s'.mem.busWrite s'.be 8 p v else writeMasked s'.mem s'.be p v mask 8 }
  | .early s' => .next s'
  | .refuse r => .refused r

/-! ## Instruction fetch (20 R90 to R92) and maintenance (R96) -/

/-- The line of a virtual address in the instruction cache: bits 31:3 modulo P_ICACHE_LINES (R90). -/
def State.icacheIndex (s : State) (va : Word) : Nat := (va.extractLsb' 3 29).toNat % s.par.icacheLines

/-- The pair a valid line with a matching tag holds for a virtual address (R90). -/
def State.icacheHit (s : State) (va : Word) : Option DWord :=
  match s.icache.lookup (s.icacheIndex va) with
  | some l => if l.tag = va.extractLsb' 3 29 then some l.data else none
  | none => none

/-- The instruction cache with a line filled (R91). -/
def State.icacheFill (s : State) (va : Word) (pair : DWord) : State :=
  { s with icache := s.icache.insert (s.icacheIndex va) ⟨va.extractLsb' 3 29, pair⟩ }

/-- Refill (R91): translate, read the pair little-endian, fill the line; on a fault set `exiting_ifetch` and leave
the line (log 21). -/
def State.refill (s : State) (va : Word) : State × Option DWord :=
  match s.physical va false false with
  | (s', none) => ({ s' with exitingIfetch := true }, none)
  | (s', some p) =>
    let pair : DWord := s'.mem.busRead false 8 p
    (s'.icacheFill va pair, some pair)

/-- FetchPair: the aligned pair that holds `pc` (R90); a hit has no effect (R92). -/
def State.fetchPair (s : State) (pc : Word) : State × Option DWord :=
  let va := alignDown pc 8
  match s.icacheHit va with
  | some pair => (s, some pair)
  | none => s.refill va

/-- The word of a pair that `pc` selects (R90). -/
def selectWord (pc : Word) (pair : DWord) : Word := if pc.getLsbD 2 then highWord pair else lowWord pair

/-- Fetch(pc) (R90). -/
def State.fetch (s : State) (pc : Word) : State × Option Word :=
  match s.fetchPair pc with
  | (s', some pair) => (s', some (selectWord pc pair))
  | (s', none) => (s', none)

/-- Every TLB entry and every instruction-cache line invalid (R96). -/
def State.invalidate (s : State) : State := { s with tlb := [], icache := [] }

/-! ## Pipes (10 R30 to R33) -/

/-- Which slot is the last stage: slot 1 (`short`) or slot 2 (10 R31). -/
def Pipe.last (p : Pipe) (short : Bool) : Slot := if short then p.s1 else p.s2

/-- Shift and insert (10 R32): with last stage 1, slot 2 is neither read nor written. -/
def Pipe.push (p : Pipe) (short : Bool) (v : Slot) : Pipe :=
  if short then ⟨v, p.s0, p.s2⟩ else ⟨v, p.s0, p.s1⟩

/-- The register number cannot name a 64-bit operand (10 R14). -/
def oddPair (i : Reg) : Bool := i.getLsbD 0

/-- The register number cannot name a 128-bit operand (10 R14). -/
def oddQuad (i : Reg) : Bool := i.getLsbD 0 || i.getLsbD 1

/-- Writes a slot's value to a floating register by its tag (41 R171); a 64-bit write to an odd register is
undefined. -/
def State.writeSlot (s : State) (dest : Reg) : Slot → Out
  | .sgl v => .next (s.writeF dest v)
  | .dbl v => if oddPair dest then .refused .unalignedFpOperand else .next (s.writeFd dest v)

end Sys2Proof.Machine
end

