-- ==== Sys2Proof/Machine/FPArith.lean ====
section
/-! DEFINITION. The arithmetic provider FPArith (spec/41_fp_pipes.md R191, R192): IEEE-754 binary32 and binary64
under FSR.RM where IEEE-754 settles the result, and a free function of the operands (Config.fpOpen) where R192
leaves it to the provider: NaN, subnormal operands, overflow and underflow (log 7). -/

namespace Sys2Proof.Machine

/-- A binary format: the widths of its exponent and fraction fields. -/
structure Format where
  expBits : Nat
  fracBits : Nat
  deriving DecidableEq, Repr

/-- binary32, or binary64 when `dbl`. -/
def format (dbl : Bool) : Format := if dbl then ⟨11, 52⟩ else ⟨8, 23⟩

/-- The exponent bias. -/
def Format.bias (f : Format) : Nat := 2 ^ (f.expBits - 1) - 1

/-- The exponent field of infinities and NaNs. -/
def Format.expMax (f : Format) : Nat := 2 ^ f.expBits - 1

/-- What a bit pattern stands for. A finite number is (-1)^neg * m * 2^e. -/
inductive FpClass where
  | nan
  | inf (neg : Bool)
  | zero (neg : Bool)
  | subnormal (neg : Bool) (m : Nat) (e : Int)
  | normal (neg : Bool) (m : Nat) (e : Int)
  deriving DecidableEq, Repr

/-- The class of a bit pattern given as a number. -/
def Format.classify (f : Format) (x : Nat) : FpClass :=
  let frac := x % 2 ^ f.fracBits
  let exp := x / 2 ^ f.fracBits % 2 ^ f.expBits
  let neg := x.testBit (f.expBits + f.fracBits)
  if exp = f.expMax then if frac = 0 then .inf neg else .nan
  else if exp = 0 then
    if frac = 0 then .zero neg else .subnormal neg frac (1 - (f.bias : Int) - f.fracBits)
  else .normal neg (2 ^ f.fracBits + frac) ((exp : Int) - f.bias - f.fracBits)

/-- The bit pattern of a sign, an exponent field and a fraction field. -/
def Format.pack (f : Format) (neg : Bool) (exp frac : Nat) : Nat :=
  (if neg then 2 ^ (f.expBits + f.fracBits) else 0) + exp * 2 ^ f.fracBits + frac

/-- The bit pattern of a signed zero. -/
def Format.packZero (f : Format) (neg : Bool) : Nat := f.pack neg 0 0

/-- The bit pattern of a signed infinity. -/
def Format.packInf (f : Format) (neg : Bool) : Nat := f.pack neg f.expMax 0

/-- Whether dropping `rem` out of `2 ^ k` rounds the kept magnitude `q` up (10 R26: RM 0 nearest even, 1 toward
minus infinity, 2 toward plus infinity, 3 toward zero). -/
def roundsUp (rm : BitVec 2) (neg : Bool) (q rem k : Nat) : Bool :=
  if rem = 0 then false
  else if rm = 0#2 then decide (2 ^ k < 2 * rem) || (decide (2 * rem = 2 ^ k) && q % 2 == 1)
  else if rm = 1#2 then neg
  else if rm = 2#2 then !neg
  else false

/-- The magnitude `m / 2 ^ k` rounded to an integer. -/
def roundShift (rm : BitVec 2) (neg : Bool) (m k : Nat) : Nat :=
  let q := m / 2 ^ k
  if roundsUp rm neg q (m % 2 ^ k) k then q + 1 else q

/-- The nonzero number (-1)^neg * m * 2^e rounded to the format; none on overflow and on underflow. -/
def Format.round (f : Format) (rm : BitVec 2) (neg : Bool) (m : Nat) (e : Int) : Option Nat :=
  let p := f.fracBits + 1
  let len := m.log2 + 1
  let exact := decide (len ≤ p)
  let q := if exact then m * 2 ^ (p - len) else roundShift rm neg m (len - p)
  let exp : Int := e + len - p
  let carry := decide (q = 2 ^ p)
  let field : Int := (if carry then exp + 1 else exp) + f.bias + f.fracBits
  if exp + f.bias + f.fracBits < 1 ∨ (f.expMax : Int) ≤ field then none
  else some (f.pack neg field.toNat (if carry then 0 else q - 2 ^ f.fracBits))

/-- A signed number as an integer multiple of 2^base. -/
def scaled (neg : Bool) (m : Nat) (e base : Int) : Int :=
  let v : Int := (m * 2 ^ (e - base).toNat : Nat)
  if neg then -v else v

/-- The exact sum of two finite numbers, rounded; an exact zero has the sign IEEE-754 gives it. -/
def Format.addFinite (f : Format) (rm : BitVec 2) (na : Bool) (ma : Nat) (ea : Int) (nb : Bool) (mb : Nat)
    (eb : Int) : Option Nat :=
  let base := min ea eb
  let sum := scaled na ma ea base + scaled nb mb eb base
  if sum = 0 then some (f.packZero (if na = nb then na else decide (rm = 1#2)))
  else f.round rm (decide (sum < 0)) sum.natAbs base

/-- Addition; none where the provider decides. -/
def Format.add (f : Format) (rm : BitVec 2) : FpClass → FpClass → Option Nat
  | .nan, _ => none
  | _, .nan => none
  | .subnormal .., _ => none
  | _, .subnormal .. => none
  | .inf a, .inf b => if a = b then some (f.packInf a) else none
  | .inf a, _ => some (f.packInf a)
  | _, .inf b => some (f.packInf b)
  | .zero a, .zero b => f.addFinite rm a 0 0 b 0 0
  | .zero a, .normal b mb eb => f.addFinite rm a 0 eb b mb eb
  | .normal a ma ea, .zero b => f.addFinite rm a ma ea b 0 ea
  | .normal a ma ea, .normal b mb eb => f.addFinite rm a ma ea b mb eb

/-- The class with its sign flipped. -/
def FpClass.neg : FpClass → FpClass
  | .nan => .nan
  | .inf a => .inf (!a)
  | .zero a => .zero (!a)
  | .subnormal a m e => .subnormal (!a) m e
  | .normal a m e => .normal (!a) m e

/-- Multiplication; none where the provider decides. -/
def Format.mul (f : Format) (rm : BitVec 2) : FpClass → FpClass → Option Nat
  | .nan, _ => none
  | _, .nan => none
  | .subnormal .., _ => none
  | _, .subnormal .. => none
  | .inf _, .zero _ => none
  | .zero _, .inf _ => none
  | .inf a, .inf b => some (f.packInf (a != b))
  | .inf a, .normal b _ _ => some (f.packInf (a != b))
  | .normal a _ _, .inf b => some (f.packInf (a != b))
  | .zero a, .zero b => some (f.packZero (a != b))
  | .zero a, .normal b _ _ => some (f.packZero (a != b))
  | .normal a _ _, .zero b => some (f.packZero (a != b))
  | .normal a ma ea, .normal b mb eb => f.round rm (a != b) (ma * mb) (ea + eb)

/-- The quotient of two finite numbers, rounded: enough quotient bits are kept, and a sticky bit. -/
def Format.divFinite (f : Format) (rm : BitVec 2) (neg : Bool) (ma : Nat) (ea : Int) (mb : Nat) (eb : Int) :
    Option Nat :=
  let k := f.fracBits + 4
  let n := ma * 2 ^ k
  f.round rm neg (2 * (n / mb) + (if n % mb = 0 then 0 else 1)) (ea - eb - k - 1)

/-- Division; none where the provider decides. -/
def Format.div (f : Format) (rm : BitVec 2) : FpClass → FpClass → Option Nat
  | .nan, _ => none
  | _, .nan => none
  | .subnormal .., _ => none
  | _, .subnormal .. => none
  | .inf _, .inf _ => none
  | .zero _, .zero _ => none
  | .inf a, .zero b => some (f.packInf (a != b))
  | .inf a, .normal b _ _ => some (f.packInf (a != b))
  | .zero a, .inf b => some (f.packZero (a != b))
  | .normal a _ _, .inf b => some (f.packZero (a != b))
  | .zero a, .normal b _ _ => some (f.packZero (a != b))
  | .normal a _ _, .zero b => some (f.packInf (a != b))
  | .normal a ma ea, .normal b mb eb => f.divFinite rm (a != b) ma ea mb eb

/-- The integer square root, one bit at a time: the greatest r below `r + 2 ^ k` with r * r at most n. -/
def sqrtBits (n : Nat) : Nat → Nat → Nat
  | 0, r => r
  | k + 1, r => sqrtBits n k (if (r + 2 ^ k) * (r + 2 ^ k) ≤ n then r + 2 ^ k else r)

/-- The square root of a positive number, rounded: the exponent is made even, and a sticky bit kept. -/
def Format.sqrtFinite (f : Format) (rm : BitVec 2) (m : Nat) (e : Int) : Option Nat :=
  let p := f.fracBits + 1
  let m1 := if e % 2 = 0 then m else 2 * m
  let e1 := if e % 2 = 0 then e else e - 1
  let n := m1 * 2 ^ (2 * p)
  let r := sqrtBits n (2 * p) 0
  f.round rm false (2 * r + (if r * r = n then 0 else 1)) (e1 / 2 - p - 1)

/-- Square root; none where the provider decides. -/
def Format.sqrt (f : Format) (rm : BitVec 2) : FpClass → Option Nat
  | .nan => none
  | .subnormal .. => none
  | .zero a => some (f.packZero a)
  | .inf a => if a then none else some (f.packInf false)
  | .normal a m e => if a then none else f.sqrtFinite rm m e

/-- The operands as the provider's 64-bit arguments, and its result, at a precision. -/
def fpResult (dbl : Bool) (op : Config.FpOp) (rm : BitVec 2) (a b : DWord) (r : Option Nat) : DWord :=
  match r with
  | some x => BitVec.ofNat 64 x
  | none => Config.fpOpen op dbl rm a b

/-- A provider operation on two operands of one precision, each in the low bits of its argument. -/
def fpBits (dbl : Bool) (op : Config.FpOp) (rm : BitVec 2) (a b : DWord) : DWord :=
  let f := format dbl
  let x := f.classify a.toNat
  let y := f.classify b.toNat
  fpResult dbl op rm a b
    (match op with
      | .add => f.add rm x y
      | .sub => f.add rm x y.neg
      | .mul => f.mul rm x y
      | .div => f.div rm x y
      | .sqrt => f.sqrt rm x
      | .widen => none
      | .narrow => none)

/-- Single to double (41 R174: exact). A NaN's image is the provider's. -/
def widen (rm : BitVec 2) (v : Word) : DWord :=
  let f := format true
  fpResult true .widen rm (v.setWidth 64) 0#64
    (match (format false).classify v.toNat with
      | .nan => none
      | .inf a => some (f.packInf a)
      | .zero a => some (f.packZero a)
      | .subnormal a m e => f.round rm a m e
      | .normal a m e => f.round rm a m e)

/-- Double to single, rounded under the rounding mode (41 R174). -/
def narrow (rm : BitVec 2) (v : DWord) : Word :=
  let f := format false
  (fpResult false .narrow rm v 0#64
    (match (format true).classify v.toNat with
      | .nan => none
      | .inf a => some (f.packInf a)
      | .zero a => some (f.packZero a)
      | .subnormal .. => none
      | .normal a m e => f.round rm a m e)).setWidth 32

/-- A slot's value as a double (`cvt` of 41 R174). -/
def Slot.toDouble (rm : BitVec 2) : Slot → DWord
  | .sgl v => widen rm v
  | .dbl v => v

/-- A slot's value as a single (`cvt` of 41 R174). -/
def Slot.toSingle (rm : BitVec 2) : Slot → Word
  | .sgl v => v
  | .dbl v => narrow rm v

/-- `cvt` to the precision a bit selects: the identity when the tag names it already (41 R174). -/
def Slot.cvt (rm : BitVec 2) (dbl : Bool) (v : Slot) : Slot :=
  if dbl then .dbl (v.toDouble rm) else .sgl (v.toSingle rm)

/-- A two-operand operation at the result precision: with R = 1 both operands are doubles, single ones having been
widened exactly, and the operation is done once (41 R191). -/
def fpArith (op : Config.FpOp) (rm : BitVec 2) (r : Bool) (a b : Slot) : Slot :=
  if r then .dbl (fpBits true op rm (a.toDouble rm) (b.toDouble rm))
  else .sgl ((fpBits false op rm ((a.toSingle rm).setWidth 64) ((b.toSingle rm).setWidth 64)).setWidth 32)

/-- The signed integer whose order is the order of the numbers a class-comparable pattern stands for. -/
def Format.orderKey (f : Format) (x : Nat) : Int :=
  let mag : Int := (x % 2 ^ (f.expBits + f.fracBits) : Nat)
  if x.testBit (f.expBits + f.fracBits) then -mag else mag

/-- The class is subnormal. -/
def FpClass.isSubnormal : FpClass → Bool
  | .subnormal .. => true
  | _ => false

/-- The provider's compare (41 R189): every relation is false of an unordered pair. -/
def fpCompareBits (dbl : Bool) (rel : Config.FpRel) (rm : BitVec 2) (a b : DWord) : Bool :=
  let f := format dbl
  let x := f.classify a.toNat
  let y := f.classify b.toNat
  if x = .nan ∨ y = .nan then false
  else if x.isSubnormal || y.isSubnormal then Config.fpCmpOpen rel dbl rm a b
  else
    let i := f.orderKey a.toNat
    let j := f.orderKey b.toNat
    match rel with
    | .gt => decide (j < i)
    | .le => decide (i ≤ j)
    | .eq => decide (i = j)

/-- The compare of two operands of one precision. -/
def fpCompare (rel : Config.FpRel) (rm : BitVec 2) (dbl : Bool) (a b : Slot) : Bool :=
  if dbl then fpCompareBits true rel rm (a.toDouble rm) (b.toDouble rm)
  else fpCompareBits false rel rm ((a.toSingle rm).setWidth 64) ((b.toSingle rm).setWidth 64)

/-- The finite number (-1)^neg * m * 2^e rounded to an integer. -/
def roundInt (rm : BitVec 2) (neg : Bool) (m : Nat) (e : Int) : Int :=
  let v : Nat := if 0 ≤ e then m * 2 ^ e.toNat else roundShift rm neg m (-e).toNat
  if neg then -(v : Int) else v

/-- The finite number (-1)^neg * m * 2^e itself, before any rounding, is at least -2^31 and at most 2^31 - 1: the sources
fix and ftrunc give an integer for (41 R184). -/
def inIntRange (neg : Bool) (m : Nat) (e : Int) : Bool :=
  let bound : Nat := if neg then 2 ^ 31 else 2 ^ 31 - 1
  if 0 ≤ e then decide (m * 2 ^ e.toNat ≤ bound) else decide (m ≤ bound * 2 ^ (-e).toNat)

/-- The finite number as a 32-bit two's-complement integer, rounded under a rounding mode; none when the source is out of
range, also where its rounded value would not be (41 R184, 93 U4). -/
def fixFinite (rm : BitVec 2) (neg : Bool) (m : Nat) (e : Int) : Option Word :=
  if inIntRange neg m e then some (BitVec.ofInt 32 (roundInt rm neg m e)) else none

/-- The number a bit pattern stands for as a 32-bit integer; none for NaN, infinity and what is out of range
(41 R184, 93 U4). -/
def fixBits (dbl : Bool) (rm : BitVec 2) (v : DWord) : Option Word :=
  match (format dbl).classify v.toNat with
  | .nan => none
  | .inf _ => none
  | .zero _ => some 0#32
  | .subnormal a m e => fixFinite rm a m e
  | .normal a m e => fixFinite rm a m e

/-- `fixBits` of a slot by its tag. -/
def Slot.fix (rm : BitVec 2) : Slot → Option Word
  | .sgl v => fixBits false rm (v.setWidth 64)
  | .dbl v => fixBits true rm v

/-- The constant 1.0 at a precision (41 R180). -/
def fpOne (dbl : Bool) : Slot := if dbl then .dbl 0x3FF0000000000000#64 else .sgl 0x3F800000#32

/-- The low mantissa bits cleared, to emulate the reduced precision of frcp and frsqr (41 R180). -/
def Slot.reduced : Slot → Slot
  | .sgl v => .sgl (v &&& 0xFFFF8000#32)
  | .dbl v => .dbl (v &&& 0xFFFFF00000000000#64)

/-- The value is +0 or -0. -/
def Slot.isZero : Slot → Bool
  | .sgl v => decide (v &&& 0x7FFFFFFF#32 = 0#32)
  | .dbl v => decide (v &&& 0x7FFFFFFFFFFFFFFF#64 = 0#64)

/-- The sign bit. -/
def Slot.sign : Slot → Bool
  | .sgl v => v.getLsbD 31
  | .dbl v => v.getLsbD 63

end Sys2Proof.Machine
end

