-- ==== Sys2Proof/Machine/Operands.lean ====
section
/-! DEFINITION. The operand forms: immediates, effective addresses, branch targets and floating operands
(spec/30_encoding.md R115, spec/46_load_store.md R311, spec/47_control_transfer.md R340, spec/41_fp_pipes.md R174). -/

namespace Sys2Proof.Machine

/-- `simm16`: the sign-extended immediate (30 R115). -/
def simm16 (imm : BitVec 16) : Word := imm.signExtend 32

/-- `uimm16`: the zero-extended immediate (30 R115). -/
def uimm16 (imm : BitVec 16) : Word := imm.setWidth 32

/-- `himm16`: the immediate in the high half (30 R115). -/
def himm16 (imm : BitVec 16) : Word := imm ++ 0#16

/-- The effective address of a register form: `r[src1] + r[src2]` (46 R311). -/
def regEff (s : State) (src1 src2 : Reg) : Word := s.readReg src1 + s.readReg src2

/-- The effective address of a displacement form for an access of `n` bytes: the displacement's low bits, which carry
the size code, are cleared before the add (46 R311). -/
def dispEff (n : Nat) (s : State) (src2 : Reg) (imm : BitVec 16) : Word :=
  alignDown (simm16 imm) n + s.readReg src2

/-- The target of a CTRL branch at `pc` (47 R340). -/
def longTarget (pc : Word) (off : BitVec 26) : Word := pc + 4#32 + (off.signExtend 32 <<< 2)

/-- The target of a SPLIT branch at `pc` (47 R340). -/
def shortTarget (pc : Word) (off : BitVec 16) : Word := pc + 4#32 + (off.signExtend 32 <<< 2)

/-- The target of a register branch: bits 1:0 forced to 0 (47 R340). -/
def registerTarget (s : State) (src1 : Reg) : Word := alignDown (s.readReg src1) 4

/-- A floating register at the precision a bit selects (41 R174). -/
def State.readFp (s : State) (dbl : Bool) (i : Reg) : Slot := if dbl then .dbl (s.readFd i) else .sgl (s.readF i)

/-- The register cannot be read at this precision: a 64-bit operand with an odd number (10 R14). -/
def badFp (dbl : Bool) (i : Reg) : Bool := dbl && oddPair i

/-- The second operand of a pipelined instruction: when fdest = fsrc2, not f0 or f1, the pipe's last stage takes the
register's place, converted to the source precision (41 R174). -/
def forwarded (s : State) (o : FpOps) (last : Slot) : Slot :=
  if o.dest = o.src2 ∧ 2 ≤ o.dest.toNat then last.cvt s.rm o.s else s.readFp o.s o.src2

/-- The auto-increment write, `r[src2] <- eff` when the flag is set (46 R329). -/
def autoInc (s : State) (inc : Bool) (src2 : Reg) (eff : Word) : State := if inc then s.writeReg src2 eff else s

end Sys2Proof.Machine
end

