-- ==== Sys2Proof/Machine/Flags.lean ====
section
/-! DEFINITION. Every flag computation (spec/44_integer_alu.md R251 to R279, spec/47_control_transfer.md R343, R345,
spec/43_fp_graphics.md R240, R241, spec/46_load_store.md R328). -/

namespace Sys2Proof.Machine

/-- addu: the carry out of bit 31, bit 32 of the 33-bit sum (44 R251). -/
def adduCarry (a b : Word) : Bool := (a.setWidth 33 + b.setWidth 33).getLsbD 32

/-- subu: no borrow, `b <=u a` (44 R252). -/
def subuNoBorrow (a b : Word) : Bool := decide (b.toNat ≤ a.toNat)

/-- adds: signed overflow (44 R253). -/
def addsOverflow (a b : Word) : Bool := (a.getLsbD 31 == b.getLsbD 31) && ((a + b).getLsbD 31 != a.getLsbD 31)

/-- adds: CC, `signed(b) < -signed(a)` in the integers (44 R253). -/
def addsCC (a b : Word) : Bool := decide (b.toInt < -a.toInt)

/-- subs: signed overflow (44 R254). -/
def subsOverflow (a b : Word) : Bool := (a.getLsbD 31 != b.getLsbD 31) && ((a - b).getLsbD 31 != a.getLsbD 31)

/-- subs: CC, `signed(b) > signed(a)` (44 R254). -/
def subsCC (a b : Word) : Bool := decide (a.toInt < b.toInt)

/-- The logical instructions: CC says that the result is zero (44 R269). -/
def zeroCC (result : Word) : Bool := decide (result = 0#32)

/-- bla: the new LCC, `signed(b) >= -signed(a)` in the integers (47 R345). -/
def blaLcc (a b : Word) : Bool := decide (-a.toInt ≤ b.toInt)

/-- The condition bc, bnc, bc.t and bnc.t test: the raw compare result when the side channel holds one (47 R343). -/
def State.branchCC (s : State) : Bool := if s.ccValid then s.ccRaw else s.cc

/-- A compare's CC: pfgt and pfeq set it when the relation holds, pfle clears it (41 R189). -/
def compareCC (rel : Config.FpRel) (holds : Bool) : Bool :=
  match rel with
  | .le => !holds
  | _ => holds

/-- The pixel mask after fzchks: shifted right by four, bits 7:4 say which fields of b are not above those of a
(43 R240). -/
def fzchksPM (pm : BitVec 8) (a b : DWord) : BitVec 8 :=
  let le (i : Nat) : BitVec 1 :=
    BitVec.ofBool (decide ((b.extractLsb' (16 * i) 16).toNat ≤ (a.extractLsb' (16 * i) 16).toNat))
  le 3 ++ le 2 ++ le 1 ++ le 0 ++ pm.extractLsb' 4 4

/-- The pixel mask after fzchkl: shifted right by two, bits 7:6 from the two fields (43 R241). -/
def fzchklPM (pm : BitVec 8) (a b : DWord) : BitVec 8 :=
  let le (i : Nat) : BitVec 1 :=
    BitVec.ofBool (decide ((b.extractLsb' (32 * i) 32).toNat ≤ (a.extractLsb' (32 * i) 32).toNat))
  le 1 ++ le 0 ++ pm.extractLsb' 2 6

/-- `n` copies of a bit. -/
def spread (b : Bool) (n : Nat) : BitVec n := if b then BitVec.allOnes n else 0#n

/-- The byte mask of pst.d by pixel size (46 R328). With PS = 3 it is undefined (93 U7): a free value (log 13). -/
def pixelMask (ps : BitVec 2) (pm : BitVec 8) (free : DWord) : BitVec 8 :=
  if ps = 0#2 then pm
  else if ps = 1#2 then
    spread (pm.getLsbD 3) 2 ++ spread (pm.getLsbD 2) 2 ++ spread (pm.getLsbD 1) 2 ++ spread (pm.getLsbD 0) 2
  else if ps = 2#2 then spread (pm.getLsbD 1) 4 ++ spread (pm.getLsbD 0) 4
  else free.extractLsb' 0 8

/-- The pixel mask after pst.d: the pixels stored are shifted out (46 R328). With PS = 3, a free value. -/
def pixelsLeft (ps : BitVec 2) (pm : BitVec 8) (free : DWord) : BitVec 8 :=
  if ps = 0#2 then 0#8
  else if ps = 1#2 then pm >>> 4
  else if ps = 2#2 then pm >>> 2
  else free.extractLsb' 8 8

end Sys2Proof.Machine
end

