-- ==== Sys2Proof/Machine/ControlRegs.lean ====
section
/-! DEFINITION. ld.c and st.c (spec/45_control_regs.md). The index is the src2 field: 0 FIR, 1 PSR, 2 DIRBASE, 3 DB,
4 FSR, 5 EPSR (spec/10_state.md R20). -/

namespace Sys2Proof.Machine

/-- ld.c of FIR (R292): after a trap the saved address, once; otherwise FIR receives the ld.c's own address. -/
def readFir (dest : Reg) (s : State) : State :=
  let v := if s.firLatched then s.fir else s.pc
  { s with fir := v, firLatched := false }.writeReg dest v

/-- `ld.c` (R292). An index outside 0 to 5 is ignored without a trap and leaves an unspecified value in the destination
(R291): a free value (log 14). -/
def execLdc (o : LdcOps) (s : State) : Out :=
  match o.creg with
  | 0#5 => .next (readFir o.dest s)
  | 1#5 => .next (s.writeReg o.dest s.psr)
  | 2#5 => .next (s.writeReg o.dest s.dirbase)
  | 3#5 => .next (s.writeReg o.dest s.db)
  | 4#5 => .next (s.writeReg o.dest s.fsr)
  | 5#5 => .next (s.writeReg o.dest s.epsr)
  | _ => .next (s.drawn.writeReg o.dest (lowWord s.free))

/-- The PSR bits a user-mode st.c preserves (R296). -/
def psrUserMask : Word := 0x0000FFF3#32

/-- The EPSR bits st.c preserves: in supervisor mode, and in user mode (R297). -/
def epsrReadOnly (user : Bool) : Word := if user then 0x00FE7FFF#32 else 0x003E1FFF#32

/-- The FSR bits st.c writes (R298). -/
def fsrWritable : Word := 0x003E01EF#32

/-- st.c to PSR (R296). -/
def writePsr (s : State) (v : Word) : State :=
  { s with psr := if s.user then mergeBits (~~~psrUserMask) v s.psr else v }

/-- st.c to DIRBASE (R295): ITI invalidates and is stored as 0. -/
def writeDirbase (s : State) (v : Word) : State :=
  { (if v.getLsbD 5 then s.invalidate else s) with dirbase := v &&& 0xFFFFFFDF#32 }

/-- st.c to EPSR (R297). -/
def writeEpsr (s : State) (v : Word) : State := { s with epsr := mergeBits (~~~epsrReadOnly s.user) v s.epsr }

/-- st.c to FSR (R298); the provider rounds by the new RM from then on. -/
def writeFsr (s : State) (v : Word) : State := { s with fsr := mergeBits fsrWritable v s.fsr }

/-- `st.c` (R293): FIR is never written (R299), and an index outside 0 to 5 writes nothing (R291; log 14). -/
def execStc (o : StcOps) (s : State) : Out :=
  let v := s.readReg o.src1
  match o.creg with
  | 1#5 => .next (writePsr s v)
  | 2#5 => .next (writeDirbase s v)
  | 3#5 => .next { s with db := v }
  | 4#5 => .next (writeFsr s v)
  | 5#5 => .next (writeEpsr s v)
  | _ => .next s

end Sys2Proof.Machine
end

