-- ==== Sys2Proof/Machine/FpPipes.lean ====
section
/-! DEFINITION. The floating-point adder and multiplier instructions (spec/41_fp_pipes.md). -/

namespace Sys2Proof.Machine

/-! ## The contract of the two pipes (R170, R171, R174) -/

/-- A pipe and its last stage: A, whose last stage is slot 2; M, whose last stage is slot 1 when `short`, else slot 2
(10 R31). -/
inductive FpPipe where
  | adder
  | multiplier (short : Bool)
  deriving DecidableEq, Repr

/-- The last stage of a pipe. -/
def State.pipeLast (s : State) : FpPipe → Slot
  | .adder => s.pipeA.last false
  | .multiplier short => s.pipeM.last short

/-- Shift a pipe and insert a value. -/
def State.pipePush (s : State) (pipe : FpPipe) (v : Slot) : State :=
  match pipe with
  | .adder => { s with pipeA := s.pipeA.push false v }
  | .multiplier short => { s with pipeM := s.pipeM.push short v }

/-- A pipelined instruction's end (R171): fdest receives the last stage by its tag, then the pipe shifts. -/
def finishPiped (s : State) (pipe : FpPipe) (dest : Reg) (new : Slot) : Out :=
  andThen (s.writeSlot dest (s.pipeLast pipe)) fun s' => .next (s'.pipePush pipe new)

/-- A scalar instruction's end (R170), and with P_SCALAR_FADD_ADVANCES the adder pipe's shift (R172). -/
def finishScalar (s : State) (advances : Bool) (dest : Reg) (new : Slot) : Out :=
  andThen (s.writeSlot dest new) fun s' => .next (if advances then s'.pipePush .adder new else s')

/-- The words `.ds`, which add, subtract, multiply, frcp, frsqr and the dual operations trap on (30 R120). -/
def isDs (o : FpOps) : Bool := o.s && !o.r

/-- A source register that cannot be read at the source precision (10 R14). -/
def badSources (o : FpOps) : Bool := badFp o.s o.src1 || badFp o.s o.src2

/-- The scalar two-operand instructions: no pipe slot touched (R170, R172, R175). -/
def opScalar (op : Config.FpOp) (advances : Bool) (o : FpOps) (s : State) : Out :=
  if isDs o then .next (s.raise .instruction)
  else if badSources o then .refused .unalignedFpOperand
  else finishScalar s advances o.dest (fpArith op s.rm o.r (s.readFp o.s o.src1) (s.readFp o.s o.src2))

/-- The pipelined two-operand instructions, the second operand by the forwarding rule (R171, R174). DESIGN CHOICE: an odd
fsrc2 named as a double is refused also where the last stage takes the register's place (log 18). -/
def opPiped (op : Config.FpOp) (pipe : FpPipe) (o : FpOps) (s : State) : Out :=
  if isDs o then .next (s.raise .instruction)
  else if badSources o then .refused .unalignedFpOperand
  else
    finishPiped s pipe o.dest
      (fpArith op s.rm o.r (s.readFp o.s o.src1) (forwarded s o (s.pipeLast pipe)))

/-! ## Add and subtract (R172, R173) -/

/-- `fadd` (R172). -/
def execFadd (o : FpOps) (s : State) : Out := opScalar .add s.par.scalarFaddAdvances o s
/-- `pfadd` (R172). -/
def execPfadd (o : FpOps) (s : State) : Out := opPiped .add .adder o s
/-- `fsub`: src1 - src2 (R173). -/
def execFsub (o : FpOps) (s : State) : Out := opScalar .sub s.par.scalarFaddAdvances o s
/-- `pfsub` (R173). -/
def execPfsub (o : FpOps) (s : State) : Out := opPiped .sub .adder o s

/-! ## Convert to integer (R184, R185) -/

/-- The 64-bit result of fix and ftrunc: the integer in the low word and an unspecified high word; the integer too is
unspecified for a source that is NaN, infinite or out of range before rounding (93 U4; log 9). -/
def fixValue (rm : BitVec 2) (v : Slot) (free : DWord) : Slot :=
  .dbl (highWord free ++ (v.fix rm).getD (lowWord free))

/-- fix and ftrunc, scalar or pipelined, under a rounding mode. -/
def opFix (piped : Bool) (rm : BitVec 2) (o : FpOps) (s : State) : Out :=
  if !o.r then .next (s.raise .instruction)
  else if badFp o.s o.src1 then .refused .unalignedFpOperand
  else
    let new := fixValue rm (s.readFp o.s o.src1) s.free
    if piped then finishPiped s.drawn .adder o.dest new else finishScalar s.drawn false o.dest new

/-- `fix` (R184). -/
def execFix (o : FpOps) (s : State) : Out := opFix false s.rm o s
/-- `pfix` (R184). -/
def execPfix (o : FpOps) (s : State) : Out := opFix true s.rm o s
/-- `ftrunc`: rounding toward zero whatever FSR.RM (R185). -/
def execFtrunc (o : FpOps) (s : State) : Out := opFix false 3#2 o s
/-- `pftrunc` (R185). -/
def execPftrunc (o : FpOps) (s : State) : Out := opFix true 3#2 o s

/-! ## Move (R186) -/

/-- famov and pfamov: fsrc1 converted from the source to the result precision. -/
def opMove (piped : Bool) (o : FpOps) (s : State) : Out :=
  if badFp o.s o.src1 then .refused .unalignedFpOperand
  else
    let new := (s.readFp o.s o.src1).cvt s.rm o.r
    if piped then finishPiped s .adder o.dest new else finishScalar s false o.dest new

/-- `famov` (R186). -/
def execFamov (o : FpOps) (s : State) : Out := opMove false o s
/-- `pfamov` (R186). -/
def execPfamov (o : FpOps) (s : State) : Out := opMove true o s

/-! ## Compare (R189) -/

/-- The unspecified value a compare inserts in the adder pipe, with the tag of S (93 U5; log 10). -/
def compareSlot (dbl : Bool) (free : DWord) : Slot := if dbl then .dbl free else .sgl (lowWord free)

/-- CC and the side channel after a compare (R189, 10 R43). -/
def State.setCompare (s : State) (c : Bool) : State := { (s.setCC c) with ccRaw := c, ccValid := true }

/-- pfgt, pfle and pfeq: no forwarding, always pipelined. -/
def opCompare (rel : Config.FpRel) (o : FpOps) (s : State) : Out :=
  if badSources o then .refused .unalignedFpOperand
  else
    let c := compareCC rel (fpCompare rel s.rm o.s (s.readFp o.s o.src1) (s.readFp o.s o.src2))
    andThen (finishPiped s.drawn .adder o.dest (compareSlot o.s s.free)) fun s' => .next (s'.setCompare c)

/-- `pfgt` (R189). -/
def execPfgt (o : FpOps) (s : State) : Out := opCompare .gt o s
/-- `pfle` (R189). -/
def execPfle (o : FpOps) (s : State) : Out := opCompare .le o s
/-- `pfeq` (R189). -/
def execPfeq (o : FpOps) (s : State) : Out := opCompare .eq o s

/-! ## Multiply (R175, R176, R178) -/

/-- `fmul` (R175). -/
def execFmul (o : FpOps) (s : State) : Out := opScalar .mul false o s
/-- `pfmul`: two stages when the source precision is double, else three (R175). -/
def execPfmul (o : FpOps) (s : State) : Out := opPiped .mul (.multiplier o.s) o s

/-- `pfmul3.dd`: always three stages; legal only pipelined and .dd (R176). -/
def execPfmul3 (p : Bool) (o : FpOps) (s : State) : Out :=
  if !(p && o.s && o.r) then .next (s.raise .instruction) else opPiped .mul (.multiplier false) o s

/-- The result of fmlow.dd: the low 53 bits of the integer product (R178), and above them eleven bits of any value, the sign
bit among them (93 U8; log 11). -/
def fmlowValue (a b free : DWord) : DWord := free.extractLsb' 0 11 ++ (a * b).extractLsb' 0 53

/-- `fmlow.dd` (R178). -/
def execFmlow (o : FpOps) (s : State) : Out :=
  if !(o.s && o.r) then .next (s.raise .instruction)
  else if badSources o then .refused .unalignedFpOperand
  else s.drawn.writeSlot o.dest (.dbl (fmlowValue (s.readFd o.src1) (s.readFd o.src2) s.free))

/-! ## Reciprocal and reciprocal square root (R180, R181) -/

/-- The answer to an invalid input: fdest unchanged, and with P_FP_TRAPS_ENABLED the source exception, which raises the
floating trap when FSR.FTE = 1 (R180). -/
def sourceException (s : State) : State :=
  if s.par.fpTrapsEnabled then
    let s' := s.setSE true
    if s.fte then s'.raise .floating else s'
  else s

/-- frcp and frsqr: `f` is the operation on the reduced operand. -/
def opApprox (invalid : Slot → Bool) (f : BitVec 2 → Bool → Slot → Slot) (o : FpOps) (s : State) : Out :=
  if isDs o then .next (s.raise .instruction)
  else if badFp o.s o.src2 then .refused .unalignedFpOperand
  else
    let v := s.readFp o.s o.src2
    if invalid v then .next (sourceException s)
    else (s.setSE false).writeSlot o.dest (((f s.rm o.s v.reduced).reduced).cvt s.rm o.r)

/-- 1.0 / v at a precision. -/
def reciprocal (rm : BitVec 2) (dbl : Bool) (v : Slot) : Slot := fpArith .div rm dbl (fpOne dbl) v

/-- 1.0 / sqrt v at a precision. -/
def reciprocalSqrt (rm : BitVec 2) (dbl : Bool) (v : Slot) : Slot := reciprocal rm dbl (fpArith .sqrt rm dbl v v)

/-- `frcp` (R180). -/
def execFrcp (o : FpOps) (s : State) : Out := opApprox Slot.isZero reciprocal o s
/-- `frsqr`: zero or negative input is invalid (R181). -/
def execFrsqr (o : FpOps) (s : State) : Out := opApprox (fun v => v.isZero || v.sign) reciprocalSqrt o s

end Sys2Proof.Machine
end

