-- ==== Sys2Proof/Machine/DualOp.lean ====
section
/-! DEFINITION. The dual-operation instructions (spec/42_fp_dualop.md). -/

namespace Sys2Proof.Machine

/-- The operand sources of the routing table (R210). -/
inductive Source where
  | src1
  | src2
  | kr
  | ki
  | t
  | apipe
  | mpipe
  deriving DecidableEq, Repr

/-- A row of the routing table (R210, R211). -/
structure Route where
  m1 : Source
  m2 : Source
  a1 : Source
  a2 : Source
  tload : Bool
  kload : Bool
  deriving DecidableEq, Repr

/-- The routing table (R211). -/
def route (dpc : BitVec 4) : Route :=
  match dpc with
  | 0b0000#4 => ⟨.kr, .src2, .src1, .mpipe, false, false⟩
  | 0b0001#4 => ⟨.kr, .src2, .t, .mpipe, false, true⟩
  | 0b0010#4 => ⟨.kr, .src2, .src1, .apipe, true, false⟩
  | 0b0011#4 => ⟨.kr, .src2, .t, .apipe, true, true⟩
  | 0b0100#4 => ⟨.ki, .src2, .src1, .mpipe, false, false⟩
  | 0b0101#4 => ⟨.ki, .src2, .t, .mpipe, false, true⟩
  | 0b0110#4 => ⟨.ki, .src2, .src1, .apipe, true, false⟩
  | 0b0111#4 => ⟨.ki, .src2, .t, .apipe, true, true⟩
  | 0b1000#4 => ⟨.kr, .apipe, .src1, .src2, true, false⟩
  | 0b1001#4 => ⟨.src1, .src2, .apipe, .mpipe, false, false⟩
  | 0b1010#4 => ⟨.kr, .apipe, .src1, .src2, false, false⟩
  | 0b1011#4 => ⟨.src1, .src2, .t, .apipe, true, false⟩
  | 0b1100#4 => ⟨.ki, .apipe, .src1, .src2, true, false⟩
  | 0b1101#4 => ⟨.src1, .src2, .t, .mpipe, false, false⟩
  | 0b1110#4 => ⟨.ki, .apipe, .src1, .src2, false, false⟩
  | _ => ⟨.src1, .src2, .t, .apipe, false, false⟩

/-- A read of KR, KI or T at a precision: all 64 bits, or the low 32 (R214). -/
def readStore (dbl : Bool) (v : DWord) : Slot := if dbl then .dbl v else .sgl (lowWord v)

/-- A store into KR, KI or T: a single value leaves the upper half unspecified, a free value (R214; log 12). -/
def storeValue (free : Word) : Slot → DWord
  | .sgl v => free ++ v
  | .dbl v => v

/-- The value of a source, before anything is written (R212): with `isM` the multiplier pipe stands for the adder
pipe (R210). -/
def sourceValue (s : State) (o : FpOps) (isM : Bool) : Source → Slot
  | .src1 => s.readFp o.s o.src1
  | .src2 => s.readFp o.s o.src2
  | .kr => readStore o.s s.kr
  | .ki => readStore o.s s.ki
  | .t => readStore o.s s.t
  | .mpipe => (s.pipeM.last o.s).cvt s.rm o.s
  | .apipe => (if isM then s.pipeM.last o.s else s.pipeA.last false).cvt s.rm o.s

/-- The side-effect loads of a row: T from the multiplier's last stage by its
tag, and the K register the row multiplies with from `src1`, the value of fsrc1 (R212). -/
def dualLoads (row : Route) (lastM src1 : Slot) (s : State) : State :=
  let s1 := if row.tload || row.kload then s.drawn else s
  let s2 := if row.tload then { s1 with t := storeValue (highWord s.free) lastM } else s1
  if row.kload then
    if row.m1 = .ki then { s2 with ki := storeValue (lowWord s.free) src1 }
    else { s2 with kr := storeValue (lowWord s.free) src1 }
  else s2

/-- The value of fsrc1 that a K load stores, `s'` being `s` after the write-out of fdest: as read with the operands (40
R153) or after the write-out (the order of R212). The two differ only where fdest overlaps fsrc1, and a free choice decides
there: DESIGN CHOICE (log 36). -/
def kLoadValue (o : FpOps) (s s' : State) : Slot :=
  let early := s.readFp o.s o.src1
  let late := s'.readFp o.s o.src1
  if early = late then early else if Config.kLoadSeesWriteOut s.freeCount then late else early

/-- The four dual-operation instructions, in the order of R212: all operands read, fdest written from the supplying pipe's
last stage, the loads (a K load by `kLoadValue`), then both pipes advance. -/
def opDual (isM : Bool) (addOp : Config.FpOp) (dpc : BitVec 4) (o : FpOps) (s : State) : Out :=
  if isDs o then .next (s.raise .instruction)
  else if badSources o then .refused .unalignedFpOperand
  else
    let row := route dpc
    let lastM := s.pipeM.last o.s
    let val := sourceValue s o isM
    let newM := fpArith .mul s.rm o.r (val row.m1) (val row.m2)
    let newA := fpArith addOp s.rm o.r (val row.a1) (val row.a2)
    andThen (s.writeSlot o.dest (if isM then lastM else s.pipeA.last false)) fun s' =>
      .next (((dualLoads row lastM (kLoadValue o s s') s').pipePush (.multiplier o.s) newM).pipePush .adder newA)

/-- `pfam` (R212). -/
def execPfam (dpc : BitVec 4) (o : FpOps) (s : State) : Out := opDual false .add dpc o s
/-- `pfmam` (R212). -/
def execPfmam (dpc : BitVec 4) (o : FpOps) (s : State) : Out := opDual true .add dpc o s
/-- `pfsm` (R212). -/
def execPfsm (dpc : BitVec 4) (o : FpOps) (s : State) : Out := opDual false .sub dpc o s
/-- `pfmsm` (R212). -/
def execPfmsm (dpc : BitVec 4) (o : FpOps) (s : State) : Out := opDual true .sub dpc o s

end Sys2Proof.Machine
end

