-- ==== Sys2Proof/Machine/Graphics.lean ====
section
/-! DEFINITION. The graphics pipe instructions and fxfr (spec/43_fp_graphics.md). -/

namespace Sys2Proof.Machine

/-- The end of a graphics instruction (R230): the pipelined form writes fdest from the old G by its tag and stores the
new result in G; the scalar form writes fdest and leaves G alone. -/
def finishGraphics (piped : Bool) (s : State) (dest : Reg) (new : Slot) : Out :=
  if piped then andThen (s.writeSlot dest s.pipeG) fun s' => .next { s' with pipeG := new }
  else s.writeSlot dest new

/-! ## Integer add and subtract (R232, R233) -/

/-- fiadd and fisub: legal only with S = R; sums modulo 2^32 or 2^64. -/
def opInteger (piped : Bool) (f32 : Word → Word → Word) (f64 : DWord → DWord → DWord) (o : FpOps) (s : State) : Out :=
  if o.s != o.r then .next (s.raise .instruction)
  else if badSources o then .refused .unalignedFpOperand
  else
    finishGraphics piped s o.dest
      (if o.s then .dbl (f64 (s.readFd o.src1) (s.readFd o.src2)) else .sgl (f32 (s.readF o.src1) (s.readF o.src2)))

/-- `fiadd` (R232). -/
def execFiadd (o : FpOps) (s : State) : Out := opInteger false (· + ·) (· + ·) o s
/-- `pfiadd` (R232). -/
def execPfiadd (o : FpOps) (s : State) : Out := opInteger true (· + ·) (· + ·) o s
/-- `fisub`: fsrc1 - fsrc2 (R233). -/
def execFisub (o : FpOps) (s : State) : Out := opInteger false (· - ·) (· - ·) o s
/-- `pfisub` (R233). -/
def execPfisub (o : FpOps) (s : State) : Out := opInteger true (· - ·) (· - ·) o s

/-! ## Pixel merge (R236 to R238) -/

/-- MERGE shifted right, with the bits of a mask taken from the sum. -/
def mergeInto (merge r mask : DWord) (k : Nat) : DWord := ((merge >>> k) &&& ~~~mask) ||| (r &&& mask)

/-- MERGE after faddp by pixel size (R236). With PS = 3 it is undefined (93 U7): a free value (log 13). -/
def faddpMerge (ps : BitVec 2) (merge r free : DWord) : DWord :=
  if ps = 0#2 then mergeInto merge r 0xFF00FF00FF00FF00#64 8
  else if ps = 1#2 then mergeInto merge r 0xFC00FC00FC00FC00#64 6
  else if ps = 2#2 then mergeInto merge r 0xFF000000FF000000#64 8
  else free

/-- faddp and pfaddp (R236). -/
def opFaddp (piped : Bool) (o : FpOps) (s : State) : Out :=
  if oddPair o.src1 || oddPair o.src2 then .refused .unalignedFpOperand
  else
    let r := s.readFd o.src1 + s.readFd o.src2
    let s1 := if s.ps = 3#2 then s.drawn else s
    finishGraphics piped { s1 with merge := faddpMerge s.ps s.merge r s.free } o.dest (.dbl r)

/-- `faddp` (R236). -/
def execFaddp (o : FpOps) (s : State) : Out := opFaddp false o s
/-- `pfaddp` (R236). -/
def execPfaddp (o : FpOps) (s : State) : Out := opFaddp true o s

/-- faddz and pfaddz: PSR.PS is not read (R237). -/
def opFaddz (piped : Bool) (o : FpOps) (s : State) : Out :=
  if oddPair o.src1 || oddPair o.src2 then .refused .unalignedFpOperand
  else
    let r := s.readFd o.src1 + s.readFd o.src2
    finishGraphics piped { s with merge := mergeInto s.merge r 0xFFFF0000FFFF0000#64 16 } o.dest (.dbl r)

/-- `faddz` (R237). -/
def execFaddz (o : FpOps) (s : State) : Out := opFaddz false o s
/-- `pfaddz` (R237). -/
def execPfaddz (o : FpOps) (s : State) : Out := opFaddz true o s

/-- form and pform: fsrc2 is not read (R238). -/
def opForm (piped : Bool) (o : FpOps) (s : State) : Out :=
  if oddPair o.src1 then .refused .unalignedFpOperand
  else finishGraphics piped { s with merge := 0#64 } o.dest (.dbl (s.readFd o.src1 ||| s.merge))

/-- `form` (R238). -/
def execForm (o : FpOps) (s : State) : Out := opForm false o s
/-- `pform` (R238). -/
def execPform (o : FpOps) (s : State) : Out := opForm true o s

/-! ## Z-buffer check (R240, R241) -/

/-- The smaller of two `w`-bit unsigned fields, b when they are equal: field `i` of fzchks and fzchkl. -/
def minField (w : Nat) (a b : DWord) (i : Nat) : BitVec w :=
  if (b.extractLsb' (w * i) w).toNat ≤ (a.extractLsb' (w * i) w).toNat then b.extractLsb' (w * i) w
  else a.extractLsb' (w * i) w

/-- The result of fzchks: four 16-bit minima (R240). -/
def fzchksValue (a b : DWord) : DWord := minField 16 a b 3 ++ minField 16 a b 2 ++ minField 16 a b 1 ++ minField 16 a b 0

/-- The result of fzchkl: two 32-bit minima (R241). -/
def fzchklValue (a b : DWord) : DWord := minField 32 a b 1 ++ minField 32 a b 0

/-- The four Z checks: PM, MERGE with P_FZCHK_CLEARS_MERGE, and the write-out. -/
def opZcheck (piped : Bool) (value : DWord → DWord → DWord) (mask : BitVec 8 → DWord → DWord → BitVec 8) (o : FpOps)
    (s : State) : Out :=
  if oddPair o.src1 || oddPair o.src2 then .refused .unalignedFpOperand
  else
    let a := s.readFd o.src1
    let b := s.readFd o.src2
    let s1 := s.setPM (mask s.pm a b)
    finishGraphics piped { s1 with merge := if s.par.fzchkClearsMerge then 0#64 else s.merge } o.dest (.dbl (value a b))

/-- `fzchks` (R240). -/
def execFzchks (o : FpOps) (s : State) : Out := opZcheck false fzchksValue fzchksPM o s
/-- `pfzchks` (R240). -/
def execPfzchks (o : FpOps) (s : State) : Out := opZcheck true fzchksValue fzchksPM o s
/-- `fzchkl` (R241). -/
def execFzchkl (o : FpOps) (s : State) : Out := opZcheck false fzchklValue fzchklPM o s
/-- `pfzchkl` (R241). -/
def execPfzchkl (o : FpOps) (s : State) : Out := opZcheck true fzchklValue fzchklPM o s

/-! ## Transfer to the integer file (R245) -/

/-- `fxfr`: the destination field names an integer register (R245). -/
def execFxfr (o : FpOps) (s : State) : Out := .next (s.writeReg o.dest (s.readF o.src1))

end Sys2Proof.Machine
end

