-- ==== Sys2Proof/Machine/IntegerAlu.lean ====
section
/-! DEFINITION. The integer arithmetic, shift and logical instructions (spec/44_integer_alu.md). Operands are read
before anything is written, and the destination is written last (R250). -/

namespace Sys2Proof.Machine

/-! ## The shared rules, on the operands a (src1) and b (src2) -/

/-- The four add and subtract instructions: result, CC and OF (R250). -/
def writeArith (s : State) (dest : Reg) (result : Word) (cc ovf : Bool) : Out :=
  .next (((s.setCC cc).setOF ovf).writeReg dest result)

/-- The logical instructions: result, and CC by R269. -/
def writeLogic (s : State) (dest : Reg) (result : Word) : Out :=
  .next ((s.setCC (zeroCC result)).writeReg dest result)

/-- R251. -/
def opAddu (s : State) (dest : Reg) (a b : Word) : Out :=
  writeArith s dest (a + b) (adduCarry a b) (adduCarry a b)

/-- R252: src1 - src2. -/
def opSubu (s : State) (dest : Reg) (a b : Word) : Out :=
  writeArith s dest (a - b) (subuNoBorrow a b) (!subuNoBorrow a b)

/-- R253. -/
def opAdds (s : State) (dest : Reg) (a b : Word) : Out :=
  writeArith s dest (a + b) (addsCC a b) (addsOverflow a b)

/-- R254: src1 - src2. -/
def opSubs (s : State) (dest : Reg) (a b : Word) : Out :=
  writeArith s dest (a - b) (subsCC a b) (subsOverflow a b)

/-- A shift count: the low five bits (R260). -/
def shiftCount (a : Word) : Nat := (a.extractLsb' 0 5).toNat

/-- R260. -/
def opShl (s : State) (dest : Reg) (a b : Word) : Out := .next (s.writeReg dest (b <<< shiftCount a))

/-- R261: SC receives the count, whatever the destination. -/
def opShr (s : State) (dest : Reg) (a b : Word) : Out :=
  .next ((s.setSC (a.extractLsb' 0 5)).writeReg dest (b >>> shiftCount a))

/-- R262. -/
def opShra (s : State) (dest : Reg) (a b : Word) : Out := .next (s.writeReg dest (b.sshiftRight (shiftCount a)))

/-- R263: the 64-bit value a:b shifted right by SC. -/
def opShrd (s : State) (dest : Reg) (a b : Word) : Out :=
  .next (s.writeReg dest (lowWord ((a ++ b : DWord) >>> s.sc.toNat)))

/-! ## The meanings -/

/-- `addu` REG (R251). -/
def execAdduReg (o : RegOps) (s : State) : Out := opAddu s o.dest (s.readReg o.src1) (s.readReg o.src2)
/-- `addu` IMM (R251). -/
def execAdduImm (o : ImmOps) (s : State) : Out := opAddu s o.dest (simm16 o.imm) (s.readReg o.src2)
/-- `subu` REG (R252). -/
def execSubuReg (o : RegOps) (s : State) : Out := opSubu s o.dest (s.readReg o.src1) (s.readReg o.src2)
/-- `subu` IMM (R252). -/
def execSubuImm (o : ImmOps) (s : State) : Out := opSubu s o.dest (simm16 o.imm) (s.readReg o.src2)
/-- `adds` REG (R253). -/
def execAddsReg (o : RegOps) (s : State) : Out := opAdds s o.dest (s.readReg o.src1) (s.readReg o.src2)
/-- `adds` IMM (R253). -/
def execAddsImm (o : ImmOps) (s : State) : Out := opAdds s o.dest (simm16 o.imm) (s.readReg o.src2)
/-- `subs` REG (R254). -/
def execSubsReg (o : RegOps) (s : State) : Out := opSubs s o.dest (s.readReg o.src1) (s.readReg o.src2)
/-- `subs` IMM (R254). -/
def execSubsImm (o : ImmOps) (s : State) : Out := opSubs s o.dest (simm16 o.imm) (s.readReg o.src2)

/-- `shl` REG (R260). -/
def execShlReg (o : RegOps) (s : State) : Out := opShl s o.dest (s.readReg o.src1) (s.readReg o.src2)
/-- `shl` IMM (R260). -/
def execShlImm (o : ImmOps) (s : State) : Out := opShl s o.dest (simm16 o.imm) (s.readReg o.src2)
/-- `shr` REG (R261). -/
def execShrReg (o : RegOps) (s : State) : Out := opShr s o.dest (s.readReg o.src1) (s.readReg o.src2)
/-- `shr` IMM (R261). -/
def execShrImm (o : ImmOps) (s : State) : Out := opShr s o.dest (simm16 o.imm) (s.readReg o.src2)
/-- `shra` REG (R262). -/
def execShraReg (o : RegOps) (s : State) : Out := opShra s o.dest (s.readReg o.src1) (s.readReg o.src2)
/-- `shra` IMM (R262). -/
def execShraImm (o : ImmOps) (s : State) : Out := opShra s o.dest (simm16 o.imm) (s.readReg o.src2)
/-- `shrd` (R263). -/
def execShrd (o : RegOps) (s : State) : Out := opShrd s o.dest (s.readReg o.src1) (s.readReg o.src2)

/-- `and` REG (R270). -/
def execAndReg (o : RegOps) (s : State) : Out := writeLogic s o.dest (s.readReg o.src1 &&& s.readReg o.src2)
/-- `and` IMM (R270). -/
def execAndImm (o : ImmOps) (s : State) : Out := writeLogic s o.dest (uimm16 o.imm &&& s.readReg o.src2)
/-- `andh` (R271). -/
def execAndh (o : ImmOps) (s : State) : Out := writeLogic s o.dest (himm16 o.imm &&& s.readReg o.src2)
/-- `andnot` REG: src1 is complemented (R272). -/
def execAndnotReg (o : RegOps) (s : State) : Out := writeLogic s o.dest (~~~s.readReg o.src1 &&& s.readReg o.src2)
/-- `andnot` IMM: the complement is taken after the zero extension (R272). -/
def execAndnotImm (o : ImmOps) (s : State) : Out := writeLogic s o.dest (~~~uimm16 o.imm &&& s.readReg o.src2)
/-- `andnoth` (R273). -/
def execAndnoth (o : ImmOps) (s : State) : Out := writeLogic s o.dest (~~~himm16 o.imm &&& s.readReg o.src2)
/-- `or` REG (R274). -/
def execOrReg (o : RegOps) (s : State) : Out := writeLogic s o.dest (s.readReg o.src1 ||| s.readReg o.src2)
/-- `or` IMM (R274). -/
def execOrImm (o : ImmOps) (s : State) : Out := writeLogic s o.dest (uimm16 o.imm ||| s.readReg o.src2)
/-- `orh` (R275). -/
def execOrh (o : ImmOps) (s : State) : Out := writeLogic s o.dest (himm16 o.imm ||| s.readReg o.src2)
/-- `xor` REG (R276). -/
def execXorReg (o : RegOps) (s : State) : Out := writeLogic s o.dest (s.readReg o.src1 ^^^ s.readReg o.src2)
/-- `xor` IMM (R276). -/
def execXorImm (o : ImmOps) (s : State) : Out := writeLogic s o.dest (uimm16 o.imm ^^^ s.readReg o.src2)
/-- `xorh` (R277). -/
def execXorh (o : ImmOps) (s : State) : Out := writeLogic s o.dest (himm16 o.imm ^^^ s.readReg o.src2)

end Sys2Proof.Machine
end

