-- ==== Sys2Proof/Machine/LoadStore.lean ====
section
/-! DEFINITION. The integer loads and stores, the floating loads and stores, the pipelined loads, the pixel store,
flush and ixfr (spec/46_load_store.md). What follows an access runs only when it did not exit early, so a faulting
access writes no register, no pipe and no PSR field but the trap bit (R310). -/

namespace Sys2Proof.Machine

/-! ## The shared rules, on an effective address -/

/-- ld.b (R312). -/
def opLdb (s : State) (dest : Reg) (eff : Word) : Out :=
  s.load 1 eff fun s' v => .next (s'.writeReg dest (v.signExtend 32))

/-- ld.s (R313). -/
def opLds (s : State) (dest : Reg) (eff : Word) : Out :=
  s.load 2 eff fun s' v => .next (s'.writeReg dest (v.signExtend 32))

/-- ld.l (R314). -/
def opLdl (s : State) (dest : Reg) (eff : Word) : Out :=
  s.load 4 eff fun s' v => .next (s'.writeReg dest v)

/-- fld.l (R320). -/
def opFldl (s : State) (dest src2 : Reg) (inc : Bool) (eff : Word) : Out :=
  s.load 4 eff fun s' v => .next (autoInc (s'.writeF dest v) inc src2 eff)

/-- fld.d (R321); an odd fdest is undefined (93 U6). -/
def opFldd (s : State) (dest src2 : Reg) (inc : Bool) (eff : Word) : Out :=
  if oddPair dest then .refused .unalignedFpOperand
  else s.load 8 eff fun s' v => .next (autoInc (s'.writeFd dest v) inc src2 eff)

/-- fld.q (R322); fdest must be a multiple of 4 (93 U6). -/
def opFldq (s : State) (dest src2 : Reg) (inc : Bool) (eff : Word) : Out :=
  if oddQuad dest then .refused .unalignedFpOperand
  else s.load 16 eff fun s' v => .next (autoInc (s'.writeFq dest v) inc src2 eff)

/-- fst.l (R323). -/
def opFstl (s : State) (dest src2 : Reg) (inc : Bool) (eff : Word) : Out :=
  s.store 4 eff (s.readF dest) fun s' => .next (autoInc s' inc src2 eff)

/-- fst.d (R324). -/
def opFstd (s : State) (dest src2 : Reg) (inc : Bool) (eff : Word) : Out :=
  if oddPair dest then .refused .unalignedFpOperand
  else s.store 8 eff (s.readFd dest) fun s' => .next (autoInc s' inc src2 eff)

/-- fst.q (R325). -/
def opFstq (s : State) (dest src2 : Reg) (inc : Bool) (eff : Word) : Out :=
  if oddQuad dest then .refused .unalignedFpOperand
  else s.store 16 eff (s.readFq dest) fun s' => .next (autoInc s' inc src2 eff)

/-- After a pfld's access: fdest receives the oldest load by its tag, the new one enters the pipe, and the
auto-increment follows (R326). -/
def finishPfld (dest src2 : Reg) (inc : Bool) (eff : Word) (s : State) (v : Slot) : Out :=
  andThen (s.writeSlot dest (s.pipeL.last false)) fun s' =>
    .next (autoInc { s' with pipeL := s'.pipeL.push false v } inc src2 eff)

/-- pfld.l (R326). -/
def opPfldl (s : State) (dest src2 : Reg) (inc : Bool) (eff : Word) : Out :=
  s.load 4 eff fun s' v => finishPfld dest src2 inc eff s' (.sgl v)

/-- pfld.d (R327). -/
def opPfldd (s : State) (dest src2 : Reg) (inc : Bool) (eff : Word) : Out :=
  s.load 8 eff fun s' v => finishPfld dest src2 inc eff s' (.dbl v)

/-! ## Integer loads and stores -/

/-- `ld.b` REG (R312). -/
def execLdbReg (o : RegOps) (s : State) : Out := opLdb s o.dest (regEff s o.src1 o.src2)
/-- `ld.b` IMM (R312). -/
def execLdbImm (o : ImmOps) (s : State) : Out := opLdb s o.dest (dispEff 1 s o.src2 o.imm)
/-- `ld.s` REG (R313). -/
def execLdsReg (o : RegOps) (s : State) : Out := opLds s o.dest (regEff s o.src1 o.src2)
/-- `ld.s` IMM (R313). -/
def execLdsImm (o : ImmOps) (s : State) : Out := opLds s o.dest (dispEff 2 s o.src2 o.imm)
/-- `ld.l` REG (R314). -/
def execLdlReg (o : RegOps) (s : State) : Out := opLdl s o.dest (regEff s o.src1 o.src2)
/-- `ld.l` IMM (R314). -/
def execLdlImm (o : ImmOps) (s : State) : Out := opLdl s o.dest (dispEff 4 s o.src2 o.imm)

/-- `st.b` (R316). -/
def execStb (o : SplitOps) (s : State) : Out :=
  s.store 1 (dispEff 1 s o.src2 o.off) ((s.readReg o.src1).extractLsb' 0 8) .next
/-- `st.s` (R317). -/
def execSts (o : SplitOps) (s : State) : Out :=
  s.store 2 (dispEff 2 s o.src2 o.off) ((s.readReg o.src1).extractLsb' 0 16) .next
/-- `st.l` (R318). -/
def execStl (o : SplitOps) (s : State) : Out :=
  s.store 4 (dispEff 4 s o.src2 o.off) (s.readReg o.src1) .next

/-! ## Floating loads and stores -/

/-- `fld.l` REG (R320). -/
def execFldlReg (o : FRegOps) (s : State) : Out := opFldl s o.dest o.src2 o.inc (regEff s o.src1 o.src2)
/-- `fld.l` IMM (R320). -/
def execFldlImm (o : ImmOps) (s : State) : Out :=
  opFldl s o.dest o.src2 (o.imm.getLsbD 0) (dispEff 4 s o.src2 o.imm)
/-- `fld.d` REG (R321). -/
def execFlddReg (o : FRegOps) (s : State) : Out := opFldd s o.dest o.src2 o.inc (regEff s o.src1 o.src2)
/-- `fld.d` IMM (R321). -/
def execFlddImm (o : ImmOps) (s : State) : Out :=
  opFldd s o.dest o.src2 (o.imm.getLsbD 0) (dispEff 8 s o.src2 o.imm)
/-- `fld.q` REG (R322). -/
def execFldqReg (o : FRegOps) (s : State) : Out := opFldq s o.dest o.src2 o.inc (regEff s o.src1 o.src2)
/-- `fld.q` IMM (R322). -/
def execFldqImm (o : ImmOps) (s : State) : Out :=
  opFldq s o.dest o.src2 (o.imm.getLsbD 0) (dispEff 16 s o.src2 o.imm)
/-- `fst.l` REG (R323). -/
def execFstlReg (o : FRegOps) (s : State) : Out := opFstl s o.dest o.src2 o.inc (regEff s o.src1 o.src2)
/-- `fst.l` IMM (R323). -/
def execFstlImm (o : ImmOps) (s : State) : Out :=
  opFstl s o.dest o.src2 (o.imm.getLsbD 0) (dispEff 4 s o.src2 o.imm)
/-- `fst.d` REG (R324). -/
def execFstdReg (o : FRegOps) (s : State) : Out := opFstd s o.dest o.src2 o.inc (regEff s o.src1 o.src2)
/-- `fst.d` IMM (R324). -/
def execFstdImm (o : ImmOps) (s : State) : Out :=
  opFstd s o.dest o.src2 (o.imm.getLsbD 0) (dispEff 8 s o.src2 o.imm)
/-- `fst.q` REG (R325). -/
def execFstqReg (o : FRegOps) (s : State) : Out := opFstq s o.dest o.src2 o.inc (regEff s o.src1 o.src2)
/-- `fst.q` IMM (R325). -/
def execFstqImm (o : ImmOps) (s : State) : Out :=
  opFstq s o.dest o.src2 (o.imm.getLsbD 0) (dispEff 16 s o.src2 o.imm)

/-! ## Pipelined loads -/

/-- `pfld.l` REG (R326). -/
def execPfldlReg (o : FRegOps) (s : State) : Out := opPfldl s o.dest o.src2 o.inc (regEff s o.src1 o.src2)
/-- `pfld.l` IMM (R326). -/
def execPfldlImm (o : ImmOps) (s : State) : Out :=
  opPfldl s o.dest o.src2 (o.imm.getLsbD 0) (dispEff 4 s o.src2 o.imm)
/-- `pfld.d` REG (R327). -/
def execPflddReg (o : FRegOps) (s : State) : Out := opPfldd s o.dest o.src2 o.inc (regEff s o.src1 o.src2)
/-- `pfld.d` IMM (R327). -/
def execPflddImm (o : ImmOps) (s : State) : Out :=
  opPfldd s o.dest o.src2 (o.imm.getLsbD 0) (dispEff 8 s o.src2 o.imm)

/-! ## Pixel store, flush, ixfr -/

/-- The state after a free value is drawn if PSR.PS = 3, whose effect is undefined (93 U7; log 13). -/
def drawnForPS (s : State) : State := if s.ps = 3#2 then s.drawn else s

/-- `pst.d` (R328): the masked store, then PM, then the auto-increment. -/
def execPstd (o : ImmOps) (s : State) : Out :=
  let eff := dispEff 8 s o.src2 o.imm
  if oddPair o.dest then .refused .unalignedFpOperand
  else
    s.storeMasked eff (s.readFd o.dest) (pixelMask s.ps s.pm s.free) fun s' =>
      .next (autoInc ((drawnForPS s').setPM (pixelsLeft s.ps s.pm s.free)) (o.imm.getLsbD 0) o.src2 eff)

/-- `flush` (R330): no access and no cache effect, only the optional base update. -/
def execFlush (o : FlushOps) (s : State) : Out :=
  .next (autoInc s (o.imm.getLsbD 0) o.src2 (dispEff 16 s o.src2 o.imm))

/-- `ixfr` (R331). -/
def execIxfr (o : XferOps) (s : State) : Out := .next (s.writeF o.dest (s.readReg o.src1))

end Sys2Proof.Machine
end

