-- ==== Sys2Proof/Machine/System.lean ====
section
/-! DEFINITION. trap, intovr, lock and unlock (spec/47_control_transfer.md R350 to R352). -/

namespace Sys2Proof.Machine

/-- `trap`: raises the instruction trap; its register fields are not examined (R350). -/
def execTrap (_ : RegOps) (s : State) : Out := .next (s.raise .instruction)

/-- `intovr`: raises the instruction trap when EPSR.OF = 1, which it does not clear (R351). -/
def execIntovr (s : State) : Out := .next (if s.overflow then s.raise .instruction else s)

/-- `lock`: no effect (R352). -/
def execLock (s : State) : Out := .next s

/-- `unlock`: no effect (R352). -/
def execUnlock (s : State) : Out := .next s

end Sys2Proof.Machine
end

