-- ==== Sys2Proof/Machine/Slot.lean ====
section
/-! DEFINITION. The delay slot (spec/47_control_transfer.md R341, R349). -/

namespace Sys2Proof.Machine

/-- An instruction in a delay slot: its own meaning. A control transfer, trap or intovr there is undefined (R349,
93 U13; log 19). -/
def execSlot (i : Instr) (s : State) : Out :=
  match i with
  | .ldbReg o => execLdbReg o s
  | .ldbImm o => execLdbImm o s
  | .ixfr o => execIxfr o s
  | .stb o => execStb o s
  | .ldsReg o => execLdsReg o s
  | .ldlReg o => execLdlReg o s
  | .ldsImm o => execLdsImm o s
  | .ldlImm o => execLdlImm o s
  | .sts o => execSts o s
  | .stl o => execStl o s
  | .flddReg o => execFlddReg o s
  | .fldlReg o => execFldlReg o s
  | .fldqReg o => execFldqReg o s
  | .flddImm o => execFlddImm o s
  | .fldlImm o => execFldlImm o s
  | .fldqImm o => execFldqImm o s
  | .fstdReg o => execFstdReg o s
  | .fstlReg o => execFstlReg o s
  | .fstqReg o => execFstqReg o s
  | .fstdImm o => execFstdImm o s
  | .fstlImm o => execFstlImm o s
  | .fstqImm o => execFstqImm o s
  | .ldc o => execLdc o s
  | .flush o => execFlush o s
  | .stc o => execStc o s
  | .pstd o => execPstd o s
  | .bri _ => .refused .controlTransferInDelaySlot
  | .trap _ => .refused .trapInDelaySlot
  | .btneReg _ => .refused .controlTransferInDelaySlot
  | .btneImm _ => .refused .controlTransferInDelaySlot
  | .bteReg _ => .refused .controlTransferInDelaySlot
  | .bteImm _ => .refused .controlTransferInDelaySlot
  | .pflddReg o => execPflddReg o s
  | .pfldlReg o => execPfldlReg o s
  | .pflddImm o => execPflddImm o s
  | .pfldlImm o => execPfldlImm o s
  | .br _ => .refused .controlTransferInDelaySlot
  | .call _ => .refused .controlTransferInDelaySlot
  | .bc _ => .refused .controlTransferInDelaySlot
  | .bct _ => .refused .controlTransferInDelaySlot
  | .bnc _ => .refused .controlTransferInDelaySlot
  | .bnct _ => .refused .controlTransferInDelaySlot
  | .adduReg o => execAdduReg o s
  | .adduImm o => execAdduImm o s
  | .subuReg o => execSubuReg o s
  | .subuImm o => execSubuImm o s
  | .addsReg o => execAddsReg o s
  | .addsImm o => execAddsImm o s
  | .subsReg o => execSubsReg o s
  | .subsImm o => execSubsImm o s
  | .shlReg o => execShlReg o s
  | .shlImm o => execShlImm o s
  | .shrReg o => execShrReg o s
  | .shrImm o => execShrImm o s
  | .shraReg o => execShraReg o s
  | .shraImm o => execShraImm o s
  | .andReg o => execAndReg o s
  | .andImm o => execAndImm o s
  | .andnotReg o => execAndnotReg o s
  | .andnotImm o => execAndnotImm o s
  | .orReg o => execOrReg o s
  | .orImm o => execOrImm o s
  | .xorReg o => execXorReg o s
  | .xorImm o => execXorImm o s
  | .shrd o => execShrd o s
  | .bla _ => .refused .controlTransferInDelaySlot
  | .andh o => execAndh o s
  | .andnoth o => execAndnoth o s
  | .orh o => execOrh o s
  | .xorh o => execXorh o s
  | .pfam dpc o => execPfam dpc o s
  | .pfmam dpc o => execPfmam dpc o s
  | .pfsm dpc o => execPfsm dpc o s
  | .pfmsm dpc o => execPfmsm dpc o s
  | .fmul o => execFmul o s
  | .pfmul o => execPfmul o s
  | .fmlow o => execFmlow o s
  | .frcp o => execFrcp o s
  | .frsqr o => execFrsqr o s
  | .pfmul3 p o => execPfmul3 p o s
  | .fadd o => execFadd o s
  | .pfadd o => execPfadd o s
  | .fsub o => execFsub o s
  | .pfsub o => execPfsub o s
  | .fix o => execFix o s
  | .pfix o => execPfix o s
  | .famov o => execFamov o s
  | .pfamov o => execPfamov o s
  | .pfgt o => execPfgt o s
  | .pfle o => execPfle o s
  | .pfeq o => execPfeq o s
  | .ftrunc o => execFtrunc o s
  | .pftrunc o => execPftrunc o s
  | .fxfr o => execFxfr o s
  | .fiadd o => execFiadd o s
  | .pfiadd o => execPfiadd o s
  | .fisub o => execFisub o s
  | .pfisub o => execPfisub o s
  | .faddp o => execFaddp o s
  | .pfaddp o => execPfaddp o s
  | .faddz o => execFaddz o s
  | .pfaddz o => execPfaddz o s
  | .fzchkl o => execFzchkl o s
  | .pfzchkl o => execPfzchkl o s
  | .form o => execForm o s
  | .pform o => execPform o s
  | .fzchks o => execFzchks o s
  | .pfzchks o => execPfzchks o s
  | .lock => execLock s
  | .calli _ => .refused .controlTransferInDelaySlot
  | .intovr => .refused .trapInDelaySlot
  | .unlock => execUnlock s

/-- A word in a delay slot: one that is no instruction raises the instruction trap (30 R112). -/
def execSlotWord (w : Word) (s : State) : Out :=
  match decode w with
  | .ok i => execSlot i s
  | .error _ => .next (s.raise .instruction)

/-- The slot's fetch and its instruction, with pc at the slot; a slot whose fetch faults executes nothing (R341). -/
def runSlot (s : State) : Out :=
  let spc := s.pc + 4#32
  match (s.atPc spc).fetch spc with
  | (s', some w) => execSlotWord w s'
  | (s', none) => .next s'

/-- DelaySlot (R341): `k` is the rest of the branch, which runs unless the slot trapped. -/
def delaySlot (s : State) (k : State → Out) : Out :=
  andThen (runSlot s) fun s' =>
    let s1 := s'.atPc s.pc
    if s1.trapPending then .next { s1 with trapInDelaySlot := true } else k s1

end Sys2Proof.Machine
end

