-- ==== Sys2Proof/Machine/Control.lean ====
section
/-! DEFINITION. The control transfers (spec/47_control_transfer.md). A transfer that is taken writes pc by `jump`, which
sets `pc_updated` (R340). -/

namespace Sys2Proof.Machine

/-! ## The shared rules -/

/-- A branch without a delay slot: taken, pc receives the target; otherwise nothing is written (R340). -/
def branchIf (taken : Bool) (target : Word) (s : State) : Out := .next (if taken then s.jump target else s)

/-- A conditional delayed branch: the slot executes only when the branch is taken, and is skipped otherwise (R344). -/
def delayedIf (taken : Bool) (target : Word) (s : State) : Out :=
  if taken then delaySlot s fun s' => .next (s'.jump target) else .next (s.jump (s.pc + 8#32))

/-- The end of a call: r1 receives the address after the delay slot, pc the target (R346). -/
def link (target : Word) (s : State) : Out := .next ((s.writeReg 1#5 (s.pc + 8#32)).jump target)

/-! ## pc-relative branches -/

/-- `br` (R342). -/
def execBr (off : BitVec 26) (s : State) : Out := delaySlot s fun s' => .next (s'.jump (longTarget s'.pc off))
/-- `bc` (R343). -/
def execBc (off : BitVec 26) (s : State) : Out := branchIf s.branchCC (longTarget s.pc off) s
/-- `bnc` (R343). -/
def execBnc (off : BitVec 26) (s : State) : Out := branchIf (!s.branchCC) (longTarget s.pc off) s
/-- `bc.t` (R344). -/
def execBct (off : BitVec 26) (s : State) : Out := delayedIf s.branchCC (longTarget s.pc off) s
/-- `bnc.t` (R344). -/
def execBnct (off : BitVec 26) (s : State) : Out := delayedIf (!s.branchCC) (longTarget s.pc off) s

/-! ## Compare and branch -/

/-- `bte` REG (R353). -/
def execBteReg (o : SplitOps) (s : State) : Out :=
  branchIf (decide (s.readReg o.src1 = s.readReg o.src2)) (shortTarget s.pc o.off) s
/-- `bte` with a 5-bit immediate (R354). -/
def execBteImm (o : Split5Ops) (s : State) : Out :=
  branchIf (decide (o.imm5.setWidth 32 = s.readReg o.src2)) (shortTarget s.pc o.off) s
/-- `btne` REG (R355). -/
def execBtneReg (o : SplitOps) (s : State) : Out :=
  branchIf (decide (s.readReg o.src1 ≠ s.readReg o.src2)) (shortTarget s.pc o.off) s
/-- `btne` with a 5-bit immediate (R356). -/
def execBtneImm (o : Split5Ops) (s : State) : Out :=
  branchIf (decide (o.imm5.setWidth 32 ≠ s.readReg o.src2)) (shortTarget s.pc o.off) s

/-! ## Branch on LCC and add -/

/-- The end of `bla`, after its slot: the old LCC decides, then LCC receives the new one (R345). -/
def blaEnd (off : BitVec 16) (lccNew : Bool) (s : State) : Out :=
  .next ((s.jump (if s.lcc then shortTarget s.pc off else s.pc + 8#32)).setLCC lccNew)

/-- `bla` (R345): the add comes before the slot and stays when the slot traps. With src1 = src2 it is a no-operation
(log 15). -/
def execBla (o : SplitOps) (s : State) : Out :=
  if o.src1 = o.src2 then .next s
  else
    let a := s.readReg o.src1
    let b := s.readReg o.src2
    delaySlot (s.writeReg o.src2 (a + b)) (blaEnd o.off (blaLcc a b))

/-! ## Calls and register branches -/

/-- `call` (R346). -/
def execCall (off : BitVec 26) (s : State) : Out := delaySlot s fun s' => link (longTarget s'.pc off) s'

/-- `calli`: the target is read before the slot (R347). -/
def execCalli (src1 : Reg) (s : State) : Out := delaySlot s (link (registerTarget s src1))

/-- The end of `bri`, after its slot: the trap exit when one of the trap bits was set, then the jump (R348). -/
def briEnd (ret : Bool) (target : Word) (s : State) : Out :=
  .next ((if ret then s.trapExit else s).jump target)

/-- `bri`: the target and the trap bits are read before the slot (R348). -/
def execBri (src1 : Reg) (s : State) : Out := delaySlot s (briEnd s.anyTrapBit (registerTarget s src1))

end Sys2Proof.Machine
end

