-- ==== Sys2Proof/Machine/Dispatch.lean ====
section
/-! DEFINITION. The meaning of every instruction: one arm per constructor of Instr. -/

namespace Sys2Proof.Machine

/-- What an instruction does: the rule of the spec that its meaning cites. -/
def exec (i : Instr) (s : State) : Host.Outcome State Fault Refusal :=
  match i with
  | .ldbReg o => Sys2Proof.Machine.execLdbReg o s
  | .ldbImm o => Sys2Proof.Machine.execLdbImm o s
  | .ixfr o => Sys2Proof.Machine.execIxfr o s
  | .stb o => Sys2Proof.Machine.execStb o s
  | .ldsReg o => Sys2Proof.Machine.execLdsReg o s
  | .ldlReg o => Sys2Proof.Machine.execLdlReg o s
  | .ldsImm o => Sys2Proof.Machine.execLdsImm o s
  | .ldlImm o => Sys2Proof.Machine.execLdlImm o s
  | .sts o => Sys2Proof.Machine.execSts o s
  | .stl o => Sys2Proof.Machine.execStl o s
  | .flddReg o => Sys2Proof.Machine.execFlddReg o s
  | .fldlReg o => Sys2Proof.Machine.execFldlReg o s
  | .fldqReg o => Sys2Proof.Machine.execFldqReg o s
  | .flddImm o => Sys2Proof.Machine.execFlddImm o s
  | .fldlImm o => Sys2Proof.Machine.execFldlImm o s
  | .fldqImm o => Sys2Proof.Machine.execFldqImm o s
  | .fstdReg o => Sys2Proof.Machine.execFstdReg o s
  | .fstlReg o => Sys2Proof.Machine.execFstlReg o s
  | .fstqReg o => Sys2Proof.Machine.execFstqReg o s
  | .fstdImm o => Sys2Proof.Machine.execFstdImm o s
  | .fstlImm o => Sys2Proof.Machine.execFstlImm o s
  | .fstqImm o => Sys2Proof.Machine.execFstqImm o s
  | .ldc o => Sys2Proof.Machine.execLdc o s
  | .flush o => Sys2Proof.Machine.execFlush o s
  | .stc o => Sys2Proof.Machine.execStc o s
  | .pstd o => Sys2Proof.Machine.execPstd o s
  | .bri src1 => Sys2Proof.Machine.execBri src1 s
  | .trap o => Sys2Proof.Machine.execTrap o s
  | .btneReg o => Sys2Proof.Machine.execBtneReg o s
  | .btneImm o => Sys2Proof.Machine.execBtneImm o s
  | .bteReg o => Sys2Proof.Machine.execBteReg o s
  | .bteImm o => Sys2Proof.Machine.execBteImm o s
  | .pflddReg o => Sys2Proof.Machine.execPflddReg o s
  | .pfldlReg o => Sys2Proof.Machine.execPfldlReg o s
  | .pflddImm o => Sys2Proof.Machine.execPflddImm o s
  | .pfldlImm o => Sys2Proof.Machine.execPfldlImm o s
  | .br off => Sys2Proof.Machine.execBr off s
  | .call off => Sys2Proof.Machine.execCall off s
  | .bc off => Sys2Proof.Machine.execBc off s
  | .bct off => Sys2Proof.Machine.execBct off s
  | .bnc off => Sys2Proof.Machine.execBnc off s
  | .bnct off => Sys2Proof.Machine.execBnct off s
  | .adduReg o => Sys2Proof.Machine.execAdduReg o s
  | .adduImm o => Sys2Proof.Machine.execAdduImm o s
  | .subuReg o => Sys2Proof.Machine.execSubuReg o s
  | .subuImm o => Sys2Proof.Machine.execSubuImm o s
  | .addsReg o => Sys2Proof.Machine.execAddsReg o s
  | .addsImm o => Sys2Proof.Machine.execAddsImm o s
  | .subsReg o => Sys2Proof.Machine.execSubsReg o s
  | .subsImm o => Sys2Proof.Machine.execSubsImm o s
  | .shlReg o => Sys2Proof.Machine.execShlReg o s
  | .shlImm o => Sys2Proof.Machine.execShlImm o s
  | .shrReg o => Sys2Proof.Machine.execShrReg o s
  | .shrImm o => Sys2Proof.Machine.execShrImm o s
  | .shraReg o => Sys2Proof.Machine.execShraReg o s
  | .shraImm o => Sys2Proof.Machine.execShraImm o s
  | .andReg o => Sys2Proof.Machine.execAndReg o s
  | .andImm o => Sys2Proof.Machine.execAndImm o s
  | .andnotReg o => Sys2Proof.Machine.execAndnotReg o s
  | .andnotImm o => Sys2Proof.Machine.execAndnotImm o s
  | .orReg o => Sys2Proof.Machine.execOrReg o s
  | .orImm o => Sys2Proof.Machine.execOrImm o s
  | .xorReg o => Sys2Proof.Machine.execXorReg o s
  | .xorImm o => Sys2Proof.Machine.execXorImm o s
  | .shrd o => Sys2Proof.Machine.execShrd o s
  | .bla o => Sys2Proof.Machine.execBla o s
  | .andh o => Sys2Proof.Machine.execAndh o s
  | .andnoth o => Sys2Proof.Machine.execAndnoth o s
  | .orh o => Sys2Proof.Machine.execOrh o s
  | .xorh o => Sys2Proof.Machine.execXorh o s
  | .pfam dpc o => Sys2Proof.Machine.execPfam dpc o s
  | .pfmam dpc o => Sys2Proof.Machine.execPfmam dpc o s
  | .pfsm dpc o => Sys2Proof.Machine.execPfsm dpc o s
  | .pfmsm dpc o => Sys2Proof.Machine.execPfmsm dpc o s
  | .fmul o => Sys2Proof.Machine.execFmul o s
  | .pfmul o => Sys2Proof.Machine.execPfmul o s
  | .fmlow o => Sys2Proof.Machine.execFmlow o s
  | .frcp o => Sys2Proof.Machine.execFrcp o s
  | .frsqr o => Sys2Proof.Machine.execFrsqr o s
  | .pfmul3 p o => Sys2Proof.Machine.execPfmul3 p o s
  | .fadd o => Sys2Proof.Machine.execFadd o s
  | .pfadd o => Sys2Proof.Machine.execPfadd o s
  | .fsub o => Sys2Proof.Machine.execFsub o s
  | .pfsub o => Sys2Proof.Machine.execPfsub o s
  | .fix o => Sys2Proof.Machine.execFix o s
  | .pfix o => Sys2Proof.Machine.execPfix o s
  | .famov o => Sys2Proof.Machine.execFamov o s
  | .pfamov o => Sys2Proof.Machine.execPfamov o s
  | .pfgt o => Sys2Proof.Machine.execPfgt o s
  | .pfle o => Sys2Proof.Machine.execPfle o s
  | .pfeq o => Sys2Proof.Machine.execPfeq o s
  | .ftrunc o => Sys2Proof.Machine.execFtrunc o s
  | .pftrunc o => Sys2Proof.Machine.execPftrunc o s
  | .fxfr o => Sys2Proof.Machine.execFxfr o s
  | .fiadd o => Sys2Proof.Machine.execFiadd o s
  | .pfiadd o => Sys2Proof.Machine.execPfiadd o s
  | .fisub o => Sys2Proof.Machine.execFisub o s
  | .pfisub o => Sys2Proof.Machine.execPfisub o s
  | .faddp o => Sys2Proof.Machine.execFaddp o s
  | .pfaddp o => Sys2Proof.Machine.execPfaddp o s
  | .faddz o => Sys2Proof.Machine.execFaddz o s
  | .pfaddz o => Sys2Proof.Machine.execPfaddz o s
  | .fzchkl o => Sys2Proof.Machine.execFzchkl o s
  | .pfzchkl o => Sys2Proof.Machine.execPfzchkl o s
  | .form o => Sys2Proof.Machine.execForm o s
  | .pform o => Sys2Proof.Machine.execPform o s
  | .fzchks o => Sys2Proof.Machine.execFzchks o s
  | .pfzchks o => Sys2Proof.Machine.execPfzchks o s
  | .lock => Sys2Proof.Machine.execLock s
  | .calli src1 => Sys2Proof.Machine.execCalli src1 s
  | .intovr => Sys2Proof.Machine.execIntovr s
  | .unlock => Sys2Proof.Machine.execUnlock s

end Sys2Proof.Machine
end

