-- ==== Sys2Proof/Machine/Loop.lean ====
section
/-! DEFINITION. The step of the core (spec/40_fetch_decode_step.md R140 to R158), the host's messages
(spec/60_exceptions.md R396, R397) and the reset event (spec/70_reset_and_hazards.md R410, R411). -/

namespace Sys2Proof.Machine

/-! ## The step of the core -/

/-- Exec(w) (R150): a word that is no instruction raises the instruction trap (30 R112). -/
def execWord (w : Word) (s : State) : Out :=
  match decode w with
  | .ok i => exec i s
  | .error _ => .next (s.raise .instruction)

/-- DimFlagged(w) (R155): a floating-point word with its D bit set, or the dual-mode no-operation. -/
def dimFlagged (w : Word) : Bool := (decide (opOf w = 0x12#6) && w.getLsbD 9) || decide (w = 0xB0000200#32)

/-- The start of a step: a fresh flow word, and the compare side channel empty (R150, R160). -/
def State.beginStep (s : State) : State :=
  { s with
    trapPending := false
    trapInDelaySlot := false
    trapExternal := false
    pcUpdated := false
    exitedEarly := false
    exitingIfetch := false
    dimOp := false
    ccValid := false }

/-- Between the two halves: pc advances, and three of the flow flags are cleared (R150). -/
def State.betweenHalves (s : State) : State :=
  { s with pc := s.pc + 4#32, trapInDelaySlot := false, pcUpdated := false, exitedEarly := false }

/-- The interrupt is sampled only outside dual-instruction mode and with no trap pending (R150). -/
def State.sampleAfterHigh (s : State) : State :=
  if s.dim = .none ∧ s.trapPending = false then s.sampleInterrupt else s

/-- The trap a step takes, or the advance of pc (R150). -/
def State.trapOrAdvance (s : State) (savepc : Word) : State :=
  if s.trapPending then s.takeTrap savepc
  else if s.pcUpdated then s
  else s.atPc (s.pc + 4#32)

/-- The high half of a pair (R150). -/
def highHalf (pair : DWord) (s : State) : Out :=
  andThen (execWord (highWord pair) s) fun s' => .next (s'.sampleAfterHigh.trapOrAdvance s.pc)

/-- The low half of a pair, and the high half unless the low one trapped or wrote pc (R150). -/
def lowHalf (pair : DWord) (s : State) : Out :=
  andThen (execWord (lowWord pair) { s with dimOp := dimFlagged (lowWord pair) }) fun s' =>
    if s'.trapPending then .next (s'.takeTrap s.pc)
    else if s'.pcUpdated then .next s'
    else highHalf pair s'.betweenHalves

/-- The pair is fetched once; a fetch that faults executes nothing and traps at pc (R150, R151). -/
def runPair (s : State) : Out :=
  match s.fetchPair s.pc with
  | (s', none) => .next (s'.takeTrap s.pc)
  | (s', some pair) => if s.pc.getLsbD 2 then highHalf pair s' else lowHalf pair s'

/-- The transition of the dual-instruction mode (R156). -/
def nextDim (dim : DimState) (dimOp : Bool) : DimState :=
  match dim with
  | .none => if dimOp then .temp else .none
  | .temp => if dimOp then .full else .none
  | .full => if dimOp then .full else .temp

/-- DimTransition, at the end of every step (R156). -/
def State.dimTransition (s : State) : State := { s with dim := nextDim s.dim s.dimOp }

/-- One step of the running core (R150). -/
def coreStep (s : State) : Out := andThen (runPair s.beginStep) fun s' => .next s'.dimTransition

/-! ## Reset and the host's messages -/

/-- The reset event on a machine that has run (70 R411): `halted` and memory keep their contents, and so do the model's own
fields and the host's mailbox. -/
def State.resetEvent (s : State) : State :=
  { State.reset with
    halted := s.halted
    mailbox := s.mailbox
    drainDelay := s.drainDelay
    killed := s.killed
    mem := s.mem
    par := s.par
    freeCount := s.freeCount }

/-- Two sets of messages together: a bit that is set already stays set (60 R396). -/
def Mailbox.union (a b : Mailbox) : Mailbox where
  reset := a.reset || b.reset
  kill := a.kill || b.kill
  interrupt := a.interrupt || b.interrupt
  debugBreak := a.debugBreak || b.debugBreak
  displayBlank := a.displayBlank || b.displayBlank
  videoBlank := a.videoBlank || b.videoBlank
  halt := a.halt || b.halt
  resume := a.resume || b.resume

/-- The host posts messages (60 R396). Posted into an empty mailbox, they wait a free, finite number of steps for the drain;
posted into one that waits already, they are drained with what waits there (log 23). -/
def State.post (s : State) (m : Mailbox) : State :=
  if s.mailbox = Mailbox.empty then { s.drawn with mailbox := m, drainDelay := Config.drainDelay s.freeCount }
  else { s with mailbox := s.mailbox.union m }

/-- INTERRUPT and RESET of a drain (60 R396): of the two together, the order is free (log 23). -/
def State.drainReset (s : State) : State :=
  let s1 := if s.mailbox.reset then s.resetEvent else s
  let keeps := !s.mailbox.reset || Config.interruptAfterReset s.freeCount
  if s.mailbox.interrupt && keeps then { s1 with extIntr := true } else s1

/-- `halted` after the HALT and RESUME of a drain (60 R397): of the two together, the order is free (log 23). -/
def drainHalted (m : Mailbox) (halted haltLast : Bool) : Bool :=
  if m.halt && m.resume then haltLast else if m.halt then true else if m.resume then false else halted

/-- The drain: every message takes effect and the mailbox is cleared (60 R396, R397). DEBUG-BREAK and the two BLANK messages
have no effect on the core. -/
def State.drain (s : State) : State :=
  { s.drainReset with
    halted := drainHalted s.mailbox s.halted (Config.haltAfterResume s.freeCount)
    killed := s.killed || s.mailbox.kill
    mailbox := Mailbox.empty }

/-- Before a step: with messages posted, their wait runs down by one step, and at its end they are drained (40 R141). The
wait is a free number and a finite one (70 R430; log 23). -/
def State.hostMessages (s : State) : State :=
  if s.mailbox = Mailbox.empty then s
  else
    match s.drainDelay with
    | 0 => s.drain.drawn
    | n + 1 => { s with drainDelay := n }

/-- The step of the machine: no step after KILL (40 R165), none of the core while `halted` (R141). -/
def hostStep (s : State) : Out :=
  if s.killed then .fault .killed
  else
    let s1 := s.hostMessages
    if s1.killed || s1.halted then .next s1 else coreStep s1

/-! ## Placing an instruction where the next step fetches it (log 27) -/

/-- The pair with the word `pc` selects replaced. -/
def placeInPair (pc : Word) (pair : DWord) (w : Word) : DWord :=
  if pc.getLsbD 2 then w ++ lowWord pair else highWord pair ++ w

/-- The word stored where the fetch at pc finds it: in memory and in no cache line with translation off; in the cache line of
pc with translation on. -/
def State.placeWord (s : State) (w : Word) : State :=
  let va := alignDown s.pc 8
  if s.ate then s.icacheFill va (placeInPair s.pc ((s.icacheHit va).getD 0#64) w)
  else
    { s with
      mem := s.mem.busWrite false 4 (alignDown s.pc 4) w
      icache := s.icache.erase (s.icacheIndex va) }

/-- The core able to take its next step at once: not ended, not halted, no message waiting. -/
def State.ready (s : State) : State := { s with halted := false, killed := false, mailbox := Mailbox.empty }

end Sys2Proof.Machine
end

