-- ==== Sys2Proof/Machine/Step.lean ====
section
/-! DEFINITION. The step of the machine, and the placing of an instruction where it fetches. -/

namespace Sys2Proof.Machine

/-- One step: the host's messages, then one pair of the core (spec/40_fetch_decode_step.md R140, R141, R150). -/
def step (s : State) : Host.Outcome State Fault Refusal := hostStep s

/-- The instruction whose bits are `w` stored where `step` fetches its next instruction (log 27). -/
def State.withFetchWord (s : State) (nbits w : Nat) : State :=
  s.ready.placeWord (BitVec.ofNat 32 (w % 2 ^ nbits))

end Sys2Proof.Machine
end

