-- ==== Sys2Proof/Safety.lean ====
section
/-! DEFINITION. The terms statements are written in: what an instruction leaves as it was, which access it makes, and
the invariant of the machine. -/

namespace Sys2Proof.Machine

/-! ## What is left as it was -/

/-- Every byte of memory reads as before. -/
def SameMem (s t : State) : Prop := ∀ a, t.mem.byte a = s.mem.byte a

/-- Every byte of memory outside a set of addresses reads as before. -/
def SameMemOutside (s t : State) (stored : Nat → Prop) : Prop := ∀ a, ¬ stored a → t.mem.byte a = s.mem.byte a

/-- Every integer register reads as before. -/
def SameIregs (s t : State) : Prop := ∀ i, t.readReg i = s.readReg i

/-- Integer register `d` receives `v`, unless it is r0, and every other one reads as before (10 R10). -/
def IregSet (s t : State) (d : Reg) (v : Word) : Prop :=
  ∀ i, t.readReg i = if i = d ∧ i ≠ 0#5 then v else s.readReg i

/-- Every floating register reads as before. -/
def SameFregs (s t : State) : Prop := ∀ i, t.readF i = s.readF i

/-- Floating register `d` receives 32 bits, unless it is f0 or f1, and every other one reads as before (10 R13). -/
def FregSet (s t : State) (d : Reg) (v : Word) : Prop :=
  ∀ i, t.readF i = if i = d ∧ 2 ≤ i.toNat then v else s.readF i

/-- Floating registers `d` and `d + 1`, d even, receive the low and the high word of 64 bits, unless they are f0 and f1; every
other one reads as before (10 R13, R14). -/
def FpairSet (s t : State) (d : Reg) (v : DWord) : Prop :=
  ∀ i, t.readF i =
    if i = d ∧ 2 ≤ i.toNat then lowWord v
    else if i = d + 1#5 ∧ 2 ≤ i.toNat then highWord v
    else s.readF i

/-- Floating registers `d` to `d + 3`, d a multiple of 4, receive the four words of 128 bits, f0 and f1 excepted; every other
one reads as before (10 R13, R14). -/
def FquadSet (s t : State) (d : Reg) (v : BitVec 128) : Prop :=
  ∀ i, t.readF i =
    if i = d ∧ 2 ≤ i.toNat then v.extractLsb' 0 32
    else if i = d + 1#5 ∧ 2 ≤ i.toNat then v.extractLsb' 32 32
    else if i = d + 2#5 then v.extractLsb' 64 32
    else if i = d + 3#5 then v.extractLsb' 96 32
    else s.readF i

/-- The floating register of a destination field receives a slot's value by the slot's tag (41 R171). -/
def FslotSet (s t : State) (d : Reg) : Slot → Prop
  | .sgl v => FregSet s t d v
  | .dbl v => FpairSet s t d v

/-- A slot's value can be written to a destination field: 64 bits need an even register number (10 R14). -/
def SlotFits (d : Reg) : Slot → Prop
  | .sgl _ => True
  | .dbl _ => d.getLsbD 0 = false

/-- The source fields can be read at the source precision (10 R14). -/
def SourcesFit (o : FpOps) : Prop := o.s = true → o.src1.getLsbD 0 = false ∧ o.src2.getLsbD 0 = false

/-- A value of the result precision can be written to the destination (10 R14). -/
def ResultFits (o : FpOps) : Prop := o.r = true → o.dest.getLsbD 0 = false

/-- Every bit of the PSR outside a list is as before. -/
def PsrKept (s t : State) (bits : List Nat) : Prop := ∀ k, k ∉ bits → t.psr.getLsbD k = s.psr.getLsbD k

/-- Every bit of the EPSR outside a list is as before. -/
def EpsrKept (s t : State) (bits : List Nat) : Prop := ∀ k, k ∉ bits → t.epsr.getLsbD k = s.epsr.getLsbD k

/-- Every bit of the FSR outside a list is as before. -/
def FsrKept (s t : State) (bits : List Nat) : Prop := ∀ k, k ∉ bits → t.fsr.getLsbD k = s.fsr.getLsbD k

/-! ## Data accesses -/

/-- A data access: its size in bytes, its effective address, and whether it writes. -/
structure DataAccess where
  size : Nat
  eff : Word
  write : Bool
  deriving DecidableEq, Repr

/-- The data access an instruction makes (46 R311 to R328). -/
def dataAccess (s : State) : Instr → Option DataAccess
  | .ldbReg o => some ⟨1, regEff s o.src1 o.src2, false⟩
  | .ldbImm o => some ⟨1, dispEff 1 s o.src2 o.imm, false⟩
  | .ldsReg o => some ⟨2, regEff s o.src1 o.src2, false⟩
  | .ldsImm o => some ⟨2, dispEff 2 s o.src2 o.imm, false⟩
  | .ldlReg o => some ⟨4, regEff s o.src1 o.src2, false⟩
  | .ldlImm o => some ⟨4, dispEff 4 s o.src2 o.imm, false⟩
  | .stb o => some ⟨1, dispEff 1 s o.src2 o.off, true⟩
  | .sts o => some ⟨2, dispEff 2 s o.src2 o.off, true⟩
  | .stl o => some ⟨4, dispEff 4 s o.src2 o.off, true⟩
  | .fldlReg o => some ⟨4, regEff s o.src1 o.src2, false⟩
  | .fldlImm o => some ⟨4, dispEff 4 s o.src2 o.imm, false⟩
  | .flddReg o => some ⟨8, regEff s o.src1 o.src2, false⟩
  | .flddImm o => some ⟨8, dispEff 8 s o.src2 o.imm, false⟩
  | .fldqReg o => some ⟨16, regEff s o.src1 o.src2, false⟩
  | .fldqImm o => some ⟨16, dispEff 16 s o.src2 o.imm, false⟩
  | .fstlReg o => some ⟨4, regEff s o.src1 o.src2, true⟩
  | .fstlImm o => some ⟨4, dispEff 4 s o.src2 o.imm, true⟩
  | .fstdReg o => some ⟨8, regEff s o.src1 o.src2, true⟩
  | .fstdImm o => some ⟨8, dispEff 8 s o.src2 o.imm, true⟩
  | .fstqReg o => some ⟨16, regEff s o.src1 o.src2, true⟩
  | .fstqImm o => some ⟨16, dispEff 16 s o.src2 o.imm, true⟩
  | .pfldlReg o => some ⟨4, regEff s o.src1 o.src2, false⟩
  | .pfldlImm o => some ⟨4, dispEff 4 s o.src2 o.imm, false⟩
  | .pflddReg o => some ⟨8, regEff s o.src1 o.src2, false⟩
  | .pflddImm o => some ⟨8, dispEff 8 s o.src2 o.imm, false⟩
  | .pstd o => some ⟨8, dispEff 8 s o.src2 o.imm, true⟩
  | _ => none

/-- The data register of a floating load or store names an operand of its width (10 R14). -/
def dataRegisterFits : Instr → Bool
  | .flddReg o => !o.dest.getLsbD 0
  | .flddImm o => !o.dest.getLsbD 0
  | .fldqReg o => !o.dest.getLsbD 0 && !o.dest.getLsbD 1
  | .fldqImm o => !o.dest.getLsbD 0 && !o.dest.getLsbD 1
  | .fstdReg o => !o.dest.getLsbD 0
  | .fstdImm o => !o.dest.getLsbD 0
  | .fstqReg o => !o.dest.getLsbD 0 && !o.dest.getLsbD 1
  | .fstqImm o => !o.dest.getLsbD 0 && !o.dest.getLsbD 1
  | .pstd o => !o.dest.getLsbD 0
  | _ => true

/-- The breakpoint compare is enabled for the direction and hits at a physical address (20 R77). -/
def State.Breaks (s : State) (n : Nat) (write : Bool) (p : Word) : Prop :=
  (if write then s.psrBw else s.psrBr) = true ∧ alignDown p n = s.db

/-- An access of `n` bytes at `eff` reaches the bus at the physical address `p` without a page walk: it is aligned, translation
is off or the TLB holds the page, and no breakpoint hits (20 R75, R76). -/
def State.Resident (s : State) (n : Nat) (eff : Word) (write : Bool) (p : Word) : Prop :=
  eff.toNat % n = 0 ∧ s.physical eff true write = (s, some p) ∧ ¬ s.Breaks n write p

/-- The address of byte `i` of an access of `n` bytes at `p` in the byte order of EPSR.BE (20 R63). -/
def State.addrOf (s : State) (p : Word) (n i : Nat) : Nat :=
  (p + BitVec.ofNat 32 (if s.be then n - 1 - i else i)).toNat

/-- The value of an access of `n` bytes at `p`: byte i of it is the byte of memory at that byte's address (20 R63). -/
def State.Holds (s : State) (n : Nat) (p : Word) (v : BitVec (8 * n)) : Prop :=
  ∀ i, i < n → byteOf v i = s.mem.byte (s.addrOf p n i)

/-- An address is one of the `n` bytes from `p` up. -/
def InBytes (p : Word) (n : Nat) (a : Nat) : Prop := ∃ i, i < n ∧ a = (p + BitVec.ofNat 32 i).toNat

/-- The bytes a page walk can write: the directory entry and the table entry (20 R70). -/
def WalkBytes (s : State) (va : Word) (a : Nat) : Prop :=
  InBytes (s.pdeAddr va) 4 a ∨ InBytes (pteAddr (s.physRead32 (s.pdeAddr va)) va) 4 a

/-! ## Kinds of instructions -/

/-- The control transfers of 47 R340 to R356. -/
def isControlTransfer : Instr → Bool
  | .br _ => true
  | .call _ => true
  | .bc _ => true
  | .bct _ => true
  | .bnc _ => true
  | .bnct _ => true
  | .bteReg _ => true
  | .bteImm _ => true
  | .btneReg _ => true
  | .btneImm _ => true
  | .bla _ => true
  | .bri _ => true
  | .calli _ => true
  | _ => false

/-- trap and intovr, which may not stand in a delay slot either (47 R349). -/
def isTrapCall : Instr → Bool
  | .trap _ => true
  | .intovr => true
  | _ => false

/-- bri, the only instruction that returns from a trap (60 R386). -/
def isBri : Instr → Bool
  | .bri _ => true
  | _ => false

/-- st.c, the only instruction that writes a control register as a register (45 R290). -/
def isStc : Instr → Bool
  | .stc _ => true
  | _ => false

/-! ## The invariant -/

/-- The EPSR fields no instruction writes: TYPE, STEP and DCS (10 R22, 45 R297). -/
def epsrFixed : Word := 0x003C1FFF#32

/-- The FSR bits no instruction writes: 31:22, 16:9 and 4 (10 R26, 45 R298). -/
def fsrFixed : Word := 0xFFC1FE10#32

/-- What every reachable state of the machine is like. -/
structure Invariant (s : State) : Prop where
  /-- pc is a multiple of 4 (10 R16). -/
  pcAligned : s.pc.toNat % 4 = 0
  /-- FIR holds the address of an instruction (10 R24), or its reset value. -/
  firAligned : s.fir.toNat % 4 = 0
  /-- Memory is in canonical form. -/
  memWf : s.mem.wf = true
  /-- The TLB and the instruction cache hold one entry for a key. -/
  tlbSorted : Table.sorted s.tlb = true
  /-- As `tlbSorted`. -/
  icacheSorted : Table.sorted s.icache = true
  /-- DIRBASE.ITI reads 0 (10 R23). -/
  itiZero : s.dirbase.getLsbD 5 = false
  /-- TYPE, STEP and DCS of the EPSR keep their reset values (10 R22). -/
  epsrKept : s.epsr &&& epsrFixed = Config.resetEpsr &&& epsrFixed
  /-- The FSR bits that nothing writes keep their reset value (10 R26). -/
  fsrKept : s.fsr &&& fsrFixed = 0#32

end Sys2Proof.Machine
end

