-- ==== Sys2Proof/Certificates/Slice0/Obligations.lean ====
section
/-! DEFINITION. The statements for the provers. Each says what a rule of the spec says of an instruction or of the machine,
with what it leaves unchanged; OBLIGATIONS.json names the rules. -/

section Statements

open Sys2Proof Sys2Proof.Machine

namespace Sys2Proof.Claims

/-! ## The integer unit (44) -/

/-- An add or subtract: r[dest], CC and OF, and nothing else (44 R250). -/
def ArithLeaves (s t : State) (dest : Reg) (result : Word) (cc ovf : Prop) : Prop :=
  IregSet s t dest result ∧ (t.cc = true ↔ cc) ∧ (t.overflow = true ↔ ovf) ∧ PsrKept s t [2] ∧ EpsrKept s t [24] ∧
    SameMem s t ∧ t = { s with iregs := t.iregs, psr := t.psr, epsr := t.epsr }

/-- A logical instruction: r[dest], and CC says that the result is zero (44 R269). -/
def LogicLeaves (s t : State) (dest : Reg) (result : Word) : Prop :=
  IregSet s t dest result ∧ (t.cc = true ↔ result = 0#32) ∧ PsrKept s t [2] ∧ SameMem s t ∧
    t = { s with iregs := t.iregs, psr := t.psr }

/-- Only one integer register changes. -/
def OnlyIreg (s t : State) (dest : Reg) (result : Word) : Prop :=
  IregSet s t dest result ∧ SameMem s t ∧ t = { s with iregs := t.iregs }

/-- shr: r[dest] and SC, and nothing else (44 R261). -/
def ShrLeaves (s t : State) (dest : Reg) (count : BitVec 5) (b : Word) : Prop :=
  IregSet s t dest (b >>> count.toNat) ∧ t.sc = count ∧ PsrKept s t [17, 18, 19, 20, 21] ∧ SameMem s t ∧
    t = { s with iregs := t.iregs, psr := t.psr }

/-- addu (44 R251): the carry out of bit 31 of a + b. -/
def AdduLeaves (s t : State) (dest : Reg) (a b : Word) : Prop :=
  ArithLeaves s t dest (a + b) (2 ^ 32 ≤ a.toNat + b.toNat) (2 ^ 32 ≤ a.toNat + b.toNat)

/-- subu (44 R252). -/
def SubuLeaves (s t : State) (dest : Reg) (a b : Word) : Prop :=
  ArithLeaves s t dest (a - b) (b.toNat ≤ a.toNat) (a.toNat < b.toNat)

/-- adds (44 R253). -/
def AddsLeaves (s t : State) (dest : Reg) (a b : Word) : Prop :=
  ArithLeaves s t dest (a + b) (b.toInt < -a.toInt)
    (a.getLsbD 31 = b.getLsbD 31 ∧ (a + b).getLsbD 31 ≠ a.getLsbD 31)

/-- subs (44 R254). -/
def SubsLeaves (s t : State) (dest : Reg) (a b : Word) : Prop :=
  ArithLeaves s t dest (a - b) (a.toInt < b.toInt)
    (a.getLsbD 31 ≠ b.getLsbD 31 ∧ (a - b).getLsbD 31 ≠ a.getLsbD 31)

end Sys2Proof.Claims

open Sys2Proof.Claims

/-- 44 R251, R252: addu and subu, both forms. -/
def Obligations.UnsignedArithmetic : Prop :=
  ∀ s : State,
    (∀ o : RegOps,
      let a := s.readReg o.src1
      let b := s.readReg o.src2
      (∃ t, exec (.adduReg o) s = .next t ∧ AdduLeaves s t o.dest a b) ∧
      (∃ t, exec (.subuReg o) s = .next t ∧ SubuLeaves s t o.dest a b)) ∧
    (∀ o : ImmOps,
      let a := o.imm.signExtend 32
      let b := s.readReg o.src2
      (∃ t, exec (.adduImm o) s = .next t ∧ AdduLeaves s t o.dest a b) ∧
      (∃ t, exec (.subuImm o) s = .next t ∧ SubuLeaves s t o.dest a b))

/-- 44 R253, R254: adds and subs, both forms. -/
def Obligations.SignedArithmetic : Prop :=
  ∀ s : State,
    (∀ o : RegOps,
      let a := s.readReg o.src1
      let b := s.readReg o.src2
      (∃ t, exec (.addsReg o) s = .next t ∧ AddsLeaves s t o.dest a b) ∧
      (∃ t, exec (.subsReg o) s = .next t ∧ SubsLeaves s t o.dest a b)) ∧
    (∀ o : ImmOps,
      let a := o.imm.signExtend 32
      let b := s.readReg o.src2
      (∃ t, exec (.addsImm o) s = .next t ∧ AddsLeaves s t o.dest a b) ∧
      (∃ t, exec (.subsImm o) s = .next t ∧ SubsLeaves s t o.dest a b))

/-- 44 R279: OF of adds and subs, both forms, says that the true sum or difference does not fit in 32 bits, and CC that it is
negative. -/
def Obligations.SignedFlagsAreExact : Prop :=
  ∀ s t : State,
    let exact (trueResult : Int) : Prop :=
      (t.overflow = true ↔ trueResult < -2 ^ 31 ∨ 2 ^ 31 ≤ trueResult) ∧ (t.cc = true ↔ trueResult < 0)
    (∀ o : RegOps,
      (exec (.addsReg o) s = .next t → exact ((s.readReg o.src1).toInt + (s.readReg o.src2).toInt)) ∧
      (exec (.subsReg o) s = .next t → exact ((s.readReg o.src1).toInt - (s.readReg o.src2).toInt))) ∧
    (∀ o : ImmOps,
      (exec (.addsImm o) s = .next t → exact (o.imm.toInt + (s.readReg o.src2).toInt)) ∧
      (exec (.subsImm o) s = .next t → exact (o.imm.toInt - (s.readReg o.src2).toInt)))

/-- 44 R260 to R263: shl, shr and shra, both forms, and shrd bit by bit: bit k of its result is bit k + SC of a:b, a the high
word. -/
def Obligations.Shifts : Prop :=
  ∀ s : State,
    (∀ o : RegOps,
      let a := s.readReg o.src1
      let b := s.readReg o.src2
      let n := a.extractLsb' 0 5
      (∃ t, exec (.shlReg o) s = .next t ∧ OnlyIreg s t o.dest (b <<< n.toNat)) ∧
      (∃ t, exec (.shrReg o) s = .next t ∧ ShrLeaves s t o.dest n b) ∧
      (∃ t, exec (.shraReg o) s = .next t ∧ OnlyIreg s t o.dest (b.sshiftRight n.toNat))) ∧
    (∀ o : ImmOps,
      let b := s.readReg o.src2
      let n := o.imm.extractLsb' 0 5
      (∃ t, exec (.shlImm o) s = .next t ∧ OnlyIreg s t o.dest (b <<< n.toNat)) ∧
      (∃ t, exec (.shrImm o) s = .next t ∧ ShrLeaves s t o.dest n b) ∧
      (∃ t, exec (.shraImm o) s = .next t ∧ OnlyIreg s t o.dest (b.sshiftRight n.toNat))) ∧
    (∀ o : RegOps, ∃ t, exec (.shrd o) s = .next t ∧ SameMem s t ∧ t = { s with iregs := t.iregs } ∧
      ∀ i, (i ≠ o.dest ∨ i = 0#5 → t.readReg i = s.readReg i) ∧
        (i = o.dest ∧ i ≠ 0#5 → ∀ k, k < 32 → (t.readReg i).getLsbD k =
          if k + s.sc.toNat < 32 then (s.readReg o.src2).getLsbD (k + s.sc.toNat)
          else (s.readReg o.src1).getLsbD (k + s.sc.toNat - 32)))

/-- 44 R269 to R277: the twelve logical instructions. -/
def Obligations.Logical : Prop :=
  ∀ s : State,
    (∀ o : RegOps,
      let a := s.readReg o.src1
      let b := s.readReg o.src2
      (∃ t, exec (.andReg o) s = .next t ∧ LogicLeaves s t o.dest (a &&& b)) ∧
      (∃ t, exec (.andnotReg o) s = .next t ∧ LogicLeaves s t o.dest (~~~a &&& b)) ∧
      (∃ t, exec (.orReg o) s = .next t ∧ LogicLeaves s t o.dest (a ||| b)) ∧
      (∃ t, exec (.xorReg o) s = .next t ∧ LogicLeaves s t o.dest (a ^^^ b))) ∧
    (∀ o : ImmOps,
      let z := o.imm.setWidth 32
      let h := o.imm.setWidth 32 <<< 16
      let b := s.readReg o.src2
      (∃ t, exec (.andImm o) s = .next t ∧ LogicLeaves s t o.dest (z &&& b)) ∧
      (∃ t, exec (.andnotImm o) s = .next t ∧ LogicLeaves s t o.dest (~~~z &&& b)) ∧
      (∃ t, exec (.orImm o) s = .next t ∧ LogicLeaves s t o.dest (z ||| b)) ∧
      (∃ t, exec (.xorImm o) s = .next t ∧ LogicLeaves s t o.dest (z ^^^ b)) ∧
      (∃ t, exec (.andh o) s = .next t ∧ LogicLeaves s t o.dest (h &&& b)) ∧
      (∃ t, exec (.andnoth o) s = .next t ∧ LogicLeaves s t o.dest (~~~h &&& b)) ∧
      (∃ t, exec (.orh o) s = .next t ∧ LogicLeaves s t o.dest (h ||| b)) ∧
      (∃ t, exec (.xorh o) s = .next t ∧ LogicLeaves s t o.dest (h ^^^ b)))

/-- 10 R10, R13: r0, f0 and f1 read 0 in every state, whatever a write nominally put there. -/
def Obligations.HardWiredZeros : Prop :=
  ∀ (s : State) (v : Word) (d : DWord) (q : BitVec 128),
    s.readReg 0#5 = 0#32 ∧ s.readF 0#5 = 0#32 ∧ s.readF 1#5 = 0#32 ∧ s.readFd 0#5 = 0#64 ∧
    SameIregs s (s.writeReg 0#5 v) ∧ SameFregs s (s.writeF 0#5 v) ∧ SameFregs s (s.writeF 1#5 v) ∧
    SameFregs s (s.writeFd 0#5 d) ∧
    (∀ i, (s.writeFq 0#5 q).readF i =
      if i = 2#5 then q.extractLsb' 64 32 else if i = 3#5 then q.extractLsb' 96 32 else s.readF i)

/-! ## Control registers (45) -/

/-- 45 R292: ld.c of each of the six control registers; the FIR is read once per trap; and DIRBASE reads with ITI = 0 wherever
it is stored so, which the invariant says (`itiZero`). -/
def Obligations.ControlRegisterRead : Prop :=
  ∀ (s : State) (dest : Reg),
    (∀ creg v, (creg, v) ∈ [(1#5, s.psr), (2#5, s.dirbase), (3#5, s.db), (4#5, s.fsr), (5#5, s.epsr)] →
      ∃ t, exec (.ldc ⟨creg, dest⟩) s = .next t ∧ OnlyIreg s t dest v) ∧
    (Invariant s → ∃ t, exec (.ldc ⟨2#5, dest⟩) s = .next t ∧ (t.readReg dest).getLsbD 5 = false) ∧
    (∃ t, exec (.ldc ⟨0#5, dest⟩) s = .next t ∧ IregSet s t dest (if s.firLatched then s.fir else s.pc) ∧
      t.fir = (if s.firLatched then s.fir else s.pc) ∧ t.firLatched = false ∧ SameMem s t ∧
      t = { s with iregs := t.iregs, fir := t.fir, firLatched := t.firLatched })

/-- 45 R291: ld.c and st.c with an index outside 0 to 5 do not trap: st.c writes nothing, ld.c leaves the free value that the
model draws (log 14). -/
def Obligations.ControlRegisterOutOfRange : Prop :=
  ∀ (s : State) (creg : BitVec 5) (r : Reg), 5 < creg.toNat →
    exec (.stc ⟨creg, r⟩) s = .next s ∧
    ∃ t, exec (.ldc ⟨creg, r⟩) s = .next t ∧ IregSet s t r (lowWord s.free) ∧ SameMem s t ∧
      t = { s with iregs := t.iregs, freeCount := s.freeCount + 1 }

/-- 45 R296, R297: st.c to PSR and EPSR under their masks. A supervisor write of PSR writes all 32 bits, a user write preserves
bits 0, 1 and 4 to 15; a write of EPSR keeps bits 12:0 and 21:17, and in user mode bits 14:13 and 23:22 too. -/
def Obligations.StorePsrAndEpsr : Prop :=
  ∀ (s : State) (src1 : Reg),
    (∃ t, exec (.stc ⟨1#5, src1⟩) s = .next t ∧
      (∀ k, t.psr.getLsbD k =
        if s.user = true ∧ (k < 2 ∨ (4 ≤ k ∧ k < 16)) then s.psr.getLsbD k else (s.readReg src1).getLsbD k) ∧
      SameMem s t ∧ t = { s with psr := t.psr }) ∧
    (∃ t, exec (.stc ⟨5#5, src1⟩) s = .next t ∧
      (∀ k, t.epsr.getLsbD k =
        if k < 13 ∨ (17 ≤ k ∧ k < 22) ∨ (s.user = true ∧ (k = 13 ∨ k = 14 ∨ k = 22 ∨ k = 23)) then s.epsr.getLsbD k
        else (s.readReg src1).getLsbD k) ∧
      SameMem s t ∧ t = { s with epsr := t.epsr })

/-- 45 R295, R298, R299: st.c to DIRBASE stores every bit but ITI, which empties the TLB and the instruction cache and is stored
as 0; st.c to FSR writes bits 3:0, 8:5 and 21:17; st.c to FIR writes nothing; st.c to DB stores all 32 bits. -/
def Obligations.StoreDirbaseFsrFirAndDb : Prop :=
  ∀ (s : State) (src1 : Reg),
    (∃ t, exec (.stc ⟨2#5, src1⟩) s = .next t ∧
      (∀ k, t.dirbase.getLsbD k = if k = 5 then false else (s.readReg src1).getLsbD k) ∧
      t.tlb = (if (s.readReg src1).getLsbD 5 then [] else s.tlb) ∧
      t.icache = (if (s.readReg src1).getLsbD 5 then [] else s.icache) ∧
      SameMem s t ∧ t = { s with dirbase := t.dirbase, tlb := t.tlb, icache := t.icache }) ∧
    (∃ t, exec (.stc ⟨4#5, src1⟩) s = .next t ∧
      (∀ k, t.fsr.getLsbD k =
        if k < 4 ∨ (5 ≤ k ∧ k < 9) ∨ (17 ≤ k ∧ k < 22) then (s.readReg src1).getLsbD k else s.fsr.getLsbD k) ∧
      SameMem s t ∧ t = { s with fsr := t.fsr }) ∧
    exec (.stc ⟨0#5, src1⟩) s = .next s ∧ exec (.stc ⟨3#5, src1⟩) s = .next { s with db := s.readReg src1 }

/-! ## Memory and translation (20) -/

/-- 20 R63: a value of n bytes written to the bus: byte i stands at p + i little-endian and at p + n - 1 - i big-endian, every
other byte is as it was, and read back under the same order it is the value written, for every size and both orders. The
premise is the invariant's `memWf`, and it is kept. -/
def Obligations.MemoryRoundTrip : Prop :=
  ∀ (m : Memory) (be : Bool) (n : Nat) (p : Word) (v : BitVec (8 * n)), m.wf = true → n ∈ [1, 2, 4, 8, 16] →
    let m' := m.busWrite be n p v
    (∀ i, i < n → m'.byte (p + BitVec.ofNat 32 (if be then n - 1 - i else i)).toNat = byteOf v i) ∧
    (∀ a, ¬ InBytes p n a → m'.byte a = m.byte a) ∧ m'.busRead be n p = v ∧ m'.wf = true

namespace Sys2Proof.Claims

/-- The slot of the TLB that a direction consults for a page does not hold it (20 R68). -/
def SlotMisses (s : State) (va : Word) (isWrite : Bool) : Prop :=
  ∀ e : TlbEntry, s.tlb.lookup (2 * ((va.toNat / 2 ^ 12) % s.par.tlbSets) + (if isWrite then 1 else 0)) = some e →
    e.vpage.toNat ≠ va.toNat / 2 ^ 12

/-- The slot holds the page, in the frame of an entry. -/
def SlotHolds (s : State) (va : Word) (isWrite : Bool) (e : TlbEntry) : Prop :=
  s.tlb.lookup (2 * ((va.toNat / 2 ^ 12) % s.par.tlbSets) + (if isWrite then 1 else 0)) = some e ∧
    e.vpage.toNat = va.toNat / 2 ^ 12

end Sys2Proof.Claims

/-- 20 R66, R68: with DIRBASE.ATE = 0 the physical address is the virtual one; with ATE = 1 a TLB slot of the access direction
that holds the page gives its frame, and with P_TLB_CROSS_HIT so does the slot of the other direction when the own one does
not hold it. Nothing else happens, and nothing is checked. -/
def Obligations.TranslationWithoutWalk : Prop :=
  ∀ (s : State) (va : Word) (isData isWrite : Bool),
    let frameOf (e : TlbEntry) : Prop :=
      ∃ p, s.physical va isData isWrite = (s, some p) ∧ p.toNat = e.pframe.toNat * 2 ^ 12 + va.toNat % 2 ^ 12
    (s.dirbase.getLsbD 0 = false → s.physical va isData isWrite = (s, some va)) ∧
    (∀ e : TlbEntry, s.dirbase.getLsbD 0 = true → SlotHolds s va isWrite e → frameOf e) ∧
    (∀ e : TlbEntry, s.dirbase.getLsbD 0 = true → s.par.tlbCrossHit = true → SlotMisses s va isWrite →
      SlotHolds s va (!isWrite) e → frameOf e)

/-- 20 R68, R70: with translation on, an access whose page no slot consulted holds is translated by the walk (the other
direction's slot is consulted with P_TLB_CROSS_HIT alone). With `pde` and `pte` the two entries read, the walk raises the access
fault with nothing written when either violates the access; otherwise it sets both accessed bits, and then either raises the
fault for a clean page that is written, or fills the TLB slot and answers the frame and the offset. -/
def Obligations.PageWalk : Prop :=
  ∀ (s : State) (va : Word) (isData isWrite : Bool),
    let pdeAddr := s.pdeAddr va
    let pde := s.mem.busRead false 4 pdeAddr
    let pteAddr := Machine.pteAddr pde va
    let pte := s.mem.busRead false 4 pteAddr
    let violates (e : Word) : Prop :=
      e.getLsbD 0 = false ∨
        (isData = true ∧ isWrite = true ∧ e.getLsbD 1 = false ∧ (s.user = true ∨ s.wp = true)) ∨
        (s.user = true ∧ e.getLsbD 2 = false)
    let m := (s.mem.busWrite false 4 pdeAddr (pde ||| 0x20#32)).busWrite false 4 pteAddr (pte ||| 0x20#32)
    let fault (u : State) : State :=
      { u with psr := u.psr ||| (if isData then 0x800#32 else 0x400#32), trapPending := true }
    (s.dirbase.getLsbD 0 = true → SlotMisses s va isWrite →
      (s.par.tlbCrossHit = true → SlotMisses s va (!isWrite)) →
      s.physical va isData isWrite = s.walk va isData isWrite) ∧
    pdeAddr.toNat = s.dtb.toNat * 2 ^ 12 + (va.toNat / 2 ^ 22) * 4 ∧
    pteAddr.toNat = (pde.toNat / 2 ^ 12) * 2 ^ 12 + (va.toNat / 2 ^ 12 % 2 ^ 10) * 4 ∧
    (violates pde ∨ violates pte → s.walk va isData isWrite = (fault s, none)) ∧
    (¬ violates pde → ¬ violates pte →
      (isData = true → isWrite = true → pte.getLsbD 6 = false →
        s.walk va isData isWrite = (fault { s with mem := m }, none)) ∧
      (¬ (isData = true ∧ isWrite = true ∧ pte.getLsbD 6 = false) →
        ∃ p, s.walk va isData isWrite = (({ s with mem := m } : State).tlbFill va isWrite (pte.extractLsb' 12 20), some p) ∧
          p.toNat = (pte.toNat / 2 ^ 12) * 2 ^ 12 + va.toNat % 2 ^ 12))

/-- 20 R72: a translation that succeeded, made again, gives the same physical address and changes nothing: the second is a TLB
hit. So an access whose translation walks does what the same access does in the state the walk leaves; with this the statements
about resident accesses speak of every access that translates. -/
def Obligations.AccessAfterWalk : Prop :=
  (∀ (s t : State) (va p : Word) (isData isWrite : Bool),
    s.physical va isData isWrite = (t, some p) → t.physical va isData isWrite = (t, some p)) ∧
  (∀ (i : Instr) (s t : State) (a : DataAccess) (p : Word),
    dataAccess s i = some a → a.eff.toNat % a.size = 0 → s.physical a.eff true a.write = (t, some p) →
    dataAccess t i = some a ∧ exec i s = exec i t)

/-- 20 R79, R77, R75: what stops a data access, in order. A misaligned one raises the data-access fault and does nothing else
when P_ALIGN_CHECK is true; when it is false the result is implementation-defined, and the model refuses (log 20). An aligned
one whose translation faults leaves what the walk leaves. One that translates and hits the enabled breakpoint raises the
data-access fault and does nothing else but its translation. -/
def Obligations.DataAccessFaults : Prop :=
  ∀ (i : Instr) (s t : State) (a : DataAccess) (p : Word),
    dataAccess s i = some a → dataRegisterFits i = true →
    let fault (u : State) : State := { u with psr := u.psr ||| 0x800#32, trapPending := true, exitedEarly := true }
    (a.eff.toNat % a.size ≠ 0 →
      (s.par.alignCheck = true → exec i s = .next (fault s)) ∧
      (s.par.alignCheck = false → exec i s = .refused .misalignedUnchecked)) ∧
    (a.eff.toNat % a.size = 0 →
      (s.physical a.eff true a.write = (t, none) →
        exec i s = .next { t with exitedEarly := true } ∧ t.psr = s.psr ||| 0x800#32 ∧ t.trapPending = true ∧
          SameMemOutside s t (WalkBytes s a.eff) ∧
          t = { s with psr := t.psr, trapPending := t.trapPending, mem := t.mem }) ∧
      (s.physical a.eff true a.write = (t, some p) →
        (if a.write then s.psr.getLsbD 1 else s.psr.getLsbD 0) = true → p.toNat - p.toNat % a.size = s.db.toNat →
        exec i s = .next (fault t)))

/-- 40 R153, 46 R310: a load or store that exits early leaves every register, pipe and special register, and every PSR bit but
DAT, as they were, and every byte of memory outside the two page-table entries. -/
def Obligations.FaultingAccessIsPrecise : Prop :=
  ∀ (i : Instr) (s t : State) (a : DataAccess),
    dataAccess s i = some a → s.exitedEarly = false → exec i s = .next t → t.exitedEarly = true →
    t.psr = s.psr ||| 0x800#32 ∧ t.trapPending = true ∧
      SameMemOutside s t (WalkBytes s a.eff) ∧
      t = { s with
        psr := t.psr, trapPending := t.trapPending, exitedEarly := t.exitedEarly, mem := t.mem, tlb := t.tlb }

/-! ## Loads and stores (46) -/

namespace Sys2Proof.Claims

/-- An integer load of n bytes at `eff`, on an access that reaches the bus: r[dest] receives the sign-extended value, and
nothing else changes. -/
def IloadLeaves (i : Instr) (s : State) (n : Nat) (dest : Reg) (eff : Word) : Prop :=
  ∀ p, s.Resident n eff false p →
    ∃ (v : BitVec (8 * n)) (t : State), s.Holds n p v ∧ exec i s = .next t ∧ OnlyIreg s t dest (v.signExtend 32)

/-- The memory a store of n bytes leaves: the bytes of the value at p, in the byte order of EPSR.BE, and every other byte as it
was. -/
def StoredAt (s t : State) (n : Nat) (p : Word) (v : BitVec (8 * n)) : Prop :=
  (∀ i, i < n → t.mem.byte (s.addrOf p n i) = byteOf v i) ∧ SameMemOutside s t (InBytes p n)

/-- An integer store: only memory changes. -/
def IstoreLeaves (i : Instr) (s : State) (n : Nat) (eff : Word) (v : BitVec (8 * n)) : Prop :=
  ∀ p, s.mem.wf = true → s.Resident n eff true p →
    ∃ t, exec i s = .next t ∧ StoredAt s t n p v ∧ t = { s with mem := t.mem }

/-- The base register after an instruction with the auto-increment flag `inc`, every other integer register as it was
(46 R329). -/
def AutoInc (s t : State) (inc : Bool) (src2 : Reg) (eff : Word) : Prop :=
  if inc then IregSet s t src2 eff else SameIregs s t

/-- A floating load of n bytes: `Set` says how the value stands in the floating file. -/
def FloadLeaves (i : Instr) (s : State) (n : Nat) (set : State → BitVec (8 * n) → Prop) (inc : Bool) (src2 : Reg)
    (eff : Word) : Prop :=
  ∀ p, s.Resident n eff false p →
    ∃ (v : BitVec (8 * n)) (t : State), s.Holds n p v ∧ exec i s = .next t ∧ set t v ∧ AutoInc s t inc src2 eff ∧
      SameMem s t ∧ t = { s with iregs := t.iregs, fregs := t.fregs }

/-- A floating store of n bytes. -/
def FstoreLeaves (i : Instr) (s : State) (n : Nat) (v : BitVec (8 * n)) (inc : Bool) (src2 : Reg) (eff : Word) : Prop :=
  ∀ p, s.mem.wf = true → s.Resident n eff true p →
    ∃ t, exec i s = .next t ∧ StoredAt s t n p v ∧ AutoInc s t inc src2 eff ∧
      t = { s with mem := t.mem, iregs := t.iregs }

/-- A pipelined load: fdest receives the oldest stage of the load pipe by its tag, the pipe shifts, and the loaded value enters
it (46 R326). -/
def PloadLeaves (i : Instr) (s : State) (n : Nat) (mk : BitVec (8 * n) → Slot) (dest : Reg) (inc : Bool) (src2 : Reg)
    (eff : Word) : Prop :=
  ∀ p, s.Resident n eff false p → SlotFits dest s.pipeL.s2 →
    ∃ (v : BitVec (8 * n)) (t : State), s.Holds n p v ∧ exec i s = .next t ∧ FslotSet s t dest s.pipeL.s2 ∧
      t.pipeL = ⟨mk v, s.pipeL.s0, s.pipeL.s1⟩ ∧ AutoInc s t inc src2 eff ∧ SameMem s t ∧
      t = { s with iregs := t.iregs, fregs := t.fregs, pipeL := t.pipeL }

end Sys2Proof.Claims

/-- 46 R312, R313, R314: ld.b, ld.s and ld.l, both forms. -/
def Obligations.IntegerLoads : Prop :=
  ∀ s : State,
    (∀ o : RegOps,
      let eff := s.readReg o.src1 + s.readReg o.src2
      IloadLeaves (.ldbReg o) s 1 o.dest eff ∧ IloadLeaves (.ldsReg o) s 2 o.dest eff ∧
      IloadLeaves (.ldlReg o) s 4 o.dest eff) ∧
    (∀ o : ImmOps,
      let disp := o.imm.signExtend 32
      let base := s.readReg o.src2
      IloadLeaves (.ldbImm o) s 1 o.dest (disp + base) ∧
      IloadLeaves (.ldsImm o) s 2 o.dest ((disp &&& ~~~1#32) + base) ∧
      IloadLeaves (.ldlImm o) s 4 o.dest ((disp &&& ~~~3#32) + base))

/-- 46 R316, R317, R318: st.b, st.s and st.l. -/
def Obligations.IntegerStores : Prop :=
  ∀ (s : State) (o : SplitOps),
    let disp := o.off.signExtend 32
    let base := s.readReg o.src2
    let data := s.readReg o.src1
    IstoreLeaves (.stb o) s 1 (disp + base) (data.extractLsb' 0 8) ∧
    IstoreLeaves (.sts o) s 2 ((disp &&& ~~~1#32) + base) (data.extractLsb' 0 16) ∧
    IstoreLeaves (.stl o) s 4 ((disp &&& ~~~3#32) + base) data

/-- 46 R320, R321, R322, R329: fld.l, fld.d and fld.q, both forms, with the auto-increment, by the ordinary rule when src1 = src2
too (log 15). -/
def Obligations.FloatLoads : Prop :=
  ∀ s : State,
    (∀ o : FRegOps,
      let eff := s.readReg o.src1 + s.readReg o.src2
      FloadLeaves (.fldlReg o) s 4 (fun t v => FregSet s t o.dest v) o.inc o.src2 eff ∧
      (o.dest.getLsbD 0 = false →
        FloadLeaves (.flddReg o) s 8 (fun t v => FpairSet s t o.dest v) o.inc o.src2 eff) ∧
      (o.dest.getLsbD 0 = false → o.dest.getLsbD 1 = false →
        FloadLeaves (.fldqReg o) s 16 (fun t v => FquadSet s t o.dest v) o.inc o.src2 eff)) ∧
    (∀ o : ImmOps,
      let disp := o.imm.signExtend 32
      let base := s.readReg o.src2
      let inc := o.imm.getLsbD 0
      FloadLeaves (.fldlImm o) s 4 (fun t v => FregSet s t o.dest v) inc o.src2 ((disp &&& ~~~3#32) + base) ∧
      (o.dest.getLsbD 0 = false →
        FloadLeaves (.flddImm o) s 8 (fun t v => FpairSet s t o.dest v) inc o.src2 ((disp &&& ~~~7#32) + base)) ∧
      (o.dest.getLsbD 0 = false → o.dest.getLsbD 1 = false →
        FloadLeaves (.fldqImm o) s 16 (fun t v => FquadSet s t o.dest v) inc o.src2 ((disp &&& ~~~15#32) + base)))

/-- 46 R323, R324, R325, R329: fst.l, fst.d and fst.q, both forms, with the auto-increment, by the ordinary rule when src1 = src2
too (log 15). -/
def Obligations.FloatStores : Prop :=
  ∀ s : State,
    (∀ o : FRegOps,
      let eff := s.readReg o.src1 + s.readReg o.src2
      let f (k : BitVec 5) := s.readF (o.dest + k)
      FstoreLeaves (.fstlReg o) s 4 (s.readF o.dest) o.inc o.src2 eff ∧
      (o.dest.getLsbD 0 = false → FstoreLeaves (.fstdReg o) s 8 (f 1#5 ++ f 0#5) o.inc o.src2 eff) ∧
      (o.dest.getLsbD 0 = false → o.dest.getLsbD 1 = false →
        FstoreLeaves (.fstqReg o) s 16 (f 3#5 ++ f 2#5 ++ f 1#5 ++ f 0#5) o.inc o.src2 eff)) ∧
    (∀ o : ImmOps,
      let disp := o.imm.signExtend 32
      let base := s.readReg o.src2
      let inc := o.imm.getLsbD 0
      let f (k : BitVec 5) := s.readF (o.dest + k)
      FstoreLeaves (.fstlImm o) s 4 (s.readF o.dest) inc o.src2 ((disp &&& ~~~3#32) + base) ∧
      (o.dest.getLsbD 0 = false →
        FstoreLeaves (.fstdImm o) s 8 (f 1#5 ++ f 0#5) inc o.src2 ((disp &&& ~~~7#32) + base)) ∧
      (o.dest.getLsbD 0 = false → o.dest.getLsbD 1 = false →
        FstoreLeaves (.fstqImm o) s 16 (f 3#5 ++ f 2#5 ++ f 1#5 ++ f 0#5) inc o.src2 ((disp &&& ~~~15#32) + base)))

/-- 46 R326, R327, R329: pfld.l and pfld.d, both forms, by the ordinary rule when src1 = src2 too (log 15). -/
def Obligations.PipelinedLoads : Prop :=
  ∀ s : State,
    (∀ o : FRegOps,
      let eff := s.readReg o.src1 + s.readReg o.src2
      PloadLeaves (.pfldlReg o) s 4 (fun v => .sgl v) o.dest o.inc o.src2 eff ∧
      PloadLeaves (.pflddReg o) s 8 (fun v => .dbl v) o.dest o.inc o.src2 eff) ∧
    (∀ o : ImmOps,
      let disp := o.imm.signExtend 32
      let base := s.readReg o.src2
      let inc := o.imm.getLsbD 0
      PloadLeaves (.pfldlImm o) s 4 (fun v => .sgl v) o.dest inc o.src2 ((disp &&& ~~~3#32) + base) ∧
      PloadLeaves (.pflddImm o) s 8 (fun v => .dbl v) o.dest inc o.src2 ((disp &&& ~~~7#32) + base))

/-- 46 R328: pst.d. Byte k of the eight at p (counted upward, whatever the byte order) is stored when the PM bit of its pixel
is set, and PM shifts by the pixels stored. With PS = 3 mask and PM are the free value the model draws (93 U7, log 13). -/
def Obligations.PixelStore : Prop :=
  ∀ (s : State) (o : ImmOps) (p : Word),
    let eff := (o.imm.signExtend 32 &&& ~~~7#32) + s.readReg o.src2
    let v := s.readF (o.dest + 1#5) ++ s.readF o.dest
    let stores (k : Nat) : Bool :=
      if s.ps = 0#2 then s.pm.getLsbD k
      else if s.ps = 1#2 then s.pm.getLsbD (k / 2)
      else if s.ps = 2#2 then s.pm.getLsbD (k / 4)
      else s.free.getLsbD k
    o.dest.getLsbD 0 = false → s.mem.wf = true → s.Resident 8 eff true p →
    ∃ t, exec (.pstd o) s = .next t ∧
      (∀ k, k < 8 → stores k = true →
        t.mem.byte (p + BitVec.ofNat 32 k).toNat = byteOf v (if s.be then 7 - k else k)) ∧
      SameMemOutside s t (fun a => ∃ k, k < 8 ∧ stores k = true ∧ a = (p + BitVec.ofNat 32 k).toNat) ∧
      t.pm = (if s.ps = 0#2 then 0#8 else if s.ps = 1#2 then s.pm >>> 4 else if s.ps = 2#2 then s.pm >>> 2
        else s.free.extractLsb' 8 8) ∧
      PsrKept s t [24, 25, 26, 27, 28, 29, 30, 31] ∧ AutoInc s t (o.imm.getLsbD 0) o.src2 eff ∧
      t.freeCount = (if s.ps = 3#2 then s.freeCount + 1 else s.freeCount) ∧
      t = { s with mem := t.mem, psr := t.psr, iregs := t.iregs, freeCount := t.freeCount }

/-- 46 R330, R331, 43 R245: flush only updates its base register; ixfr and fxfr move 32 bits between the files. -/
def Obligations.FlushAndTransfers : Prop :=
  ∀ s : State,
    (∀ o : FlushOps, ∃ t, exec (.flush o) s = .next t ∧
      AutoInc s t (o.imm.getLsbD 0) o.src2 ((o.imm.signExtend 32 &&& ~~~15#32) + s.readReg o.src2) ∧ SameMem s t ∧
      t = { s with iregs := t.iregs }) ∧
    (∀ o : XferOps, ∃ t, exec (.ixfr o) s = .next t ∧ FregSet s t o.dest (s.readReg o.src1) ∧ SameMem s t ∧
      t = { s with fregs := t.fregs }) ∧
    (∀ o : FpOps, ∃ t, exec (.fxfr o) s = .next t ∧ OnlyIreg s t o.dest (s.readF o.src1))

/-! ## Control transfer (47) -/

namespace Sys2Proof.Claims

/-- A branch that is taken: pc and `pc_updated`, and nothing else. -/
def Jumped (s : State) (target : Word) : State := { s with pc := target, pcUpdated := true }

/-- A branch target: pc + 4 + 4 * offset (47 R340). -/
def target {w : Nat} (s : State) (off : BitVec w) : Word := s.pc + 4#32 + off.signExtend 32 * 4#32

end Sys2Proof.Claims

/-- 47 R343, R344, R353 to R356: the conditional branches. bc, bnc, bte and btne have no slot; bc.t and bnc.t skip the slot when
they are not taken, and jump after it, when it did not trap, when they are. That bc.t and bnc.t run in dual-instruction mode
too is the model's choice (log 16). -/
def Obligations.ConditionalBranches : Prop :=
  ∀ s : State,
    let cc := if s.ccValid then s.ccRaw else s.psr.getLsbD 2
    (∀ off,
      exec (.bc off) s = .next (if cc = true then Jumped s (target s off) else s) ∧
      exec (.bnc off) s = .next (if cc = true then s else Jumped s (target s off))) ∧
    (∀ off : BitVec 26,
      (cc = false → exec (.bct off) s = .next (Jumped s (s.pc + 8#32))) ∧
      (cc = true → exec (.bnct off) s = .next (Jumped s (s.pc + 8#32))) ∧
      (∀ u, runSlot s = .next u → u.trapPending = false →
        (cc = true → exec (.bct off) s = .next (Jumped u (target s off))) ∧
        (cc = false → exec (.bnct off) s = .next (Jumped u (target s off))))) ∧
    (∀ o : SplitOps,
      exec (.bteReg o) s = .next (if s.readReg o.src1 = s.readReg o.src2 then Jumped s (target s o.off) else s) ∧
      exec (.btneReg o) s = .next (if s.readReg o.src1 = s.readReg o.src2 then s else Jumped s (target s o.off))) ∧
    (∀ o : Split5Ops,
      exec (.bteImm o) s = .next (if o.imm5.toNat = (s.readReg o.src2).toNat then Jumped s (target s o.off) else s) ∧
      exec (.btneImm o) s = .next (if o.imm5.toNat = (s.readReg o.src2).toNat then s else Jumped s (target s o.off)))

/-- 47 R342, R346, R347: br, call and calli run the slot and jump when it did not trap; the calls write r1 with the address
after the slot, and calli reads its target before the slot. The model
executes calli of r1 by the ordinary rule too (log 15), and any of them in dual-instruction mode (log 16). -/
def Obligations.DelayedJumps : Prop :=
  ∀ s u : State, runSlot s = .next u → u.trapPending = false →
    (∀ off, exec (.br off) s = .next (Jumped u (target s off))) ∧
    (∀ off, ∃ t, exec (.call off) s = .next t ∧ IregSet u t 1#5 (s.pc + 8#32) ∧ SameMem u t ∧
      t = { Jumped u (target s off) with iregs := t.iregs }) ∧
    (∀ src1, ∃ t, exec (.calli src1) s = .next t ∧ IregSet u t 1#5 (s.pc + 8#32) ∧ SameMem u t ∧
      t = { Jumped u (s.readReg src1 &&& 0xFFFFFFFC#32) with iregs := t.iregs })

/-- 47 R345: bla adds before the slot, branches on the LCC the slot leaves, and then writes LCC; with src1 = src2 it is a
no-operation, which the model executes as the rule says although 30 R121 would have a model refuse it (log 15). That it runs
in dual-instruction mode too is the model's choice (log 16). -/
def Obligations.BranchOnLccAndAdd : Prop :=
  ∀ (s : State) (o : SplitOps),
    let a := s.readReg o.src1
    let b := s.readReg o.src2
    (o.src1 = o.src2 → exec (.bla o) s = .next s) ∧
    (o.src1 ≠ o.src2 → ∀ u, runSlot (s.writeReg o.src2 (a + b)) = .next u → u.trapPending = false →
      ∃ t, exec (.bla o) s = .next t ∧
        t.pc = (if u.psr.getLsbD 3 then target s o.off else s.pc + 8#32) ∧
        (t.lcc = true ↔ -a.toInt ≤ b.toInt) ∧ PsrKept u t [3] ∧ SameMem u t ∧
        t = { u with pc := t.pc, pcUpdated := true, psr := t.psr })

/-- 47 R348, 60 R386: bri jumps after its slot; when one of the five trap bits was set before the slot it is a trap return:
U and IM come back from PU and PIM, bits 14:8 of the PSR are cleared, and the snapshot is restored. That it runs in
dual-instruction mode too is the model's choice (log 16). -/
def Obligations.IndirectBranch : Prop :=
  ∀ (s u : State) (src1 : Reg), runSlot s = .next u → u.trapPending = false →
    let t := Jumped u (s.readReg src1 &&& 0xFFFFFFFC#32)
    (s.psr &&& 0x1F00#32 = 0#32 → exec (.bri src1) s = .next t) ∧
    (s.psr &&& 0x1F00#32 ≠ 0#32 → ∃ psr : Word,
      exec (.bri src1) s = .next { t with
        psr := psr, firLatched := false, dim := u.snapDim, dimOp := u.snapDimOp, ccValid := u.snapCcValid,
        ccRaw := u.snapCc } ∧
      ∀ k, psr.getLsbD k =
        if k = 6 then u.psr.getLsbD 7 else if k = 4 then u.psr.getLsbD 5
        else if 8 ≤ k ∧ k < 15 then false else u.psr.getLsbD k)

/-- 47 R342 to R348: the delayed branches complete with a no-operation (30 R126) in the slot, held by the instruction cache:
nothing changes but pc, `pc_updated`, and what the branch itself writes. That they run in dual-instruction mode too is the
model's choice (log 16), and so is calli of r1 (log 15). -/
def Obligations.DelayedBranchesComplete : Prop :=
  ∀ (s : State) (pair : DWord),
    s.icacheHit (alignDown (s.pc + 4#32) 8) = some pair → selectWord (s.pc + 4#32) pair = 0xA0000000#32 →
    s.trapPending = false →
    let cc := if s.ccValid then s.ccRaw else s.psr.getLsbD 2
    let jumps (i : Instr) (target : Word) : Prop := exec i s = .next (Jumped s target)
    let calls (i : Instr) (target : Word) : Prop :=
      ∃ t, exec i s = .next t ∧ IregSet s t 1#5 (s.pc + 8#32) ∧ SameMem s t ∧
        t = { Jumped s target with iregs := t.iregs }
    (∀ off, jumps (.br off) (target s off) ∧ calls (.call off) (target s off) ∧
      jumps (.bct off) (if cc = true then target s off else s.pc + 8#32) ∧
      jumps (.bnct off) (if cc = true then s.pc + 8#32 else target s off)) ∧
    (∀ src1, calls (.calli src1) (s.readReg src1 &&& 0xFFFFFFFC#32) ∧
      (s.psr &&& 0x1F00#32 = 0#32 → jumps (.bri src1) (s.readReg src1 &&& 0xFFFFFFFC#32))) ∧
    (∀ o : SplitOps, o.src1 ≠ o.src2 →
      ∃ t, exec (.bla o) s = .next t ∧ IregSet s t o.src2 (s.readReg o.src1 + s.readReg o.src2) ∧
        t.pc = (if s.psr.getLsbD 3 then target s o.off else s.pc + 8#32) ∧
        (t.lcc = true ↔ -(s.readReg o.src1).toInt ≤ (s.readReg o.src2).toInt) ∧ PsrKept s t [3] ∧ SameMem s t ∧
        t = { s with iregs := t.iregs, pc := t.pc, pcUpdated := true, psr := t.psr })

/-- 47 R341: a delayed branch whose slot traps is abandoned: pc is back at the branch, and neither the link register, nor LCC,
nor the PSR is written by the branch. That a delayed branch runs in dual-instruction mode too is the model's choice
(log 16), and so is calli of r1 (log 15). -/
def Obligations.TrapInSlot : Prop :=
  ∀ s u : State, u.trapPending = true →
    let t : State := { u with pc := s.pc, trapInDelaySlot := true }
    (runSlot s = .next u →
      (∀ off, exec (.br off) s = .next t ∧ exec (.call off) s = .next t ∧
        (s.branchCC = true → exec (.bct off) s = .next t) ∧ (s.branchCC = false → exec (.bnct off) s = .next t)) ∧
      (∀ src1, exec (.calli src1) s = .next t ∧ exec (.bri src1) s = .next t)) ∧
    (∀ o : SplitOps, o.src1 ≠ o.src2 →
      runSlot (s.writeReg o.src2 (s.readReg o.src1 + s.readReg o.src2)) = .next u → exec (.bla o) s = .next t)

/-- 47 R341, R349: what runs in a delay slot: the instruction of the word at pc + 4, with pc there. A word that is no
instruction raises the instruction trap, a fetch that faults runs nothing, and a control transfer, trap or intovr, which the
spec leaves undefined there, is refused (log 19). -/
def Obligations.SlotRunsInstruction : Prop :=
  ∀ s u : State,
    (∀ w, ({ s with pc := s.pc + 4#32 } : State).fetch (s.pc + 4#32) = (u, some w) →
      (∀ i, decode w = .ok i →
        (isControlTransfer i = true → runSlot s = .refused .controlTransferInDelaySlot) ∧
        (isTrapCall i = true → runSlot s = .refused .trapInDelaySlot) ∧
        (isControlTransfer i = false → isTrapCall i = false → runSlot s = exec i u)) ∧
      (∀ e, decode w = .error e → runSlot s = .next { u with psr := u.psr ||| 0x100#32, trapPending := true })) ∧
    (({ s with pc := s.pc + 4#32 } : State).fetch (s.pc + 4#32) = (u, none) → runSlot s = .next u)

/-- 47 R350, R351, R352: trap and intovr with OF = 1 raise the instruction trap and do nothing else; intovr with OF = 0, lock
and unlock have no effect. -/
def Obligations.TrapAndLock : Prop :=
  ∀ s : State,
    let raised : State := { s with psr := s.psr ||| 0x100#32, trapPending := true }
    (∀ o, exec (.trap o) s = .next raised) ∧
    (s.epsr.getLsbD 24 = true → exec .intovr s = .next raised) ∧
    (s.epsr.getLsbD 24 = false → exec .intovr s = .next s) ∧
    exec .lock s = .next s ∧ exec .unlock s = .next s

/-! ## Floating point (41, 42, 43) -/

namespace Sys2Proof.Claims

/-- A source operand at the source precision. -/
def src (s : State) (dbl : Bool) (i : Reg) : Slot :=
  if dbl then .dbl (s.readF (i + 1#5) ++ s.readF i) else .sgl (s.readF i)

/-- A scalar instruction (41 R170): fdest receives the result, and nothing else changes. -/
def ScalarLeaves (i : Instr) (s : State) (dest : Reg) (new : Slot) : Prop :=
  ∃ t, exec i s = .next t ∧ FslotSet s t dest new ∧ SameMem s t ∧ t = { s with fregs := t.fregs }

/-- fadd and fsub (41 R172): as `ScalarLeaves`, and with P_SCALAR_FADD_ADVANCES the adder pipe shifts. -/
def ScalarAddLeaves (i : Instr) (s : State) (dest : Reg) (new : Slot) : Prop :=
  ∃ t, exec i s = .next t ∧ FslotSet s t dest new ∧ SameMem s t ∧
    t.pipeA = (if s.par.scalarFaddAdvances then ⟨new, s.pipeA.s0, s.pipeA.s1⟩ else s.pipeA) ∧
    t = { s with fregs := t.fregs, pipeA := t.pipeA }

/-- The second operand of a pipelined instruction (41 R174), `last` the pipe's last stage. -/
def src2OrLast (s : State) (o : FpOps) (last : Slot) : Slot :=
  if o.dest = o.src2 ∧ o.dest ≠ 0#5 ∧ o.dest ≠ 1#5 then last.cvt s.rm o.s else src s o.s o.src2

/-- A pipelined instruction of the adder pipe (41 R171). -/
def AdderLeaves (i : Instr) (s : State) (dest : Reg) (new : Slot) : Prop :=
  ∃ t, exec i s = .next t ∧ FslotSet s t dest s.pipeA.s2 ∧ SameMem s t ∧
    t = { s with fregs := t.fregs, pipeA := ⟨new, s.pipeA.s0, s.pipeA.s1⟩ }

/-- A pipelined instruction of the multiplier pipe with three stages. -/
def Multiplier3Leaves (i : Instr) (s : State) (dest : Reg) (new : Slot) : Prop :=
  ∃ t, exec i s = .next t ∧ FslotSet s t dest s.pipeM.s2 ∧ SameMem s t ∧
    t = { s with fregs := t.fregs, pipeM := ⟨new, s.pipeM.s0, s.pipeM.s1⟩ }

/-- A pipelined instruction of the multiplier pipe with two stages: the third is neither read nor written (41 R175). -/
def Multiplier2Leaves (i : Instr) (s : State) (dest : Reg) (new : Slot) : Prop :=
  ∃ t, exec i s = .next t ∧ FslotSet s t dest s.pipeM.s1 ∧ SameMem s t ∧
    t = { s with fregs := t.fregs, pipeM := ⟨new, s.pipeM.s0, s.pipeM.s2⟩ }

/-- The precision combination `.ds`. -/
def Ds (o : FpOps) : Prop := o.s = true ∧ o.r = false

end Sys2Proof.Claims

/-- 41 R170, R172, R173, R175: fadd, fsub and fmul. -/
def Obligations.ScalarArithmetic : Prop :=
  ∀ (s : State) (o : FpOps), ¬ Ds o → SourcesFit o → ResultFits o →
    let value (op : Config.FpOp) := fpArith op s.rm o.r (src s o.s o.src1) (src s o.s o.src2)
    ScalarAddLeaves (.fadd o) s o.dest (value .add) ∧ ScalarAddLeaves (.fsub o) s o.dest (value .sub) ∧
    ScalarLeaves (.fmul o) s o.dest (value .mul)

/-- 41 R171, R174: pfadd, pfsub, pfmul and pfmul3.dd: fdest receives the last stage, the pipe shifts, and the result of the
operands enters it, the second one forwarded from the last stage when fdest = fsrc2. -/
def Obligations.PipelinedArithmetic : Prop :=
  ∀ (s : State) (o : FpOps), ¬ Ds o → SourcesFit o →
    let value (op : Config.FpOp) (last : Slot) := fpArith op s.rm o.r (src s o.s o.src1) (src2OrLast s o last)
    (SlotFits o.dest s.pipeA.s2 →
      AdderLeaves (.pfadd o) s o.dest (value .add s.pipeA.s2) ∧
      AdderLeaves (.pfsub o) s o.dest (value .sub s.pipeA.s2)) ∧
    (SlotFits o.dest s.pipeM.s2 →
      (o.s = false → Multiplier3Leaves (.pfmul o) s o.dest (value .mul s.pipeM.s2)) ∧
      (o.s = true → Multiplier3Leaves (.pfmul3 true o) s o.dest (value .mul s.pipeM.s2))) ∧
    (SlotFits o.dest s.pipeM.s1 → o.s = true → Multiplier2Leaves (.pfmul o) s o.dest (value .mul s.pipeM.s1))

/-- 41 R184, R185: fix and ftrunc write the rounded integer to fdest and an unspecified word to fdest + 1, and the pipelined
forms insert both; the integer is rounded under FSR.RM, or toward zero. Where the source is NaN, infinite or, before rounding,
out of range, the integer too is unspecified (93 U4, log 9). -/
def Obligations.ConvertToInteger : Prop :=
  ∀ (s : State) (o : FpOps), o.r = true → (o.s = true → o.src1.getLsbD 0 = false) →
    let scalar (i : Instr) (rm : BitVec 2) : Prop :=
      ∃ (t : State) (v : DWord), exec i s = .next t ∧ FpairSet s t o.dest v ∧
        (∀ n, (src s o.s o.src1).fix rm = some n → lowWord v = n) ∧ SameMem s t ∧
        t = { s with fregs := t.fregs, freeCount := s.freeCount + 1 }
    let piped (i : Instr) (rm : BitVec 2) : Prop :=
      ∃ (t : State) (v : DWord), exec i s = .next t ∧ FslotSet s t o.dest s.pipeA.s2 ∧
        (∀ n, (src s o.s o.src1).fix rm = some n → lowWord v = n) ∧ SameMem s t ∧
        t = { s with
          fregs := t.fregs, pipeA := ⟨.dbl v, s.pipeA.s0, s.pipeA.s1⟩, freeCount := s.freeCount + 1 }
    (o.dest.getLsbD 0 = false → scalar (.fix o) s.rm ∧ scalar (.ftrunc o) 3#2) ∧
    (SlotFits o.dest s.pipeA.s2 → piped (.pfix o) s.rm ∧ piped (.pftrunc o) 3#2)

/-- 41 R186: famov and pfamov, every precision combination; at equal precision bit for bit. -/
def Obligations.Moves : Prop :=
  ∀ (s : State) (o : FpOps), (o.s = true → o.src1.getLsbD 0 = false) →
    let new := (src s o.s o.src1).cvt s.rm o.r
    (ResultFits o → ScalarLeaves (.famov o) s o.dest new) ∧
    (SlotFits o.dest s.pipeA.s2 → AdderLeaves (.pfamov o) s o.dest new) ∧
    (o.s = o.r → new = src s o.s o.src1)

/-- 41 R189: pfgt, pfle and pfeq write CC and the side channel, and advance the adder pipe with an unspecified value of the
source precision. A relation is false of an unordered pair (a NaN operand of either precision), so pfgt and pfeq clear CC then
and pfle sets it. -/
def Obligations.Compares : Prop :=
  ∀ (s : State) (o : FpOps), SourcesFit o → SlotFits o.dest s.pipeA.s2 →
    let holds (rel : Config.FpRel) := fpCompare rel s.rm o.s (src s o.s o.src1) (src s o.s o.src2)
    let leaves (i : Instr) (c : Bool) : Prop :=
      ∃ (t : State) (v : DWord), exec i s = .next t ∧ FslotSet s t o.dest s.pipeA.s2 ∧
        t.pipeA = ⟨if o.s then .dbl v else .sgl (lowWord v), s.pipeA.s0, s.pipeA.s1⟩ ∧
        t.cc = c ∧ t.ccRaw = c ∧ t.ccValid = true ∧ PsrKept s t [2] ∧ SameMem s t ∧
        t = { s with
          fregs := t.fregs, pipeA := t.pipeA, psr := t.psr, ccRaw := t.ccRaw, ccValid := t.ccValid,
          freeCount := s.freeCount + 1 }
    leaves (.pfgt o) (holds .gt) ∧ leaves (.pfle o) (!holds .le) ∧ leaves (.pfeq o) (holds .eq) ∧
    (o.s = false → ∀ r, r = o.src1 ∨ r = o.src2 →
      (s.readF r).extractLsb' 23 8 = 0xFF#8 → (s.readF r).extractLsb' 0 23 ≠ 0#23 → ∀ rel, holds rel = false) ∧
    (o.s = true → ∀ r, r = o.src1 ∨ r = o.src2 →
      (s.readF (r + 1#5)).extractLsb' 20 11 = 0x7FF#11 →
      (s.readF (r + 1#5)).extractLsb' 0 20 ≠ 0#20 ∨ s.readF r ≠ 0#32 → ∀ rel, holds rel = false)

/-- 41 R178: fmlow.dd: bits 52:0 of the integer product; bits 63:53 are any value (93 U8, log 11). -/
def Obligations.MultiplyLow : Prop :=
  ∀ (s : State) (o : FpOps), o.s = true → o.r = true → SourcesFit o → ResultFits o →
    let a := s.readF (o.src1 + 1#5) ++ s.readF o.src1
    let b := s.readF (o.src2 + 1#5) ++ s.readF o.src2
    ∃ (t : State) (v : DWord), exec (.fmlow o) s = .next t ∧ FpairSet s t o.dest v ∧
      v.toNat % 2 ^ 53 = a.toNat * b.toNat % 2 ^ 53 ∧ SameMem s t ∧
      t = { s with fregs := t.fregs, freeCount := s.freeCount + 1 }

/-- 41 R180, R181: frcp and frsqr on a valid operand, `v` with its low mantissa bits cleared, and on an invalid one, with
P_FP_TRAPS_ENABLED false and true. -/
def Obligations.Approximations : Prop :=
  ∀ (s : State) (o : FpOps), ¬ Ds o → (o.s = true → o.src2.getLsbD 0 = false) →
    let v := src s o.s o.src2
    let one : Slot := if o.s then .dbl 0x3FF0000000000000#64 else .sgl 0x3F800000#32
    let done (i : Instr) (q : Slot) : Prop :=
      ∃ t, exec i s = .next t ∧ FslotSet s t o.dest (q.reduced.cvt s.rm o.r) ∧ t.fsr.getLsbD 8 = false ∧
        FsrKept s t [8] ∧ SameMem s t ∧ t = { s with fregs := t.fregs, fsr := t.fsr }
    let invalid (i : Instr) : Prop :=
      (s.par.fpTrapsEnabled = false → exec i s = .next s) ∧
      (s.par.fpTrapsEnabled = true → s.fsr.getLsbD 5 = false → exec i s = .next { s with fsr := s.fsr ||| 0x100#32 }) ∧
      (s.par.fpTrapsEnabled = true → s.fsr.getLsbD 5 = true →
        exec i s = .next { s with fsr := s.fsr ||| 0x100#32, psr := s.psr ||| 0x1000#32, trapPending := true })
    (v.isZero = false → ResultFits o → done (.frcp o) (fpArith .div s.rm o.s one v.reduced)) ∧
    (v.isZero = true → invalid (.frcp o)) ∧
    (v.isZero = false → v.sign = false → ResultFits o →
      done (.frsqr o) (fpArith .div s.rm o.s one (fpArith .sqrt s.rm o.s v.reduced v.reduced))) ∧
    (v.isZero = true ∨ v.sign = true → invalid (.frsqr o))

namespace Sys2Proof.Claims

/-- The value of an operand source of a dual operation (42 R212): `lastM` and `lastA` are the last stages before the
instruction, and for pfmam and pfmsm (`isM`) the multiplier pipe stands for the adder pipe. -/
def dualOperand (s : State) (o : FpOps) (isM : Bool) (lastA lastM : Slot) : Source → Slot
  | .src1 => src s o.s o.src1
  | .src2 => src s o.s o.src2
  | .kr => if o.s then .dbl s.kr else .sgl (s.kr.extractLsb' 0 32)
  | .ki => if o.s then .dbl s.ki else .sgl (s.ki.extractLsb' 0 32)
  | .t => if o.s then .dbl s.t else .sgl (s.t.extractLsb' 0 32)
  | .mpipe => lastM.cvt s.rm o.s
  | .apipe => if isM then lastM.cvt s.rm o.s else lastA.cvt s.rm o.s

/-- The 64-bit store of KR, KI or T after a load of a slot's value: a single value leaves the upper half unspecified
(42 R214). -/
def Stored (v : Slot) (d : DWord) : Prop :=
  match v with
  | .sgl w => d.extractLsb' 0 32 = w
  | .dbl w => d = w

/-- The routing table by its fields (42 R211): the sources of the multiplier and of the adder. -/
def mOp1 (dpc : Nat) : Source :=
  if dpc = 9 ∨ dpc = 11 ∨ dpc = 13 ∨ dpc = 15 then .src1
  else if dpc / 4 % 2 = 0 then .kr else .ki

/-- The second multiplier source. -/
def mOp2 (dpc : Nat) : Source := if dpc = 8 ∨ dpc = 10 ∨ dpc = 12 ∨ dpc = 14 then .apipe else .src2

/-- The first adder source. -/
def aOp1 (dpc : Nat) : Source :=
  if dpc = 9 then .apipe
  else if dpc = 1 ∨ dpc = 3 ∨ dpc = 5 ∨ dpc = 7 ∨ dpc = 11 ∨ dpc = 13 ∨ dpc = 15 then .t
  else .src1

/-- The second adder source. -/
def aOp2 (dpc : Nat) : Source :=
  if dpc = 8 ∨ dpc = 10 ∨ dpc = 12 ∨ dpc = 14 then .src2
  else if dpc = 2 ∨ dpc = 3 ∨ dpc = 6 ∨ dpc = 7 ∨ dpc = 11 ∨ dpc = 15 then .apipe
  else .mpipe

/-- The row loads T. -/
def tLoads (dpc : Nat) : Bool := dpc == 2 || dpc == 3 || dpc == 6 || dpc == 7 || dpc == 8 || dpc == 11 || dpc == 12

/-- The row loads the K register it multiplies with. -/
def kLoads (dpc : Nat) : Bool := dpc == 1 || dpc == 3 || dpc == 5 || dpc == 7

/-- A K load of a dual-operation instruction: the register holds fsrc1 as it was with the operands (40 R153) or as it is
after the write-out of fdest (the order of 42 R212). The two are one value unless fdest overlaps fsrc1 (log 36). -/
def KLoaded (s t : State) (o : FpOps) (k : DWord) : Prop := Stored (src s o.s o.src1) k ∨ Stored (src t o.s o.src1) k

/-- A dual-operation instruction (42 R212). -/
def DualLeaves (i : Instr) (s : State) (isM : Bool) (addOp : Config.FpOp) (dpc : Nat) (o : FpOps) : Prop :=
  let lastA := s.pipeA.s2
  let lastM := if o.s then s.pipeM.s1 else s.pipeM.s2
  let val := dualOperand s o isM lastA lastM
  let newM := fpArith .mul s.rm o.r (val (mOp1 dpc)) (val (mOp2 dpc))
  let newA := fpArith addOp s.rm o.r (val (aOp1 dpc)) (val (aOp2 dpc))
  let out := if isM then lastM else lastA
  SlotFits o.dest out →
    ∃ t, exec i s = .next t ∧ FslotSet s t o.dest out ∧
      t.pipeA = ⟨newA, s.pipeA.s0, s.pipeA.s1⟩ ∧
      t.pipeM = (if o.s then ⟨newM, s.pipeM.s0, s.pipeM.s2⟩ else ⟨newM, s.pipeM.s0, s.pipeM.s1⟩) ∧
      (if tLoads dpc then Stored lastM t.t else t.t = s.t) ∧
      (if kLoads dpc = true ∧ mOp1 dpc = .kr then KLoaded s t o t.kr else t.kr = s.kr) ∧
      (if kLoads dpc = true ∧ mOp1 dpc = .ki then KLoaded s t o t.ki else t.ki = s.ki) ∧
      SameMem s t ∧
      t = { s with
        fregs := t.fregs, pipeA := t.pipeA, pipeM := t.pipeM, t := t.t, kr := t.kr, ki := t.ki,
        freeCount := t.freeCount }

end Sys2Proof.Claims

/-- 42 R211, R212, R214: the four dual-operation instructions, for the sixteen routings. Where fdest overlaps fsrc1,
40 R153 and 42 R212 differ on what a K load stores, and the statement leaves it open between the two (log 36). -/
def Obligations.DualOperations : Prop :=
  ∀ (s : State) (dpc : BitVec 4) (o : FpOps), ¬ Ds o → SourcesFit o →
    DualLeaves (.pfam dpc o) s false .add dpc.toNat o ∧ DualLeaves (.pfmam dpc o) s true .add dpc.toNat o ∧
    DualLeaves (.pfsm dpc o) s false .sub dpc.toNat o ∧ DualLeaves (.pfmsm dpc o) s true .sub dpc.toNat o

namespace Sys2Proof.Claims

/-- The scalar and the pipelined form of a graphics instruction that writes the PSR, MERGE and the free-value counter as
given (43 R230): the scalar form writes fdest, the pipelined one writes fdest from G by its tag, whatever the width of
the new result (log 35), and stores the result in G. -/
def GraphicsLeaves (scalar piped : Instr) (s : State) (dest : Reg) (new : Slot) (psr : Word) (merge : DWord)
    (freeCount : Nat) : Prop :=
  (SlotFits dest new → ∃ t, exec scalar s = .next t ∧ FslotSet s t dest new ∧ SameMem s t ∧
    t = { s with fregs := t.fregs, psr := psr, merge := merge, freeCount := freeCount }) ∧
  (SlotFits dest s.pipeG → ∃ t, exec piped s = .next t ∧ FslotSet s t dest s.pipeG ∧ SameMem s t ∧
    t = { s with fregs := t.fregs, pipeG := new, psr := psr, merge := merge, freeCount := freeCount })

/-- A 64-bit operand. -/
def pair (s : State) (i : Reg) : DWord := s.readF (i + 1#5) ++ s.readF i

end Sys2Proof.Claims

/-- 43 R230, R232, R233: fiadd, fisub and their pipelined forms, modulo 2^32 or 2^64. -/
def Obligations.GraphicsAdd : Prop :=
  ∀ (s : State) (o : FpOps), o.s = o.r → SourcesFit o →
    let sum : Slot := if o.s then .dbl (pair s o.src1 + pair s o.src2) else .sgl (s.readF o.src1 + s.readF o.src2)
    let diff : Slot := if o.s then .dbl (pair s o.src1 - pair s o.src2) else .sgl (s.readF o.src1 - s.readF o.src2)
    GraphicsLeaves (.fiadd o) (.pfiadd o) s o.dest sum s.psr s.merge s.freeCount ∧
    GraphicsLeaves (.fisub o) (.pfisub o) s o.dest diff s.psr s.merge s.freeCount

/-- 43 R236, R237, R238: faddp, faddz and form, and their pipelined forms. With PS = 3 the MERGE of faddp is the free value
the model draws (93 U7, log 13). That a pipelined form writes an odd fdest when the old G is a single is read from R230
(log 35). -/
def Obligations.PixelMerge : Prop :=
  ∀ (s : State) (o : FpOps), o.src1.getLsbD 0 = false →
    (o.src2.getLsbD 0 = false →
      let r := pair s o.src1 + pair s o.src2
      let merged : DWord :=
        if s.ps = 0#2 then (s.merge >>> 8 &&& 0x00FF00FF00FF00FF#64) ||| (r &&& 0xFF00FF00FF00FF00#64)
        else if s.ps = 1#2 then (s.merge >>> 6 &&& 0x03FF03FF03FF03FF#64) ||| (r &&& 0xFC00FC00FC00FC00#64)
        else if s.ps = 2#2 then (s.merge >>> 8 &&& 0x00FFFFFF00FFFFFF#64) ||| (r &&& 0xFF000000FF000000#64)
        else s.free
      GraphicsLeaves (.faddp o) (.pfaddp o) s o.dest (.dbl r) s.psr merged
        (if s.ps = 3#2 then s.freeCount + 1 else s.freeCount) ∧
      GraphicsLeaves (.faddz o) (.pfaddz o) s o.dest (.dbl r) s.psr
        ((s.merge >>> 16 &&& 0x0000FFFF0000FFFF#64) ||| (r &&& 0xFFFF0000FFFF0000#64)) s.freeCount) ∧
    GraphicsLeaves (.form o) (.pform o) s o.dest (.dbl (pair s o.src1 ||| s.merge)) s.psr 0#64 s.freeCount

/-- 43 R240, R241: fzchks, fzchkl and their pipelined forms: field by field the smaller value, and in PM one bit for each
field, above the bits that were shifted right. That a pipelined form writes an odd fdest when the old G is a single is read
from R230 (log 35). -/
def Obligations.ZBufferCheck : Prop :=
  ∀ (s : State) (o : FpOps), o.src1.getLsbD 0 = false → o.src2.getLsbD 0 = false →
    let a := pair s o.src1
    let b := pair s o.src2
    let merge := if s.par.fzchkClearsMerge then 0#64 else s.merge
    (∃ (psr : Word) (r : DWord),
      (∀ i, i < 4 → (r.extractLsb' (16 * i) 16).toNat =
        min (b.extractLsb' (16 * i) 16).toNat (a.extractLsb' (16 * i) 16).toNat) ∧
      (∀ k, k < 24 → psr.getLsbD k = s.psr.getLsbD k) ∧
      (∀ k, k < 4 → psr.getLsbD (24 + k) = s.psr.getLsbD (28 + k)) ∧
      (∀ i, i < 4 → (psr.getLsbD (28 + i) = true ↔
        (b.extractLsb' (16 * i) 16).toNat ≤ (a.extractLsb' (16 * i) 16).toNat)) ∧
      GraphicsLeaves (.fzchks o) (.pfzchks o) s o.dest (.dbl r) psr merge s.freeCount) ∧
    (∃ (psr : Word) (r : DWord),
      (∀ i, i < 2 → (r.extractLsb' (32 * i) 32).toNat =
        min (b.extractLsb' (32 * i) 32).toNat (a.extractLsb' (32 * i) 32).toNat) ∧
      (∀ k, k < 24 → psr.getLsbD k = s.psr.getLsbD k) ∧
      (∀ k, k < 6 → psr.getLsbD (24 + k) = s.psr.getLsbD (26 + k)) ∧
      (∀ i, i < 2 → (psr.getLsbD (30 + i) = true ↔
        (b.extractLsb' (32 * i) 32).toNat ≤ (a.extractLsb' (32 * i) 32).toNat)) ∧
      GraphicsLeaves (.fzchkl o) (.pfzchkl o) s o.dest (.dbl r) psr merge s.freeCount)

/-- 30 R120: the precision combinations that raise the instruction trap, with no other effect. -/
def Obligations.IllegalPrecisionTraps : Prop :=
  ∀ (s : State) (o : FpOps),
    let traps (i : Instr) : Prop := exec i s = .next { s with psr := s.psr ||| 0x100#32, trapPending := true }
    (o.s = true → o.r = false →
      traps (.fadd o) ∧ traps (.pfadd o) ∧ traps (.fsub o) ∧ traps (.pfsub o) ∧ traps (.fmul o) ∧ traps (.pfmul o) ∧
      traps (.frcp o) ∧ traps (.frsqr o) ∧
      ∀ dpc, traps (.pfam dpc o) ∧ traps (.pfmam dpc o) ∧ traps (.pfsm dpc o) ∧ traps (.pfmsm dpc o)) ∧
    (o.r = false → traps (.fix o) ∧ traps (.pfix o) ∧ traps (.ftrunc o) ∧ traps (.pftrunc o)) ∧
    (o.s ≠ o.r → traps (.fiadd o) ∧ traps (.pfiadd o) ∧ traps (.fisub o) ∧ traps (.pfisub o)) ∧
    (¬ (o.s = true ∧ o.r = true) → traps (.fmlow o) ∧ ∀ p, traps (.pfmul3 p o)) ∧
    traps (.pfmul3 false o)

namespace Sys2Proof.Claims

/-- Each of the instructions is refused for its floating operand. -/
def Refuses (s : State) (is : List Instr) : Prop := ∀ i ∈ is, exec i s = .refused .unalignedFpOperand

end Sys2Proof.Claims

/-- 10 R14, 93 U6: a 64-bit floating operand with an odd register number, or a 128-bit one whose number is no multiple of 4, is
undefined, and the model refuses it (log 18): the data register of a load or store, a source named as 64 bits (also a second
source whose place the forwarded stage takes), a scalar result of
64 bits, and the write-out of a stage that holds 64 bits (of a pipelined load, once its access reaches the bus). -/
def Obligations.UnalignedOperandRefused : Prop :=
  ∀ s : State,
    (∀ i a, dataAccess s i = some a → dataRegisterFits i = false → Refuses s [i]) ∧
    (∀ (o : FpOps) (dpc : BitVec 4),
      let odd1 := o.src1.getLsbD 0 = true
      let odd2 := o.src2.getLsbD 0 = true
      let lastM := if o.s then s.pipeM.s1 else s.pipeM.s2
      (o.s = true → (odd1 ∨ odd2 → Refuses s [.pfgt o, .pfle o, .pfeq o]) ∧ (odd1 → Refuses s [.famov o, .pfamov o])) ∧
      (o.s = true → o.r = true →
        (odd1 ∨ odd2 → Refuses s
          [.fadd o, .fsub o, .fmul o, .fmlow o, .fiadd o, .fisub o, .pfadd o, .pfsub o, .pfmul o, .pfmul3 true o, .pfiadd o,
            .pfisub o, .pfam dpc o, .pfmam dpc o, .pfsm dpc o, .pfmsm dpc o]) ∧
        (odd1 → Refuses s [.fix o, .pfix o, .ftrunc o, .pftrunc o]) ∧
        (odd2 → Refuses s [.frcp o, .frsqr o])) ∧
      (odd1 ∨ odd2 → Refuses s
        [.faddp o, .pfaddp o, .faddz o, .pfaddz o, .fzchks o, .pfzchks o, .fzchkl o, .pfzchkl o]) ∧
      (odd1 → Refuses s [.form o, .pform o]) ∧
      (o.dest.getLsbD 0 = true →
        Refuses s [.faddp o, .faddz o, .form o, .fzchks o, .fzchkl o] ∧
        (o.r = true → Refuses s [.fadd o, .fsub o, .fmul o, .famov o, .fix o, .ftrunc o] ∧
          (o.s = true → Refuses s [.fmlow o, .fiadd o, .fisub o]) ∧
          ((src s o.s o.src2).isZero = false → Refuses s [.frcp o] ∧
            ((src s o.s o.src2).sign = false → Refuses s [.frsqr o])))) ∧
      (¬ SlotFits o.dest s.pipeA.s2 →
        Refuses s [.pfamov o, .pfgt o, .pfle o, .pfeq o] ∧
        (¬ Ds o → Refuses s [.pfadd o, .pfsub o, .pfam dpc o, .pfsm dpc o]) ∧
        (o.r = true → Refuses s [.pfix o, .pftrunc o])) ∧
      (¬ SlotFits o.dest lastM → ¬ Ds o → Refuses s [.pfmul o, .pfmam dpc o, .pfmsm dpc o]) ∧
      (¬ SlotFits o.dest s.pipeM.s2 → o.s = true → o.r = true → Refuses s [.pfmul3 true o]) ∧
      (¬ SlotFits o.dest s.pipeG →
        Refuses s [.pfaddp o, .pfaddz o, .pform o, .pfzchks o, .pfzchkl o] ∧
        (o.s = o.r → Refuses s [.pfiadd o, .pfisub o]))) ∧
    (∀ (o : FRegOps) (p : Word),
      let eff := s.readReg o.src1 + s.readReg o.src2
      ¬ SlotFits o.dest s.pipeL.s2 →
        (s.Resident 4 eff false p → Refuses s [.pfldlReg o]) ∧ (s.Resident 8 eff false p → Refuses s [.pflddReg o])) ∧
    (∀ (o : ImmOps) (p : Word),
      let disp := o.imm.signExtend 32
      let base := s.readReg o.src2
      ¬ SlotFits o.dest s.pipeL.s2 →
        (s.Resident 4 ((disp &&& ~~~3#32) + base) false p → Refuses s [.pfldlImm o]) ∧
        (s.Resident 8 ((disp &&& ~~~7#32) + base) false p → Refuses s [.pflddImm o]))

namespace Sys2Proof.Claims

/-- The twelve pipelined instructions that advance the adder pipe (70 R420), of the precisions that do not trap. -/
def advancesAdder : Instr → Bool
  | .pfadd o => !(o.s && !o.r)
  | .pfsub o => !(o.s && !o.r)
  | .pfix o => o.r
  | .pftrunc o => o.r
  | .pfamov _ => true
  | .pfgt _ => true
  | .pfle _ => true
  | .pfeq _ => true
  | .pfam _ o => !(o.s && !o.r)
  | .pfsm _ o => !(o.s && !o.r)
  | .pfmam _ o => !(o.s && !o.r)
  | .pfmsm _ o => !(o.s && !o.r)
  | _ => false

/-- The fdest that receives the last stage of the adder pipe: of the twelve, pfmam and pfmsm write out the multiplier's instead
(42 R212). -/
def adderWritesTo : Instr → Option Reg
  | .pfadd o => some o.dest
  | .pfsub o => some o.dest
  | .pfix o => some o.dest
  | .pftrunc o => some o.dest
  | .pfamov o => some o.dest
  | .pfgt o => some o.dest
  | .pfle o => some o.dest
  | .pfeq o => some o.dest
  | .pfam _ o => some o.dest
  | .pfsm _ o => some o.dest
  | _ => none

end Sys2Proof.Claims

/-- 70 R420: a result that enters the adder pipe is what the third instruction after it that advances the pipe writes to its
fdest, whichever of the twelve the four are, whatever operands they have and whatever fdest the others have; a third one that
writes out the multiplier's stage (pfmam, pfmsm) shifts it out unwritten. What enters is the new first stage, which the
statements of the instructions give; of a pfadd it is given here too. -/
def Obligations.AdderLatency : Prop :=
  ∀ (s s1 s2 s3 s4 : State) (i1 i2 i3 i4 : Instr),
    advancesAdder i1 = true → advancesAdder i2 = true → advancesAdder i3 = true → advancesAdder i4 = true →
    exec i1 s = .next s1 → exec i2 s1 = .next s2 → exec i3 s2 = .next s3 → exec i4 s3 = .next s4 →
    (∀ d, adderWritesTo i4 = some d → FslotSet s3 s4 d s1.pipeA.s0) ∧
    s3.pipeA.s2 = s1.pipeA.s0 ∧ s4.pipeA.s2 = s2.pipeA.s0 ∧
    (∀ o, i1 = .pfadd o →
      s1.pipeA.s0 = fpArith .add s.rm o.r (src s o.s o.src1) (src2OrLast s o s.pipeA.s2))

/-! ## Traps and the step (40, 60) -/

/-- 60 R380: trap entry. FIR is the saved address, that of the slot for a trap in a delay slot, and the address of the next
instruction for an external interrupt. -/
def Obligations.TrapEntry : Prop :=
  ∀ (s : State) (savepc : Word), ∃ (fir psr : Word),
    s.takeTrap savepc = { s with
      fir := fir, firLatched := true, psr := psr, snapDim := s.dim, snapDimOp := s.dimOp, snapCcValid := s.ccValid,
      snapCc := s.ccRaw, dim := .none, dimOp := false, ccValid := false, pc := 0xFFFFFF00#32, trapPending := false,
      trapInDelaySlot := false, trapExternal := false, pcUpdated := false } ∧
    (s.trapExternal = true → s.pcUpdated = true → fir = s.pc) ∧
    (s.trapExternal = true → s.pcUpdated = false → fir = savepc + 4#32) ∧
    (s.trapExternal = false → s.trapInDelaySlot = true → fir = savepc + 4#32) ∧
    (s.trapExternal = false → s.trapInDelaySlot = false → fir = savepc) ∧
    ∀ k, psr.getLsbD k =
      if k = 7 then s.psr.getLsbD 6 else if k = 5 then s.psr.getLsbD 4 else if k = 6 ∨ k = 4 then false
      else s.psr.getLsbD k

/-- 60 R386: the trap return of `bri` undoes a trap entry: U, IM, the dual-instruction mode and the side channel come back, when
nothing between wrote the PSR, the snapshot or these. -/
def Obligations.TrapExitUndoesEntry : Prop :=
  ∀ (s : State) (savepc : Word),
    let t := (s.takeTrap savepc).trapExit
    t.user = s.user ∧ t.im = s.im ∧ t.dim = s.dim ∧ t.dimOp = s.dimOp ∧ t.ccValid = s.ccValid ∧ t.ccRaw = s.ccRaw ∧
    t.firLatched = false ∧ t.iregs = s.iregs ∧ t.fregs = s.fregs ∧ t.mem = s.mem ∧ t.tlb = s.tlb ∧
    (∀ k, 8 ≤ k → k < 15 → t.psr.getLsbD k = false) ∧
    (∀ k, k < 4 ∨ 15 ≤ k → t.psr.getLsbD k = s.psr.getLsbD k)

/-- 60 R392: sampling the external interrupt. -/
def Obligations.InterruptSampling : Prop :=
  ∀ s : State,
    (s.extIntr = false → ∃ epsr : Word, s.sampleInterrupt = { s with epsr := epsr } ∧
      ∀ k, epsr.getLsbD k = if k = 17 then false else s.epsr.getLsbD k) ∧
    (s.extIntr = true → s.im = false → s.sampleInterrupt = { s with extIntr := false }) ∧
    (s.extIntr = true → s.im = true → s.sampleInterrupt = { s with
      psr := s.psr ||| 0x200#32, epsr := s.epsr ||| 0x20000#32, trapPending := true, trapExternal := true,
      extIntr := false })

namespace Sys2Proof.Claims

/-- The step from `s` ends in `t`: with pc as it is when the instruction wrote it, else 4 further; then the transition of the
dual-instruction mode. -/
def EndsAt (s t : State) : Prop :=
  (t.pcUpdated = true → step s = .next t.dimTransition) ∧
  (t.pcUpdated = false → step s = .next ({ t with pc := t.pc + 4#32 } : State).dimTransition)

/-- The step from `s` after the instruction of the high half at `savepc` left `t` (40 R150, 70 R427): a trap that was raised is
taken; in dual-instruction mode no interrupt is sampled; outside it the sampling leaves `v`, whose trap, if it raised one, is
taken. -/
def EndsAfterHigh (s t : State) (savepc : Word) : Prop :=
  (t.trapPending = true → step s = .next (t.takeTrap savepc).dimTransition) ∧
  (t.trapPending = false → t.dim = .temp ∨ t.dim = .full → EndsAt s t) ∧
  (t.trapPending = false → t.dim = .none →
    let v := t.sampleInterrupt
    (v.trapPending = true → step s = .next (v.takeTrap savepc).dimTransition) ∧
    (v.trapPending = false → EndsAt s v))

/-- The step from `s` runs the word `w` of the high half in the state `u`: the instruction it decodes to, or the instruction
trap of a word that is none (30 R112). -/
def RunsHigh (s u : State) (w : Word) : Prop :=
  (∀ i, decode w = .ok i →
    (∀ t, exec i u = .next t → EndsAfterHigh s t u.pc) ∧ (∀ r, exec i u = .refused r → step s = .refused r)) ∧
  (∀ e, decode w = .error e →
    step s = .next (({ u with psr := u.psr ||| 0x100#32, trapPending := true } : State).takeTrap u.pc).dimTransition)

end Sys2Proof.Claims

/-- 40 R150, R151: a step of a running core with no message waiting runs the decoded instruction. With the pair of pc fetched
and the word pc selects decoding to `i`, the step is `exec i`: in the high half, then what `EndsAfterHigh` says; in the low half,
then the trap, or the end of the step after a transfer, or, with pc at the next word and three of the flow flags cleared, the
high half. A step whose fetch faults executes no instruction and takes the trap: FIR is the address in pc, and no register
changes. What the sampling, the trap entry and the mode transition do, InterruptSampling, TrapEntry and DualInstructionMode
say. -/
def Obligations.StepRunsDecoded : Prop :=
  ∀ s u : State, s.killed = false → s.halted = false → s.mailbox = Mailbox.empty →
    (∀ (pair : DWord) (i : Instr),
      s.beginStep.fetchPair s.pc = (u, some pair) → decode (selectWord s.pc pair) = .ok i →
      (s.pc.getLsbD 2 = true →
        (∀ t, exec i u = .next t → EndsAfterHigh s t s.pc) ∧ (∀ r, exec i u = .refused r → step s = .refused r)) ∧
      (s.pc.getLsbD 2 = false →
        let u' : State := { u with dimOp := dimFlagged (lowWord pair) }
        (∀ t, exec i u' = .next t → t.trapPending = true → step s = .next (t.takeTrap s.pc).dimTransition) ∧
        (∀ t, exec i u' = .next t → t.trapPending = false → t.pcUpdated = true → step s = .next t.dimTransition) ∧
        (∀ t, exec i u' = .next t → t.trapPending = false → t.pcUpdated = false →
          RunsHigh s
            { t with pc := t.pc + 4#32, trapInDelaySlot := false, pcUpdated := false, exitedEarly := false }
            (highWord pair)) ∧
        (∀ r, exec i u' = .refused r → step s = .refused r))) ∧
    (s.beginStep.fetchPair s.pc = (u, none) →
      step s = .next (u.takeTrap s.pc).dimTransition ∧ u.trapPending = true ∧ u.psr = s.psr ||| 0x400#32 ∧
        (u.takeTrap s.pc).dimTransition.fir = s.pc ∧ u.iregs = s.iregs ∧ u.fregs = s.fregs)

/-- 30 R112, 60 R372, R380: in a step that starts on a word that is no instruction, the core takes the instruction trap: FIR is
the address of the word, the PSR is as trap entry leaves it, the snapshot and the flow word are those of the entry, and nothing
else changes. Stated with the pair in the instruction cache. -/
def Obligations.UnassignedWordTraps : Prop :=
  ∀ (s : State) (pair : DWord) (e : DecodeError),
    s.killed = false → s.halted = false → s.mailbox = Mailbox.empty →
    s.icacheHit (alignDown s.pc 8) = some pair → decode (selectWord s.pc pair) = .error e →
    ∃ t, step s = .next t ∧
      t.psr.getLsbD 8 = true ∧ t.pu = s.user ∧ t.pim = s.im ∧ t.user = false ∧ t.im = false ∧
      PsrKept s t [4, 5, 6, 7, 8] ∧ SameMem s t ∧
      t = { s with
        psr := t.psr, fir := s.pc, firLatched := true, pc := 0xFFFFFF00#32,
        snapDim := s.dim, snapDimOp := (if s.pc.getLsbD 2 then false else dimFlagged (lowWord pair)),
        snapCcValid := false, snapCc := s.ccRaw, dim := .none, dimOp := false, ccValid := false,
        trapPending := false, trapInDelaySlot := false, trapExternal := false, pcUpdated := false,
        exitedEarly := false, exitingIfetch := false }

/-- 20 R90, R92: a fetch that hits changes nothing; 20 R91: a miss reads the pair little-endian, with translation off at the
virtual address and with translation on at the address it translates to, in the state the translation leaves, and fills the
line; 20 R91, R65: a fetch whose translation faults answers nothing, raises the instruction-access fault and leaves the
cache. That a translation which succeeds fills the line also while PSR.IAT or DAT is still set from before is the model's
reading of R91 (log 21). -/
def Obligations.Fetch : Prop :=
  ∀ (s : State) (pc : Word),
    let va := pc &&& 0xFFFFFFF8#32
    (∀ l : ICacheLine, s.icache.lookup ((va.toNat / 8) % s.par.icacheLines) = some l → l.tag.toNat = va.toNat / 8 →
      s.fetchPair pc = (s, some l.data)) ∧
    (s.icacheHit va = none → s.dirbase.getLsbD 0 = false →
      ∃ pair : DWord, s.fetchPair pc = (s.icacheFill va pair, some pair) ∧
        (∀ i, i < 8 → byteOf pair i = s.mem.byte (va + BitVec.ofNat 32 i).toNat)) ∧
    (∀ (t : State) (p : Word), s.icacheHit va = none → s.physical va false false = (t, some p) →
      ∃ pair : DWord, s.fetchPair pc = (t.icacheFill va pair, some pair) ∧
        (∀ i, i < 8 → byteOf pair i = t.mem.byte (p + BitVec.ofNat 32 i).toNat)) ∧
    (∀ t, s.icacheHit va = none → s.physical va false false = (t, none) →
      s.fetchPair pc = ({ t with exitingIfetch := true }, none) ∧ t.psr = s.psr ||| 0x400#32 ∧ t.icache = s.icache ∧
        t.tlb = s.tlb)

/-- 40 R155, R156: the transitions of the dual-instruction mode, and the words that are flagged for it. -/
def Obligations.DualInstructionMode : Prop :=
  (∀ s : State, s.dimTransition = { s with dim :=
    if s.dim = .none then (if s.dimOp then .temp else .none)
    else if s.dim = .temp then (if s.dimOp then .full else .none)
    else (if s.dimOp then .full else .temp) }) ∧
  (∀ w : Word, dimFlagged w = true ↔ (w.toNat / 2 ^ 26 = 0x12 ∧ w.toNat / 2 ^ 9 % 2 = 1) ∨ w.toNat = 0xB0000200)

/-- 40 R141, R165, 60 R396, R397, 70 R430: no step after KILL and none while halted; posting a message again before its drain
changes nothing; posted messages wait `drainDelay` steps, a free and finite number (log 23): every step lessens it by one and
leaves them waiting, and the step that finds it 0 drains them; after a KILL the step answers the fault `killed` (log 24); the
drain of one message alone has that message's effect. That HALT and RESUME are bits of the mailbox, drained like the six messages
R396 lists, is the model's (log 34); that RESET leaves the whole PSR 0 is this core's value for fields that are architecturally
undefined (log 28). -/
def Obligations.HostMessages : Prop :=
  ∀ s : State,
    (s.killed = true → step s = .fault .killed) ∧
    (s.killed = false → s.halted = true → s.mailbox = Mailbox.empty → step s = .next s) ∧
    (∀ m, (s.post m).mailbox = s.mailbox.union m ∧ (m ≠ Mailbox.empty → (s.post m).post m = s.post m)) ∧
    (s.mailbox ≠ Mailbox.empty →
      (s.drainDelay = 0 → s.hostMessages = s.drain.drawn) ∧
      (∀ n, s.drainDelay = n + 1 → s.hostMessages = { s with drainDelay := n }) ∧
      (∀ t, step s = .next t →
        (s.drainDelay = 0 → t.mailbox = Mailbox.empty) ∧
        (∀ n, s.drainDelay = n + 1 → t.mailbox = s.mailbox ∧ t.drainDelay = n))) ∧
    s.drain.mailbox = Mailbox.empty ∧
    (s.mailbox = { Mailbox.empty with interrupt := true } →
      s.drain = { s with extIntr := true, mailbox := Mailbox.empty }) ∧
    (s.mailbox = { Mailbox.empty with halt := true } →
      s.drain = { s with halted := true, mailbox := Mailbox.empty }) ∧
    (s.mailbox = { Mailbox.empty with resume := true } →
      s.drain = { s with halted := false, mailbox := Mailbox.empty }) ∧
    (s.mailbox = { Mailbox.empty with kill := true } →
      s.drain = { s with killed := true, mailbox := Mailbox.empty }) ∧
    (s.mailbox.reset = true → s.mailbox.interrupt = false → s.mailbox.halt = false → s.mailbox.resume = false →
      s.drain.pc = 0xFFFFFF00#32 ∧ s.drain.psr = 0#32 ∧ s.drain.dirbase = 0#32 ∧ s.drain.mem = s.mem ∧
      s.drain.halted = s.halted ∧ s.drain.tlb = [] ∧ s.drain.icache = [] ∧ s.drain.extIntr = false)

/-! ## The machine -/

/-- 10 R15, R18, R34: the state after reset, in the values the spec gives. -/
def Obligations.ResetState : Prop :=
  let s := State.reset
  let zero : Slot := .sgl 0#32
  s.pc = 0xFFFFFF00#32 ∧ s.readReg 0#5 = 0#32 ∧ (∀ i, s.readF i = 0#32) ∧
  s.pipeA = ⟨zero, zero, zero⟩ ∧ s.pipeM = ⟨zero, zero, zero⟩ ∧ s.pipeL = ⟨zero, zero, zero⟩ ∧ s.pipeG = zero ∧
  s.user = false ∧ s.im = false ∧ s.dirbase = 0#32 ∧ s.db = 0#32 ∧ s.fsr = 0#32 ∧ s.firLatched = false ∧
  s.epsr.extractLsb' 0 8 = 1#8 ∧ s.epsr.extractLsb' 18 4 = 1#4 ∧ s.be = false ∧ s.wp = false ∧ s.overflow = false ∧
  s.kr = 0#64 ∧ s.ki = 0#64 ∧ s.t = 0#64 ∧ s.merge = 0#64 ∧ s.tlb = [] ∧ s.icache = [] ∧ s.dim = .none ∧
  s.snapDim = .none ∧ s.ccValid = false ∧ s.extIntr = false ∧ s.trapPending = false ∧ s.halted = false

/-- The invariant holds after reset. Its fixed EPSR fields include STEP, whose value 0 is the model's choice (log 6), FIR's
alignment rests on its reset value 0 (log 2), and the FSR bits that nothing writes read as stored (log 26). -/
def Obligations.ResetInvariant : Prop := Invariant State.reset

/-- 10 R16, R22, R23, R26: every step of the machine, from any state of the invariant, keeps the invariant, and keeps the
parameters of the implementation. Three of its clauses hold across a drained RESET by the model's reset values: FIR is 0
(log 2), EPSR.STEP is 0 (log 6), and the FSR bits that nothing writes read as stored, 0 (log 26). -/
def Obligations.StepKeepsInvariant : Prop :=
  ∀ s t : State, Invariant s → step s = .next t → Invariant t ∧ t.par = s.par

/-- 45 R296, R300, 60 R387: in user mode no instruction but bri changes U, IM, PIM, PU, BR, BW, DS, DIM or KNF, or clears a
trap bit: what may change among bits 0, 1 and 4 to 15 is that a trap bit is set. An instruction only raises a trap; the step
enters it. -/
def Obligations.UserModeProtectsPsr : Prop :=
  ∀ (i : Instr) (s t : State), isBri i = false → s.user = true → exec i s = .next t →
    ∀ k, k < 2 ∨ (4 ≤ k ∧ k < 16) →
      t.psr.getLsbD k = s.psr.getLsbD k ∨ (8 ≤ k ∧ k < 13 ∧ t.psr.getLsbD k = true)

/-- 10 R17, 45 R290: an instruction that is no control transfer leaves pc and `pc_updated` as they were, so that the step
advances pc by 4; none but st.c writes DIRBASE, DB or an EPSR bit other than OF, and none but ld.c writes FIR. The control
transfers are left out: their slot may hold a st.c or a ld.c. -/
def Obligations.OnlyTransfersWritePc : Prop :=
  ∀ (i : Instr) (s t : State), isControlTransfer i = false → exec i s = .next t →
    t.pc = s.pc ∧ t.pcUpdated = s.pcUpdated ∧
    (isStc i = false → t.dirbase = s.dirbase ∧ t.db = s.db ∧ EpsrKept s t [24]) ∧
    ((∀ o, i ≠ .ldc o) → t.fir = s.fir ∧ t.firLatched = s.firLatched)

/-- 30 R111 to R118: decoding an encoded well-formed instruction gives the instruction back, with every operand at every value
its encoding admits; and every instruction the decoder answers is well formed. -/
def Obligations.DecodeEncode : Prop :=
  (∀ i : Instr, i.wellFormed = true → decode (encode i) = .ok i) ∧
  (∀ (w : Word) (i : Instr), decode w = .ok i → i.wellFormed = true)

/-- 30 R113 to R118: words written out from the tables of the spec decode to the instructions they stand for. -/
def Obligations.DecodeWords : Prop :=
  decode 0x80430800#32 = .ok (.adduReg ⟨2#5, 3#5, 1#5⟩) ∧
  decode 0x14850009#32 = .ok (.ldlImm ⟨4#5, 5#5, 9#16⟩) ∧
  decode 0x1C802805#32 = .ok (.stl ⟨4#5, 5#5, 5#16⟩) ∧
  decode 0x20823001#32 = .ok (.flddReg ⟨4#5, 2#5, 6#5, true⟩) ∧
  decode 0x38403000#32 = .ok (.stc ⟨2#5, 6#5⟩) ∧
  decode 0x6BFFFFFF#32 = .ok (.br 0x3FFFFFF#26) ∧
  decode 0xB4BF27FE#32 = .ok (.bla ⟨5#5, 4#5, 0xFFFE#16⟩) ∧
  decode 0x488815B0#32 = .ok (.pfadd ⟨2#5, 4#5, 8#5, false, true, true⟩) ∧
  decode 0x48861189#32 = .ok (.pfmam 9#4 ⟨2#5, 4#5, 6#5, false, true, true⟩) ∧
  decode 0x488611DF#32 = .ok (.fzchks ⟨2#5, 4#5, 6#5, false, true, true⟩) ∧
  decode 0x4C004002#32 = .ok (.calli 8#5) ∧
  decode 0x18000000#32 = .error .unassignedPrimary ∧ decode 0x48000025#32 = .error .unassignedFp ∧
  decode 0x4C000003#32 = .error .unassignedEsc ∧ decode 0x64880004#32 = .error .pfldQuad

end Statements
end

