-- ==== Sys2Proof/Laws/Memory.lean ====
section
/-! SUPPORT. Physical memory: every operation keeps the canonical form, a byte written reads back, every other byte keeps its
value; and the sparse tables. -/

namespace Sys2Proof.Machine

/-! ## Tables -/

/-- A bound on the keys can be lowered. -/
theorem Table.above_mono {α : Type} {x y : Nat} (h : x ≤ y) : ∀ t : Table α, Table.above y t = true → Table.above x t = true
  | [], _ => rfl
  | (a, v) :: rest, ht => by
    simp only [Table.above, Bool.and_eq_true, decide_eq_true_eq] at ht ⊢
    exact ⟨by omega, Table.above_mono h rest ht.2⟩

/-- A key below every key of the table is not in it. -/
theorem Table.lookup_above {α : Type} {x y : Nat} (h : x ≤ y) :
    ∀ t : Table α, Table.above y t = true → Table.lookup t x = none
  | [], _ => rfl
  | (a, v) :: rest, ht => by
    simp only [Table.above, Bool.and_eq_true, decide_eq_true_eq] at ht
    simp only [Table.lookup]
    rw [if_neg (by omega)]
    exact Table.lookup_above h rest ht.2

/-- The entry inserted is found at its key. -/
theorem Table.lookup_insert_self {α : Type} (x : Nat) (v : α) : ∀ t : Table α, Table.lookup (Table.insert t x v) x = some v
  | [] => by simp [Table.insert, Table.lookup]
  | (a, b) :: rest => by
    simp only [Table.insert]
    split
    · simp [Table.lookup]
    · split
      · simp [Table.lookup]
      · rename_i h1 h2
        simp only [Table.lookup]
        rw [if_neg h2]
        exact Table.lookup_insert_self x v rest

/-- Insertion keeps a bound on the keys. -/
theorem Table.above_insert {α : Type} {x y : Nat} (v : α) (h : y < x) :
    ∀ t : Table α, Table.above y t = true → Table.above y (Table.insert t x v) = true
  | [], _ => by simp [Table.insert, Table.above, h]
  | (a, b) :: rest, ht => by
    simp only [Table.above, Bool.and_eq_true, decide_eq_true_eq] at ht
    simp only [Table.insert]
    split
    · simp [Table.above, h, ht.1, ht.2]
    · split
      · simp [Table.above, h, ht.2]
      · simp [Table.above, ht.1, Table.above_insert v h rest ht.2]

/-- Insertion keeps the order. -/
theorem Table.sorted_insert {α : Type} (x : Nat) (v : α) :
    ∀ t : Table α, Table.sorted t = true → Table.sorted (Table.insert t x v) = true
  | [], _ => rfl
  | (a, b) :: rest, ht => by
    have hs := ht
    simp only [Table.sorted, Bool.and_eq_true] at ht
    simp only [Table.insert]
    split
    · rename_i h
      have hx : Table.above x rest = true := Table.above_mono (by omega) rest ht.1
      simp [Table.sorted, Table.above, h, hx, ht.1, ht.2]
    · split
      · rename_i h1 h2
        subst h2
        simp [Table.sorted, ht.1, ht.2]
      · rename_i h1 h2
        simp [Table.sorted, Table.sorted_insert x v rest ht.2, Table.above_insert v (show a < x by omega) rest ht.1]

/-! ## One byte -/

/-- A byte at an address below every listed one reads as an unlisted one. -/
theorem Memory.byte_above {x y : Nat} (h : x ≤ y) : ∀ m : Memory, Table.above y m = true → m.byte x = Config.unwrittenByte
  | [], _ => rfl
  | (a, v) :: rest, ht => by
    simp only [Table.above, Bool.and_eq_true, decide_eq_true_eq] at ht
    simp only [Memory.byte]
    rw [if_neg (by omega)]
    exact Memory.byte_above h rest ht.2

/-- A write leaves every other byte alone. -/
theorem Memory.byte_set_ne {x a : Nat} (v : Byte) (h : a ≠ x) : ∀ m : Memory, (m.set x v).byte a = m.byte a
  | [] => by
    simp only [Memory.set]
    split <;> simp [Memory.byte, h]
  | (b, w) :: rest => by
    simp only [Memory.set]
    split
    · split <;> simp [Memory.byte, h]
    · split
      · rename_i h1 h2
        subst h2
        split <;> simp [Memory.byte, h]
      · simp only [Memory.byte]
        rw [Memory.byte_set_ne v h rest]

/-- The byte written reads back. -/
theorem Memory.byte_set_self (x : Nat) (v : Byte) : ∀ m : Memory, Table.sorted m = true → (m.set x v).byte x = v
  | [], _ => by
    simp only [Memory.set]
    split
    · rename_i h; simp [Memory.byte, h]
    · simp [Memory.byte]
  | (b, w) :: rest, hs => by
    simp only [Table.sorted, Bool.and_eq_true] at hs
    simp only [Memory.set]
    split
    · rename_i h
      split
      · rename_i hv
        simp only [Memory.byte]
        rw [if_neg (by omega), Memory.byte_above (by omega) rest hs.1, hv]
      · simp [Memory.byte]
    · split
      · rename_i h1 h2
        subst h2
        split
        · rename_i hv
          rw [Memory.byte_above (le_refl x) rest hs.1, hv]
        · simp [Memory.byte]
      · rename_i h1 h2
        simp only [Memory.byte]
        rw [if_neg h2]
        exact Memory.byte_set_self x v rest hs.2

/-- A write keeps a lower bound on the addresses. -/
theorem Memory.above_set {x y : Nat} (v : Byte) (h : y < x) :
    ∀ m : Memory, Table.above y m = true → Table.above y (m.set x v) = true
  | [], _ => by
    simp only [Memory.set]
    split <;> simp [Table.above, h]
  | (b, w) :: rest, ht => by
    simp only [Table.above, Bool.and_eq_true, decide_eq_true_eq] at ht
    simp only [Memory.set]
    split
    · split <;> simp [Table.above, h, ht.1, ht.2]
    · split
      · split <;> simp [Table.above, h, ht.2]
      · simp [Table.above, ht.1, Memory.above_set v h rest ht.2]

/-- A write keeps the order. -/
theorem Memory.sorted_set (x : Nat) (v : Byte) : ∀ m : Memory, Table.sorted m = true → Table.sorted (m.set x v) = true
  | [], _ => by
    simp only [Memory.set]
    split <;> rfl
  | (b, w) :: rest, hs => by
    have hs' := hs
    simp only [Table.sorted, Bool.and_eq_true] at hs
    simp only [Memory.set]
    split
    · rename_i h
      split
      · exact hs'
      · simp [Table.sorted, Table.above, h, hs.1, hs.2, Table.above_mono (show x ≤ b by omega) rest hs.1]
    · split
      · rename_i h1 h2
        subst h2
        split
        · exact hs.2
        · simp [Table.sorted, hs.1, hs.2]
      · rename_i h1 h2
        simp [Table.sorted, Memory.sorted_set x v rest hs.2, Memory.above_set v (show b < x by omega) rest hs.1]

/-- The cells a canonical memory may list. -/
def cellOk (c : Host.Cell) : Bool := decide (c.1 < 2 ^ 32) && decide (c.2 ≠ Config.unwrittenByte)

/-- A cell in the 32-bit space with a byte an unlisted address does not read as. -/
theorem cellOk_mk {x : Nat} {v : Byte} (hx : x < 2 ^ 32) (hv : ¬ v = Config.unwrittenByte) : cellOk (x, v) = true := by
  unfold cellOk
  rw [Bool.and_eq_true, decide_eq_true_eq, decide_eq_true_eq]
  exact ⟨hx, hv⟩

/-- A write keeps the cells canonical. -/
theorem Memory.cells_set (x : Nat) (v : Byte) (hx : x < 2 ^ 32) :
    ∀ m : Memory, m.all cellOk = true → (m.set x v).all cellOk = true
  | [], _ => by
    simp only [Memory.set]
    split
    · rfl
    · rename_i h
      simp only [List.all_cons, List.all_nil, Bool.and_true]
      exact cellOk_mk hx h
  | (b, w) :: rest, hm => by
    have hm' := hm
    simp only [List.all_cons, Bool.and_eq_true] at hm
    simp only [Memory.set]
    split
    · split
      · exact hm'
      · rename_i h
        simp only [List.all_cons, Bool.and_eq_true]
        exact ⟨cellOk_mk hx h, hm⟩
    · split
      · split
        · exact hm.2
        · rename_i h
          simp only [List.all_cons, Bool.and_eq_true]
          exact ⟨cellOk_mk hx h, hm.2⟩
      · simp only [List.all_cons, Bool.and_eq_true]
        exact ⟨hm.1, Memory.cells_set x v hx rest hm.2⟩

/-- The canonical form, in two parts. -/
theorem Memory.wf_iff (m : Memory) : m.wf = true ↔ Table.sorted m = true ∧ m.all cellOk = true := by
  unfold Memory.wf
  rw [Bool.and_eq_true]
  rfl

/-- A write keeps the canonical form. -/
theorem Memory.wf_set {m : Memory} {x : Nat} (v : Byte) (hx : x < 2 ^ 32) (h : m.wf = true) : (m.set x v).wf = true := by
  rw [Memory.wf_iff] at h ⊢
  exact ⟨Memory.sorted_set x v m h.1, Memory.cells_set x v hx m h.2⟩

/-- The empty memory is canonical. -/
theorem Memory.wf_nil : Memory.wf [] = true := rfl

/-- Memory after reset is canonical. -/
theorem State.reset_mem_wf : State.reset.mem.wf = true := rfl

/-! ## Accesses of several bytes -/

/-- Byte addresses lie in the 32-bit space. -/
theorem byteAddr_lt (be : Bool) (p : Word) (n i : Nat) : byteAddr be p n i < 2 ^ 32 := BitVec.isLt _

/-- Different bytes of an access lie at different addresses. -/
theorem byteAddr_inj {be : Bool} {p : Word} {n i j : Nat} (hn : n ≤ 2 ^ 32) (hi : i < n) (hj : j < n)
    (h : byteAddr be p n i = byteAddr be p n j) : i = j := by
  unfold byteAddr at h
  simp only [BitVec.toNat_add, BitVec.toNat_ofNat] at h
  have hp := p.isLt
  cases be <;> simp only [if_true, if_false, Bool.false_eq_true] at h <;> omega

/-- A byte address of an access is one of its bytes. -/
theorem inBytes_byteAddr {be : Bool} {p : Word} {n i : Nat} (h : i < n) : InBytes p n (byteAddr be p n i) := by
  cases be
  · exact ⟨i, h, rfl⟩
  · exact ⟨n - 1 - i, by omega, rfl⟩

/-- The first k bytes written: each stands at its address. -/
theorem writeBytes_at (m : Memory) (be : Bool) (p : Word) (n : Nat) {w : Nat} (v : BitVec w) (hn : n ≤ 2 ^ 32)
    (hm : Table.sorted m = true) :
    ∀ k, k ≤ n → Table.sorted (writeBytes m be p n v k) = true ∧
      ∀ i, i < k → (writeBytes m be p n v k).byte (byteAddr be p n i) = byteOf v i
  | 0, _ => ⟨hm, fun i h => absurd h (Nat.not_lt_zero i)⟩
  | k + 1, hk => by
    obtain ⟨hs, hb⟩ := writeBytes_at m be p n v hn hm k (by omega)
    refine ⟨Memory.sorted_set _ _ _ hs, fun i hi => ?_⟩
    by_cases h : i = k
    · subst h
      exact Memory.byte_set_self _ _ _ hs
    · have hne : byteAddr be p n i ≠ byteAddr be p n k := fun e => h (byteAddr_inj hn (by omega) (by omega) e)
      show ((writeBytes m be p n v k).set (byteAddr be p n k) (byteOf v k)).byte _ = _
      rw [Memory.byte_set_ne _ hne]
      exact hb i (by omega)

/-- The first k bytes written: every address that is none of the access's bytes keeps its byte. -/
theorem writeBytes_other (m : Memory) (be : Bool) (p : Word) (n : Nat) {w : Nat} (v : BitVec w) {a : Nat}
    (ha : ¬ InBytes p n a) : ∀ k, k ≤ n → (writeBytes m be p n v k).byte a = m.byte a
  | 0, _ => rfl
  | k + 1, hk => by
    have hne : a ≠ byteAddr be p n k := fun e => ha (e ▸ inBytes_byteAddr (by omega))
    show ((writeBytes m be p n v k).set (byteAddr be p n k) (byteOf v k)).byte _ = _
    rw [Memory.byte_set_ne _ hne]
    exact writeBytes_other m be p n v ha k (by omega)

/-- Writing bytes keeps the canonical form. -/
theorem writeBytes_wf {m : Memory} (be : Bool) (p : Word) (n : Nat) {w : Nat} (v : BitVec w) (hm : m.wf = true) :
    ∀ k, (writeBytes m be p n v k).wf = true
  | 0 => hm
  | k + 1 => Memory.wf_set _ (byteAddr_lt be p n k) (writeBytes_wf be p n v hm k)

/-- Writing bytes under a mask keeps the canonical form. -/
theorem writeMasked_wf {m : Memory} (be : Bool) (p : Word) (v : DWord) (mask : BitVec 8) (hm : m.wf = true) :
    ∀ k, (writeMasked m be p v mask k).wf = true
  | 0 => hm
  | k + 1 => by
    simp only [writeMasked]
    split
    · exact Memory.wf_set _ (byteAddr_lt false p 8 k) (writeMasked_wf be p v mask hm k)
    · exact writeMasked_wf be p v mask hm k

/-- A bus write keeps the canonical form. -/
theorem Memory.busWrite_wf {m : Memory} (be : Bool) (n : Nat) (p : Word) (v : BitVec (8 * n)) (hm : m.wf = true) :
    (m.busWrite be n p v).wf = true := writeBytes_wf be p n v hm n

/-- A bus write leaves every byte outside the access alone. -/
theorem Memory.busWrite_other (m : Memory) (be : Bool) (n : Nat) (p : Word) (v : BitVec (8 * n)) {a : Nat}
    (ha : ¬ InBytes p n a) : (m.busWrite be n p v).byte a = m.byte a := writeBytes_other m be p n v ha n (le_refl n)

/-- A bus write puts byte i of the value at byte i's address. -/
theorem Memory.busWrite_at {m : Memory} (be : Bool) {n : Nat} (p : Word) (v : BitVec (8 * n)) (hn : n ≤ 2 ^ 32)
    (hm : m.wf = true) {i : Nat} (hi : i < n) : (m.busWrite be n p v).byte (byteAddr be p n i) = byteOf v i :=
  (writeBytes_at m be p n v hn ((Memory.wf_iff m).1 hm).1 n (le_refl n)).2 i hi

/-- Bit j of the first k bytes read. -/
theorem getLsbD_readBytes (m : Memory) (be : Bool) (p : Word) (n w : Nat) :
    ∀ k j, 8 * k ≤ w → (readBytes m be p n w k).getLsbD j =
      if j < 8 * k then (m.byte (byteAddr be p n (j / 8))).getLsbD (j % 8) else false
  | 0, j, _ => by simp [readBytes]
  | k + 1, j, h => by
    simp only [readBytes, BitVec.getLsbD_or, getLsbD_readBytes m be p n w k j (by omega), BitVec.getLsbD_shiftLeft,
      BitVec.getLsbD_setWidth]
    by_cases h1 : j < 8 * k
    · simp [h1, show j < 8 * (k + 1) by omega]
    · by_cases h2 : j < 8 * (k + 1)
      · have e1 : j / 8 = k := by omega
        have e2 : j - 8 * k = j % 8 := by omega
        rw [if_neg h1, if_pos h2, e1, e2]
        simp [show j < w by omega, h1, show j % 8 < w by omega]
      · have : 8 ≤ j - 8 * k := by omega
        simp [h1, h2, BitVec.getLsbD_of_ge _ _ this]

/-- Byte i of a bus read is the byte at byte i's address. -/
theorem byteOf_busRead (m : Memory) (be : Bool) (n : Nat) (p : Word) {i : Nat} (hi : i < n) :
    byteOf (m.busRead be n p) i = m.byte (byteAddr be p n i) := by
  apply BitVec.eq_of_getLsbD_eq
  intro j hj
  unfold byteOf Memory.busRead
  rw [BitVec.getLsbD_extractLsb', getLsbD_readBytes m be p n (8 * n) n _ (le_refl _), if_pos (by omega)]
  simp [hj, show (8 * i + j) / 8 = i by omega, show (8 * i + j) % 8 = j by omega]

/-- A value is settled by its bytes. -/
theorem eq_of_bytes {n : Nat} {v w : BitVec (8 * n)} (h : ∀ i, i < n → byteOf v i = byteOf w i) : v = w := by
  apply BitVec.eq_of_getLsbD_eq
  intro j hj
  have := congrArg (fun b => b.getLsbD (j % 8)) (h (j / 8) (by omega))
  simp only [byteOf, BitVec.getLsbD_extractLsb', show j % 8 < 8 by omega, decide_true, Bool.true_and,
    show 8 * (j / 8) + j % 8 = j by omega] at this
  exact this

/-- The bytes a masked write leaves alone: all but those of the set mask bits. -/
theorem writeMasked_other (m : Memory) (be : Bool) (p : Word) (v : DWord) (mask : BitVec 8) {a : Nat} :
    ∀ k, k ≤ 8 → (∀ i, i < k → mask.getLsbD i = true → a ≠ byteAddr false p 8 i) →
      (writeMasked m be p v mask k).byte a = m.byte a
  | 0, _, _ => rfl
  | k + 1, hk, ha => by
    have ih := writeMasked_other m be p v mask (a := a) k (by omega) (fun i hi => ha i (by omega))
    simp only [writeMasked]
    split
    · rename_i hb
      rw [Memory.byte_set_ne _ (ha k (by omega) hb), ih]
    · exact ih

/-- The bytes a masked write stores: those of the set mask bits. -/
theorem writeMasked_at (m : Memory) (be : Bool) (p : Word) (v : DWord) (mask : BitVec 8) (hm : Table.sorted m = true) :
    ∀ k, k ≤ 8 → Table.sorted (writeMasked m be p v mask k) = true ∧
      ∀ i, i < k → mask.getLsbD i = true →
        (writeMasked m be p v mask k).byte (byteAddr false p 8 i) = byteOf v (if be then 7 - i else i)
  | 0, _ => ⟨hm, fun i h => absurd h (Nat.not_lt_zero i)⟩
  | k + 1, hk => by
    obtain ⟨hs, hb⟩ := writeMasked_at m be p v mask hm k (by omega)
    simp only [writeMasked]
    split
    · rename_i hmk
      refine ⟨Memory.sorted_set _ _ _ hs, fun i hi hmi => ?_⟩
      by_cases h : i = k
      · subst h; exact Memory.byte_set_self _ _ _ hs
      · have hne : byteAddr false p 8 i ≠ byteAddr false p 8 k := fun e =>
          h (byteAddr_inj (by decide) (by omega) (by omega) e)
        rw [Memory.byte_set_ne _ hne]
        exact hb i (by omega) hmi
    · rename_i hmk
      refine ⟨hs, fun i hi hmi => hb i ?_ hmi⟩
      have : i ≠ k := fun e => hmk (e ▸ hmi)
      omega

end Sys2Proof.Machine
end

