-- ==== Sys2Proof/Laws/Bits.lean ====
section
/-! SUPPORT. The bits of an updated word, and the numbers aligned addresses stand for. -/

namespace Sys2Proof.Machine

/-- Bit k of `setBit`. -/
@[simp] theorem getLsbD_setBit (w : Word) (i k : Nat) (b : Bool) (hi : i < 32) :
    (setBit w i b).getLsbD k = if k = i then b else w.getLsbD k := by
  unfold setBit
  cases b <;> simp only [if_true, if_false, Bool.false_eq_true, BitVec.getLsbD_or, BitVec.getLsbD_and,
    BitVec.getLsbD_not, BitVec.getLsbD_shiftLeft, BitVec.getLsbD_one] <;>
    by_cases h : k = i <;> by_cases h2 : k < 32 <;> simp_all <;> omega

/-- Bit k of `setBit`, as simp writes it. -/
@[simp] theorem getElem_setBit (w : Word) (i k : Nat) (b : Bool) (hi : i < 32) (hk : k < 32) :
    (setBit w i b)[k] = if k = i then b else w[k] := by
  rw [← BitVec.getLsbD_eq_getElem, ← BitVec.getLsbD_eq_getElem]
  exact getLsbD_setBit w i k b hi

/-- A set bit is an OR with a constant. -/
theorem setBit_true (w : Word) (i : Nat) : setBit w i true = w ||| (1#32 <<< i) := rfl

/-- Bit k of `setField`. -/
theorem getLsbD_setField (w : Word) (lo len k : Nat) (v : BitVec len) (h : lo + len ≤ 32) :
    (setField w lo len v).getLsbD k =
      if lo ≤ k ∧ k < lo + len then v.getLsbD (k - lo) else w.getLsbD k := by
  unfold setField
  simp only [BitVec.getLsbD_or, BitVec.getLsbD_and, BitVec.getLsbD_not, BitVec.getLsbD_shiftLeft,
    BitVec.getLsbD_setWidth, BitVec.getLsbD_allOnes]
  by_cases h1 : lo ≤ k
  · by_cases h2 : k < lo + len
    · have h3 : k < 32 := by omega
      have h4 : k - lo < len := by omega
      have h5 : k - lo < 32 := by omega
      simp [h1, h2, h3, h4, h5, show ¬ k < lo by omega]
    · by_cases h3 : k < 32
      · have h4 : ¬ k - lo < len := by omega
        have h5 : k - lo < 32 := by omega
        simp [h2, h3, h4, h5, BitVec.getLsbD_of_ge _ _ (show len ≤ k - lo by omega)]
      · simp [h2, h3, BitVec.getLsbD_of_ge _ _ (show 32 ≤ k by omega)]
  · by_cases h3 : k < 32
    · simp [h1, h3, show k < lo by omega]
    · omega

/-- Bit k of `mergeBits`. -/
theorem getLsbD_mergeBits (mask new old : Word) (k : Nat) :
    (mergeBits mask new old).getLsbD k = if mask.getLsbD k then new.getLsbD k else old.getLsbD k := by
  unfold mergeBits
  simp only [BitVec.getLsbD_or, BitVec.getLsbD_and, BitVec.getLsbD_not]
  by_cases h : k < 32
  · cases mask.getLsbD k <;> simp [h]
  · simp [BitVec.getLsbD_of_ge _ _ (show 32 ≤ k by omega)]

/-- The number a concatenation stands for. -/
theorem toNat_append_eq {n m : Nat} (a : BitVec n) (b : BitVec m) : (a ++ b).toNat = a.toNat * 2 ^ m + b.toNat := by
  rw [BitVec.toNat_append, Nat.shiftLeft_eq, ← Nat.shiftLeft_eq, Nat.shiftLeft_add_eq_or_of_lt b.isLt]

/-- Clearing the low bits rounds down to a multiple. -/
theorem toNat_alignDown_pow (a : Word) (k : Nat) (hk : k < 32) :
    (alignDown a (2 ^ k)).toNat = a.toNat - a.toNat % 2 ^ k := by
  have hm : (BitVec.ofNat 32 (2 ^ k - 1)).toNat = 2 ^ k - 1 := by
    have : 2 ^ k ≤ 2 ^ 31 := Nat.pow_le_pow_right (by decide) (by omega)
    simp [BitVec.toNat_ofNat]; omega
  have e : alignDown a (2 ^ k) = (a >>> k) <<< k := by
    apply BitVec.eq_of_getLsbD_eq
    intro i hi
    unfold alignDown
    have hb : (BitVec.ofNat 32 (2 ^ k - 1)).getLsbD i = decide (i < k) := by
      rw [← BitVec.testBit_toNat, hm, Nat.testBit_two_pow_sub_one]
    simp only [BitVec.getLsbD_and, BitVec.getLsbD_not, hb, BitVec.getLsbD_shiftLeft, BitVec.getLsbD_ushiftRight, hi]
    by_cases h : i < k
    · simp [h]
    · simp [h, show k + (i - k) = i by omega]
  rw [e, BitVec.toNat_shiftLeft, BitVec.toNat_ushiftRight, Nat.shiftLeft_eq, Nat.shiftRight_eq_div_pow]
  have h1 : a.toNat / 2 ^ k * 2 ^ k ≤ a.toNat := Nat.div_mul_le_self _ _
  have h2 := a.isLt
  rw [Nat.mod_eq_of_lt (by omega)]
  have := Nat.div_add_mod a.toNat (2 ^ k)
  rw [Nat.mul_comm] at this
  omega

/-- Rounding down to a multiple of 1 changes nothing. -/
@[simp] theorem alignDown_one (a : Word) : alignDown a 1 = a := BitVec.and_allOnes

/-- A multiple of 4. -/
theorem alignDown_four_mod (a : Word) : (alignDown a 4).toNat % 4 = 0 := by
  rw [show (4 : Nat) = 2 ^ 2 from rfl, toNat_alignDown_pow a 2 (by omega)]
  omega

end Sys2Proof.Machine
end

