-- ==== Sys2Proof/Laws/State.lean ====
section
/-! SUPPORT. What each update of the state leaves in each field: one lemma per field per update. -/

namespace Sys2Proof.Machine

/-! ### `State.writeReg` -/

@[simp] theorem State.writeReg_iregs (s : State) (i : Reg) (v : Word) : (s.writeReg i v).iregs = if i = 0#5 then s.iregs else s.iregs.set i.toNat v i.isLt := rfl
@[simp] theorem State.writeReg_fregs (s : State) (i : Reg) (v : Word) : (s.writeReg i v).fregs = s.fregs := rfl
@[simp] theorem State.writeReg_pc (s : State) (i : Reg) (v : Word) : (s.writeReg i v).pc = s.pc := rfl
@[simp] theorem State.writeReg_fir (s : State) (i : Reg) (v : Word) : (s.writeReg i v).fir = s.fir := rfl
@[simp] theorem State.writeReg_psr (s : State) (i : Reg) (v : Word) : (s.writeReg i v).psr = s.psr := rfl
@[simp] theorem State.writeReg_dirbase (s : State) (i : Reg) (v : Word) : (s.writeReg i v).dirbase = s.dirbase := rfl
@[simp] theorem State.writeReg_db (s : State) (i : Reg) (v : Word) : (s.writeReg i v).db = s.db := rfl
@[simp] theorem State.writeReg_fsr (s : State) (i : Reg) (v : Word) : (s.writeReg i v).fsr = s.fsr := rfl
@[simp] theorem State.writeReg_epsr (s : State) (i : Reg) (v : Word) : (s.writeReg i v).epsr = s.epsr := rfl
@[simp] theorem State.writeReg_firLatched (s : State) (i : Reg) (v : Word) : (s.writeReg i v).firLatched = s.firLatched := rfl
@[simp] theorem State.writeReg_ki (s : State) (i : Reg) (v : Word) : (s.writeReg i v).ki = s.ki := rfl
@[simp] theorem State.writeReg_kr (s : State) (i : Reg) (v : Word) : (s.writeReg i v).kr = s.kr := rfl
@[simp] theorem State.writeReg_t (s : State) (i : Reg) (v : Word) : (s.writeReg i v).t = s.t := rfl
@[simp] theorem State.writeReg_merge (s : State) (i : Reg) (v : Word) : (s.writeReg i v).merge = s.merge := rfl
@[simp] theorem State.writeReg_pipeA (s : State) (i : Reg) (v : Word) : (s.writeReg i v).pipeA = s.pipeA := rfl
@[simp] theorem State.writeReg_pipeM (s : State) (i : Reg) (v : Word) : (s.writeReg i v).pipeM = s.pipeM := rfl
@[simp] theorem State.writeReg_pipeL (s : State) (i : Reg) (v : Word) : (s.writeReg i v).pipeL = s.pipeL := rfl
@[simp] theorem State.writeReg_pipeG (s : State) (i : Reg) (v : Word) : (s.writeReg i v).pipeG = s.pipeG := rfl
@[simp] theorem State.writeReg_tlb (s : State) (i : Reg) (v : Word) : (s.writeReg i v).tlb = s.tlb := rfl
@[simp] theorem State.writeReg_icache (s : State) (i : Reg) (v : Word) : (s.writeReg i v).icache = s.icache := rfl
@[simp] theorem State.writeReg_trapPending (s : State) (i : Reg) (v : Word) : (s.writeReg i v).trapPending = s.trapPending := rfl
@[simp] theorem State.writeReg_trapInDelaySlot (s : State) (i : Reg) (v : Word) : (s.writeReg i v).trapInDelaySlot = s.trapInDelaySlot := rfl
@[simp] theorem State.writeReg_trapExternal (s : State) (i : Reg) (v : Word) : (s.writeReg i v).trapExternal = s.trapExternal := rfl
@[simp] theorem State.writeReg_pcUpdated (s : State) (i : Reg) (v : Word) : (s.writeReg i v).pcUpdated = s.pcUpdated := rfl
@[simp] theorem State.writeReg_exitedEarly (s : State) (i : Reg) (v : Word) : (s.writeReg i v).exitedEarly = s.exitedEarly := rfl
@[simp] theorem State.writeReg_exitingIfetch (s : State) (i : Reg) (v : Word) : (s.writeReg i v).exitingIfetch = s.exitingIfetch := rfl
@[simp] theorem State.writeReg_dimOp (s : State) (i : Reg) (v : Word) : (s.writeReg i v).dimOp = s.dimOp := rfl
@[simp] theorem State.writeReg_extIntr (s : State) (i : Reg) (v : Word) : (s.writeReg i v).extIntr = s.extIntr := rfl
@[simp] theorem State.writeReg_dim (s : State) (i : Reg) (v : Word) : (s.writeReg i v).dim = s.dim := rfl
@[simp] theorem State.writeReg_snapDim (s : State) (i : Reg) (v : Word) : (s.writeReg i v).snapDim = s.snapDim := rfl
@[simp] theorem State.writeReg_snapDimOp (s : State) (i : Reg) (v : Word) : (s.writeReg i v).snapDimOp = s.snapDimOp := rfl
@[simp] theorem State.writeReg_snapCcValid (s : State) (i : Reg) (v : Word) : (s.writeReg i v).snapCcValid = s.snapCcValid := rfl
@[simp] theorem State.writeReg_snapCc (s : State) (i : Reg) (v : Word) : (s.writeReg i v).snapCc = s.snapCc := rfl
@[simp] theorem State.writeReg_ccValid (s : State) (i : Reg) (v : Word) : (s.writeReg i v).ccValid = s.ccValid := rfl
@[simp] theorem State.writeReg_ccRaw (s : State) (i : Reg) (v : Word) : (s.writeReg i v).ccRaw = s.ccRaw := rfl
@[simp] theorem State.writeReg_halted (s : State) (i : Reg) (v : Word) : (s.writeReg i v).halted = s.halted := rfl
@[simp] theorem State.writeReg_mailbox (s : State) (i : Reg) (v : Word) : (s.writeReg i v).mailbox = s.mailbox := rfl
@[simp] theorem State.writeReg_drainDelay (s : State) (i : Reg) (v : Word) : (s.writeReg i v).drainDelay = s.drainDelay := rfl
@[simp] theorem State.writeReg_killed (s : State) (i : Reg) (v : Word) : (s.writeReg i v).killed = s.killed := rfl
@[simp] theorem State.writeReg_mem (s : State) (i : Reg) (v : Word) : (s.writeReg i v).mem = s.mem := rfl
@[simp] theorem State.writeReg_par (s : State) (i : Reg) (v : Word) : (s.writeReg i v).par = s.par := rfl
@[simp] theorem State.writeReg_freeCount (s : State) (i : Reg) (v : Word) : (s.writeReg i v).freeCount = s.freeCount := rfl

/-! ### `State.writeF` -/

@[simp] theorem State.writeF_iregs (s : State) (i : Reg) (v : Word) : (s.writeF i v).iregs = s.iregs := rfl
@[simp] theorem State.writeF_fregs (s : State) (i : Reg) (v : Word) : (s.writeF i v).fregs = if i.toNat < 2 then s.fregs else s.fregs.set i.toNat v i.isLt := rfl
@[simp] theorem State.writeF_pc (s : State) (i : Reg) (v : Word) : (s.writeF i v).pc = s.pc := rfl
@[simp] theorem State.writeF_fir (s : State) (i : Reg) (v : Word) : (s.writeF i v).fir = s.fir := rfl
@[simp] theorem State.writeF_psr (s : State) (i : Reg) (v : Word) : (s.writeF i v).psr = s.psr := rfl
@[simp] theorem State.writeF_dirbase (s : State) (i : Reg) (v : Word) : (s.writeF i v).dirbase = s.dirbase := rfl
@[simp] theorem State.writeF_db (s : State) (i : Reg) (v : Word) : (s.writeF i v).db = s.db := rfl
@[simp] theorem State.writeF_fsr (s : State) (i : Reg) (v : Word) : (s.writeF i v).fsr = s.fsr := rfl
@[simp] theorem State.writeF_epsr (s : State) (i : Reg) (v : Word) : (s.writeF i v).epsr = s.epsr := rfl
@[simp] theorem State.writeF_firLatched (s : State) (i : Reg) (v : Word) : (s.writeF i v).firLatched = s.firLatched := rfl
@[simp] theorem State.writeF_ki (s : State) (i : Reg) (v : Word) : (s.writeF i v).ki = s.ki := rfl
@[simp] theorem State.writeF_kr (s : State) (i : Reg) (v : Word) : (s.writeF i v).kr = s.kr := rfl
@[simp] theorem State.writeF_t (s : State) (i : Reg) (v : Word) : (s.writeF i v).t = s.t := rfl
@[simp] theorem State.writeF_merge (s : State) (i : Reg) (v : Word) : (s.writeF i v).merge = s.merge := rfl
@[simp] theorem State.writeF_pipeA (s : State) (i : Reg) (v : Word) : (s.writeF i v).pipeA = s.pipeA := rfl
@[simp] theorem State.writeF_pipeM (s : State) (i : Reg) (v : Word) : (s.writeF i v).pipeM = s.pipeM := rfl
@[simp] theorem State.writeF_pipeL (s : State) (i : Reg) (v : Word) : (s.writeF i v).pipeL = s.pipeL := rfl
@[simp] theorem State.writeF_pipeG (s : State) (i : Reg) (v : Word) : (s.writeF i v).pipeG = s.pipeG := rfl
@[simp] theorem State.writeF_tlb (s : State) (i : Reg) (v : Word) : (s.writeF i v).tlb = s.tlb := rfl
@[simp] theorem State.writeF_icache (s : State) (i : Reg) (v : Word) : (s.writeF i v).icache = s.icache := rfl
@[simp] theorem State.writeF_trapPending (s : State) (i : Reg) (v : Word) : (s.writeF i v).trapPending = s.trapPending := rfl
@[simp] theorem State.writeF_trapInDelaySlot (s : State) (i : Reg) (v : Word) : (s.writeF i v).trapInDelaySlot = s.trapInDelaySlot := rfl
@[simp] theorem State.writeF_trapExternal (s : State) (i : Reg) (v : Word) : (s.writeF i v).trapExternal = s.trapExternal := rfl
@[simp] theorem State.writeF_pcUpdated (s : State) (i : Reg) (v : Word) : (s.writeF i v).pcUpdated = s.pcUpdated := rfl
@[simp] theorem State.writeF_exitedEarly (s : State) (i : Reg) (v : Word) : (s.writeF i v).exitedEarly = s.exitedEarly := rfl
@[simp] theorem State.writeF_exitingIfetch (s : State) (i : Reg) (v : Word) : (s.writeF i v).exitingIfetch = s.exitingIfetch := rfl
@[simp] theorem State.writeF_dimOp (s : State) (i : Reg) (v : Word) : (s.writeF i v).dimOp = s.dimOp := rfl
@[simp] theorem State.writeF_extIntr (s : State) (i : Reg) (v : Word) : (s.writeF i v).extIntr = s.extIntr := rfl
@[simp] theorem State.writeF_dim (s : State) (i : Reg) (v : Word) : (s.writeF i v).dim = s.dim := rfl
@[simp] theorem State.writeF_snapDim (s : State) (i : Reg) (v : Word) : (s.writeF i v).snapDim = s.snapDim := rfl
@[simp] theorem State.writeF_snapDimOp (s : State) (i : Reg) (v : Word) : (s.writeF i v).snapDimOp = s.snapDimOp := rfl
@[simp] theorem State.writeF_snapCcValid (s : State) (i : Reg) (v : Word) : (s.writeF i v).snapCcValid = s.snapCcValid := rfl
@[simp] theorem State.writeF_snapCc (s : State) (i : Reg) (v : Word) : (s.writeF i v).snapCc = s.snapCc := rfl
@[simp] theorem State.writeF_ccValid (s : State) (i : Reg) (v : Word) : (s.writeF i v).ccValid = s.ccValid := rfl
@[simp] theorem State.writeF_ccRaw (s : State) (i : Reg) (v : Word) : (s.writeF i v).ccRaw = s.ccRaw := rfl
@[simp] theorem State.writeF_halted (s : State) (i : Reg) (v : Word) : (s.writeF i v).halted = s.halted := rfl
@[simp] theorem State.writeF_mailbox (s : State) (i : Reg) (v : Word) : (s.writeF i v).mailbox = s.mailbox := rfl
@[simp] theorem State.writeF_drainDelay (s : State) (i : Reg) (v : Word) : (s.writeF i v).drainDelay = s.drainDelay := rfl
@[simp] theorem State.writeF_killed (s : State) (i : Reg) (v : Word) : (s.writeF i v).killed = s.killed := rfl
@[simp] theorem State.writeF_mem (s : State) (i : Reg) (v : Word) : (s.writeF i v).mem = s.mem := rfl
@[simp] theorem State.writeF_par (s : State) (i : Reg) (v : Word) : (s.writeF i v).par = s.par := rfl
@[simp] theorem State.writeF_freeCount (s : State) (i : Reg) (v : Word) : (s.writeF i v).freeCount = s.freeCount := rfl

/-! ### `State.writeFd` -/

@[simp] theorem State.writeFd_iregs (s : State) (i : Reg) (v : DWord) : (s.writeFd i v).iregs = s.iregs := rfl
@[simp] theorem State.writeFd_pc (s : State) (i : Reg) (v : DWord) : (s.writeFd i v).pc = s.pc := rfl
@[simp] theorem State.writeFd_fir (s : State) (i : Reg) (v : DWord) : (s.writeFd i v).fir = s.fir := rfl
@[simp] theorem State.writeFd_psr (s : State) (i : Reg) (v : DWord) : (s.writeFd i v).psr = s.psr := rfl
@[simp] theorem State.writeFd_dirbase (s : State) (i : Reg) (v : DWord) : (s.writeFd i v).dirbase = s.dirbase := rfl
@[simp] theorem State.writeFd_db (s : State) (i : Reg) (v : DWord) : (s.writeFd i v).db = s.db := rfl
@[simp] theorem State.writeFd_fsr (s : State) (i : Reg) (v : DWord) : (s.writeFd i v).fsr = s.fsr := rfl
@[simp] theorem State.writeFd_epsr (s : State) (i : Reg) (v : DWord) : (s.writeFd i v).epsr = s.epsr := rfl
@[simp] theorem State.writeFd_firLatched (s : State) (i : Reg) (v : DWord) : (s.writeFd i v).firLatched = s.firLatched := rfl
@[simp] theorem State.writeFd_ki (s : State) (i : Reg) (v : DWord) : (s.writeFd i v).ki = s.ki := rfl
@[simp] theorem State.writeFd_kr (s : State) (i : Reg) (v : DWord) : (s.writeFd i v).kr = s.kr := rfl
@[simp] theorem State.writeFd_t (s : State) (i : Reg) (v : DWord) : (s.writeFd i v).t = s.t := rfl
@[simp] theorem State.writeFd_merge (s : State) (i : Reg) (v : DWord) : (s.writeFd i v).merge = s.merge := rfl
@[simp] theorem State.writeFd_pipeA (s : State) (i : Reg) (v : DWord) : (s.writeFd i v).pipeA = s.pipeA := rfl
@[simp] theorem State.writeFd_pipeM (s : State) (i : Reg) (v : DWord) : (s.writeFd i v).pipeM = s.pipeM := rfl
@[simp] theorem State.writeFd_pipeL (s : State) (i : Reg) (v : DWord) : (s.writeFd i v).pipeL = s.pipeL := rfl
@[simp] theorem State.writeFd_pipeG (s : State) (i : Reg) (v : DWord) : (s.writeFd i v).pipeG = s.pipeG := rfl
@[simp] theorem State.writeFd_tlb (s : State) (i : Reg) (v : DWord) : (s.writeFd i v).tlb = s.tlb := rfl
@[simp] theorem State.writeFd_icache (s : State) (i : Reg) (v : DWord) : (s.writeFd i v).icache = s.icache := rfl
@[simp] theorem State.writeFd_trapPending (s : State) (i : Reg) (v : DWord) : (s.writeFd i v).trapPending = s.trapPending := rfl
@[simp] theorem State.writeFd_trapInDelaySlot (s : State) (i : Reg) (v : DWord) : (s.writeFd i v).trapInDelaySlot = s.trapInDelaySlot := rfl
@[simp] theorem State.writeFd_trapExternal (s : State) (i : Reg) (v : DWord) : (s.writeFd i v).trapExternal = s.trapExternal := rfl
@[simp] theorem State.writeFd_pcUpdated (s : State) (i : Reg) (v : DWord) : (s.writeFd i v).pcUpdated = s.pcUpdated := rfl
@[simp] theorem State.writeFd_exitedEarly (s : State) (i : Reg) (v : DWord) : (s.writeFd i v).exitedEarly = s.exitedEarly := rfl
@[simp] theorem State.writeFd_exitingIfetch (s : State) (i : Reg) (v : DWord) : (s.writeFd i v).exitingIfetch = s.exitingIfetch := rfl
@[simp] theorem State.writeFd_dimOp (s : State) (i : Reg) (v : DWord) : (s.writeFd i v).dimOp = s.dimOp := rfl
@[simp] theorem State.writeFd_extIntr (s : State) (i : Reg) (v : DWord) : (s.writeFd i v).extIntr = s.extIntr := rfl
@[simp] theorem State.writeFd_dim (s : State) (i : Reg) (v : DWord) : (s.writeFd i v).dim = s.dim := rfl
@[simp] theorem State.writeFd_snapDim (s : State) (i : Reg) (v : DWord) : (s.writeFd i v).snapDim = s.snapDim := rfl
@[simp] theorem State.writeFd_snapDimOp (s : State) (i : Reg) (v : DWord) : (s.writeFd i v).snapDimOp = s.snapDimOp := rfl
@[simp] theorem State.writeFd_snapCcValid (s : State) (i : Reg) (v : DWord) : (s.writeFd i v).snapCcValid = s.snapCcValid := rfl
@[simp] theorem State.writeFd_snapCc (s : State) (i : Reg) (v : DWord) : (s.writeFd i v).snapCc = s.snapCc := rfl
@[simp] theorem State.writeFd_ccValid (s : State) (i : Reg) (v : DWord) : (s.writeFd i v).ccValid = s.ccValid := rfl
@[simp] theorem State.writeFd_ccRaw (s : State) (i : Reg) (v : DWord) : (s.writeFd i v).ccRaw = s.ccRaw := rfl
@[simp] theorem State.writeFd_halted (s : State) (i : Reg) (v : DWord) : (s.writeFd i v).halted = s.halted := rfl
@[simp] theorem State.writeFd_mailbox (s : State) (i : Reg) (v : DWord) : (s.writeFd i v).mailbox = s.mailbox := rfl
@[simp] theorem State.writeFd_drainDelay (s : State) (i : Reg) (v : DWord) : (s.writeFd i v).drainDelay = s.drainDelay := rfl
@[simp] theorem State.writeFd_killed (s : State) (i : Reg) (v : DWord) : (s.writeFd i v).killed = s.killed := rfl
@[simp] theorem State.writeFd_mem (s : State) (i : Reg) (v : DWord) : (s.writeFd i v).mem = s.mem := rfl
@[simp] theorem State.writeFd_par (s : State) (i : Reg) (v : DWord) : (s.writeFd i v).par = s.par := rfl
@[simp] theorem State.writeFd_freeCount (s : State) (i : Reg) (v : DWord) : (s.writeFd i v).freeCount = s.freeCount := rfl

/-! ### `State.writeFq` -/

@[simp] theorem State.writeFq_iregs (s : State) (i : Reg) (v : BitVec 128) : (s.writeFq i v).iregs = s.iregs := rfl
@[simp] theorem State.writeFq_pc (s : State) (i : Reg) (v : BitVec 128) : (s.writeFq i v).pc = s.pc := rfl
@[simp] theorem State.writeFq_fir (s : State) (i : Reg) (v : BitVec 128) : (s.writeFq i v).fir = s.fir := rfl
@[simp] theorem State.writeFq_psr (s : State) (i : Reg) (v : BitVec 128) : (s.writeFq i v).psr = s.psr := rfl
@[simp] theorem State.writeFq_dirbase (s : State) (i : Reg) (v : BitVec 128) : (s.writeFq i v).dirbase = s.dirbase := rfl
@[simp] theorem State.writeFq_db (s : State) (i : Reg) (v : BitVec 128) : (s.writeFq i v).db = s.db := rfl
@[simp] theorem State.writeFq_fsr (s : State) (i : Reg) (v : BitVec 128) : (s.writeFq i v).fsr = s.fsr := rfl
@[simp] theorem State.writeFq_epsr (s : State) (i : Reg) (v : BitVec 128) : (s.writeFq i v).epsr = s.epsr := rfl
@[simp] theorem State.writeFq_firLatched (s : State) (i : Reg) (v : BitVec 128) : (s.writeFq i v).firLatched = s.firLatched := rfl
@[simp] theorem State.writeFq_ki (s : State) (i : Reg) (v : BitVec 128) : (s.writeFq i v).ki = s.ki := rfl
@[simp] theorem State.writeFq_kr (s : State) (i : Reg) (v : BitVec 128) : (s.writeFq i v).kr = s.kr := rfl
@[simp] theorem State.writeFq_t (s : State) (i : Reg) (v : BitVec 128) : (s.writeFq i v).t = s.t := rfl
@[simp] theorem State.writeFq_merge (s : State) (i : Reg) (v : BitVec 128) : (s.writeFq i v).merge = s.merge := rfl
@[simp] theorem State.writeFq_pipeA (s : State) (i : Reg) (v : BitVec 128) : (s.writeFq i v).pipeA = s.pipeA := rfl
@[simp] theorem State.writeFq_pipeM (s : State) (i : Reg) (v : BitVec 128) : (s.writeFq i v).pipeM = s.pipeM := rfl
@[simp] theorem State.writeFq_pipeL (s : State) (i : Reg) (v : BitVec 128) : (s.writeFq i v).pipeL = s.pipeL := rfl
@[simp] theorem State.writeFq_pipeG (s : State) (i : Reg) (v : BitVec 128) : (s.writeFq i v).pipeG = s.pipeG := rfl
@[simp] theorem State.writeFq_tlb (s : State) (i : Reg) (v : BitVec 128) : (s.writeFq i v).tlb = s.tlb := rfl
@[simp] theorem State.writeFq_icache (s : State) (i : Reg) (v : BitVec 128) : (s.writeFq i v).icache = s.icache := rfl
@[simp] theorem State.writeFq_trapPending (s : State) (i : Reg) (v : BitVec 128) : (s.writeFq i v).trapPending = s.trapPending := rfl
@[simp] theorem State.writeFq_trapInDelaySlot (s : State) (i : Reg) (v : BitVec 128) : (s.writeFq i v).trapInDelaySlot = s.trapInDelaySlot := rfl
@[simp] theorem State.writeFq_trapExternal (s : State) (i : Reg) (v : BitVec 128) : (s.writeFq i v).trapExternal = s.trapExternal := rfl
@[simp] theorem State.writeFq_pcUpdated (s : State) (i : Reg) (v : BitVec 128) : (s.writeFq i v).pcUpdated = s.pcUpdated := rfl
@[simp] theorem State.writeFq_exitedEarly (s : State) (i : Reg) (v : BitVec 128) : (s.writeFq i v).exitedEarly = s.exitedEarly := rfl
@[simp] theorem State.writeFq_exitingIfetch (s : State) (i : Reg) (v : BitVec 128) : (s.writeFq i v).exitingIfetch = s.exitingIfetch := rfl
@[simp] theorem State.writeFq_dimOp (s : State) (i : Reg) (v : BitVec 128) : (s.writeFq i v).dimOp = s.dimOp := rfl
@[simp] theorem State.writeFq_extIntr (s : State) (i : Reg) (v : BitVec 128) : (s.writeFq i v).extIntr = s.extIntr := rfl
@[simp] theorem State.writeFq_dim (s : State) (i : Reg) (v : BitVec 128) : (s.writeFq i v).dim = s.dim := rfl
@[simp] theorem State.writeFq_snapDim (s : State) (i : Reg) (v : BitVec 128) : (s.writeFq i v).snapDim = s.snapDim := rfl
@[simp] theorem State.writeFq_snapDimOp (s : State) (i : Reg) (v : BitVec 128) : (s.writeFq i v).snapDimOp = s.snapDimOp := rfl
@[simp] theorem State.writeFq_snapCcValid (s : State) (i : Reg) (v : BitVec 128) : (s.writeFq i v).snapCcValid = s.snapCcValid := rfl
@[simp] theorem State.writeFq_snapCc (s : State) (i : Reg) (v : BitVec 128) : (s.writeFq i v).snapCc = s.snapCc := rfl
@[simp] theorem State.writeFq_ccValid (s : State) (i : Reg) (v : BitVec 128) : (s.writeFq i v).ccValid = s.ccValid := rfl
@[simp] theorem State.writeFq_ccRaw (s : State) (i : Reg) (v : BitVec 128) : (s.writeFq i v).ccRaw = s.ccRaw := rfl
@[simp] theorem State.writeFq_halted (s : State) (i : Reg) (v : BitVec 128) : (s.writeFq i v).halted = s.halted := rfl
@[simp] theorem State.writeFq_mailbox (s : State) (i : Reg) (v : BitVec 128) : (s.writeFq i v).mailbox = s.mailbox := rfl
@[simp] theorem State.writeFq_drainDelay (s : State) (i : Reg) (v : BitVec 128) : (s.writeFq i v).drainDelay = s.drainDelay := rfl
@[simp] theorem State.writeFq_killed (s : State) (i : Reg) (v : BitVec 128) : (s.writeFq i v).killed = s.killed := rfl
@[simp] theorem State.writeFq_mem (s : State) (i : Reg) (v : BitVec 128) : (s.writeFq i v).mem = s.mem := rfl
@[simp] theorem State.writeFq_par (s : State) (i : Reg) (v : BitVec 128) : (s.writeFq i v).par = s.par := rfl
@[simp] theorem State.writeFq_freeCount (s : State) (i : Reg) (v : BitVec 128) : (s.writeFq i v).freeCount = s.freeCount := rfl

/-! ### `State.setCC` -/

@[simp] theorem State.setCC_iregs (s : State) (b : Bool) : (s.setCC b).iregs = s.iregs := rfl
@[simp] theorem State.setCC_fregs (s : State) (b : Bool) : (s.setCC b).fregs = s.fregs := rfl
@[simp] theorem State.setCC_pc (s : State) (b : Bool) : (s.setCC b).pc = s.pc := rfl
@[simp] theorem State.setCC_fir (s : State) (b : Bool) : (s.setCC b).fir = s.fir := rfl
@[simp] theorem State.setCC_psr (s : State) (b : Bool) : (s.setCC b).psr = setBit s.psr 2 b := rfl
@[simp] theorem State.setCC_dirbase (s : State) (b : Bool) : (s.setCC b).dirbase = s.dirbase := rfl
@[simp] theorem State.setCC_db (s : State) (b : Bool) : (s.setCC b).db = s.db := rfl
@[simp] theorem State.setCC_fsr (s : State) (b : Bool) : (s.setCC b).fsr = s.fsr := rfl
@[simp] theorem State.setCC_epsr (s : State) (b : Bool) : (s.setCC b).epsr = s.epsr := rfl
@[simp] theorem State.setCC_firLatched (s : State) (b : Bool) : (s.setCC b).firLatched = s.firLatched := rfl
@[simp] theorem State.setCC_ki (s : State) (b : Bool) : (s.setCC b).ki = s.ki := rfl
@[simp] theorem State.setCC_kr (s : State) (b : Bool) : (s.setCC b).kr = s.kr := rfl
@[simp] theorem State.setCC_t (s : State) (b : Bool) : (s.setCC b).t = s.t := rfl
@[simp] theorem State.setCC_merge (s : State) (b : Bool) : (s.setCC b).merge = s.merge := rfl
@[simp] theorem State.setCC_pipeA (s : State) (b : Bool) : (s.setCC b).pipeA = s.pipeA := rfl
@[simp] theorem State.setCC_pipeM (s : State) (b : Bool) : (s.setCC b).pipeM = s.pipeM := rfl
@[simp] theorem State.setCC_pipeL (s : State) (b : Bool) : (s.setCC b).pipeL = s.pipeL := rfl
@[simp] theorem State.setCC_pipeG (s : State) (b : Bool) : (s.setCC b).pipeG = s.pipeG := rfl
@[simp] theorem State.setCC_tlb (s : State) (b : Bool) : (s.setCC b).tlb = s.tlb := rfl
@[simp] theorem State.setCC_icache (s : State) (b : Bool) : (s.setCC b).icache = s.icache := rfl
@[simp] theorem State.setCC_trapPending (s : State) (b : Bool) : (s.setCC b).trapPending = s.trapPending := rfl
@[simp] theorem State.setCC_trapInDelaySlot (s : State) (b : Bool) : (s.setCC b).trapInDelaySlot = s.trapInDelaySlot := rfl
@[simp] theorem State.setCC_trapExternal (s : State) (b : Bool) : (s.setCC b).trapExternal = s.trapExternal := rfl
@[simp] theorem State.setCC_pcUpdated (s : State) (b : Bool) : (s.setCC b).pcUpdated = s.pcUpdated := rfl
@[simp] theorem State.setCC_exitedEarly (s : State) (b : Bool) : (s.setCC b).exitedEarly = s.exitedEarly := rfl
@[simp] theorem State.setCC_exitingIfetch (s : State) (b : Bool) : (s.setCC b).exitingIfetch = s.exitingIfetch := rfl
@[simp] theorem State.setCC_dimOp (s : State) (b : Bool) : (s.setCC b).dimOp = s.dimOp := rfl
@[simp] theorem State.setCC_extIntr (s : State) (b : Bool) : (s.setCC b).extIntr = s.extIntr := rfl
@[simp] theorem State.setCC_dim (s : State) (b : Bool) : (s.setCC b).dim = s.dim := rfl
@[simp] theorem State.setCC_snapDim (s : State) (b : Bool) : (s.setCC b).snapDim = s.snapDim := rfl
@[simp] theorem State.setCC_snapDimOp (s : State) (b : Bool) : (s.setCC b).snapDimOp = s.snapDimOp := rfl
@[simp] theorem State.setCC_snapCcValid (s : State) (b : Bool) : (s.setCC b).snapCcValid = s.snapCcValid := rfl
@[simp] theorem State.setCC_snapCc (s : State) (b : Bool) : (s.setCC b).snapCc = s.snapCc := rfl
@[simp] theorem State.setCC_ccValid (s : State) (b : Bool) : (s.setCC b).ccValid = s.ccValid := rfl
@[simp] theorem State.setCC_ccRaw (s : State) (b : Bool) : (s.setCC b).ccRaw = s.ccRaw := rfl
@[simp] theorem State.setCC_halted (s : State) (b : Bool) : (s.setCC b).halted = s.halted := rfl
@[simp] theorem State.setCC_mailbox (s : State) (b : Bool) : (s.setCC b).mailbox = s.mailbox := rfl
@[simp] theorem State.setCC_drainDelay (s : State) (b : Bool) : (s.setCC b).drainDelay = s.drainDelay := rfl
@[simp] theorem State.setCC_killed (s : State) (b : Bool) : (s.setCC b).killed = s.killed := rfl
@[simp] theorem State.setCC_mem (s : State) (b : Bool) : (s.setCC b).mem = s.mem := rfl
@[simp] theorem State.setCC_par (s : State) (b : Bool) : (s.setCC b).par = s.par := rfl
@[simp] theorem State.setCC_freeCount (s : State) (b : Bool) : (s.setCC b).freeCount = s.freeCount := rfl

/-! ### `State.setLCC` -/

@[simp] theorem State.setLCC_iregs (s : State) (b : Bool) : (s.setLCC b).iregs = s.iregs := rfl
@[simp] theorem State.setLCC_fregs (s : State) (b : Bool) : (s.setLCC b).fregs = s.fregs := rfl
@[simp] theorem State.setLCC_pc (s : State) (b : Bool) : (s.setLCC b).pc = s.pc := rfl
@[simp] theorem State.setLCC_fir (s : State) (b : Bool) : (s.setLCC b).fir = s.fir := rfl
@[simp] theorem State.setLCC_psr (s : State) (b : Bool) : (s.setLCC b).psr = setBit s.psr 3 b := rfl
@[simp] theorem State.setLCC_dirbase (s : State) (b : Bool) : (s.setLCC b).dirbase = s.dirbase := rfl
@[simp] theorem State.setLCC_db (s : State) (b : Bool) : (s.setLCC b).db = s.db := rfl
@[simp] theorem State.setLCC_fsr (s : State) (b : Bool) : (s.setLCC b).fsr = s.fsr := rfl
@[simp] theorem State.setLCC_epsr (s : State) (b : Bool) : (s.setLCC b).epsr = s.epsr := rfl
@[simp] theorem State.setLCC_firLatched (s : State) (b : Bool) : (s.setLCC b).firLatched = s.firLatched := rfl
@[simp] theorem State.setLCC_ki (s : State) (b : Bool) : (s.setLCC b).ki = s.ki := rfl
@[simp] theorem State.setLCC_kr (s : State) (b : Bool) : (s.setLCC b).kr = s.kr := rfl
@[simp] theorem State.setLCC_t (s : State) (b : Bool) : (s.setLCC b).t = s.t := rfl
@[simp] theorem State.setLCC_merge (s : State) (b : Bool) : (s.setLCC b).merge = s.merge := rfl
@[simp] theorem State.setLCC_pipeA (s : State) (b : Bool) : (s.setLCC b).pipeA = s.pipeA := rfl
@[simp] theorem State.setLCC_pipeM (s : State) (b : Bool) : (s.setLCC b).pipeM = s.pipeM := rfl
@[simp] theorem State.setLCC_pipeL (s : State) (b : Bool) : (s.setLCC b).pipeL = s.pipeL := rfl
@[simp] theorem State.setLCC_pipeG (s : State) (b : Bool) : (s.setLCC b).pipeG = s.pipeG := rfl
@[simp] theorem State.setLCC_tlb (s : State) (b : Bool) : (s.setLCC b).tlb = s.tlb := rfl
@[simp] theorem State.setLCC_icache (s : State) (b : Bool) : (s.setLCC b).icache = s.icache := rfl
@[simp] theorem State.setLCC_trapPending (s : State) (b : Bool) : (s.setLCC b).trapPending = s.trapPending := rfl
@[simp] theorem State.setLCC_trapInDelaySlot (s : State) (b : Bool) : (s.setLCC b).trapInDelaySlot = s.trapInDelaySlot := rfl
@[simp] theorem State.setLCC_trapExternal (s : State) (b : Bool) : (s.setLCC b).trapExternal = s.trapExternal := rfl
@[simp] theorem State.setLCC_pcUpdated (s : State) (b : Bool) : (s.setLCC b).pcUpdated = s.pcUpdated := rfl
@[simp] theorem State.setLCC_exitedEarly (s : State) (b : Bool) : (s.setLCC b).exitedEarly = s.exitedEarly := rfl
@[simp] theorem State.setLCC_exitingIfetch (s : State) (b : Bool) : (s.setLCC b).exitingIfetch = s.exitingIfetch := rfl
@[simp] theorem State.setLCC_dimOp (s : State) (b : Bool) : (s.setLCC b).dimOp = s.dimOp := rfl
@[simp] theorem State.setLCC_extIntr (s : State) (b : Bool) : (s.setLCC b).extIntr = s.extIntr := rfl
@[simp] theorem State.setLCC_dim (s : State) (b : Bool) : (s.setLCC b).dim = s.dim := rfl
@[simp] theorem State.setLCC_snapDim (s : State) (b : Bool) : (s.setLCC b).snapDim = s.snapDim := rfl
@[simp] theorem State.setLCC_snapDimOp (s : State) (b : Bool) : (s.setLCC b).snapDimOp = s.snapDimOp := rfl
@[simp] theorem State.setLCC_snapCcValid (s : State) (b : Bool) : (s.setLCC b).snapCcValid = s.snapCcValid := rfl
@[simp] theorem State.setLCC_snapCc (s : State) (b : Bool) : (s.setLCC b).snapCc = s.snapCc := rfl
@[simp] theorem State.setLCC_ccValid (s : State) (b : Bool) : (s.setLCC b).ccValid = s.ccValid := rfl
@[simp] theorem State.setLCC_ccRaw (s : State) (b : Bool) : (s.setLCC b).ccRaw = s.ccRaw := rfl
@[simp] theorem State.setLCC_halted (s : State) (b : Bool) : (s.setLCC b).halted = s.halted := rfl
@[simp] theorem State.setLCC_mailbox (s : State) (b : Bool) : (s.setLCC b).mailbox = s.mailbox := rfl
@[simp] theorem State.setLCC_drainDelay (s : State) (b : Bool) : (s.setLCC b).drainDelay = s.drainDelay := rfl
@[simp] theorem State.setLCC_killed (s : State) (b : Bool) : (s.setLCC b).killed = s.killed := rfl
@[simp] theorem State.setLCC_mem (s : State) (b : Bool) : (s.setLCC b).mem = s.mem := rfl
@[simp] theorem State.setLCC_par (s : State) (b : Bool) : (s.setLCC b).par = s.par := rfl
@[simp] theorem State.setLCC_freeCount (s : State) (b : Bool) : (s.setLCC b).freeCount = s.freeCount := rfl

/-! ### `State.setSC` -/

@[simp] theorem State.setSC_iregs (s : State) (v : BitVec 5) : (s.setSC v).iregs = s.iregs := rfl
@[simp] theorem State.setSC_fregs (s : State) (v : BitVec 5) : (s.setSC v).fregs = s.fregs := rfl
@[simp] theorem State.setSC_pc (s : State) (v : BitVec 5) : (s.setSC v).pc = s.pc := rfl
@[simp] theorem State.setSC_fir (s : State) (v : BitVec 5) : (s.setSC v).fir = s.fir := rfl
@[simp] theorem State.setSC_psr (s : State) (v : BitVec 5) : (s.setSC v).psr = setField s.psr 17 5 v := rfl
@[simp] theorem State.setSC_dirbase (s : State) (v : BitVec 5) : (s.setSC v).dirbase = s.dirbase := rfl
@[simp] theorem State.setSC_db (s : State) (v : BitVec 5) : (s.setSC v).db = s.db := rfl
@[simp] theorem State.setSC_fsr (s : State) (v : BitVec 5) : (s.setSC v).fsr = s.fsr := rfl
@[simp] theorem State.setSC_epsr (s : State) (v : BitVec 5) : (s.setSC v).epsr = s.epsr := rfl
@[simp] theorem State.setSC_firLatched (s : State) (v : BitVec 5) : (s.setSC v).firLatched = s.firLatched := rfl
@[simp] theorem State.setSC_ki (s : State) (v : BitVec 5) : (s.setSC v).ki = s.ki := rfl
@[simp] theorem State.setSC_kr (s : State) (v : BitVec 5) : (s.setSC v).kr = s.kr := rfl
@[simp] theorem State.setSC_t (s : State) (v : BitVec 5) : (s.setSC v).t = s.t := rfl
@[simp] theorem State.setSC_merge (s : State) (v : BitVec 5) : (s.setSC v).merge = s.merge := rfl
@[simp] theorem State.setSC_pipeA (s : State) (v : BitVec 5) : (s.setSC v).pipeA = s.pipeA := rfl
@[simp] theorem State.setSC_pipeM (s : State) (v : BitVec 5) : (s.setSC v).pipeM = s.pipeM := rfl
@[simp] theorem State.setSC_pipeL (s : State) (v : BitVec 5) : (s.setSC v).pipeL = s.pipeL := rfl
@[simp] theorem State.setSC_pipeG (s : State) (v : BitVec 5) : (s.setSC v).pipeG = s.pipeG := rfl
@[simp] theorem State.setSC_tlb (s : State) (v : BitVec 5) : (s.setSC v).tlb = s.tlb := rfl
@[simp] theorem State.setSC_icache (s : State) (v : BitVec 5) : (s.setSC v).icache = s.icache := rfl
@[simp] theorem State.setSC_trapPending (s : State) (v : BitVec 5) : (s.setSC v).trapPending = s.trapPending := rfl
@[simp] theorem State.setSC_trapInDelaySlot (s : State) (v : BitVec 5) : (s.setSC v).trapInDelaySlot = s.trapInDelaySlot := rfl
@[simp] theorem State.setSC_trapExternal (s : State) (v : BitVec 5) : (s.setSC v).trapExternal = s.trapExternal := rfl
@[simp] theorem State.setSC_pcUpdated (s : State) (v : BitVec 5) : (s.setSC v).pcUpdated = s.pcUpdated := rfl
@[simp] theorem State.setSC_exitedEarly (s : State) (v : BitVec 5) : (s.setSC v).exitedEarly = s.exitedEarly := rfl
@[simp] theorem State.setSC_exitingIfetch (s : State) (v : BitVec 5) : (s.setSC v).exitingIfetch = s.exitingIfetch := rfl
@[simp] theorem State.setSC_dimOp (s : State) (v : BitVec 5) : (s.setSC v).dimOp = s.dimOp := rfl
@[simp] theorem State.setSC_extIntr (s : State) (v : BitVec 5) : (s.setSC v).extIntr = s.extIntr := rfl
@[simp] theorem State.setSC_dim (s : State) (v : BitVec 5) : (s.setSC v).dim = s.dim := rfl
@[simp] theorem State.setSC_snapDim (s : State) (v : BitVec 5) : (s.setSC v).snapDim = s.snapDim := rfl
@[simp] theorem State.setSC_snapDimOp (s : State) (v : BitVec 5) : (s.setSC v).snapDimOp = s.snapDimOp := rfl
@[simp] theorem State.setSC_snapCcValid (s : State) (v : BitVec 5) : (s.setSC v).snapCcValid = s.snapCcValid := rfl
@[simp] theorem State.setSC_snapCc (s : State) (v : BitVec 5) : (s.setSC v).snapCc = s.snapCc := rfl
@[simp] theorem State.setSC_ccValid (s : State) (v : BitVec 5) : (s.setSC v).ccValid = s.ccValid := rfl
@[simp] theorem State.setSC_ccRaw (s : State) (v : BitVec 5) : (s.setSC v).ccRaw = s.ccRaw := rfl
@[simp] theorem State.setSC_halted (s : State) (v : BitVec 5) : (s.setSC v).halted = s.halted := rfl
@[simp] theorem State.setSC_mailbox (s : State) (v : BitVec 5) : (s.setSC v).mailbox = s.mailbox := rfl
@[simp] theorem State.setSC_drainDelay (s : State) (v : BitVec 5) : (s.setSC v).drainDelay = s.drainDelay := rfl
@[simp] theorem State.setSC_killed (s : State) (v : BitVec 5) : (s.setSC v).killed = s.killed := rfl
@[simp] theorem State.setSC_mem (s : State) (v : BitVec 5) : (s.setSC v).mem = s.mem := rfl
@[simp] theorem State.setSC_par (s : State) (v : BitVec 5) : (s.setSC v).par = s.par := rfl
@[simp] theorem State.setSC_freeCount (s : State) (v : BitVec 5) : (s.setSC v).freeCount = s.freeCount := rfl

/-! ### `State.setPM` -/

@[simp] theorem State.setPM_iregs (s : State) (v : BitVec 8) : (s.setPM v).iregs = s.iregs := rfl
@[simp] theorem State.setPM_fregs (s : State) (v : BitVec 8) : (s.setPM v).fregs = s.fregs := rfl
@[simp] theorem State.setPM_pc (s : State) (v : BitVec 8) : (s.setPM v).pc = s.pc := rfl
@[simp] theorem State.setPM_fir (s : State) (v : BitVec 8) : (s.setPM v).fir = s.fir := rfl
@[simp] theorem State.setPM_psr (s : State) (v : BitVec 8) : (s.setPM v).psr = setField s.psr 24 8 v := rfl
@[simp] theorem State.setPM_dirbase (s : State) (v : BitVec 8) : (s.setPM v).dirbase = s.dirbase := rfl
@[simp] theorem State.setPM_db (s : State) (v : BitVec 8) : (s.setPM v).db = s.db := rfl
@[simp] theorem State.setPM_fsr (s : State) (v : BitVec 8) : (s.setPM v).fsr = s.fsr := rfl
@[simp] theorem State.setPM_epsr (s : State) (v : BitVec 8) : (s.setPM v).epsr = s.epsr := rfl
@[simp] theorem State.setPM_firLatched (s : State) (v : BitVec 8) : (s.setPM v).firLatched = s.firLatched := rfl
@[simp] theorem State.setPM_ki (s : State) (v : BitVec 8) : (s.setPM v).ki = s.ki := rfl
@[simp] theorem State.setPM_kr (s : State) (v : BitVec 8) : (s.setPM v).kr = s.kr := rfl
@[simp] theorem State.setPM_t (s : State) (v : BitVec 8) : (s.setPM v).t = s.t := rfl
@[simp] theorem State.setPM_merge (s : State) (v : BitVec 8) : (s.setPM v).merge = s.merge := rfl
@[simp] theorem State.setPM_pipeA (s : State) (v : BitVec 8) : (s.setPM v).pipeA = s.pipeA := rfl
@[simp] theorem State.setPM_pipeM (s : State) (v : BitVec 8) : (s.setPM v).pipeM = s.pipeM := rfl
@[simp] theorem State.setPM_pipeL (s : State) (v : BitVec 8) : (s.setPM v).pipeL = s.pipeL := rfl
@[simp] theorem State.setPM_pipeG (s : State) (v : BitVec 8) : (s.setPM v).pipeG = s.pipeG := rfl
@[simp] theorem State.setPM_tlb (s : State) (v : BitVec 8) : (s.setPM v).tlb = s.tlb := rfl
@[simp] theorem State.setPM_icache (s : State) (v : BitVec 8) : (s.setPM v).icache = s.icache := rfl
@[simp] theorem State.setPM_trapPending (s : State) (v : BitVec 8) : (s.setPM v).trapPending = s.trapPending := rfl
@[simp] theorem State.setPM_trapInDelaySlot (s : State) (v : BitVec 8) : (s.setPM v).trapInDelaySlot = s.trapInDelaySlot := rfl
@[simp] theorem State.setPM_trapExternal (s : State) (v : BitVec 8) : (s.setPM v).trapExternal = s.trapExternal := rfl
@[simp] theorem State.setPM_pcUpdated (s : State) (v : BitVec 8) : (s.setPM v).pcUpdated = s.pcUpdated := rfl
@[simp] theorem State.setPM_exitedEarly (s : State) (v : BitVec 8) : (s.setPM v).exitedEarly = s.exitedEarly := rfl
@[simp] theorem State.setPM_exitingIfetch (s : State) (v : BitVec 8) : (s.setPM v).exitingIfetch = s.exitingIfetch := rfl
@[simp] theorem State.setPM_dimOp (s : State) (v : BitVec 8) : (s.setPM v).dimOp = s.dimOp := rfl
@[simp] theorem State.setPM_extIntr (s : State) (v : BitVec 8) : (s.setPM v).extIntr = s.extIntr := rfl
@[simp] theorem State.setPM_dim (s : State) (v : BitVec 8) : (s.setPM v).dim = s.dim := rfl
@[simp] theorem State.setPM_snapDim (s : State) (v : BitVec 8) : (s.setPM v).snapDim = s.snapDim := rfl
@[simp] theorem State.setPM_snapDimOp (s : State) (v : BitVec 8) : (s.setPM v).snapDimOp = s.snapDimOp := rfl
@[simp] theorem State.setPM_snapCcValid (s : State) (v : BitVec 8) : (s.setPM v).snapCcValid = s.snapCcValid := rfl
@[simp] theorem State.setPM_snapCc (s : State) (v : BitVec 8) : (s.setPM v).snapCc = s.snapCc := rfl
@[simp] theorem State.setPM_ccValid (s : State) (v : BitVec 8) : (s.setPM v).ccValid = s.ccValid := rfl
@[simp] theorem State.setPM_ccRaw (s : State) (v : BitVec 8) : (s.setPM v).ccRaw = s.ccRaw := rfl
@[simp] theorem State.setPM_halted (s : State) (v : BitVec 8) : (s.setPM v).halted = s.halted := rfl
@[simp] theorem State.setPM_mailbox (s : State) (v : BitVec 8) : (s.setPM v).mailbox = s.mailbox := rfl
@[simp] theorem State.setPM_drainDelay (s : State) (v : BitVec 8) : (s.setPM v).drainDelay = s.drainDelay := rfl
@[simp] theorem State.setPM_killed (s : State) (v : BitVec 8) : (s.setPM v).killed = s.killed := rfl
@[simp] theorem State.setPM_mem (s : State) (v : BitVec 8) : (s.setPM v).mem = s.mem := rfl
@[simp] theorem State.setPM_par (s : State) (v : BitVec 8) : (s.setPM v).par = s.par := rfl
@[simp] theorem State.setPM_freeCount (s : State) (v : BitVec 8) : (s.setPM v).freeCount = s.freeCount := rfl

/-! ### `State.setIntPin` -/

@[simp] theorem State.setIntPin_iregs (s : State) (b : Bool) : (s.setIntPin b).iregs = s.iregs := rfl
@[simp] theorem State.setIntPin_fregs (s : State) (b : Bool) : (s.setIntPin b).fregs = s.fregs := rfl
@[simp] theorem State.setIntPin_pc (s : State) (b : Bool) : (s.setIntPin b).pc = s.pc := rfl
@[simp] theorem State.setIntPin_fir (s : State) (b : Bool) : (s.setIntPin b).fir = s.fir := rfl
@[simp] theorem State.setIntPin_psr (s : State) (b : Bool) : (s.setIntPin b).psr = s.psr := rfl
@[simp] theorem State.setIntPin_dirbase (s : State) (b : Bool) : (s.setIntPin b).dirbase = s.dirbase := rfl
@[simp] theorem State.setIntPin_db (s : State) (b : Bool) : (s.setIntPin b).db = s.db := rfl
@[simp] theorem State.setIntPin_fsr (s : State) (b : Bool) : (s.setIntPin b).fsr = s.fsr := rfl
@[simp] theorem State.setIntPin_epsr (s : State) (b : Bool) : (s.setIntPin b).epsr = setBit s.epsr 17 b := rfl
@[simp] theorem State.setIntPin_firLatched (s : State) (b : Bool) : (s.setIntPin b).firLatched = s.firLatched := rfl
@[simp] theorem State.setIntPin_ki (s : State) (b : Bool) : (s.setIntPin b).ki = s.ki := rfl
@[simp] theorem State.setIntPin_kr (s : State) (b : Bool) : (s.setIntPin b).kr = s.kr := rfl
@[simp] theorem State.setIntPin_t (s : State) (b : Bool) : (s.setIntPin b).t = s.t := rfl
@[simp] theorem State.setIntPin_merge (s : State) (b : Bool) : (s.setIntPin b).merge = s.merge := rfl
@[simp] theorem State.setIntPin_pipeA (s : State) (b : Bool) : (s.setIntPin b).pipeA = s.pipeA := rfl
@[simp] theorem State.setIntPin_pipeM (s : State) (b : Bool) : (s.setIntPin b).pipeM = s.pipeM := rfl
@[simp] theorem State.setIntPin_pipeL (s : State) (b : Bool) : (s.setIntPin b).pipeL = s.pipeL := rfl
@[simp] theorem State.setIntPin_pipeG (s : State) (b : Bool) : (s.setIntPin b).pipeG = s.pipeG := rfl
@[simp] theorem State.setIntPin_tlb (s : State) (b : Bool) : (s.setIntPin b).tlb = s.tlb := rfl
@[simp] theorem State.setIntPin_icache (s : State) (b : Bool) : (s.setIntPin b).icache = s.icache := rfl
@[simp] theorem State.setIntPin_trapPending (s : State) (b : Bool) : (s.setIntPin b).trapPending = s.trapPending := rfl
@[simp] theorem State.setIntPin_trapInDelaySlot (s : State) (b : Bool) : (s.setIntPin b).trapInDelaySlot = s.trapInDelaySlot := rfl
@[simp] theorem State.setIntPin_trapExternal (s : State) (b : Bool) : (s.setIntPin b).trapExternal = s.trapExternal := rfl
@[simp] theorem State.setIntPin_pcUpdated (s : State) (b : Bool) : (s.setIntPin b).pcUpdated = s.pcUpdated := rfl
@[simp] theorem State.setIntPin_exitedEarly (s : State) (b : Bool) : (s.setIntPin b).exitedEarly = s.exitedEarly := rfl
@[simp] theorem State.setIntPin_exitingIfetch (s : State) (b : Bool) : (s.setIntPin b).exitingIfetch = s.exitingIfetch := rfl
@[simp] theorem State.setIntPin_dimOp (s : State) (b : Bool) : (s.setIntPin b).dimOp = s.dimOp := rfl
@[simp] theorem State.setIntPin_extIntr (s : State) (b : Bool) : (s.setIntPin b).extIntr = s.extIntr := rfl
@[simp] theorem State.setIntPin_dim (s : State) (b : Bool) : (s.setIntPin b).dim = s.dim := rfl
@[simp] theorem State.setIntPin_snapDim (s : State) (b : Bool) : (s.setIntPin b).snapDim = s.snapDim := rfl
@[simp] theorem State.setIntPin_snapDimOp (s : State) (b : Bool) : (s.setIntPin b).snapDimOp = s.snapDimOp := rfl
@[simp] theorem State.setIntPin_snapCcValid (s : State) (b : Bool) : (s.setIntPin b).snapCcValid = s.snapCcValid := rfl
@[simp] theorem State.setIntPin_snapCc (s : State) (b : Bool) : (s.setIntPin b).snapCc = s.snapCc := rfl
@[simp] theorem State.setIntPin_ccValid (s : State) (b : Bool) : (s.setIntPin b).ccValid = s.ccValid := rfl
@[simp] theorem State.setIntPin_ccRaw (s : State) (b : Bool) : (s.setIntPin b).ccRaw = s.ccRaw := rfl
@[simp] theorem State.setIntPin_halted (s : State) (b : Bool) : (s.setIntPin b).halted = s.halted := rfl
@[simp] theorem State.setIntPin_mailbox (s : State) (b : Bool) : (s.setIntPin b).mailbox = s.mailbox := rfl
@[simp] theorem State.setIntPin_drainDelay (s : State) (b : Bool) : (s.setIntPin b).drainDelay = s.drainDelay := rfl
@[simp] theorem State.setIntPin_killed (s : State) (b : Bool) : (s.setIntPin b).killed = s.killed := rfl
@[simp] theorem State.setIntPin_mem (s : State) (b : Bool) : (s.setIntPin b).mem = s.mem := rfl
@[simp] theorem State.setIntPin_par (s : State) (b : Bool) : (s.setIntPin b).par = s.par := rfl
@[simp] theorem State.setIntPin_freeCount (s : State) (b : Bool) : (s.setIntPin b).freeCount = s.freeCount := rfl

/-! ### `State.setOF` -/

@[simp] theorem State.setOF_iregs (s : State) (b : Bool) : (s.setOF b).iregs = s.iregs := rfl
@[simp] theorem State.setOF_fregs (s : State) (b : Bool) : (s.setOF b).fregs = s.fregs := rfl
@[simp] theorem State.setOF_pc (s : State) (b : Bool) : (s.setOF b).pc = s.pc := rfl
@[simp] theorem State.setOF_fir (s : State) (b : Bool) : (s.setOF b).fir = s.fir := rfl
@[simp] theorem State.setOF_psr (s : State) (b : Bool) : (s.setOF b).psr = s.psr := rfl
@[simp] theorem State.setOF_dirbase (s : State) (b : Bool) : (s.setOF b).dirbase = s.dirbase := rfl
@[simp] theorem State.setOF_db (s : State) (b : Bool) : (s.setOF b).db = s.db := rfl
@[simp] theorem State.setOF_fsr (s : State) (b : Bool) : (s.setOF b).fsr = s.fsr := rfl
@[simp] theorem State.setOF_epsr (s : State) (b : Bool) : (s.setOF b).epsr = setBit s.epsr 24 b := rfl
@[simp] theorem State.setOF_firLatched (s : State) (b : Bool) : (s.setOF b).firLatched = s.firLatched := rfl
@[simp] theorem State.setOF_ki (s : State) (b : Bool) : (s.setOF b).ki = s.ki := rfl
@[simp] theorem State.setOF_kr (s : State) (b : Bool) : (s.setOF b).kr = s.kr := rfl
@[simp] theorem State.setOF_t (s : State) (b : Bool) : (s.setOF b).t = s.t := rfl
@[simp] theorem State.setOF_merge (s : State) (b : Bool) : (s.setOF b).merge = s.merge := rfl
@[simp] theorem State.setOF_pipeA (s : State) (b : Bool) : (s.setOF b).pipeA = s.pipeA := rfl
@[simp] theorem State.setOF_pipeM (s : State) (b : Bool) : (s.setOF b).pipeM = s.pipeM := rfl
@[simp] theorem State.setOF_pipeL (s : State) (b : Bool) : (s.setOF b).pipeL = s.pipeL := rfl
@[simp] theorem State.setOF_pipeG (s : State) (b : Bool) : (s.setOF b).pipeG = s.pipeG := rfl
@[simp] theorem State.setOF_tlb (s : State) (b : Bool) : (s.setOF b).tlb = s.tlb := rfl
@[simp] theorem State.setOF_icache (s : State) (b : Bool) : (s.setOF b).icache = s.icache := rfl
@[simp] theorem State.setOF_trapPending (s : State) (b : Bool) : (s.setOF b).trapPending = s.trapPending := rfl
@[simp] theorem State.setOF_trapInDelaySlot (s : State) (b : Bool) : (s.setOF b).trapInDelaySlot = s.trapInDelaySlot := rfl
@[simp] theorem State.setOF_trapExternal (s : State) (b : Bool) : (s.setOF b).trapExternal = s.trapExternal := rfl
@[simp] theorem State.setOF_pcUpdated (s : State) (b : Bool) : (s.setOF b).pcUpdated = s.pcUpdated := rfl
@[simp] theorem State.setOF_exitedEarly (s : State) (b : Bool) : (s.setOF b).exitedEarly = s.exitedEarly := rfl
@[simp] theorem State.setOF_exitingIfetch (s : State) (b : Bool) : (s.setOF b).exitingIfetch = s.exitingIfetch := rfl
@[simp] theorem State.setOF_dimOp (s : State) (b : Bool) : (s.setOF b).dimOp = s.dimOp := rfl
@[simp] theorem State.setOF_extIntr (s : State) (b : Bool) : (s.setOF b).extIntr = s.extIntr := rfl
@[simp] theorem State.setOF_dim (s : State) (b : Bool) : (s.setOF b).dim = s.dim := rfl
@[simp] theorem State.setOF_snapDim (s : State) (b : Bool) : (s.setOF b).snapDim = s.snapDim := rfl
@[simp] theorem State.setOF_snapDimOp (s : State) (b : Bool) : (s.setOF b).snapDimOp = s.snapDimOp := rfl
@[simp] theorem State.setOF_snapCcValid (s : State) (b : Bool) : (s.setOF b).snapCcValid = s.snapCcValid := rfl
@[simp] theorem State.setOF_snapCc (s : State) (b : Bool) : (s.setOF b).snapCc = s.snapCc := rfl
@[simp] theorem State.setOF_ccValid (s : State) (b : Bool) : (s.setOF b).ccValid = s.ccValid := rfl
@[simp] theorem State.setOF_ccRaw (s : State) (b : Bool) : (s.setOF b).ccRaw = s.ccRaw := rfl
@[simp] theorem State.setOF_halted (s : State) (b : Bool) : (s.setOF b).halted = s.halted := rfl
@[simp] theorem State.setOF_mailbox (s : State) (b : Bool) : (s.setOF b).mailbox = s.mailbox := rfl
@[simp] theorem State.setOF_drainDelay (s : State) (b : Bool) : (s.setOF b).drainDelay = s.drainDelay := rfl
@[simp] theorem State.setOF_killed (s : State) (b : Bool) : (s.setOF b).killed = s.killed := rfl
@[simp] theorem State.setOF_mem (s : State) (b : Bool) : (s.setOF b).mem = s.mem := rfl
@[simp] theorem State.setOF_par (s : State) (b : Bool) : (s.setOF b).par = s.par := rfl
@[simp] theorem State.setOF_freeCount (s : State) (b : Bool) : (s.setOF b).freeCount = s.freeCount := rfl

/-! ### `State.setSE` -/

@[simp] theorem State.setSE_iregs (s : State) (b : Bool) : (s.setSE b).iregs = s.iregs := rfl
@[simp] theorem State.setSE_fregs (s : State) (b : Bool) : (s.setSE b).fregs = s.fregs := rfl
@[simp] theorem State.setSE_pc (s : State) (b : Bool) : (s.setSE b).pc = s.pc := rfl
@[simp] theorem State.setSE_fir (s : State) (b : Bool) : (s.setSE b).fir = s.fir := rfl
@[simp] theorem State.setSE_psr (s : State) (b : Bool) : (s.setSE b).psr = s.psr := rfl
@[simp] theorem State.setSE_dirbase (s : State) (b : Bool) : (s.setSE b).dirbase = s.dirbase := rfl
@[simp] theorem State.setSE_db (s : State) (b : Bool) : (s.setSE b).db = s.db := rfl
@[simp] theorem State.setSE_fsr (s : State) (b : Bool) : (s.setSE b).fsr = setBit s.fsr 8 b := rfl
@[simp] theorem State.setSE_epsr (s : State) (b : Bool) : (s.setSE b).epsr = s.epsr := rfl
@[simp] theorem State.setSE_firLatched (s : State) (b : Bool) : (s.setSE b).firLatched = s.firLatched := rfl
@[simp] theorem State.setSE_ki (s : State) (b : Bool) : (s.setSE b).ki = s.ki := rfl
@[simp] theorem State.setSE_kr (s : State) (b : Bool) : (s.setSE b).kr = s.kr := rfl
@[simp] theorem State.setSE_t (s : State) (b : Bool) : (s.setSE b).t = s.t := rfl
@[simp] theorem State.setSE_merge (s : State) (b : Bool) : (s.setSE b).merge = s.merge := rfl
@[simp] theorem State.setSE_pipeA (s : State) (b : Bool) : (s.setSE b).pipeA = s.pipeA := rfl
@[simp] theorem State.setSE_pipeM (s : State) (b : Bool) : (s.setSE b).pipeM = s.pipeM := rfl
@[simp] theorem State.setSE_pipeL (s : State) (b : Bool) : (s.setSE b).pipeL = s.pipeL := rfl
@[simp] theorem State.setSE_pipeG (s : State) (b : Bool) : (s.setSE b).pipeG = s.pipeG := rfl
@[simp] theorem State.setSE_tlb (s : State) (b : Bool) : (s.setSE b).tlb = s.tlb := rfl
@[simp] theorem State.setSE_icache (s : State) (b : Bool) : (s.setSE b).icache = s.icache := rfl
@[simp] theorem State.setSE_trapPending (s : State) (b : Bool) : (s.setSE b).trapPending = s.trapPending := rfl
@[simp] theorem State.setSE_trapInDelaySlot (s : State) (b : Bool) : (s.setSE b).trapInDelaySlot = s.trapInDelaySlot := rfl
@[simp] theorem State.setSE_trapExternal (s : State) (b : Bool) : (s.setSE b).trapExternal = s.trapExternal := rfl
@[simp] theorem State.setSE_pcUpdated (s : State) (b : Bool) : (s.setSE b).pcUpdated = s.pcUpdated := rfl
@[simp] theorem State.setSE_exitedEarly (s : State) (b : Bool) : (s.setSE b).exitedEarly = s.exitedEarly := rfl
@[simp] theorem State.setSE_exitingIfetch (s : State) (b : Bool) : (s.setSE b).exitingIfetch = s.exitingIfetch := rfl
@[simp] theorem State.setSE_dimOp (s : State) (b : Bool) : (s.setSE b).dimOp = s.dimOp := rfl
@[simp] theorem State.setSE_extIntr (s : State) (b : Bool) : (s.setSE b).extIntr = s.extIntr := rfl
@[simp] theorem State.setSE_dim (s : State) (b : Bool) : (s.setSE b).dim = s.dim := rfl
@[simp] theorem State.setSE_snapDim (s : State) (b : Bool) : (s.setSE b).snapDim = s.snapDim := rfl
@[simp] theorem State.setSE_snapDimOp (s : State) (b : Bool) : (s.setSE b).snapDimOp = s.snapDimOp := rfl
@[simp] theorem State.setSE_snapCcValid (s : State) (b : Bool) : (s.setSE b).snapCcValid = s.snapCcValid := rfl
@[simp] theorem State.setSE_snapCc (s : State) (b : Bool) : (s.setSE b).snapCc = s.snapCc := rfl
@[simp] theorem State.setSE_ccValid (s : State) (b : Bool) : (s.setSE b).ccValid = s.ccValid := rfl
@[simp] theorem State.setSE_ccRaw (s : State) (b : Bool) : (s.setSE b).ccRaw = s.ccRaw := rfl
@[simp] theorem State.setSE_halted (s : State) (b : Bool) : (s.setSE b).halted = s.halted := rfl
@[simp] theorem State.setSE_mailbox (s : State) (b : Bool) : (s.setSE b).mailbox = s.mailbox := rfl
@[simp] theorem State.setSE_drainDelay (s : State) (b : Bool) : (s.setSE b).drainDelay = s.drainDelay := rfl
@[simp] theorem State.setSE_killed (s : State) (b : Bool) : (s.setSE b).killed = s.killed := rfl
@[simp] theorem State.setSE_mem (s : State) (b : Bool) : (s.setSE b).mem = s.mem := rfl
@[simp] theorem State.setSE_par (s : State) (b : Bool) : (s.setSE b).par = s.par := rfl
@[simp] theorem State.setSE_freeCount (s : State) (b : Bool) : (s.setSE b).freeCount = s.freeCount := rfl

/-! ### `State.drawn` -/

@[simp] theorem State.drawn_iregs (s : State) : s.drawn.iregs = s.iregs := rfl
@[simp] theorem State.drawn_fregs (s : State) : s.drawn.fregs = s.fregs := rfl
@[simp] theorem State.drawn_pc (s : State) : s.drawn.pc = s.pc := rfl
@[simp] theorem State.drawn_fir (s : State) : s.drawn.fir = s.fir := rfl
@[simp] theorem State.drawn_psr (s : State) : s.drawn.psr = s.psr := rfl
@[simp] theorem State.drawn_dirbase (s : State) : s.drawn.dirbase = s.dirbase := rfl
@[simp] theorem State.drawn_db (s : State) : s.drawn.db = s.db := rfl
@[simp] theorem State.drawn_fsr (s : State) : s.drawn.fsr = s.fsr := rfl
@[simp] theorem State.drawn_epsr (s : State) : s.drawn.epsr = s.epsr := rfl
@[simp] theorem State.drawn_firLatched (s : State) : s.drawn.firLatched = s.firLatched := rfl
@[simp] theorem State.drawn_ki (s : State) : s.drawn.ki = s.ki := rfl
@[simp] theorem State.drawn_kr (s : State) : s.drawn.kr = s.kr := rfl
@[simp] theorem State.drawn_t (s : State) : s.drawn.t = s.t := rfl
@[simp] theorem State.drawn_merge (s : State) : s.drawn.merge = s.merge := rfl
@[simp] theorem State.drawn_pipeA (s : State) : s.drawn.pipeA = s.pipeA := rfl
@[simp] theorem State.drawn_pipeM (s : State) : s.drawn.pipeM = s.pipeM := rfl
@[simp] theorem State.drawn_pipeL (s : State) : s.drawn.pipeL = s.pipeL := rfl
@[simp] theorem State.drawn_pipeG (s : State) : s.drawn.pipeG = s.pipeG := rfl
@[simp] theorem State.drawn_tlb (s : State) : s.drawn.tlb = s.tlb := rfl
@[simp] theorem State.drawn_icache (s : State) : s.drawn.icache = s.icache := rfl
@[simp] theorem State.drawn_trapPending (s : State) : s.drawn.trapPending = s.trapPending := rfl
@[simp] theorem State.drawn_trapInDelaySlot (s : State) : s.drawn.trapInDelaySlot = s.trapInDelaySlot := rfl
@[simp] theorem State.drawn_trapExternal (s : State) : s.drawn.trapExternal = s.trapExternal := rfl
@[simp] theorem State.drawn_pcUpdated (s : State) : s.drawn.pcUpdated = s.pcUpdated := rfl
@[simp] theorem State.drawn_exitedEarly (s : State) : s.drawn.exitedEarly = s.exitedEarly := rfl
@[simp] theorem State.drawn_exitingIfetch (s : State) : s.drawn.exitingIfetch = s.exitingIfetch := rfl
@[simp] theorem State.drawn_dimOp (s : State) : s.drawn.dimOp = s.dimOp := rfl
@[simp] theorem State.drawn_extIntr (s : State) : s.drawn.extIntr = s.extIntr := rfl
@[simp] theorem State.drawn_dim (s : State) : s.drawn.dim = s.dim := rfl
@[simp] theorem State.drawn_snapDim (s : State) : s.drawn.snapDim = s.snapDim := rfl
@[simp] theorem State.drawn_snapDimOp (s : State) : s.drawn.snapDimOp = s.snapDimOp := rfl
@[simp] theorem State.drawn_snapCcValid (s : State) : s.drawn.snapCcValid = s.snapCcValid := rfl
@[simp] theorem State.drawn_snapCc (s : State) : s.drawn.snapCc = s.snapCc := rfl
@[simp] theorem State.drawn_ccValid (s : State) : s.drawn.ccValid = s.ccValid := rfl
@[simp] theorem State.drawn_ccRaw (s : State) : s.drawn.ccRaw = s.ccRaw := rfl
@[simp] theorem State.drawn_halted (s : State) : s.drawn.halted = s.halted := rfl
@[simp] theorem State.drawn_mailbox (s : State) : s.drawn.mailbox = s.mailbox := rfl
@[simp] theorem State.drawn_drainDelay (s : State) : s.drawn.drainDelay = s.drainDelay := rfl
@[simp] theorem State.drawn_killed (s : State) : s.drawn.killed = s.killed := rfl
@[simp] theorem State.drawn_mem (s : State) : s.drawn.mem = s.mem := rfl
@[simp] theorem State.drawn_par (s : State) : s.drawn.par = s.par := rfl
@[simp] theorem State.drawn_freeCount (s : State) : s.drawn.freeCount = s.freeCount + 1 := rfl

/-! ### `State.jump` -/

@[simp] theorem State.jump_iregs (s : State) (target : Word) : (s.jump target).iregs = s.iregs := rfl
@[simp] theorem State.jump_fregs (s : State) (target : Word) : (s.jump target).fregs = s.fregs := rfl
@[simp] theorem State.jump_pc (s : State) (target : Word) : (s.jump target).pc = target := rfl
@[simp] theorem State.jump_fir (s : State) (target : Word) : (s.jump target).fir = s.fir := rfl
@[simp] theorem State.jump_psr (s : State) (target : Word) : (s.jump target).psr = s.psr := rfl
@[simp] theorem State.jump_dirbase (s : State) (target : Word) : (s.jump target).dirbase = s.dirbase := rfl
@[simp] theorem State.jump_db (s : State) (target : Word) : (s.jump target).db = s.db := rfl
@[simp] theorem State.jump_fsr (s : State) (target : Word) : (s.jump target).fsr = s.fsr := rfl
@[simp] theorem State.jump_epsr (s : State) (target : Word) : (s.jump target).epsr = s.epsr := rfl
@[simp] theorem State.jump_firLatched (s : State) (target : Word) : (s.jump target).firLatched = s.firLatched := rfl
@[simp] theorem State.jump_ki (s : State) (target : Word) : (s.jump target).ki = s.ki := rfl
@[simp] theorem State.jump_kr (s : State) (target : Word) : (s.jump target).kr = s.kr := rfl
@[simp] theorem State.jump_t (s : State) (target : Word) : (s.jump target).t = s.t := rfl
@[simp] theorem State.jump_merge (s : State) (target : Word) : (s.jump target).merge = s.merge := rfl
@[simp] theorem State.jump_pipeA (s : State) (target : Word) : (s.jump target).pipeA = s.pipeA := rfl
@[simp] theorem State.jump_pipeM (s : State) (target : Word) : (s.jump target).pipeM = s.pipeM := rfl
@[simp] theorem State.jump_pipeL (s : State) (target : Word) : (s.jump target).pipeL = s.pipeL := rfl
@[simp] theorem State.jump_pipeG (s : State) (target : Word) : (s.jump target).pipeG = s.pipeG := rfl
@[simp] theorem State.jump_tlb (s : State) (target : Word) : (s.jump target).tlb = s.tlb := rfl
@[simp] theorem State.jump_icache (s : State) (target : Word) : (s.jump target).icache = s.icache := rfl
@[simp] theorem State.jump_trapPending (s : State) (target : Word) : (s.jump target).trapPending = s.trapPending := rfl
@[simp] theorem State.jump_trapInDelaySlot (s : State) (target : Word) : (s.jump target).trapInDelaySlot = s.trapInDelaySlot := rfl
@[simp] theorem State.jump_trapExternal (s : State) (target : Word) : (s.jump target).trapExternal = s.trapExternal := rfl
@[simp] theorem State.jump_pcUpdated (s : State) (target : Word) : (s.jump target).pcUpdated = true := rfl
@[simp] theorem State.jump_exitedEarly (s : State) (target : Word) : (s.jump target).exitedEarly = s.exitedEarly := rfl
@[simp] theorem State.jump_exitingIfetch (s : State) (target : Word) : (s.jump target).exitingIfetch = s.exitingIfetch := rfl
@[simp] theorem State.jump_dimOp (s : State) (target : Word) : (s.jump target).dimOp = s.dimOp := rfl
@[simp] theorem State.jump_extIntr (s : State) (target : Word) : (s.jump target).extIntr = s.extIntr := rfl
@[simp] theorem State.jump_dim (s : State) (target : Word) : (s.jump target).dim = s.dim := rfl
@[simp] theorem State.jump_snapDim (s : State) (target : Word) : (s.jump target).snapDim = s.snapDim := rfl
@[simp] theorem State.jump_snapDimOp (s : State) (target : Word) : (s.jump target).snapDimOp = s.snapDimOp := rfl
@[simp] theorem State.jump_snapCcValid (s : State) (target : Word) : (s.jump target).snapCcValid = s.snapCcValid := rfl
@[simp] theorem State.jump_snapCc (s : State) (target : Word) : (s.jump target).snapCc = s.snapCc := rfl
@[simp] theorem State.jump_ccValid (s : State) (target : Word) : (s.jump target).ccValid = s.ccValid := rfl
@[simp] theorem State.jump_ccRaw (s : State) (target : Word) : (s.jump target).ccRaw = s.ccRaw := rfl
@[simp] theorem State.jump_halted (s : State) (target : Word) : (s.jump target).halted = s.halted := rfl
@[simp] theorem State.jump_mailbox (s : State) (target : Word) : (s.jump target).mailbox = s.mailbox := rfl
@[simp] theorem State.jump_drainDelay (s : State) (target : Word) : (s.jump target).drainDelay = s.drainDelay := rfl
@[simp] theorem State.jump_killed (s : State) (target : Word) : (s.jump target).killed = s.killed := rfl
@[simp] theorem State.jump_mem (s : State) (target : Word) : (s.jump target).mem = s.mem := rfl
@[simp] theorem State.jump_par (s : State) (target : Word) : (s.jump target).par = s.par := rfl
@[simp] theorem State.jump_freeCount (s : State) (target : Word) : (s.jump target).freeCount = s.freeCount := rfl

/-! ### `State.atPc` -/

@[simp] theorem State.atPc_iregs (s : State) (pc : Word) : (s.atPc pc).iregs = s.iregs := rfl
@[simp] theorem State.atPc_fregs (s : State) (pc : Word) : (s.atPc pc).fregs = s.fregs := rfl
@[simp] theorem State.atPc_pc (s : State) (pc : Word) : (s.atPc pc).pc = pc := rfl
@[simp] theorem State.atPc_fir (s : State) (pc : Word) : (s.atPc pc).fir = s.fir := rfl
@[simp] theorem State.atPc_psr (s : State) (pc : Word) : (s.atPc pc).psr = s.psr := rfl
@[simp] theorem State.atPc_dirbase (s : State) (pc : Word) : (s.atPc pc).dirbase = s.dirbase := rfl
@[simp] theorem State.atPc_db (s : State) (pc : Word) : (s.atPc pc).db = s.db := rfl
@[simp] theorem State.atPc_fsr (s : State) (pc : Word) : (s.atPc pc).fsr = s.fsr := rfl
@[simp] theorem State.atPc_epsr (s : State) (pc : Word) : (s.atPc pc).epsr = s.epsr := rfl
@[simp] theorem State.atPc_firLatched (s : State) (pc : Word) : (s.atPc pc).firLatched = s.firLatched := rfl
@[simp] theorem State.atPc_ki (s : State) (pc : Word) : (s.atPc pc).ki = s.ki := rfl
@[simp] theorem State.atPc_kr (s : State) (pc : Word) : (s.atPc pc).kr = s.kr := rfl
@[simp] theorem State.atPc_t (s : State) (pc : Word) : (s.atPc pc).t = s.t := rfl
@[simp] theorem State.atPc_merge (s : State) (pc : Word) : (s.atPc pc).merge = s.merge := rfl
@[simp] theorem State.atPc_pipeA (s : State) (pc : Word) : (s.atPc pc).pipeA = s.pipeA := rfl
@[simp] theorem State.atPc_pipeM (s : State) (pc : Word) : (s.atPc pc).pipeM = s.pipeM := rfl
@[simp] theorem State.atPc_pipeL (s : State) (pc : Word) : (s.atPc pc).pipeL = s.pipeL := rfl
@[simp] theorem State.atPc_pipeG (s : State) (pc : Word) : (s.atPc pc).pipeG = s.pipeG := rfl
@[simp] theorem State.atPc_tlb (s : State) (pc : Word) : (s.atPc pc).tlb = s.tlb := rfl
@[simp] theorem State.atPc_icache (s : State) (pc : Word) : (s.atPc pc).icache = s.icache := rfl
@[simp] theorem State.atPc_trapPending (s : State) (pc : Word) : (s.atPc pc).trapPending = s.trapPending := rfl
@[simp] theorem State.atPc_trapInDelaySlot (s : State) (pc : Word) : (s.atPc pc).trapInDelaySlot = s.trapInDelaySlot := rfl
@[simp] theorem State.atPc_trapExternal (s : State) (pc : Word) : (s.atPc pc).trapExternal = s.trapExternal := rfl
@[simp] theorem State.atPc_pcUpdated (s : State) (pc : Word) : (s.atPc pc).pcUpdated = s.pcUpdated := rfl
@[simp] theorem State.atPc_exitedEarly (s : State) (pc : Word) : (s.atPc pc).exitedEarly = s.exitedEarly := rfl
@[simp] theorem State.atPc_exitingIfetch (s : State) (pc : Word) : (s.atPc pc).exitingIfetch = s.exitingIfetch := rfl
@[simp] theorem State.atPc_dimOp (s : State) (pc : Word) : (s.atPc pc).dimOp = s.dimOp := rfl
@[simp] theorem State.atPc_extIntr (s : State) (pc : Word) : (s.atPc pc).extIntr = s.extIntr := rfl
@[simp] theorem State.atPc_dim (s : State) (pc : Word) : (s.atPc pc).dim = s.dim := rfl
@[simp] theorem State.atPc_snapDim (s : State) (pc : Word) : (s.atPc pc).snapDim = s.snapDim := rfl
@[simp] theorem State.atPc_snapDimOp (s : State) (pc : Word) : (s.atPc pc).snapDimOp = s.snapDimOp := rfl
@[simp] theorem State.atPc_snapCcValid (s : State) (pc : Word) : (s.atPc pc).snapCcValid = s.snapCcValid := rfl
@[simp] theorem State.atPc_snapCc (s : State) (pc : Word) : (s.atPc pc).snapCc = s.snapCc := rfl
@[simp] theorem State.atPc_ccValid (s : State) (pc : Word) : (s.atPc pc).ccValid = s.ccValid := rfl
@[simp] theorem State.atPc_ccRaw (s : State) (pc : Word) : (s.atPc pc).ccRaw = s.ccRaw := rfl
@[simp] theorem State.atPc_halted (s : State) (pc : Word) : (s.atPc pc).halted = s.halted := rfl
@[simp] theorem State.atPc_mailbox (s : State) (pc : Word) : (s.atPc pc).mailbox = s.mailbox := rfl
@[simp] theorem State.atPc_drainDelay (s : State) (pc : Word) : (s.atPc pc).drainDelay = s.drainDelay := rfl
@[simp] theorem State.atPc_killed (s : State) (pc : Word) : (s.atPc pc).killed = s.killed := rfl
@[simp] theorem State.atPc_mem (s : State) (pc : Word) : (s.atPc pc).mem = s.mem := rfl
@[simp] theorem State.atPc_par (s : State) (pc : Word) : (s.atPc pc).par = s.par := rfl
@[simp] theorem State.atPc_freeCount (s : State) (pc : Word) : (s.atPc pc).freeCount = s.freeCount := rfl

/-! ### `State.raise` -/

@[simp] theorem State.raise_iregs (s : State) (k : TrapKind) : (s.raise k).iregs = s.iregs := rfl
@[simp] theorem State.raise_fregs (s : State) (k : TrapKind) : (s.raise k).fregs = s.fregs := rfl
@[simp] theorem State.raise_pc (s : State) (k : TrapKind) : (s.raise k).pc = s.pc := rfl
@[simp] theorem State.raise_fir (s : State) (k : TrapKind) : (s.raise k).fir = s.fir := rfl
@[simp] theorem State.raise_psr (s : State) (k : TrapKind) : (s.raise k).psr = setBit s.psr k.bit true := rfl
@[simp] theorem State.raise_dirbase (s : State) (k : TrapKind) : (s.raise k).dirbase = s.dirbase := rfl
@[simp] theorem State.raise_db (s : State) (k : TrapKind) : (s.raise k).db = s.db := rfl
@[simp] theorem State.raise_fsr (s : State) (k : TrapKind) : (s.raise k).fsr = s.fsr := rfl
@[simp] theorem State.raise_epsr (s : State) (k : TrapKind) : (s.raise k).epsr = s.epsr := rfl
@[simp] theorem State.raise_firLatched (s : State) (k : TrapKind) : (s.raise k).firLatched = s.firLatched := rfl
@[simp] theorem State.raise_ki (s : State) (k : TrapKind) : (s.raise k).ki = s.ki := rfl
@[simp] theorem State.raise_kr (s : State) (k : TrapKind) : (s.raise k).kr = s.kr := rfl
@[simp] theorem State.raise_t (s : State) (k : TrapKind) : (s.raise k).t = s.t := rfl
@[simp] theorem State.raise_merge (s : State) (k : TrapKind) : (s.raise k).merge = s.merge := rfl
@[simp] theorem State.raise_pipeA (s : State) (k : TrapKind) : (s.raise k).pipeA = s.pipeA := rfl
@[simp] theorem State.raise_pipeM (s : State) (k : TrapKind) : (s.raise k).pipeM = s.pipeM := rfl
@[simp] theorem State.raise_pipeL (s : State) (k : TrapKind) : (s.raise k).pipeL = s.pipeL := rfl
@[simp] theorem State.raise_pipeG (s : State) (k : TrapKind) : (s.raise k).pipeG = s.pipeG := rfl
@[simp] theorem State.raise_tlb (s : State) (k : TrapKind) : (s.raise k).tlb = s.tlb := rfl
@[simp] theorem State.raise_icache (s : State) (k : TrapKind) : (s.raise k).icache = s.icache := rfl
@[simp] theorem State.raise_trapPending (s : State) (k : TrapKind) : (s.raise k).trapPending = true := rfl
@[simp] theorem State.raise_trapInDelaySlot (s : State) (k : TrapKind) : (s.raise k).trapInDelaySlot = s.trapInDelaySlot := rfl
@[simp] theorem State.raise_trapExternal (s : State) (k : TrapKind) : (s.raise k).trapExternal = s.trapExternal := rfl
@[simp] theorem State.raise_pcUpdated (s : State) (k : TrapKind) : (s.raise k).pcUpdated = s.pcUpdated := rfl
@[simp] theorem State.raise_exitedEarly (s : State) (k : TrapKind) : (s.raise k).exitedEarly = s.exitedEarly := rfl
@[simp] theorem State.raise_exitingIfetch (s : State) (k : TrapKind) : (s.raise k).exitingIfetch = s.exitingIfetch := rfl
@[simp] theorem State.raise_dimOp (s : State) (k : TrapKind) : (s.raise k).dimOp = s.dimOp := rfl
@[simp] theorem State.raise_extIntr (s : State) (k : TrapKind) : (s.raise k).extIntr = s.extIntr := rfl
@[simp] theorem State.raise_dim (s : State) (k : TrapKind) : (s.raise k).dim = s.dim := rfl
@[simp] theorem State.raise_snapDim (s : State) (k : TrapKind) : (s.raise k).snapDim = s.snapDim := rfl
@[simp] theorem State.raise_snapDimOp (s : State) (k : TrapKind) : (s.raise k).snapDimOp = s.snapDimOp := rfl
@[simp] theorem State.raise_snapCcValid (s : State) (k : TrapKind) : (s.raise k).snapCcValid = s.snapCcValid := rfl
@[simp] theorem State.raise_snapCc (s : State) (k : TrapKind) : (s.raise k).snapCc = s.snapCc := rfl
@[simp] theorem State.raise_ccValid (s : State) (k : TrapKind) : (s.raise k).ccValid = s.ccValid := rfl
@[simp] theorem State.raise_ccRaw (s : State) (k : TrapKind) : (s.raise k).ccRaw = s.ccRaw := rfl
@[simp] theorem State.raise_halted (s : State) (k : TrapKind) : (s.raise k).halted = s.halted := rfl
@[simp] theorem State.raise_mailbox (s : State) (k : TrapKind) : (s.raise k).mailbox = s.mailbox := rfl
@[simp] theorem State.raise_drainDelay (s : State) (k : TrapKind) : (s.raise k).drainDelay = s.drainDelay := rfl
@[simp] theorem State.raise_killed (s : State) (k : TrapKind) : (s.raise k).killed = s.killed := rfl
@[simp] theorem State.raise_mem (s : State) (k : TrapKind) : (s.raise k).mem = s.mem := rfl
@[simp] theorem State.raise_par (s : State) (k : TrapKind) : (s.raise k).par = s.par := rfl
@[simp] theorem State.raise_freeCount (s : State) (k : TrapKind) : (s.raise k).freeCount = s.freeCount := rfl

/-! ### `State.accessFault` -/

@[simp] theorem State.accessFault_iregs (s : State) (isData : Bool) : (s.accessFault isData).iregs = s.iregs := rfl
@[simp] theorem State.accessFault_fregs (s : State) (isData : Bool) : (s.accessFault isData).fregs = s.fregs := rfl
@[simp] theorem State.accessFault_pc (s : State) (isData : Bool) : (s.accessFault isData).pc = s.pc := rfl
@[simp] theorem State.accessFault_fir (s : State) (isData : Bool) : (s.accessFault isData).fir = s.fir := rfl
@[simp] theorem State.accessFault_psr (s : State) (isData : Bool) : (s.accessFault isData).psr = setBit s.psr (if isData then TrapKind.dataAccess else .instructionAccess).bit true := rfl
@[simp] theorem State.accessFault_dirbase (s : State) (isData : Bool) : (s.accessFault isData).dirbase = s.dirbase := rfl
@[simp] theorem State.accessFault_db (s : State) (isData : Bool) : (s.accessFault isData).db = s.db := rfl
@[simp] theorem State.accessFault_fsr (s : State) (isData : Bool) : (s.accessFault isData).fsr = s.fsr := rfl
@[simp] theorem State.accessFault_epsr (s : State) (isData : Bool) : (s.accessFault isData).epsr = s.epsr := rfl
@[simp] theorem State.accessFault_firLatched (s : State) (isData : Bool) : (s.accessFault isData).firLatched = s.firLatched := rfl
@[simp] theorem State.accessFault_ki (s : State) (isData : Bool) : (s.accessFault isData).ki = s.ki := rfl
@[simp] theorem State.accessFault_kr (s : State) (isData : Bool) : (s.accessFault isData).kr = s.kr := rfl
@[simp] theorem State.accessFault_t (s : State) (isData : Bool) : (s.accessFault isData).t = s.t := rfl
@[simp] theorem State.accessFault_merge (s : State) (isData : Bool) : (s.accessFault isData).merge = s.merge := rfl
@[simp] theorem State.accessFault_pipeA (s : State) (isData : Bool) : (s.accessFault isData).pipeA = s.pipeA := rfl
@[simp] theorem State.accessFault_pipeM (s : State) (isData : Bool) : (s.accessFault isData).pipeM = s.pipeM := rfl
@[simp] theorem State.accessFault_pipeL (s : State) (isData : Bool) : (s.accessFault isData).pipeL = s.pipeL := rfl
@[simp] theorem State.accessFault_pipeG (s : State) (isData : Bool) : (s.accessFault isData).pipeG = s.pipeG := rfl
@[simp] theorem State.accessFault_tlb (s : State) (isData : Bool) : (s.accessFault isData).tlb = s.tlb := rfl
@[simp] theorem State.accessFault_icache (s : State) (isData : Bool) : (s.accessFault isData).icache = s.icache := rfl
@[simp] theorem State.accessFault_trapPending (s : State) (isData : Bool) : (s.accessFault isData).trapPending = true := rfl
@[simp] theorem State.accessFault_trapInDelaySlot (s : State) (isData : Bool) : (s.accessFault isData).trapInDelaySlot = s.trapInDelaySlot := rfl
@[simp] theorem State.accessFault_trapExternal (s : State) (isData : Bool) : (s.accessFault isData).trapExternal = s.trapExternal := rfl
@[simp] theorem State.accessFault_pcUpdated (s : State) (isData : Bool) : (s.accessFault isData).pcUpdated = s.pcUpdated := rfl
@[simp] theorem State.accessFault_exitedEarly (s : State) (isData : Bool) : (s.accessFault isData).exitedEarly = s.exitedEarly := rfl
@[simp] theorem State.accessFault_exitingIfetch (s : State) (isData : Bool) : (s.accessFault isData).exitingIfetch = s.exitingIfetch := rfl
@[simp] theorem State.accessFault_dimOp (s : State) (isData : Bool) : (s.accessFault isData).dimOp = s.dimOp := rfl
@[simp] theorem State.accessFault_extIntr (s : State) (isData : Bool) : (s.accessFault isData).extIntr = s.extIntr := rfl
@[simp] theorem State.accessFault_dim (s : State) (isData : Bool) : (s.accessFault isData).dim = s.dim := rfl
@[simp] theorem State.accessFault_snapDim (s : State) (isData : Bool) : (s.accessFault isData).snapDim = s.snapDim := rfl
@[simp] theorem State.accessFault_snapDimOp (s : State) (isData : Bool) : (s.accessFault isData).snapDimOp = s.snapDimOp := rfl
@[simp] theorem State.accessFault_snapCcValid (s : State) (isData : Bool) : (s.accessFault isData).snapCcValid = s.snapCcValid := rfl
@[simp] theorem State.accessFault_snapCc (s : State) (isData : Bool) : (s.accessFault isData).snapCc = s.snapCc := rfl
@[simp] theorem State.accessFault_ccValid (s : State) (isData : Bool) : (s.accessFault isData).ccValid = s.ccValid := rfl
@[simp] theorem State.accessFault_ccRaw (s : State) (isData : Bool) : (s.accessFault isData).ccRaw = s.ccRaw := rfl
@[simp] theorem State.accessFault_halted (s : State) (isData : Bool) : (s.accessFault isData).halted = s.halted := rfl
@[simp] theorem State.accessFault_mailbox (s : State) (isData : Bool) : (s.accessFault isData).mailbox = s.mailbox := rfl
@[simp] theorem State.accessFault_drainDelay (s : State) (isData : Bool) : (s.accessFault isData).drainDelay = s.drainDelay := rfl
@[simp] theorem State.accessFault_killed (s : State) (isData : Bool) : (s.accessFault isData).killed = s.killed := rfl
@[simp] theorem State.accessFault_mem (s : State) (isData : Bool) : (s.accessFault isData).mem = s.mem := rfl
@[simp] theorem State.accessFault_par (s : State) (isData : Bool) : (s.accessFault isData).par = s.par := rfl
@[simp] theorem State.accessFault_freeCount (s : State) (isData : Bool) : (s.accessFault isData).freeCount = s.freeCount := rfl

/-! ### `State.exitEarly` -/

@[simp] theorem State.exitEarly_iregs (s : State) : s.exitEarly.iregs = s.iregs := rfl
@[simp] theorem State.exitEarly_fregs (s : State) : s.exitEarly.fregs = s.fregs := rfl
@[simp] theorem State.exitEarly_pc (s : State) : s.exitEarly.pc = s.pc := rfl
@[simp] theorem State.exitEarly_fir (s : State) : s.exitEarly.fir = s.fir := rfl
@[simp] theorem State.exitEarly_psr (s : State) : s.exitEarly.psr = setBit s.psr 11 true := rfl
@[simp] theorem State.exitEarly_dirbase (s : State) : s.exitEarly.dirbase = s.dirbase := rfl
@[simp] theorem State.exitEarly_db (s : State) : s.exitEarly.db = s.db := rfl
@[simp] theorem State.exitEarly_fsr (s : State) : s.exitEarly.fsr = s.fsr := rfl
@[simp] theorem State.exitEarly_epsr (s : State) : s.exitEarly.epsr = s.epsr := rfl
@[simp] theorem State.exitEarly_firLatched (s : State) : s.exitEarly.firLatched = s.firLatched := rfl
@[simp] theorem State.exitEarly_ki (s : State) : s.exitEarly.ki = s.ki := rfl
@[simp] theorem State.exitEarly_kr (s : State) : s.exitEarly.kr = s.kr := rfl
@[simp] theorem State.exitEarly_t (s : State) : s.exitEarly.t = s.t := rfl
@[simp] theorem State.exitEarly_merge (s : State) : s.exitEarly.merge = s.merge := rfl
@[simp] theorem State.exitEarly_pipeA (s : State) : s.exitEarly.pipeA = s.pipeA := rfl
@[simp] theorem State.exitEarly_pipeM (s : State) : s.exitEarly.pipeM = s.pipeM := rfl
@[simp] theorem State.exitEarly_pipeL (s : State) : s.exitEarly.pipeL = s.pipeL := rfl
@[simp] theorem State.exitEarly_pipeG (s : State) : s.exitEarly.pipeG = s.pipeG := rfl
@[simp] theorem State.exitEarly_tlb (s : State) : s.exitEarly.tlb = s.tlb := rfl
@[simp] theorem State.exitEarly_icache (s : State) : s.exitEarly.icache = s.icache := rfl
@[simp] theorem State.exitEarly_trapPending (s : State) : s.exitEarly.trapPending = true := rfl
@[simp] theorem State.exitEarly_trapInDelaySlot (s : State) : s.exitEarly.trapInDelaySlot = s.trapInDelaySlot := rfl
@[simp] theorem State.exitEarly_trapExternal (s : State) : s.exitEarly.trapExternal = s.trapExternal := rfl
@[simp] theorem State.exitEarly_pcUpdated (s : State) : s.exitEarly.pcUpdated = s.pcUpdated := rfl
@[simp] theorem State.exitEarly_exitedEarly (s : State) : s.exitEarly.exitedEarly = true := rfl
@[simp] theorem State.exitEarly_exitingIfetch (s : State) : s.exitEarly.exitingIfetch = s.exitingIfetch := rfl
@[simp] theorem State.exitEarly_dimOp (s : State) : s.exitEarly.dimOp = s.dimOp := rfl
@[simp] theorem State.exitEarly_extIntr (s : State) : s.exitEarly.extIntr = s.extIntr := rfl
@[simp] theorem State.exitEarly_dim (s : State) : s.exitEarly.dim = s.dim := rfl
@[simp] theorem State.exitEarly_snapDim (s : State) : s.exitEarly.snapDim = s.snapDim := rfl
@[simp] theorem State.exitEarly_snapDimOp (s : State) : s.exitEarly.snapDimOp = s.snapDimOp := rfl
@[simp] theorem State.exitEarly_snapCcValid (s : State) : s.exitEarly.snapCcValid = s.snapCcValid := rfl
@[simp] theorem State.exitEarly_snapCc (s : State) : s.exitEarly.snapCc = s.snapCc := rfl
@[simp] theorem State.exitEarly_ccValid (s : State) : s.exitEarly.ccValid = s.ccValid := rfl
@[simp] theorem State.exitEarly_ccRaw (s : State) : s.exitEarly.ccRaw = s.ccRaw := rfl
@[simp] theorem State.exitEarly_halted (s : State) : s.exitEarly.halted = s.halted := rfl
@[simp] theorem State.exitEarly_mailbox (s : State) : s.exitEarly.mailbox = s.mailbox := rfl
@[simp] theorem State.exitEarly_drainDelay (s : State) : s.exitEarly.drainDelay = s.drainDelay := rfl
@[simp] theorem State.exitEarly_killed (s : State) : s.exitEarly.killed = s.killed := rfl
@[simp] theorem State.exitEarly_mem (s : State) : s.exitEarly.mem = s.mem := rfl
@[simp] theorem State.exitEarly_par (s : State) : s.exitEarly.par = s.par := rfl
@[simp] theorem State.exitEarly_freeCount (s : State) : s.exitEarly.freeCount = s.freeCount := rfl

/-! ### `State.takeTrap` -/

@[simp] theorem State.takeTrap_iregs (s : State) (savepc : Word) : (s.takeTrap savepc).iregs = s.iregs := rfl
@[simp] theorem State.takeTrap_fregs (s : State) (savepc : Word) : (s.takeTrap savepc).fregs = s.fregs := rfl
@[simp] theorem State.takeTrap_pc (s : State) (savepc : Word) : (s.takeTrap savepc).pc = Config.trapVector := rfl
@[simp] theorem State.takeTrap_fir (s : State) (savepc : Word) : (s.takeTrap savepc).fir = s.faultAddress savepc := rfl
@[simp] theorem State.takeTrap_psr (s : State) (savepc : Word) : (s.takeTrap savepc).psr = entryPsr s.psr := rfl
@[simp] theorem State.takeTrap_dirbase (s : State) (savepc : Word) : (s.takeTrap savepc).dirbase = s.dirbase := rfl
@[simp] theorem State.takeTrap_db (s : State) (savepc : Word) : (s.takeTrap savepc).db = s.db := rfl
@[simp] theorem State.takeTrap_fsr (s : State) (savepc : Word) : (s.takeTrap savepc).fsr = s.fsr := rfl
@[simp] theorem State.takeTrap_epsr (s : State) (savepc : Word) : (s.takeTrap savepc).epsr = s.epsr := rfl
@[simp] theorem State.takeTrap_firLatched (s : State) (savepc : Word) : (s.takeTrap savepc).firLatched = true := rfl
@[simp] theorem State.takeTrap_ki (s : State) (savepc : Word) : (s.takeTrap savepc).ki = s.ki := rfl
@[simp] theorem State.takeTrap_kr (s : State) (savepc : Word) : (s.takeTrap savepc).kr = s.kr := rfl
@[simp] theorem State.takeTrap_t (s : State) (savepc : Word) : (s.takeTrap savepc).t = s.t := rfl
@[simp] theorem State.takeTrap_merge (s : State) (savepc : Word) : (s.takeTrap savepc).merge = s.merge := rfl
@[simp] theorem State.takeTrap_pipeA (s : State) (savepc : Word) : (s.takeTrap savepc).pipeA = s.pipeA := rfl
@[simp] theorem State.takeTrap_pipeM (s : State) (savepc : Word) : (s.takeTrap savepc).pipeM = s.pipeM := rfl
@[simp] theorem State.takeTrap_pipeL (s : State) (savepc : Word) : (s.takeTrap savepc).pipeL = s.pipeL := rfl
@[simp] theorem State.takeTrap_pipeG (s : State) (savepc : Word) : (s.takeTrap savepc).pipeG = s.pipeG := rfl
@[simp] theorem State.takeTrap_tlb (s : State) (savepc : Word) : (s.takeTrap savepc).tlb = s.tlb := rfl
@[simp] theorem State.takeTrap_icache (s : State) (savepc : Word) : (s.takeTrap savepc).icache = s.icache := rfl
@[simp] theorem State.takeTrap_trapPending (s : State) (savepc : Word) : (s.takeTrap savepc).trapPending = false := rfl
@[simp] theorem State.takeTrap_trapInDelaySlot (s : State) (savepc : Word) : (s.takeTrap savepc).trapInDelaySlot = false := rfl
@[simp] theorem State.takeTrap_trapExternal (s : State) (savepc : Word) : (s.takeTrap savepc).trapExternal = false := rfl
@[simp] theorem State.takeTrap_pcUpdated (s : State) (savepc : Word) : (s.takeTrap savepc).pcUpdated = false := rfl
@[simp] theorem State.takeTrap_exitedEarly (s : State) (savepc : Word) : (s.takeTrap savepc).exitedEarly = s.exitedEarly := rfl
@[simp] theorem State.takeTrap_exitingIfetch (s : State) (savepc : Word) : (s.takeTrap savepc).exitingIfetch = s.exitingIfetch := rfl
@[simp] theorem State.takeTrap_dimOp (s : State) (savepc : Word) : (s.takeTrap savepc).dimOp = false := rfl
@[simp] theorem State.takeTrap_extIntr (s : State) (savepc : Word) : (s.takeTrap savepc).extIntr = s.extIntr := rfl
@[simp] theorem State.takeTrap_dim (s : State) (savepc : Word) : (s.takeTrap savepc).dim = .none := rfl
@[simp] theorem State.takeTrap_snapDim (s : State) (savepc : Word) : (s.takeTrap savepc).snapDim = s.dim := rfl
@[simp] theorem State.takeTrap_snapDimOp (s : State) (savepc : Word) : (s.takeTrap savepc).snapDimOp = s.dimOp := rfl
@[simp] theorem State.takeTrap_snapCcValid (s : State) (savepc : Word) : (s.takeTrap savepc).snapCcValid = s.ccValid := rfl
@[simp] theorem State.takeTrap_snapCc (s : State) (savepc : Word) : (s.takeTrap savepc).snapCc = s.ccRaw := rfl
@[simp] theorem State.takeTrap_ccValid (s : State) (savepc : Word) : (s.takeTrap savepc).ccValid = false := rfl
@[simp] theorem State.takeTrap_ccRaw (s : State) (savepc : Word) : (s.takeTrap savepc).ccRaw = s.ccRaw := rfl
@[simp] theorem State.takeTrap_halted (s : State) (savepc : Word) : (s.takeTrap savepc).halted = s.halted := rfl
@[simp] theorem State.takeTrap_mailbox (s : State) (savepc : Word) : (s.takeTrap savepc).mailbox = s.mailbox := rfl
@[simp] theorem State.takeTrap_drainDelay (s : State) (savepc : Word) : (s.takeTrap savepc).drainDelay = s.drainDelay := rfl
@[simp] theorem State.takeTrap_killed (s : State) (savepc : Word) : (s.takeTrap savepc).killed = s.killed := rfl
@[simp] theorem State.takeTrap_mem (s : State) (savepc : Word) : (s.takeTrap savepc).mem = s.mem := rfl
@[simp] theorem State.takeTrap_par (s : State) (savepc : Word) : (s.takeTrap savepc).par = s.par := rfl
@[simp] theorem State.takeTrap_freeCount (s : State) (savepc : Word) : (s.takeTrap savepc).freeCount = s.freeCount := rfl

/-! ### `State.trapExit` -/

@[simp] theorem State.trapExit_iregs (s : State) : s.trapExit.iregs = s.iregs := rfl
@[simp] theorem State.trapExit_fregs (s : State) : s.trapExit.fregs = s.fregs := rfl
@[simp] theorem State.trapExit_pc (s : State) : s.trapExit.pc = s.pc := rfl
@[simp] theorem State.trapExit_fir (s : State) : s.trapExit.fir = s.fir := rfl
@[simp] theorem State.trapExit_psr (s : State) : s.trapExit.psr = exitPsr s.psr := rfl
@[simp] theorem State.trapExit_dirbase (s : State) : s.trapExit.dirbase = s.dirbase := rfl
@[simp] theorem State.trapExit_db (s : State) : s.trapExit.db = s.db := rfl
@[simp] theorem State.trapExit_fsr (s : State) : s.trapExit.fsr = s.fsr := rfl
@[simp] theorem State.trapExit_epsr (s : State) : s.trapExit.epsr = s.epsr := rfl
@[simp] theorem State.trapExit_firLatched (s : State) : s.trapExit.firLatched = false := rfl
@[simp] theorem State.trapExit_ki (s : State) : s.trapExit.ki = s.ki := rfl
@[simp] theorem State.trapExit_kr (s : State) : s.trapExit.kr = s.kr := rfl
@[simp] theorem State.trapExit_t (s : State) : s.trapExit.t = s.t := rfl
@[simp] theorem State.trapExit_merge (s : State) : s.trapExit.merge = s.merge := rfl
@[simp] theorem State.trapExit_pipeA (s : State) : s.trapExit.pipeA = s.pipeA := rfl
@[simp] theorem State.trapExit_pipeM (s : State) : s.trapExit.pipeM = s.pipeM := rfl
@[simp] theorem State.trapExit_pipeL (s : State) : s.trapExit.pipeL = s.pipeL := rfl
@[simp] theorem State.trapExit_pipeG (s : State) : s.trapExit.pipeG = s.pipeG := rfl
@[simp] theorem State.trapExit_tlb (s : State) : s.trapExit.tlb = s.tlb := rfl
@[simp] theorem State.trapExit_icache (s : State) : s.trapExit.icache = s.icache := rfl
@[simp] theorem State.trapExit_trapPending (s : State) : s.trapExit.trapPending = s.trapPending := rfl
@[simp] theorem State.trapExit_trapInDelaySlot (s : State) : s.trapExit.trapInDelaySlot = s.trapInDelaySlot := rfl
@[simp] theorem State.trapExit_trapExternal (s : State) : s.trapExit.trapExternal = s.trapExternal := rfl
@[simp] theorem State.trapExit_pcUpdated (s : State) : s.trapExit.pcUpdated = s.pcUpdated := rfl
@[simp] theorem State.trapExit_exitedEarly (s : State) : s.trapExit.exitedEarly = s.exitedEarly := rfl
@[simp] theorem State.trapExit_exitingIfetch (s : State) : s.trapExit.exitingIfetch = s.exitingIfetch := rfl
@[simp] theorem State.trapExit_dimOp (s : State) : s.trapExit.dimOp = s.snapDimOp := rfl
@[simp] theorem State.trapExit_extIntr (s : State) : s.trapExit.extIntr = s.extIntr := rfl
@[simp] theorem State.trapExit_dim (s : State) : s.trapExit.dim = s.snapDim := rfl
@[simp] theorem State.trapExit_snapDim (s : State) : s.trapExit.snapDim = s.snapDim := rfl
@[simp] theorem State.trapExit_snapDimOp (s : State) : s.trapExit.snapDimOp = s.snapDimOp := rfl
@[simp] theorem State.trapExit_snapCcValid (s : State) : s.trapExit.snapCcValid = s.snapCcValid := rfl
@[simp] theorem State.trapExit_snapCc (s : State) : s.trapExit.snapCc = s.snapCc := rfl
@[simp] theorem State.trapExit_ccValid (s : State) : s.trapExit.ccValid = s.snapCcValid := rfl
@[simp] theorem State.trapExit_ccRaw (s : State) : s.trapExit.ccRaw = s.snapCc := rfl
@[simp] theorem State.trapExit_halted (s : State) : s.trapExit.halted = s.halted := rfl
@[simp] theorem State.trapExit_mailbox (s : State) : s.trapExit.mailbox = s.mailbox := rfl
@[simp] theorem State.trapExit_drainDelay (s : State) : s.trapExit.drainDelay = s.drainDelay := rfl
@[simp] theorem State.trapExit_killed (s : State) : s.trapExit.killed = s.killed := rfl
@[simp] theorem State.trapExit_mem (s : State) : s.trapExit.mem = s.mem := rfl
@[simp] theorem State.trapExit_par (s : State) : s.trapExit.par = s.par := rfl
@[simp] theorem State.trapExit_freeCount (s : State) : s.trapExit.freeCount = s.freeCount := rfl

/-! ### `State.physWrite32` -/

@[simp] theorem State.physWrite32_iregs (s : State) (p v : Word) : (s.physWrite32 p v).iregs = s.iregs := rfl
@[simp] theorem State.physWrite32_fregs (s : State) (p v : Word) : (s.physWrite32 p v).fregs = s.fregs := rfl
@[simp] theorem State.physWrite32_pc (s : State) (p v : Word) : (s.physWrite32 p v).pc = s.pc := rfl
@[simp] theorem State.physWrite32_fir (s : State) (p v : Word) : (s.physWrite32 p v).fir = s.fir := rfl
@[simp] theorem State.physWrite32_psr (s : State) (p v : Word) : (s.physWrite32 p v).psr = s.psr := rfl
@[simp] theorem State.physWrite32_dirbase (s : State) (p v : Word) : (s.physWrite32 p v).dirbase = s.dirbase := rfl
@[simp] theorem State.physWrite32_db (s : State) (p v : Word) : (s.physWrite32 p v).db = s.db := rfl
@[simp] theorem State.physWrite32_fsr (s : State) (p v : Word) : (s.physWrite32 p v).fsr = s.fsr := rfl
@[simp] theorem State.physWrite32_epsr (s : State) (p v : Word) : (s.physWrite32 p v).epsr = s.epsr := rfl
@[simp] theorem State.physWrite32_firLatched (s : State) (p v : Word) : (s.physWrite32 p v).firLatched = s.firLatched := rfl
@[simp] theorem State.physWrite32_ki (s : State) (p v : Word) : (s.physWrite32 p v).ki = s.ki := rfl
@[simp] theorem State.physWrite32_kr (s : State) (p v : Word) : (s.physWrite32 p v).kr = s.kr := rfl
@[simp] theorem State.physWrite32_t (s : State) (p v : Word) : (s.physWrite32 p v).t = s.t := rfl
@[simp] theorem State.physWrite32_merge (s : State) (p v : Word) : (s.physWrite32 p v).merge = s.merge := rfl
@[simp] theorem State.physWrite32_pipeA (s : State) (p v : Word) : (s.physWrite32 p v).pipeA = s.pipeA := rfl
@[simp] theorem State.physWrite32_pipeM (s : State) (p v : Word) : (s.physWrite32 p v).pipeM = s.pipeM := rfl
@[simp] theorem State.physWrite32_pipeL (s : State) (p v : Word) : (s.physWrite32 p v).pipeL = s.pipeL := rfl
@[simp] theorem State.physWrite32_pipeG (s : State) (p v : Word) : (s.physWrite32 p v).pipeG = s.pipeG := rfl
@[simp] theorem State.physWrite32_tlb (s : State) (p v : Word) : (s.physWrite32 p v).tlb = s.tlb := rfl
@[simp] theorem State.physWrite32_icache (s : State) (p v : Word) : (s.physWrite32 p v).icache = s.icache := rfl
@[simp] theorem State.physWrite32_trapPending (s : State) (p v : Word) : (s.physWrite32 p v).trapPending = s.trapPending := rfl
@[simp] theorem State.physWrite32_trapInDelaySlot (s : State) (p v : Word) : (s.physWrite32 p v).trapInDelaySlot = s.trapInDelaySlot := rfl
@[simp] theorem State.physWrite32_trapExternal (s : State) (p v : Word) : (s.physWrite32 p v).trapExternal = s.trapExternal := rfl
@[simp] theorem State.physWrite32_pcUpdated (s : State) (p v : Word) : (s.physWrite32 p v).pcUpdated = s.pcUpdated := rfl
@[simp] theorem State.physWrite32_exitedEarly (s : State) (p v : Word) : (s.physWrite32 p v).exitedEarly = s.exitedEarly := rfl
@[simp] theorem State.physWrite32_exitingIfetch (s : State) (p v : Word) : (s.physWrite32 p v).exitingIfetch = s.exitingIfetch := rfl
@[simp] theorem State.physWrite32_dimOp (s : State) (p v : Word) : (s.physWrite32 p v).dimOp = s.dimOp := rfl
@[simp] theorem State.physWrite32_extIntr (s : State) (p v : Word) : (s.physWrite32 p v).extIntr = s.extIntr := rfl
@[simp] theorem State.physWrite32_dim (s : State) (p v : Word) : (s.physWrite32 p v).dim = s.dim := rfl
@[simp] theorem State.physWrite32_snapDim (s : State) (p v : Word) : (s.physWrite32 p v).snapDim = s.snapDim := rfl
@[simp] theorem State.physWrite32_snapDimOp (s : State) (p v : Word) : (s.physWrite32 p v).snapDimOp = s.snapDimOp := rfl
@[simp] theorem State.physWrite32_snapCcValid (s : State) (p v : Word) : (s.physWrite32 p v).snapCcValid = s.snapCcValid := rfl
@[simp] theorem State.physWrite32_snapCc (s : State) (p v : Word) : (s.physWrite32 p v).snapCc = s.snapCc := rfl
@[simp] theorem State.physWrite32_ccValid (s : State) (p v : Word) : (s.physWrite32 p v).ccValid = s.ccValid := rfl
@[simp] theorem State.physWrite32_ccRaw (s : State) (p v : Word) : (s.physWrite32 p v).ccRaw = s.ccRaw := rfl
@[simp] theorem State.physWrite32_halted (s : State) (p v : Word) : (s.physWrite32 p v).halted = s.halted := rfl
@[simp] theorem State.physWrite32_mailbox (s : State) (p v : Word) : (s.physWrite32 p v).mailbox = s.mailbox := rfl
@[simp] theorem State.physWrite32_drainDelay (s : State) (p v : Word) : (s.physWrite32 p v).drainDelay = s.drainDelay := rfl
@[simp] theorem State.physWrite32_killed (s : State) (p v : Word) : (s.physWrite32 p v).killed = s.killed := rfl
@[simp] theorem State.physWrite32_mem (s : State) (p v : Word) : (s.physWrite32 p v).mem = s.mem.busWrite false 4 p v := rfl
@[simp] theorem State.physWrite32_par (s : State) (p v : Word) : (s.physWrite32 p v).par = s.par := rfl
@[simp] theorem State.physWrite32_freeCount (s : State) (p v : Word) : (s.physWrite32 p v).freeCount = s.freeCount := rfl

/-! ### `State.tlbFill` -/

@[simp] theorem State.tlbFill_iregs (s : State) (va : Word) (w : Bool) (f : BitVec 20) : (s.tlbFill va w f).iregs = s.iregs := rfl
@[simp] theorem State.tlbFill_fregs (s : State) (va : Word) (w : Bool) (f : BitVec 20) : (s.tlbFill va w f).fregs = s.fregs := rfl
@[simp] theorem State.tlbFill_pc (s : State) (va : Word) (w : Bool) (f : BitVec 20) : (s.tlbFill va w f).pc = s.pc := rfl
@[simp] theorem State.tlbFill_fir (s : State) (va : Word) (w : Bool) (f : BitVec 20) : (s.tlbFill va w f).fir = s.fir := rfl
@[simp] theorem State.tlbFill_psr (s : State) (va : Word) (w : Bool) (f : BitVec 20) : (s.tlbFill va w f).psr = s.psr := rfl
@[simp] theorem State.tlbFill_dirbase (s : State) (va : Word) (w : Bool) (f : BitVec 20) : (s.tlbFill va w f).dirbase = s.dirbase := rfl
@[simp] theorem State.tlbFill_db (s : State) (va : Word) (w : Bool) (f : BitVec 20) : (s.tlbFill va w f).db = s.db := rfl
@[simp] theorem State.tlbFill_fsr (s : State) (va : Word) (w : Bool) (f : BitVec 20) : (s.tlbFill va w f).fsr = s.fsr := rfl
@[simp] theorem State.tlbFill_epsr (s : State) (va : Word) (w : Bool) (f : BitVec 20) : (s.tlbFill va w f).epsr = s.epsr := rfl
@[simp] theorem State.tlbFill_firLatched (s : State) (va : Word) (w : Bool) (f : BitVec 20) : (s.tlbFill va w f).firLatched = s.firLatched := rfl
@[simp] theorem State.tlbFill_ki (s : State) (va : Word) (w : Bool) (f : BitVec 20) : (s.tlbFill va w f).ki = s.ki := rfl
@[simp] theorem State.tlbFill_kr (s : State) (va : Word) (w : Bool) (f : BitVec 20) : (s.tlbFill va w f).kr = s.kr := rfl
@[simp] theorem State.tlbFill_t (s : State) (va : Word) (w : Bool) (f : BitVec 20) : (s.tlbFill va w f).t = s.t := rfl
@[simp] theorem State.tlbFill_merge (s : State) (va : Word) (w : Bool) (f : BitVec 20) : (s.tlbFill va w f).merge = s.merge := rfl
@[simp] theorem State.tlbFill_pipeA (s : State) (va : Word) (w : Bool) (f : BitVec 20) : (s.tlbFill va w f).pipeA = s.pipeA := rfl
@[simp] theorem State.tlbFill_pipeM (s : State) (va : Word) (w : Bool) (f : BitVec 20) : (s.tlbFill va w f).pipeM = s.pipeM := rfl
@[simp] theorem State.tlbFill_pipeL (s : State) (va : Word) (w : Bool) (f : BitVec 20) : (s.tlbFill va w f).pipeL = s.pipeL := rfl
@[simp] theorem State.tlbFill_pipeG (s : State) (va : Word) (w : Bool) (f : BitVec 20) : (s.tlbFill va w f).pipeG = s.pipeG := rfl
@[simp] theorem State.tlbFill_tlb (s : State) (va : Word) (w : Bool) (f : BitVec 20) : (s.tlbFill va w f).tlb = s.tlb.insert (tlbKey (s.tlbSet va) w) ⟨va.extractLsb' 12 20, f⟩ := rfl
@[simp] theorem State.tlbFill_icache (s : State) (va : Word) (w : Bool) (f : BitVec 20) : (s.tlbFill va w f).icache = s.icache := rfl
@[simp] theorem State.tlbFill_trapPending (s : State) (va : Word) (w : Bool) (f : BitVec 20) : (s.tlbFill va w f).trapPending = s.trapPending := rfl
@[simp] theorem State.tlbFill_trapInDelaySlot (s : State) (va : Word) (w : Bool) (f : BitVec 20) : (s.tlbFill va w f).trapInDelaySlot = s.trapInDelaySlot := rfl
@[simp] theorem State.tlbFill_trapExternal (s : State) (va : Word) (w : Bool) (f : BitVec 20) : (s.tlbFill va w f).trapExternal = s.trapExternal := rfl
@[simp] theorem State.tlbFill_pcUpdated (s : State) (va : Word) (w : Bool) (f : BitVec 20) : (s.tlbFill va w f).pcUpdated = s.pcUpdated := rfl
@[simp] theorem State.tlbFill_exitedEarly (s : State) (va : Word) (w : Bool) (f : BitVec 20) : (s.tlbFill va w f).exitedEarly = s.exitedEarly := rfl
@[simp] theorem State.tlbFill_exitingIfetch (s : State) (va : Word) (w : Bool) (f : BitVec 20) : (s.tlbFill va w f).exitingIfetch = s.exitingIfetch := rfl
@[simp] theorem State.tlbFill_dimOp (s : State) (va : Word) (w : Bool) (f : BitVec 20) : (s.tlbFill va w f).dimOp = s.dimOp := rfl
@[simp] theorem State.tlbFill_extIntr (s : State) (va : Word) (w : Bool) (f : BitVec 20) : (s.tlbFill va w f).extIntr = s.extIntr := rfl
@[simp] theorem State.tlbFill_dim (s : State) (va : Word) (w : Bool) (f : BitVec 20) : (s.tlbFill va w f).dim = s.dim := rfl
@[simp] theorem State.tlbFill_snapDim (s : State) (va : Word) (w : Bool) (f : BitVec 20) : (s.tlbFill va w f).snapDim = s.snapDim := rfl
@[simp] theorem State.tlbFill_snapDimOp (s : State) (va : Word) (w : Bool) (f : BitVec 20) : (s.tlbFill va w f).snapDimOp = s.snapDimOp := rfl
@[simp] theorem State.tlbFill_snapCcValid (s : State) (va : Word) (w : Bool) (f : BitVec 20) : (s.tlbFill va w f).snapCcValid = s.snapCcValid := rfl
@[simp] theorem State.tlbFill_snapCc (s : State) (va : Word) (w : Bool) (f : BitVec 20) : (s.tlbFill va w f).snapCc = s.snapCc := rfl
@[simp] theorem State.tlbFill_ccValid (s : State) (va : Word) (w : Bool) (f : BitVec 20) : (s.tlbFill va w f).ccValid = s.ccValid := rfl
@[simp] theorem State.tlbFill_ccRaw (s : State) (va : Word) (w : Bool) (f : BitVec 20) : (s.tlbFill va w f).ccRaw = s.ccRaw := rfl
@[simp] theorem State.tlbFill_halted (s : State) (va : Word) (w : Bool) (f : BitVec 20) : (s.tlbFill va w f).halted = s.halted := rfl
@[simp] theorem State.tlbFill_mailbox (s : State) (va : Word) (w : Bool) (f : BitVec 20) : (s.tlbFill va w f).mailbox = s.mailbox := rfl
@[simp] theorem State.tlbFill_drainDelay (s : State) (va : Word) (w : Bool) (f : BitVec 20) : (s.tlbFill va w f).drainDelay = s.drainDelay := rfl
@[simp] theorem State.tlbFill_killed (s : State) (va : Word) (w : Bool) (f : BitVec 20) : (s.tlbFill va w f).killed = s.killed := rfl
@[simp] theorem State.tlbFill_mem (s : State) (va : Word) (w : Bool) (f : BitVec 20) : (s.tlbFill va w f).mem = s.mem := rfl
@[simp] theorem State.tlbFill_par (s : State) (va : Word) (w : Bool) (f : BitVec 20) : (s.tlbFill va w f).par = s.par := rfl
@[simp] theorem State.tlbFill_freeCount (s : State) (va : Word) (w : Bool) (f : BitVec 20) : (s.tlbFill va w f).freeCount = s.freeCount := rfl

/-! ### `State.icacheFill` -/

@[simp] theorem State.icacheFill_iregs (s : State) (va : Word) (pair : DWord) : (s.icacheFill va pair).iregs = s.iregs := rfl
@[simp] theorem State.icacheFill_fregs (s : State) (va : Word) (pair : DWord) : (s.icacheFill va pair).fregs = s.fregs := rfl
@[simp] theorem State.icacheFill_pc (s : State) (va : Word) (pair : DWord) : (s.icacheFill va pair).pc = s.pc := rfl
@[simp] theorem State.icacheFill_fir (s : State) (va : Word) (pair : DWord) : (s.icacheFill va pair).fir = s.fir := rfl
@[simp] theorem State.icacheFill_psr (s : State) (va : Word) (pair : DWord) : (s.icacheFill va pair).psr = s.psr := rfl
@[simp] theorem State.icacheFill_dirbase (s : State) (va : Word) (pair : DWord) : (s.icacheFill va pair).dirbase = s.dirbase := rfl
@[simp] theorem State.icacheFill_db (s : State) (va : Word) (pair : DWord) : (s.icacheFill va pair).db = s.db := rfl
@[simp] theorem State.icacheFill_fsr (s : State) (va : Word) (pair : DWord) : (s.icacheFill va pair).fsr = s.fsr := rfl
@[simp] theorem State.icacheFill_epsr (s : State) (va : Word) (pair : DWord) : (s.icacheFill va pair).epsr = s.epsr := rfl
@[simp] theorem State.icacheFill_firLatched (s : State) (va : Word) (pair : DWord) : (s.icacheFill va pair).firLatched = s.firLatched := rfl
@[simp] theorem State.icacheFill_ki (s : State) (va : Word) (pair : DWord) : (s.icacheFill va pair).ki = s.ki := rfl
@[simp] theorem State.icacheFill_kr (s : State) (va : Word) (pair : DWord) : (s.icacheFill va pair).kr = s.kr := rfl
@[simp] theorem State.icacheFill_t (s : State) (va : Word) (pair : DWord) : (s.icacheFill va pair).t = s.t := rfl
@[simp] theorem State.icacheFill_merge (s : State) (va : Word) (pair : DWord) : (s.icacheFill va pair).merge = s.merge := rfl
@[simp] theorem State.icacheFill_pipeA (s : State) (va : Word) (pair : DWord) : (s.icacheFill va pair).pipeA = s.pipeA := rfl
@[simp] theorem State.icacheFill_pipeM (s : State) (va : Word) (pair : DWord) : (s.icacheFill va pair).pipeM = s.pipeM := rfl
@[simp] theorem State.icacheFill_pipeL (s : State) (va : Word) (pair : DWord) : (s.icacheFill va pair).pipeL = s.pipeL := rfl
@[simp] theorem State.icacheFill_pipeG (s : State) (va : Word) (pair : DWord) : (s.icacheFill va pair).pipeG = s.pipeG := rfl
@[simp] theorem State.icacheFill_tlb (s : State) (va : Word) (pair : DWord) : (s.icacheFill va pair).tlb = s.tlb := rfl
@[simp] theorem State.icacheFill_icache (s : State) (va : Word) (pair : DWord) : (s.icacheFill va pair).icache = s.icache.insert (s.icacheIndex va) ⟨va.extractLsb' 3 29, pair⟩ := rfl
@[simp] theorem State.icacheFill_trapPending (s : State) (va : Word) (pair : DWord) : (s.icacheFill va pair).trapPending = s.trapPending := rfl
@[simp] theorem State.icacheFill_trapInDelaySlot (s : State) (va : Word) (pair : DWord) : (s.icacheFill va pair).trapInDelaySlot = s.trapInDelaySlot := rfl
@[simp] theorem State.icacheFill_trapExternal (s : State) (va : Word) (pair : DWord) : (s.icacheFill va pair).trapExternal = s.trapExternal := rfl
@[simp] theorem State.icacheFill_pcUpdated (s : State) (va : Word) (pair : DWord) : (s.icacheFill va pair).pcUpdated = s.pcUpdated := rfl
@[simp] theorem State.icacheFill_exitedEarly (s : State) (va : Word) (pair : DWord) : (s.icacheFill va pair).exitedEarly = s.exitedEarly := rfl
@[simp] theorem State.icacheFill_exitingIfetch (s : State) (va : Word) (pair : DWord) : (s.icacheFill va pair).exitingIfetch = s.exitingIfetch := rfl
@[simp] theorem State.icacheFill_dimOp (s : State) (va : Word) (pair : DWord) : (s.icacheFill va pair).dimOp = s.dimOp := rfl
@[simp] theorem State.icacheFill_extIntr (s : State) (va : Word) (pair : DWord) : (s.icacheFill va pair).extIntr = s.extIntr := rfl
@[simp] theorem State.icacheFill_dim (s : State) (va : Word) (pair : DWord) : (s.icacheFill va pair).dim = s.dim := rfl
@[simp] theorem State.icacheFill_snapDim (s : State) (va : Word) (pair : DWord) : (s.icacheFill va pair).snapDim = s.snapDim := rfl
@[simp] theorem State.icacheFill_snapDimOp (s : State) (va : Word) (pair : DWord) : (s.icacheFill va pair).snapDimOp = s.snapDimOp := rfl
@[simp] theorem State.icacheFill_snapCcValid (s : State) (va : Word) (pair : DWord) : (s.icacheFill va pair).snapCcValid = s.snapCcValid := rfl
@[simp] theorem State.icacheFill_snapCc (s : State) (va : Word) (pair : DWord) : (s.icacheFill va pair).snapCc = s.snapCc := rfl
@[simp] theorem State.icacheFill_ccValid (s : State) (va : Word) (pair : DWord) : (s.icacheFill va pair).ccValid = s.ccValid := rfl
@[simp] theorem State.icacheFill_ccRaw (s : State) (va : Word) (pair : DWord) : (s.icacheFill va pair).ccRaw = s.ccRaw := rfl
@[simp] theorem State.icacheFill_halted (s : State) (va : Word) (pair : DWord) : (s.icacheFill va pair).halted = s.halted := rfl
@[simp] theorem State.icacheFill_mailbox (s : State) (va : Word) (pair : DWord) : (s.icacheFill va pair).mailbox = s.mailbox := rfl
@[simp] theorem State.icacheFill_drainDelay (s : State) (va : Word) (pair : DWord) : (s.icacheFill va pair).drainDelay = s.drainDelay := rfl
@[simp] theorem State.icacheFill_killed (s : State) (va : Word) (pair : DWord) : (s.icacheFill va pair).killed = s.killed := rfl
@[simp] theorem State.icacheFill_mem (s : State) (va : Word) (pair : DWord) : (s.icacheFill va pair).mem = s.mem := rfl
@[simp] theorem State.icacheFill_par (s : State) (va : Word) (pair : DWord) : (s.icacheFill va pair).par = s.par := rfl
@[simp] theorem State.icacheFill_freeCount (s : State) (va : Word) (pair : DWord) : (s.icacheFill va pair).freeCount = s.freeCount := rfl

/-! ### `State.invalidate` -/

@[simp] theorem State.invalidate_iregs (s : State) : s.invalidate.iregs = s.iregs := rfl
@[simp] theorem State.invalidate_fregs (s : State) : s.invalidate.fregs = s.fregs := rfl
@[simp] theorem State.invalidate_pc (s : State) : s.invalidate.pc = s.pc := rfl
@[simp] theorem State.invalidate_fir (s : State) : s.invalidate.fir = s.fir := rfl
@[simp] theorem State.invalidate_psr (s : State) : s.invalidate.psr = s.psr := rfl
@[simp] theorem State.invalidate_dirbase (s : State) : s.invalidate.dirbase = s.dirbase := rfl
@[simp] theorem State.invalidate_db (s : State) : s.invalidate.db = s.db := rfl
@[simp] theorem State.invalidate_fsr (s : State) : s.invalidate.fsr = s.fsr := rfl
@[simp] theorem State.invalidate_epsr (s : State) : s.invalidate.epsr = s.epsr := rfl
@[simp] theorem State.invalidate_firLatched (s : State) : s.invalidate.firLatched = s.firLatched := rfl
@[simp] theorem State.invalidate_ki (s : State) : s.invalidate.ki = s.ki := rfl
@[simp] theorem State.invalidate_kr (s : State) : s.invalidate.kr = s.kr := rfl
@[simp] theorem State.invalidate_t (s : State) : s.invalidate.t = s.t := rfl
@[simp] theorem State.invalidate_merge (s : State) : s.invalidate.merge = s.merge := rfl
@[simp] theorem State.invalidate_pipeA (s : State) : s.invalidate.pipeA = s.pipeA := rfl
@[simp] theorem State.invalidate_pipeM (s : State) : s.invalidate.pipeM = s.pipeM := rfl
@[simp] theorem State.invalidate_pipeL (s : State) : s.invalidate.pipeL = s.pipeL := rfl
@[simp] theorem State.invalidate_pipeG (s : State) : s.invalidate.pipeG = s.pipeG := rfl
@[simp] theorem State.invalidate_tlb (s : State) : s.invalidate.tlb = [] := rfl
@[simp] theorem State.invalidate_icache (s : State) : s.invalidate.icache = [] := rfl
@[simp] theorem State.invalidate_trapPending (s : State) : s.invalidate.trapPending = s.trapPending := rfl
@[simp] theorem State.invalidate_trapInDelaySlot (s : State) : s.invalidate.trapInDelaySlot = s.trapInDelaySlot := rfl
@[simp] theorem State.invalidate_trapExternal (s : State) : s.invalidate.trapExternal = s.trapExternal := rfl
@[simp] theorem State.invalidate_pcUpdated (s : State) : s.invalidate.pcUpdated = s.pcUpdated := rfl
@[simp] theorem State.invalidate_exitedEarly (s : State) : s.invalidate.exitedEarly = s.exitedEarly := rfl
@[simp] theorem State.invalidate_exitingIfetch (s : State) : s.invalidate.exitingIfetch = s.exitingIfetch := rfl
@[simp] theorem State.invalidate_dimOp (s : State) : s.invalidate.dimOp = s.dimOp := rfl
@[simp] theorem State.invalidate_extIntr (s : State) : s.invalidate.extIntr = s.extIntr := rfl
@[simp] theorem State.invalidate_dim (s : State) : s.invalidate.dim = s.dim := rfl
@[simp] theorem State.invalidate_snapDim (s : State) : s.invalidate.snapDim = s.snapDim := rfl
@[simp] theorem State.invalidate_snapDimOp (s : State) : s.invalidate.snapDimOp = s.snapDimOp := rfl
@[simp] theorem State.invalidate_snapCcValid (s : State) : s.invalidate.snapCcValid = s.snapCcValid := rfl
@[simp] theorem State.invalidate_snapCc (s : State) : s.invalidate.snapCc = s.snapCc := rfl
@[simp] theorem State.invalidate_ccValid (s : State) : s.invalidate.ccValid = s.ccValid := rfl
@[simp] theorem State.invalidate_ccRaw (s : State) : s.invalidate.ccRaw = s.ccRaw := rfl
@[simp] theorem State.invalidate_halted (s : State) : s.invalidate.halted = s.halted := rfl
@[simp] theorem State.invalidate_mailbox (s : State) : s.invalidate.mailbox = s.mailbox := rfl
@[simp] theorem State.invalidate_drainDelay (s : State) : s.invalidate.drainDelay = s.drainDelay := rfl
@[simp] theorem State.invalidate_killed (s : State) : s.invalidate.killed = s.killed := rfl
@[simp] theorem State.invalidate_mem (s : State) : s.invalidate.mem = s.mem := rfl
@[simp] theorem State.invalidate_par (s : State) : s.invalidate.par = s.par := rfl
@[simp] theorem State.invalidate_freeCount (s : State) : s.invalidate.freeCount = s.freeCount := rfl

/-! ### `State.setCompare` -/

@[simp] theorem State.setCompare_iregs (s : State) (c : Bool) : (s.setCompare c).iregs = s.iregs := rfl
@[simp] theorem State.setCompare_fregs (s : State) (c : Bool) : (s.setCompare c).fregs = s.fregs := rfl
@[simp] theorem State.setCompare_pc (s : State) (c : Bool) : (s.setCompare c).pc = s.pc := rfl
@[simp] theorem State.setCompare_fir (s : State) (c : Bool) : (s.setCompare c).fir = s.fir := rfl
@[simp] theorem State.setCompare_psr (s : State) (c : Bool) : (s.setCompare c).psr = setBit s.psr 2 c := rfl
@[simp] theorem State.setCompare_dirbase (s : State) (c : Bool) : (s.setCompare c).dirbase = s.dirbase := rfl
@[simp] theorem State.setCompare_db (s : State) (c : Bool) : (s.setCompare c).db = s.db := rfl
@[simp] theorem State.setCompare_fsr (s : State) (c : Bool) : (s.setCompare c).fsr = s.fsr := rfl
@[simp] theorem State.setCompare_epsr (s : State) (c : Bool) : (s.setCompare c).epsr = s.epsr := rfl
@[simp] theorem State.setCompare_firLatched (s : State) (c : Bool) : (s.setCompare c).firLatched = s.firLatched := rfl
@[simp] theorem State.setCompare_ki (s : State) (c : Bool) : (s.setCompare c).ki = s.ki := rfl
@[simp] theorem State.setCompare_kr (s : State) (c : Bool) : (s.setCompare c).kr = s.kr := rfl
@[simp] theorem State.setCompare_t (s : State) (c : Bool) : (s.setCompare c).t = s.t := rfl
@[simp] theorem State.setCompare_merge (s : State) (c : Bool) : (s.setCompare c).merge = s.merge := rfl
@[simp] theorem State.setCompare_pipeA (s : State) (c : Bool) : (s.setCompare c).pipeA = s.pipeA := rfl
@[simp] theorem State.setCompare_pipeM (s : State) (c : Bool) : (s.setCompare c).pipeM = s.pipeM := rfl
@[simp] theorem State.setCompare_pipeL (s : State) (c : Bool) : (s.setCompare c).pipeL = s.pipeL := rfl
@[simp] theorem State.setCompare_pipeG (s : State) (c : Bool) : (s.setCompare c).pipeG = s.pipeG := rfl
@[simp] theorem State.setCompare_tlb (s : State) (c : Bool) : (s.setCompare c).tlb = s.tlb := rfl
@[simp] theorem State.setCompare_icache (s : State) (c : Bool) : (s.setCompare c).icache = s.icache := rfl
@[simp] theorem State.setCompare_trapPending (s : State) (c : Bool) : (s.setCompare c).trapPending = s.trapPending := rfl
@[simp] theorem State.setCompare_trapInDelaySlot (s : State) (c : Bool) : (s.setCompare c).trapInDelaySlot = s.trapInDelaySlot := rfl
@[simp] theorem State.setCompare_trapExternal (s : State) (c : Bool) : (s.setCompare c).trapExternal = s.trapExternal := rfl
@[simp] theorem State.setCompare_pcUpdated (s : State) (c : Bool) : (s.setCompare c).pcUpdated = s.pcUpdated := rfl
@[simp] theorem State.setCompare_exitedEarly (s : State) (c : Bool) : (s.setCompare c).exitedEarly = s.exitedEarly := rfl
@[simp] theorem State.setCompare_exitingIfetch (s : State) (c : Bool) : (s.setCompare c).exitingIfetch = s.exitingIfetch := rfl
@[simp] theorem State.setCompare_dimOp (s : State) (c : Bool) : (s.setCompare c).dimOp = s.dimOp := rfl
@[simp] theorem State.setCompare_extIntr (s : State) (c : Bool) : (s.setCompare c).extIntr = s.extIntr := rfl
@[simp] theorem State.setCompare_dim (s : State) (c : Bool) : (s.setCompare c).dim = s.dim := rfl
@[simp] theorem State.setCompare_snapDim (s : State) (c : Bool) : (s.setCompare c).snapDim = s.snapDim := rfl
@[simp] theorem State.setCompare_snapDimOp (s : State) (c : Bool) : (s.setCompare c).snapDimOp = s.snapDimOp := rfl
@[simp] theorem State.setCompare_snapCcValid (s : State) (c : Bool) : (s.setCompare c).snapCcValid = s.snapCcValid := rfl
@[simp] theorem State.setCompare_snapCc (s : State) (c : Bool) : (s.setCompare c).snapCc = s.snapCc := rfl
@[simp] theorem State.setCompare_ccValid (s : State) (c : Bool) : (s.setCompare c).ccValid = true := rfl
@[simp] theorem State.setCompare_ccRaw (s : State) (c : Bool) : (s.setCompare c).ccRaw = c := rfl
@[simp] theorem State.setCompare_halted (s : State) (c : Bool) : (s.setCompare c).halted = s.halted := rfl
@[simp] theorem State.setCompare_mailbox (s : State) (c : Bool) : (s.setCompare c).mailbox = s.mailbox := rfl
@[simp] theorem State.setCompare_drainDelay (s : State) (c : Bool) : (s.setCompare c).drainDelay = s.drainDelay := rfl
@[simp] theorem State.setCompare_killed (s : State) (c : Bool) : (s.setCompare c).killed = s.killed := rfl
@[simp] theorem State.setCompare_mem (s : State) (c : Bool) : (s.setCompare c).mem = s.mem := rfl
@[simp] theorem State.setCompare_par (s : State) (c : Bool) : (s.setCompare c).par = s.par := rfl
@[simp] theorem State.setCompare_freeCount (s : State) (c : Bool) : (s.setCompare c).freeCount = s.freeCount := rfl

/-! ### `State.beginStep` -/

@[simp] theorem State.beginStep_iregs (s : State) : s.beginStep.iregs = s.iregs := rfl
@[simp] theorem State.beginStep_fregs (s : State) : s.beginStep.fregs = s.fregs := rfl
@[simp] theorem State.beginStep_pc (s : State) : s.beginStep.pc = s.pc := rfl
@[simp] theorem State.beginStep_fir (s : State) : s.beginStep.fir = s.fir := rfl
@[simp] theorem State.beginStep_psr (s : State) : s.beginStep.psr = s.psr := rfl
@[simp] theorem State.beginStep_dirbase (s : State) : s.beginStep.dirbase = s.dirbase := rfl
@[simp] theorem State.beginStep_db (s : State) : s.beginStep.db = s.db := rfl
@[simp] theorem State.beginStep_fsr (s : State) : s.beginStep.fsr = s.fsr := rfl
@[simp] theorem State.beginStep_epsr (s : State) : s.beginStep.epsr = s.epsr := rfl
@[simp] theorem State.beginStep_firLatched (s : State) : s.beginStep.firLatched = s.firLatched := rfl
@[simp] theorem State.beginStep_ki (s : State) : s.beginStep.ki = s.ki := rfl
@[simp] theorem State.beginStep_kr (s : State) : s.beginStep.kr = s.kr := rfl
@[simp] theorem State.beginStep_t (s : State) : s.beginStep.t = s.t := rfl
@[simp] theorem State.beginStep_merge (s : State) : s.beginStep.merge = s.merge := rfl
@[simp] theorem State.beginStep_pipeA (s : State) : s.beginStep.pipeA = s.pipeA := rfl
@[simp] theorem State.beginStep_pipeM (s : State) : s.beginStep.pipeM = s.pipeM := rfl
@[simp] theorem State.beginStep_pipeL (s : State) : s.beginStep.pipeL = s.pipeL := rfl
@[simp] theorem State.beginStep_pipeG (s : State) : s.beginStep.pipeG = s.pipeG := rfl
@[simp] theorem State.beginStep_tlb (s : State) : s.beginStep.tlb = s.tlb := rfl
@[simp] theorem State.beginStep_icache (s : State) : s.beginStep.icache = s.icache := rfl
@[simp] theorem State.beginStep_trapPending (s : State) : s.beginStep.trapPending = false := rfl
@[simp] theorem State.beginStep_trapInDelaySlot (s : State) : s.beginStep.trapInDelaySlot = false := rfl
@[simp] theorem State.beginStep_trapExternal (s : State) : s.beginStep.trapExternal = false := rfl
@[simp] theorem State.beginStep_pcUpdated (s : State) : s.beginStep.pcUpdated = false := rfl
@[simp] theorem State.beginStep_exitedEarly (s : State) : s.beginStep.exitedEarly = false := rfl
@[simp] theorem State.beginStep_exitingIfetch (s : State) : s.beginStep.exitingIfetch = false := rfl
@[simp] theorem State.beginStep_dimOp (s : State) : s.beginStep.dimOp = false := rfl
@[simp] theorem State.beginStep_extIntr (s : State) : s.beginStep.extIntr = s.extIntr := rfl
@[simp] theorem State.beginStep_dim (s : State) : s.beginStep.dim = s.dim := rfl
@[simp] theorem State.beginStep_snapDim (s : State) : s.beginStep.snapDim = s.snapDim := rfl
@[simp] theorem State.beginStep_snapDimOp (s : State) : s.beginStep.snapDimOp = s.snapDimOp := rfl
@[simp] theorem State.beginStep_snapCcValid (s : State) : s.beginStep.snapCcValid = s.snapCcValid := rfl
@[simp] theorem State.beginStep_snapCc (s : State) : s.beginStep.snapCc = s.snapCc := rfl
@[simp] theorem State.beginStep_ccValid (s : State) : s.beginStep.ccValid = false := rfl
@[simp] theorem State.beginStep_ccRaw (s : State) : s.beginStep.ccRaw = s.ccRaw := rfl
@[simp] theorem State.beginStep_halted (s : State) : s.beginStep.halted = s.halted := rfl
@[simp] theorem State.beginStep_mailbox (s : State) : s.beginStep.mailbox = s.mailbox := rfl
@[simp] theorem State.beginStep_drainDelay (s : State) : s.beginStep.drainDelay = s.drainDelay := rfl
@[simp] theorem State.beginStep_killed (s : State) : s.beginStep.killed = s.killed := rfl
@[simp] theorem State.beginStep_mem (s : State) : s.beginStep.mem = s.mem := rfl
@[simp] theorem State.beginStep_par (s : State) : s.beginStep.par = s.par := rfl
@[simp] theorem State.beginStep_freeCount (s : State) : s.beginStep.freeCount = s.freeCount := rfl

/-! ### `State.betweenHalves` -/

@[simp] theorem State.betweenHalves_iregs (s : State) : s.betweenHalves.iregs = s.iregs := rfl
@[simp] theorem State.betweenHalves_fregs (s : State) : s.betweenHalves.fregs = s.fregs := rfl
@[simp] theorem State.betweenHalves_pc (s : State) : s.betweenHalves.pc = s.pc + 4#32 := rfl
@[simp] theorem State.betweenHalves_fir (s : State) : s.betweenHalves.fir = s.fir := rfl
@[simp] theorem State.betweenHalves_psr (s : State) : s.betweenHalves.psr = s.psr := rfl
@[simp] theorem State.betweenHalves_dirbase (s : State) : s.betweenHalves.dirbase = s.dirbase := rfl
@[simp] theorem State.betweenHalves_db (s : State) : s.betweenHalves.db = s.db := rfl
@[simp] theorem State.betweenHalves_fsr (s : State) : s.betweenHalves.fsr = s.fsr := rfl
@[simp] theorem State.betweenHalves_epsr (s : State) : s.betweenHalves.epsr = s.epsr := rfl
@[simp] theorem State.betweenHalves_firLatched (s : State) : s.betweenHalves.firLatched = s.firLatched := rfl
@[simp] theorem State.betweenHalves_ki (s : State) : s.betweenHalves.ki = s.ki := rfl
@[simp] theorem State.betweenHalves_kr (s : State) : s.betweenHalves.kr = s.kr := rfl
@[simp] theorem State.betweenHalves_t (s : State) : s.betweenHalves.t = s.t := rfl
@[simp] theorem State.betweenHalves_merge (s : State) : s.betweenHalves.merge = s.merge := rfl
@[simp] theorem State.betweenHalves_pipeA (s : State) : s.betweenHalves.pipeA = s.pipeA := rfl
@[simp] theorem State.betweenHalves_pipeM (s : State) : s.betweenHalves.pipeM = s.pipeM := rfl
@[simp] theorem State.betweenHalves_pipeL (s : State) : s.betweenHalves.pipeL = s.pipeL := rfl
@[simp] theorem State.betweenHalves_pipeG (s : State) : s.betweenHalves.pipeG = s.pipeG := rfl
@[simp] theorem State.betweenHalves_tlb (s : State) : s.betweenHalves.tlb = s.tlb := rfl
@[simp] theorem State.betweenHalves_icache (s : State) : s.betweenHalves.icache = s.icache := rfl
@[simp] theorem State.betweenHalves_trapPending (s : State) : s.betweenHalves.trapPending = s.trapPending := rfl
@[simp] theorem State.betweenHalves_trapInDelaySlot (s : State) : s.betweenHalves.trapInDelaySlot = false := rfl
@[simp] theorem State.betweenHalves_trapExternal (s : State) : s.betweenHalves.trapExternal = s.trapExternal := rfl
@[simp] theorem State.betweenHalves_pcUpdated (s : State) : s.betweenHalves.pcUpdated = false := rfl
@[simp] theorem State.betweenHalves_exitedEarly (s : State) : s.betweenHalves.exitedEarly = false := rfl
@[simp] theorem State.betweenHalves_exitingIfetch (s : State) : s.betweenHalves.exitingIfetch = s.exitingIfetch := rfl
@[simp] theorem State.betweenHalves_dimOp (s : State) : s.betweenHalves.dimOp = s.dimOp := rfl
@[simp] theorem State.betweenHalves_extIntr (s : State) : s.betweenHalves.extIntr = s.extIntr := rfl
@[simp] theorem State.betweenHalves_dim (s : State) : s.betweenHalves.dim = s.dim := rfl
@[simp] theorem State.betweenHalves_snapDim (s : State) : s.betweenHalves.snapDim = s.snapDim := rfl
@[simp] theorem State.betweenHalves_snapDimOp (s : State) : s.betweenHalves.snapDimOp = s.snapDimOp := rfl
@[simp] theorem State.betweenHalves_snapCcValid (s : State) : s.betweenHalves.snapCcValid = s.snapCcValid := rfl
@[simp] theorem State.betweenHalves_snapCc (s : State) : s.betweenHalves.snapCc = s.snapCc := rfl
@[simp] theorem State.betweenHalves_ccValid (s : State) : s.betweenHalves.ccValid = s.ccValid := rfl
@[simp] theorem State.betweenHalves_ccRaw (s : State) : s.betweenHalves.ccRaw = s.ccRaw := rfl
@[simp] theorem State.betweenHalves_halted (s : State) : s.betweenHalves.halted = s.halted := rfl
@[simp] theorem State.betweenHalves_mailbox (s : State) : s.betweenHalves.mailbox = s.mailbox := rfl
@[simp] theorem State.betweenHalves_drainDelay (s : State) : s.betweenHalves.drainDelay = s.drainDelay := rfl
@[simp] theorem State.betweenHalves_killed (s : State) : s.betweenHalves.killed = s.killed := rfl
@[simp] theorem State.betweenHalves_mem (s : State) : s.betweenHalves.mem = s.mem := rfl
@[simp] theorem State.betweenHalves_par (s : State) : s.betweenHalves.par = s.par := rfl
@[simp] theorem State.betweenHalves_freeCount (s : State) : s.betweenHalves.freeCount = s.freeCount := rfl

/-! ### `State.dimTransition` -/

@[simp] theorem State.dimTransition_iregs (s : State) : s.dimTransition.iregs = s.iregs := rfl
@[simp] theorem State.dimTransition_fregs (s : State) : s.dimTransition.fregs = s.fregs := rfl
@[simp] theorem State.dimTransition_pc (s : State) : s.dimTransition.pc = s.pc := rfl
@[simp] theorem State.dimTransition_fir (s : State) : s.dimTransition.fir = s.fir := rfl
@[simp] theorem State.dimTransition_psr (s : State) : s.dimTransition.psr = s.psr := rfl
@[simp] theorem State.dimTransition_dirbase (s : State) : s.dimTransition.dirbase = s.dirbase := rfl
@[simp] theorem State.dimTransition_db (s : State) : s.dimTransition.db = s.db := rfl
@[simp] theorem State.dimTransition_fsr (s : State) : s.dimTransition.fsr = s.fsr := rfl
@[simp] theorem State.dimTransition_epsr (s : State) : s.dimTransition.epsr = s.epsr := rfl
@[simp] theorem State.dimTransition_firLatched (s : State) : s.dimTransition.firLatched = s.firLatched := rfl
@[simp] theorem State.dimTransition_ki (s : State) : s.dimTransition.ki = s.ki := rfl
@[simp] theorem State.dimTransition_kr (s : State) : s.dimTransition.kr = s.kr := rfl
@[simp] theorem State.dimTransition_t (s : State) : s.dimTransition.t = s.t := rfl
@[simp] theorem State.dimTransition_merge (s : State) : s.dimTransition.merge = s.merge := rfl
@[simp] theorem State.dimTransition_pipeA (s : State) : s.dimTransition.pipeA = s.pipeA := rfl
@[simp] theorem State.dimTransition_pipeM (s : State) : s.dimTransition.pipeM = s.pipeM := rfl
@[simp] theorem State.dimTransition_pipeL (s : State) : s.dimTransition.pipeL = s.pipeL := rfl
@[simp] theorem State.dimTransition_pipeG (s : State) : s.dimTransition.pipeG = s.pipeG := rfl
@[simp] theorem State.dimTransition_tlb (s : State) : s.dimTransition.tlb = s.tlb := rfl
@[simp] theorem State.dimTransition_icache (s : State) : s.dimTransition.icache = s.icache := rfl
@[simp] theorem State.dimTransition_trapPending (s : State) : s.dimTransition.trapPending = s.trapPending := rfl
@[simp] theorem State.dimTransition_trapInDelaySlot (s : State) : s.dimTransition.trapInDelaySlot = s.trapInDelaySlot := rfl
@[simp] theorem State.dimTransition_trapExternal (s : State) : s.dimTransition.trapExternal = s.trapExternal := rfl
@[simp] theorem State.dimTransition_pcUpdated (s : State) : s.dimTransition.pcUpdated = s.pcUpdated := rfl
@[simp] theorem State.dimTransition_exitedEarly (s : State) : s.dimTransition.exitedEarly = s.exitedEarly := rfl
@[simp] theorem State.dimTransition_exitingIfetch (s : State) : s.dimTransition.exitingIfetch = s.exitingIfetch := rfl
@[simp] theorem State.dimTransition_dimOp (s : State) : s.dimTransition.dimOp = s.dimOp := rfl
@[simp] theorem State.dimTransition_extIntr (s : State) : s.dimTransition.extIntr = s.extIntr := rfl
@[simp] theorem State.dimTransition_dim (s : State) : s.dimTransition.dim = nextDim s.dim s.dimOp := rfl
@[simp] theorem State.dimTransition_snapDim (s : State) : s.dimTransition.snapDim = s.snapDim := rfl
@[simp] theorem State.dimTransition_snapDimOp (s : State) : s.dimTransition.snapDimOp = s.snapDimOp := rfl
@[simp] theorem State.dimTransition_snapCcValid (s : State) : s.dimTransition.snapCcValid = s.snapCcValid := rfl
@[simp] theorem State.dimTransition_snapCc (s : State) : s.dimTransition.snapCc = s.snapCc := rfl
@[simp] theorem State.dimTransition_ccValid (s : State) : s.dimTransition.ccValid = s.ccValid := rfl
@[simp] theorem State.dimTransition_ccRaw (s : State) : s.dimTransition.ccRaw = s.ccRaw := rfl
@[simp] theorem State.dimTransition_halted (s : State) : s.dimTransition.halted = s.halted := rfl
@[simp] theorem State.dimTransition_mailbox (s : State) : s.dimTransition.mailbox = s.mailbox := rfl
@[simp] theorem State.dimTransition_drainDelay (s : State) : s.dimTransition.drainDelay = s.drainDelay := rfl
@[simp] theorem State.dimTransition_killed (s : State) : s.dimTransition.killed = s.killed := rfl
@[simp] theorem State.dimTransition_mem (s : State) : s.dimTransition.mem = s.mem := rfl
@[simp] theorem State.dimTransition_par (s : State) : s.dimTransition.par = s.par := rfl
@[simp] theorem State.dimTransition_freeCount (s : State) : s.dimTransition.freeCount = s.freeCount := rfl

/-! ### `State.ready` -/

@[simp] theorem State.ready_iregs (s : State) : s.ready.iregs = s.iregs := rfl
@[simp] theorem State.ready_fregs (s : State) : s.ready.fregs = s.fregs := rfl
@[simp] theorem State.ready_pc (s : State) : s.ready.pc = s.pc := rfl
@[simp] theorem State.ready_fir (s : State) : s.ready.fir = s.fir := rfl
@[simp] theorem State.ready_psr (s : State) : s.ready.psr = s.psr := rfl
@[simp] theorem State.ready_dirbase (s : State) : s.ready.dirbase = s.dirbase := rfl
@[simp] theorem State.ready_db (s : State) : s.ready.db = s.db := rfl
@[simp] theorem State.ready_fsr (s : State) : s.ready.fsr = s.fsr := rfl
@[simp] theorem State.ready_epsr (s : State) : s.ready.epsr = s.epsr := rfl
@[simp] theorem State.ready_firLatched (s : State) : s.ready.firLatched = s.firLatched := rfl
@[simp] theorem State.ready_ki (s : State) : s.ready.ki = s.ki := rfl
@[simp] theorem State.ready_kr (s : State) : s.ready.kr = s.kr := rfl
@[simp] theorem State.ready_t (s : State) : s.ready.t = s.t := rfl
@[simp] theorem State.ready_merge (s : State) : s.ready.merge = s.merge := rfl
@[simp] theorem State.ready_pipeA (s : State) : s.ready.pipeA = s.pipeA := rfl
@[simp] theorem State.ready_pipeM (s : State) : s.ready.pipeM = s.pipeM := rfl
@[simp] theorem State.ready_pipeL (s : State) : s.ready.pipeL = s.pipeL := rfl
@[simp] theorem State.ready_pipeG (s : State) : s.ready.pipeG = s.pipeG := rfl
@[simp] theorem State.ready_tlb (s : State) : s.ready.tlb = s.tlb := rfl
@[simp] theorem State.ready_icache (s : State) : s.ready.icache = s.icache := rfl
@[simp] theorem State.ready_trapPending (s : State) : s.ready.trapPending = s.trapPending := rfl
@[simp] theorem State.ready_trapInDelaySlot (s : State) : s.ready.trapInDelaySlot = s.trapInDelaySlot := rfl
@[simp] theorem State.ready_trapExternal (s : State) : s.ready.trapExternal = s.trapExternal := rfl
@[simp] theorem State.ready_pcUpdated (s : State) : s.ready.pcUpdated = s.pcUpdated := rfl
@[simp] theorem State.ready_exitedEarly (s : State) : s.ready.exitedEarly = s.exitedEarly := rfl
@[simp] theorem State.ready_exitingIfetch (s : State) : s.ready.exitingIfetch = s.exitingIfetch := rfl
@[simp] theorem State.ready_dimOp (s : State) : s.ready.dimOp = s.dimOp := rfl
@[simp] theorem State.ready_extIntr (s : State) : s.ready.extIntr = s.extIntr := rfl
@[simp] theorem State.ready_dim (s : State) : s.ready.dim = s.dim := rfl
@[simp] theorem State.ready_snapDim (s : State) : s.ready.snapDim = s.snapDim := rfl
@[simp] theorem State.ready_snapDimOp (s : State) : s.ready.snapDimOp = s.snapDimOp := rfl
@[simp] theorem State.ready_snapCcValid (s : State) : s.ready.snapCcValid = s.snapCcValid := rfl
@[simp] theorem State.ready_snapCc (s : State) : s.ready.snapCc = s.snapCc := rfl
@[simp] theorem State.ready_ccValid (s : State) : s.ready.ccValid = s.ccValid := rfl
@[simp] theorem State.ready_ccRaw (s : State) : s.ready.ccRaw = s.ccRaw := rfl
@[simp] theorem State.ready_halted (s : State) : s.ready.halted = false := rfl
@[simp] theorem State.ready_mailbox (s : State) : s.ready.mailbox = Mailbox.empty := rfl
@[simp] theorem State.ready_drainDelay (s : State) : s.ready.drainDelay = s.drainDelay := rfl
@[simp] theorem State.ready_killed (s : State) : s.ready.killed = false := rfl
@[simp] theorem State.ready_mem (s : State) : s.ready.mem = s.mem := rfl
@[simp] theorem State.ready_par (s : State) : s.ready.par = s.par := rfl
@[simp] theorem State.ready_freeCount (s : State) : s.ready.freeCount = s.freeCount := rfl

/-! ### `State.pipePush` -/

@[simp] theorem State.pipePush_iregs (s : State) (pipe : FpPipe) (v : Slot) : (s.pipePush pipe v).iregs = s.iregs := by cases pipe <;> rfl
@[simp] theorem State.pipePush_fregs (s : State) (pipe : FpPipe) (v : Slot) : (s.pipePush pipe v).fregs = s.fregs := by cases pipe <;> rfl
@[simp] theorem State.pipePush_pc (s : State) (pipe : FpPipe) (v : Slot) : (s.pipePush pipe v).pc = s.pc := by cases pipe <;> rfl
@[simp] theorem State.pipePush_fir (s : State) (pipe : FpPipe) (v : Slot) : (s.pipePush pipe v).fir = s.fir := by cases pipe <;> rfl
@[simp] theorem State.pipePush_psr (s : State) (pipe : FpPipe) (v : Slot) : (s.pipePush pipe v).psr = s.psr := by cases pipe <;> rfl
@[simp] theorem State.pipePush_dirbase (s : State) (pipe : FpPipe) (v : Slot) : (s.pipePush pipe v).dirbase = s.dirbase := by cases pipe <;> rfl
@[simp] theorem State.pipePush_db (s : State) (pipe : FpPipe) (v : Slot) : (s.pipePush pipe v).db = s.db := by cases pipe <;> rfl
@[simp] theorem State.pipePush_fsr (s : State) (pipe : FpPipe) (v : Slot) : (s.pipePush pipe v).fsr = s.fsr := by cases pipe <;> rfl
@[simp] theorem State.pipePush_epsr (s : State) (pipe : FpPipe) (v : Slot) : (s.pipePush pipe v).epsr = s.epsr := by cases pipe <;> rfl
@[simp] theorem State.pipePush_firLatched (s : State) (pipe : FpPipe) (v : Slot) : (s.pipePush pipe v).firLatched = s.firLatched := by cases pipe <;> rfl
@[simp] theorem State.pipePush_ki (s : State) (pipe : FpPipe) (v : Slot) : (s.pipePush pipe v).ki = s.ki := by cases pipe <;> rfl
@[simp] theorem State.pipePush_kr (s : State) (pipe : FpPipe) (v : Slot) : (s.pipePush pipe v).kr = s.kr := by cases pipe <;> rfl
@[simp] theorem State.pipePush_t (s : State) (pipe : FpPipe) (v : Slot) : (s.pipePush pipe v).t = s.t := by cases pipe <;> rfl
@[simp] theorem State.pipePush_merge (s : State) (pipe : FpPipe) (v : Slot) : (s.pipePush pipe v).merge = s.merge := by cases pipe <;> rfl
@[simp] theorem State.pipePush_pipeL (s : State) (pipe : FpPipe) (v : Slot) : (s.pipePush pipe v).pipeL = s.pipeL := by cases pipe <;> rfl
@[simp] theorem State.pipePush_pipeG (s : State) (pipe : FpPipe) (v : Slot) : (s.pipePush pipe v).pipeG = s.pipeG := by cases pipe <;> rfl
@[simp] theorem State.pipePush_tlb (s : State) (pipe : FpPipe) (v : Slot) : (s.pipePush pipe v).tlb = s.tlb := by cases pipe <;> rfl
@[simp] theorem State.pipePush_icache (s : State) (pipe : FpPipe) (v : Slot) : (s.pipePush pipe v).icache = s.icache := by cases pipe <;> rfl
@[simp] theorem State.pipePush_trapPending (s : State) (pipe : FpPipe) (v : Slot) : (s.pipePush pipe v).trapPending = s.trapPending := by cases pipe <;> rfl
@[simp] theorem State.pipePush_trapInDelaySlot (s : State) (pipe : FpPipe) (v : Slot) : (s.pipePush pipe v).trapInDelaySlot = s.trapInDelaySlot := by cases pipe <;> rfl
@[simp] theorem State.pipePush_trapExternal (s : State) (pipe : FpPipe) (v : Slot) : (s.pipePush pipe v).trapExternal = s.trapExternal := by cases pipe <;> rfl
@[simp] theorem State.pipePush_pcUpdated (s : State) (pipe : FpPipe) (v : Slot) : (s.pipePush pipe v).pcUpdated = s.pcUpdated := by cases pipe <;> rfl
@[simp] theorem State.pipePush_exitedEarly (s : State) (pipe : FpPipe) (v : Slot) : (s.pipePush pipe v).exitedEarly = s.exitedEarly := by cases pipe <;> rfl
@[simp] theorem State.pipePush_exitingIfetch (s : State) (pipe : FpPipe) (v : Slot) : (s.pipePush pipe v).exitingIfetch = s.exitingIfetch := by cases pipe <;> rfl
@[simp] theorem State.pipePush_dimOp (s : State) (pipe : FpPipe) (v : Slot) : (s.pipePush pipe v).dimOp = s.dimOp := by cases pipe <;> rfl
@[simp] theorem State.pipePush_extIntr (s : State) (pipe : FpPipe) (v : Slot) : (s.pipePush pipe v).extIntr = s.extIntr := by cases pipe <;> rfl
@[simp] theorem State.pipePush_dim (s : State) (pipe : FpPipe) (v : Slot) : (s.pipePush pipe v).dim = s.dim := by cases pipe <;> rfl
@[simp] theorem State.pipePush_snapDim (s : State) (pipe : FpPipe) (v : Slot) : (s.pipePush pipe v).snapDim = s.snapDim := by cases pipe <;> rfl
@[simp] theorem State.pipePush_snapDimOp (s : State) (pipe : FpPipe) (v : Slot) : (s.pipePush pipe v).snapDimOp = s.snapDimOp := by cases pipe <;> rfl
@[simp] theorem State.pipePush_snapCcValid (s : State) (pipe : FpPipe) (v : Slot) : (s.pipePush pipe v).snapCcValid = s.snapCcValid := by cases pipe <;> rfl
@[simp] theorem State.pipePush_snapCc (s : State) (pipe : FpPipe) (v : Slot) : (s.pipePush pipe v).snapCc = s.snapCc := by cases pipe <;> rfl
@[simp] theorem State.pipePush_ccValid (s : State) (pipe : FpPipe) (v : Slot) : (s.pipePush pipe v).ccValid = s.ccValid := by cases pipe <;> rfl
@[simp] theorem State.pipePush_ccRaw (s : State) (pipe : FpPipe) (v : Slot) : (s.pipePush pipe v).ccRaw = s.ccRaw := by cases pipe <;> rfl
@[simp] theorem State.pipePush_halted (s : State) (pipe : FpPipe) (v : Slot) : (s.pipePush pipe v).halted = s.halted := by cases pipe <;> rfl
@[simp] theorem State.pipePush_mailbox (s : State) (pipe : FpPipe) (v : Slot) : (s.pipePush pipe v).mailbox = s.mailbox := by cases pipe <;> rfl
@[simp] theorem State.pipePush_drainDelay (s : State) (pipe : FpPipe) (v : Slot) : (s.pipePush pipe v).drainDelay = s.drainDelay := by cases pipe <;> rfl
@[simp] theorem State.pipePush_killed (s : State) (pipe : FpPipe) (v : Slot) : (s.pipePush pipe v).killed = s.killed := by cases pipe <;> rfl
@[simp] theorem State.pipePush_mem (s : State) (pipe : FpPipe) (v : Slot) : (s.pipePush pipe v).mem = s.mem := by cases pipe <;> rfl
@[simp] theorem State.pipePush_par (s : State) (pipe : FpPipe) (v : Slot) : (s.pipePush pipe v).par = s.par := by cases pipe <;> rfl
@[simp] theorem State.pipePush_freeCount (s : State) (pipe : FpPipe) (v : Slot) : (s.pipePush pipe v).freeCount = s.freeCount := by cases pipe <;> rfl
@[simp] theorem State.pipePush_adder_pipeA (s : State) (v : Slot) : (s.pipePush .adder v).pipeA = s.pipeA.push false v := rfl
@[simp] theorem State.pipePush_adder_pipeM (s : State) (v : Slot) : (s.pipePush .adder v).pipeM = s.pipeM := rfl
@[simp] theorem State.pipePush_multiplier_pipeM (s : State) (short : Bool) (v : Slot) : (s.pipePush (.multiplier short) v).pipeM = s.pipeM.push short v := rfl
@[simp] theorem State.pipePush_multiplier_pipeA (s : State) (short : Bool) (v : Slot) : (s.pipePush (.multiplier short) v).pipeA = s.pipeA := rfl

end Sys2Proof.Machine
end

