-- ==== Sys2Proof/Laws/Ops.lean ====
section
/-! SUPPORT. What each shared operation can do, said once: register access, raising, accesses and pipes. -/

namespace Sys2Proof.Machine

/-! ## Sequencing -/

@[simp] theorem andThen_next (s : State) (f : State → Out) : andThen (.next s) f = f s := rfl
@[simp] theorem andThen_refused (r : Refusal) (f : State → Out) : andThen (.refused r) f = .refused r := rfl
@[simp] theorem andThen_fault (r : Fault) (f : State → Out) : andThen (.fault r) f = .fault r := rfl

/-- A sequence answers a next state exactly when both parts do. -/
theorem andThen_eq_next {o : Out} {f : State → Out} {t : State} :
    andThen o f = .next t ↔ ∃ u, o = .next u ∧ f u = .next t := by
  cases o <;> simp [andThen]

/-! ## Registers -/

/-- What an integer register reads after a write. -/
theorem readReg_writeReg (s : State) (d i : Reg) (v : Word) :
    (s.writeReg d v).readReg i = if i = d ∧ i ≠ 0#5 then v else s.readReg i := by
  unfold State.readReg State.writeReg
  by_cases h0 : i = 0#5
  · simp [h0]
  · by_cases hd : d = 0#5
    · simp [hd, h0]
    · by_cases hi : i = d
      · subst hi; simp [h0]
      · have : d.toNat ≠ i.toNat := fun h => hi (BitVec.eq_of_toNat_eq h).symm
        simp [h0, hd, hi, Vector.getElem_set_ne _ _ this]

/-- A write to an integer register sets that register alone. -/
theorem iregSet_writeReg (s : State) (d : Reg) (v : Word) : IregSet s (s.writeReg d v) d v :=
  fun i => readReg_writeReg s d i v

/-- Reading an integer register looks at the integer file alone. -/
theorem readReg_congr {s t : State} (h : t.iregs = s.iregs) (i : Reg) : t.readReg i = s.readReg i := by
  unfold State.readReg; simp only [h]

/-- What a floating register reads after a write. -/
theorem readF_writeF (s : State) (d i : Reg) (v : Word) :
    (s.writeF d v).readF i = if i = d ∧ 2 ≤ i.toNat then v else s.readF i := by
  unfold State.readF State.writeF
  by_cases h0 : i.toNat < 2
  · simp [h0, show ¬ 2 ≤ i.toNat by omega]
  · by_cases hd : d.toNat < 2
    · have : i ≠ d := fun h => h0 (h ▸ hd)
      simp [h0, hd, this]
    · by_cases hi : i = d
      · subst hi; simp [h0, show 2 ≤ i.toNat by omega]
      · have : d.toNat ≠ i.toNat := fun h => hi (BitVec.eq_of_toNat_eq h).symm
        simp [h0, hd, hi, Vector.getElem_set_ne _ _ this]

/-- A write of 32 bits sets one floating register alone. -/
theorem fregSet_writeF (s : State) (d : Reg) (v : Word) : FregSet s (s.writeF d v) d v :=
  fun i => readF_writeF s d i v

/-- Reading a floating register looks at the floating file alone. -/
theorem readF_congr {s t : State} (h : t.fregs = s.fregs) (i : Reg) : t.readF i = s.readF i := by
  unfold State.readF; simp only [h]

/-- A write of 64 bits sets a pair alone. -/
theorem fpairSet_writeFd (s : State) (d : Reg) (v : DWord) (_ : d.getLsbD 0 = false) :
    FpairSet s (s.writeFd d v) d v := by
  intro i
  have hne : d ≠ d + 1#5 := by bv_omega
  unfold State.writeFd
  rw [readF_writeF, readF_writeF]
  by_cases h1 : i = d
  · subst h1; simp [hne]
  · simp [h1]

/-- A write of 128 bits sets four registers alone. -/
theorem fquadSet_writeFq (s : State) (d : Reg) (v : BitVec 128) (h0 : d.getLsbD 0 = false) (h1 : d.getLsbD 1 = false) :
    FquadSet s (s.writeFq d v) d v := by
  intro i
  have e1 : d + 2#5 + 1#5 = d + 3#5 := by bv_omega
  have hq : 2 ≤ (d + 2#5).toNat ∧ 2 ≤ (d + 3#5).toNat := by
    revert h0 h1 d; decide
  unfold State.writeFq State.writeFd lowWord highWord
  rw [readF_writeF, readF_writeF, readF_writeF, readF_writeF, e1]
  have n1 : d ≠ d + 1#5 := by bv_omega
  have n2 : d ≠ d + 2#5 := by bv_omega
  have n3 : d ≠ d + 3#5 := by bv_omega
  have n4 : d + 1#5 ≠ d + 2#5 := by bv_omega
  have n5 : d + 1#5 ≠ d + 3#5 := by bv_omega
  have n6 : d + 2#5 ≠ d + 3#5 := by bv_omega
  have x (a b : Nat) (h : b + 32 ≤ 64) : (v.extractLsb' a 64).extractLsb' b 32 = v.extractLsb' (a + b) 32 := by
    apply BitVec.eq_of_getLsbD_eq
    intro k hk
    simp [hk, show b + k < 64 by omega, Nat.add_assoc]
  rw [x 0 0 (by decide), x 0 32 (by decide), x 64 0 (by decide), x 64 32 (by decide)]
  by_cases i0 : i = d
  · subst i0; simp [n1, n2, n3]
  by_cases i1 : i = d + 1#5
  · subst i1; simp [n1.symm, n4, n5]
  by_cases i2 : i = d + 2#5
  · subst i2
    rw [if_neg (fun h => n6 h.1), if_pos ⟨rfl, hq.1⟩, if_neg (fun h => i0 h.1), if_neg (fun h => i1 h.1), if_pos rfl]
  by_cases i3 : i = d + 3#5
  · subst i3
    rw [if_pos ⟨rfl, hq.2⟩, if_neg (fun h => i0 h.1), if_neg (fun h => i1 h.1), if_neg i2, if_pos rfl]
  · simp [i0, i1, i2, i3]

/-! ## Trap entry and exit -/

/-- Bit k of the PSR of trap entry. -/
theorem getLsbD_entryPsr (p : Word) (k : Nat) : (entryPsr p).getLsbD k =
    if k = 7 then p.getLsbD 6 else if k = 5 then p.getLsbD 4 else if k = 6 ∨ k = 4 then false else p.getLsbD k := by
  unfold entryPsr
  rw [getLsbD_setBit _ _ _ _ (by omega), getLsbD_setBit _ _ _ _ (by omega), getLsbD_setBit _ _ _ _ (by omega),
    getLsbD_setBit _ _ _ _ (by omega)]
  by_cases h7 : k = 7
  · subst h7; simp
  by_cases h5 : k = 5
  · subst h5; simp
  by_cases h6 : k = 6
  · subst h6; simp
  by_cases h4 : k = 4
  · subst h4; simp
  simp [h4, h5, h6, h7]

/-- Bit k of the PSR of trap exit. -/
theorem getLsbD_exitPsr (p : Word) (k : Nat) : (exitPsr p).getLsbD k =
    if k = 6 then p.getLsbD 7 else if k = 4 then p.getLsbD 5 else if 8 ≤ k ∧ k < 15 then false else p.getLsbD k := by
  unfold exitPsr
  rw [getLsbD_setField _ 8 7 _ _ (by omega), getLsbD_setBit _ _ _ _ (by omega), getLsbD_setBit _ _ _ _ (by omega)]
  by_cases h : 8 ≤ k ∧ k < 15
  · rw [if_pos (by omega)]; simp [show k ≠ 6 by omega, show k ≠ 4 by omega, h]
  · rw [if_neg (by omega)]
    by_cases h4 : k = 4
    · subst h4; simp
    · by_cases h6 : k = 6
      · subst h6; simp
      · rw [if_neg h4, if_neg h6, if_neg h6, if_neg h4, if_neg h]

/-! ## Slots -/

/-- A slot written by its tag: the floating register or the pair, and nothing else. -/
theorem writeSlot_fits {s : State} {d : Reg} {v : Slot} (h : SlotFits d v) :
    ∃ t, s.writeSlot d v = .next t ∧ FslotSet s t d v ∧ t = { s with fregs := t.fregs } := by
  cases v with
  | sgl v => exact ⟨_, rfl, fregSet_writeF s d v, rfl⟩
  | dbl v =>
    refine ⟨s.writeFd d v, ?_, fpairSet_writeFd s d v h, rfl⟩
    show (if oddPair d = true then _ else _) = _
    rw [if_neg (by rw [oddPair, show d.getLsbD 0 = false from h]; decide)]

/-- Everything the write of a slot can answer next. -/
theorem writeSlot_eq_next {s t : State} {d : Reg} {v : Slot} (h : s.writeSlot d v = .next t) :
    SlotFits d v ∧ FslotSet s t d v ∧ t = { s with fregs := t.fregs } := by
  cases v with
  | sgl v => cases h; exact ⟨trivial, fregSet_writeF s d v, rfl⟩
  | dbl v =>
    have h' : (if oddPair d = true then Host.Outcome.refused .unalignedFpOperand else .next (s.writeFd d v) : Out) =
        .next t := h
    split at h'
    · cases h'
    · rename_i ho
      have hd : d.getLsbD 0 = false := by simpa [oddPair] using ho
      cases h'; exact ⟨hd, fpairSet_writeFd s d v hd, rfl⟩

/-! ## The auto-increment -/

/-- The auto-increment changes the integer file alone. -/
theorem autoInc_eq (s : State) (inc : Bool) (src2 : Reg) (eff : Word) :
    autoInc s inc src2 eff = { s with iregs := (autoInc s inc src2 eff).iregs } := by cases inc <;> rfl

/-- What an integer register reads after an auto-increment. -/
theorem readReg_autoInc (s : State) (inc : Bool) (src2 i : Reg) (eff : Word) :
    (autoInc s inc src2 eff).readReg i = if inc = true ∧ i = src2 ∧ i ≠ 0#5 then eff else s.readReg i := by
  cases inc
  · simp [autoInc]
  · simp [autoInc, readReg_writeReg]

end Sys2Proof.Machine
end

