-- ==== Sys2Proof/Laws/Access.lean ====
section
/-! SUPPORT. What translation, the data access and the fetch can do, said once. -/

namespace Sys2Proof.Machine

/-! ## Translation -/

/-- The state a walk leaves when it has set the accessed bits (20 R70). -/
def State.walked (s : State) (va : Word) : State :=
  let pdeA := s.pdeAddr va
  let pde := s.physRead32 pdeA
  let pteA := pteAddr pde va
  let pte := s.physRead32 pteA
  (s.physWrite32 pdeA (pde ||| 0x20#32)).physWrite32 pteA (pte ||| 0x20#32)

/-- The state a walk leaves differs in memory alone. -/
theorem State.walked_eq (s : State) (va : Word) : s.walked va = { s with mem := (s.walked va).mem } := rfl

/-- A directory or table entry that violates the access, as a proposition (20 R70). -/
theorem entryViolates_iff (s : State) (e : Word) (d w : Bool) : s.entryViolates e d w = true ↔
    e.getLsbD 0 = false ∨ (d = true ∧ w = true ∧ e.getLsbD 1 = false ∧ (s.user = true ∨ s.wp = true)) ∨
      (s.user = true ∧ e.getLsbD 2 = false) := by
  unfold State.entryViolates
  simp only [Bool.or_eq_true, Bool.and_eq_true, Bool.not_eq_true', and_assoc, or_assoc]

/-- A walk whose directory or table entry violates the access faults with nothing written. -/
theorem walk_violates {s : State} {va : Word} {d w : Bool}
    (h : s.entryViolates (s.physRead32 (s.pdeAddr va)) d w = true ∨
      s.entryViolates (s.physRead32 (pteAddr (s.physRead32 (s.pdeAddr va)) va)) d w = true) :
    s.walk va d w = (s.accessFault d, none) := by
  unfold State.walk
  simp only
  rcases h with h | h
  · rw [if_pos h]
  · rw [if_pos h, ite_self]

/-- A walk for a write to a clean page faults after the accessed bits are set. -/
theorem walk_clean {s : State} {va : Word} {d w : Bool}
    (h1 : ¬ s.entryViolates (s.physRead32 (s.pdeAddr va)) d w = true)
    (h2 : ¬ s.entryViolates (s.physRead32 (pteAddr (s.physRead32 (s.pdeAddr va)) va)) d w = true)
    (h3 : d = true ∧ w = true ∧ (s.physRead32 (pteAddr (s.physRead32 (s.pdeAddr va)) va)).getLsbD 6 = false) :
    s.walk va d w = ((s.walked va).accessFault d, none) := by
  unfold State.walk
  simp only
  rw [if_neg h1, if_neg h2, if_pos (by simpa [and_assoc] using h3)]
  rfl

/-- A walk that answers sets the accessed bits and fills the TLB slot. -/
theorem walk_fill {s : State} {va : Word} {d w : Bool}
    (h1 : ¬ s.entryViolates (s.physRead32 (s.pdeAddr va)) d w = true)
    (h2 : ¬ s.entryViolates (s.physRead32 (pteAddr (s.physRead32 (s.pdeAddr va)) va)) d w = true)
    (h3 : ¬ (d = true ∧ w = true ∧ (s.physRead32 (pteAddr (s.physRead32 (s.pdeAddr va)) va)).getLsbD 6 = false)) :
    s.walk va d w =
      ((s.walked va).tlbFill va w ((s.physRead32 (pteAddr (s.physRead32 (s.pdeAddr va)) va)).extractLsb' 12 20),
        some (physAddr ((s.physRead32 (pteAddr (s.physRead32 (s.pdeAddr va)) va)).extractLsb' 12 20) va)) := by
  unfold State.walk
  simp only
  rw [if_neg h1, if_neg h2, if_neg (by simpa [and_assoc] using h3)]
  rfl

/-- The number a physical address stands for. -/
theorem toNat_physAddr (f : BitVec 20) (va : Word) : (physAddr f va).toNat = f.toNat * 2 ^ 12 + va.toNat % 2 ^ 12 := by
  unfold physAddr; rw [toNat_append_eq]; simp

/-- The number the directory entry's address stands for. -/
theorem toNat_pdeAddr (s : State) (va : Word) :
    (s.pdeAddr va).toNat = s.dtb.toNat * 2 ^ 12 + (va.toNat / 2 ^ 22) * 4 := by
  have := va.isLt
  unfold State.pdeAddr
  rw [toNat_append_eq, toNat_append_eq]
  simp [Nat.shiftRight_eq_div_pow]
  omega

/-- The number the table entry's address stands for. -/
theorem toNat_pteAddr (pde va : Word) :
    (pteAddr pde va).toNat = (pde.toNat / 2 ^ 12) * 2 ^ 12 + (va.toNat / 2 ^ 12 % 2 ^ 10) * 4 := by
  have := va.isLt
  have := pde.isLt
  unfold pteAddr
  rw [toNat_append_eq, toNat_append_eq]
  simp [Nat.shiftRight_eq_div_pow]
  omega

/-- The page number of an address. -/
theorem toNat_page (va : Word) : (va.extractLsb' 12 20).toNat = va.toNat / 2 ^ 12 := by
  have := va.isLt
  simp [Nat.shiftRight_eq_div_pow]
  omega

/-- Everything a walk can do: a fault with nothing written, a fault after the accessed bits, or an answer with the TLB slot
filled. -/
theorem walk_cases {s t : State} {va : Word} {d w : Bool} {r : Option Word} (h : s.walk va d w = (t, r)) :
    (t = s.accessFault d ∧ r = none) ∨ (t = (s.walked va).accessFault d ∧ r = none) ∨
    ∃ f, t = (s.walked va).tlbFill va w f ∧ r = some (physAddr f va) := by
  unfold State.walk at h
  simp only at h
  split at h
  · cases h; exact .inl ⟨rfl, rfl⟩
  · split at h
    · cases h; exact .inl ⟨rfl, rfl⟩
    · split at h
      · cases h; exact .inr (.inl ⟨rfl, rfl⟩)
      · cases h; exact .inr (.inr ⟨_, rfl, rfl⟩)

/-- Everything a translation can do: an answer with nothing changed, or what a walk does. -/
theorem physical_cases {s t : State} {va : Word} {d w : Bool} {r : Option Word} (h : s.physical va d w = (t, r)) :
    (t = s ∧ ∃ p, r = some p) ∨ (t = s.accessFault d ∧ r = none) ∨ (t = (s.walked va).accessFault d ∧ r = none) ∨
    ∃ f, t = (s.walked va).tlbFill va w f ∧ r = some (physAddr f va) := by
  unfold State.physical at h
  split at h
  · unfold State.translate at h
    split at h
    · cases h; exact .inl ⟨rfl, _, rfl⟩
    · exact .inr (walk_cases h)
  · cases h; exact .inl ⟨rfl, _, rfl⟩

/-- A translation that answers changes only memory and the TLB. -/
theorem physical_some {s t : State} {va p : Word} {d w : Bool} (h : s.physical va d w = (t, some p)) :
    t = { s with mem := t.mem, tlb := t.tlb } := by
  rcases physical_cases h with ⟨rfl, _⟩ | ⟨_, h⟩ | ⟨_, h⟩ | ⟨f, rfl, _⟩
  · rfl
  · cases h
  · cases h
  · rfl

/-- A translation that faults raises the access fault and changes nothing else but memory. -/
theorem physical_none {s t : State} {va : Word} {d w : Bool} (h : s.physical va d w = (t, none)) :
    t = ({ s with mem := t.mem } : State).accessFault d := by
  rcases physical_cases h with ⟨_, p, h⟩ | ⟨rfl, _⟩ | ⟨rfl, _⟩ | ⟨f, _, h⟩
  · cases h
  · rfl
  · rfl
  · cases h

/-- The accessed bits are written in the two entries alone. -/
theorem walked_outside (s : State) (va : Word) : SameMemOutside s (s.walked va) (WalkBytes s va) := by
  intro a ha
  have h1 : ¬ InBytes (s.pdeAddr va) 4 a := fun h => ha (.inl h)
  have h2 : ¬ InBytes (pteAddr (s.physRead32 (s.pdeAddr va)) va) 4 a := fun h => ha (.inr h)
  simp only [State.walked, State.physWrite32_mem]
  rw [Memory.busWrite_other _ _ _ _ _ h2, Memory.busWrite_other _ _ _ _ _ h1]

/-- A translation writes no byte of memory outside the two entries of its walk. -/
theorem physical_outside {s t : State} {va : Word} {d w : Bool} {r : Option Word} (h : s.physical va d w = (t, r)) :
    SameMemOutside s t (WalkBytes s va) := by
  rcases physical_cases h with ⟨rfl, _⟩ | ⟨rfl, _⟩ | ⟨rfl, _⟩ | ⟨f, rfl, _⟩
  · exact fun _ _ => rfl
  · exact fun _ _ => rfl
  · exact walked_outside s va
  · exact walked_outside s va

/-- The accessed bits keep the canonical form of memory. -/
theorem walked_wf {s : State} (va : Word) (h : s.mem.wf = true) : (s.walked va).mem.wf = true := by
  simp only [State.walked, State.physWrite32_mem]
  exact Memory.busWrite_wf _ _ _ _ (Memory.busWrite_wf _ _ _ _ h)

/-- A translation keeps the canonical form of memory. -/
theorem physical_wf {s t : State} {va : Word} {d w : Bool} {r : Option Word} (h : s.physical va d w = (t, r))
    (hm : s.mem.wf = true) : t.mem.wf = true := by
  rcases physical_cases h with ⟨rfl, _⟩ | ⟨rfl, _⟩ | ⟨rfl, _⟩ | ⟨f, rfl, _⟩
  · exact hm
  · exact hm
  · exact walked_wf va hm
  · exact walked_wf va hm

/-- A translation keeps the order of the TLB. -/
theorem physical_tlb_sorted {s t : State} {va : Word} {d w : Bool} {r : Option Word} (h : s.physical va d w = (t, r))
    (hs : Table.sorted s.tlb = true) : Table.sorted t.tlb = true := by
  rcases physical_cases h with ⟨rfl, _⟩ | ⟨rfl, _⟩ | ⟨rfl, _⟩ | ⟨f, rfl, _⟩
  · exact hs
  · exact hs
  · exact hs
  · exact Table.sorted_insert _ _ _ hs

/-! ## The data access -/

/-- Everything the checks of an access can do: exit early for its alignment, refuse, exit early for its translation or its
breakpoint, or go. -/
theorem access_cases (s : State) (n : Nat) (addr : Word) (w : Bool) :
    (addr.toNat % n ≠ 0 ∧ s.par.alignCheck = true ∧ s.access n addr w = .early s.exitEarly) ∨
    (addr.toNat % n ≠ 0 ∧ s.par.alignCheck = false ∧ s.access n addr w = .refuse .misalignedUnchecked) ∨
    (∃ t, addr.toNat % n = 0 ∧ s.physical addr true w = (t, none) ∧
      s.access n addr w = .early { t with exitedEarly := true }) ∨
    (∃ t p, addr.toNat % n = 0 ∧ s.physical addr true w = (t, some p) ∧ t.breakpointHit n w p = true ∧
      s.access n addr w = .early t.exitEarly) ∨
    (∃ t p, addr.toNat % n = 0 ∧ s.physical addr true w = (t, some p) ∧ t.breakpointHit n w p = false ∧
      s.access n addr w = .go t p) := by
  unfold State.access
  by_cases h : addr.toNat % n = 0
  · rw [if_neg (by simp [h])]
    cases hp : s.physical addr true w with
    | mk t r =>
      cases r with
      | none => exact .inr (.inr (.inl ⟨t, h, rfl, rfl⟩))
      | some p =>
        cases hb : t.breakpointHit n w p with
        | true => exact .inr (.inr (.inr (.inl ⟨t, p, h, rfl, hb, by simp [hb]⟩)))
        | false => exact .inr (.inr (.inr (.inr ⟨t, p, h, rfl, hb, by simp [hb]⟩)))
  · rw [if_pos h]
    cases ha : s.par.alignCheck with
    | true => exact .inl ⟨h, rfl, rfl⟩
    | false => exact .inr (.inl ⟨h, rfl, rfl⟩)

/-- The breakpoint compare as a proposition. -/
theorem breakpointHit_iff (s : State) (n : Nat) (w : Bool) (p : Word) : s.breakpointHit n w p = true ↔ s.Breaks n w p := by
  unfold State.breakpointHit State.Breaks
  rw [Bool.and_eq_true, decide_eq_true_eq]

/-- A resident access goes, with nothing changed. -/
theorem access_resident {s : State} {n : Nat} {eff p : Word} {w : Bool} (h : s.Resident n eff w p) :
    s.access n eff w = .go s p := by
  obtain ⟨ha, hp, hb⟩ := h
  unfold State.access
  rw [if_neg (by simp [ha]), hp]
  have : s.breakpointHit n w p = false := by
    cases hh : s.breakpointHit n w p with
    | false => rfl
    | true => exact absurd ((breakpointHit_iff s n w p).1 hh) hb
  simp [this]

/-- A load by a resident access: what follows gets the value on the bus. -/
theorem load_resident {s : State} {n : Nat} {eff p : Word} (h : s.Resident n eff false p)
    (k : State → BitVec (8 * n) → Out) : s.load n eff k = k s (s.mem.busRead s.be n p) := by
  unfold State.load; rw [access_resident h]

/-- A store by a resident access. -/
theorem store_resident {s : State} {n : Nat} {eff p : Word} (h : s.Resident n eff true p) (v : BitVec (8 * n))
    (k : State → Out) : s.store n eff v k = k { s with mem := s.mem.busWrite s.be n p v } := by
  unfold State.store; rw [access_resident h]

/-- The value on the bus is the value of the access. -/
theorem holds_busRead (s : State) (n : Nat) (p : Word) : s.Holds n p (s.mem.busRead s.be n p) :=
  fun _ hi => byteOf_busRead s.mem s.be n p hi

/-- Everything a load can answer next: an early exit, or what follows. -/
theorem load_eq_next {s t : State} {n : Nat} {eff : Word} {k : State → BitVec (8 * n) → Out}
    (h : s.load n eff k = .next t) :
    s.access n eff false = .early t ∨ ∃ u p, s.access n eff false = .go u p ∧ k u (u.mem.busRead u.be n p) = .next t := by
  unfold State.load at h
  cases ha : s.access n eff false with
  | go u p => rw [ha] at h; exact .inr ⟨u, p, rfl, h⟩
  | early u => rw [ha] at h; cases h; exact .inl rfl
  | refuse r => rw [ha] at h; cases h

/-- Everything a store can answer next. -/
theorem store_eq_next {s t : State} {n : Nat} {eff : Word} {v : BitVec (8 * n)} {k : State → Out}
    (h : s.store n eff v k = .next t) :
    s.access n eff true = .early t ∨
      ∃ u p, s.access n eff true = .go u p ∧ k { u with mem := u.mem.busWrite u.be n p v } = .next t := by
  unfold State.store at h
  cases ha : s.access n eff true with
  | go u p => rw [ha] at h; exact .inr ⟨u, p, rfl, h⟩
  | early u => rw [ha] at h; cases h; exact .inl rfl
  | refuse r => rw [ha] at h; cases h

/-- The memory a masked store leaves. -/
def maskedMem (s : State) (p : Word) (v : DWord) (mask : BitVec 8) : Memory :=
  if mask = 0xFF#8 then s.mem.busWrite s.be 8 p v else writeMasked s.mem s.be p v mask 8

/-- The bytes a masked store writes: those of the set mask bits, byte k standing at p + k. -/
theorem maskedMem_at {s : State} {p : Word} {v : DWord} {mask : BitVec 8} (hm : s.mem.wf = true) {k : Nat} (hk : k < 8)
    (hb : mask.getLsbD k = true) :
    (maskedMem s p v mask).byte (p + BitVec.ofNat 32 k).toNat = byteOf v (if s.be then 7 - k else k) := by
  unfold maskedMem
  split
  · cases hbe : s.be
    · exact Memory.busWrite_at false p v (by decide) hm hk
    · have h := Memory.busWrite_at true p v (by decide) hm (i := 7 - k) (n := 8) (by omega)
      unfold byteAddr at h
      simpa [show 8 - 1 - (7 - k) = k by omega] using h
  · exact (writeMasked_at s.mem s.be p v mask ((Memory.wf_iff _).1 hm).1 8 (by omega)).2 k hk hb

/-- The bytes a masked store leaves alone. -/
theorem maskedMem_other {s : State} {p : Word} {v : DWord} {mask : BitVec 8} {a : Nat}
    (ha : ∀ k, k < 8 → mask.getLsbD k = true → a ≠ (p + BitVec.ofNat 32 k).toNat) :
    (maskedMem s p v mask).byte a = s.mem.byte a := by
  unfold maskedMem
  split
  · rename_i h
    subst h
    refine Memory.busWrite_other _ _ _ _ _ ?_
    rintro ⟨k, hk, e⟩
    exact ha k hk (by interval_cases k <;> rfl) e
  · exact writeMasked_other s.mem s.be p v mask 8 (by omega) ha

/-- Everything a masked store can answer next. -/
theorem storeMasked_eq_next {s t : State} {eff : Word} {v : DWord} {mask : BitVec 8} {k : State → Out}
    (h : s.storeMasked eff v mask k = .next t) :
    s.access 8 eff true = .early t ∨
      ∃ u p, s.access 8 eff true = .go u p ∧ k { u with mem := maskedMem u p v mask } = .next t := by
  unfold State.storeMasked at h
  cases ha : s.access 8 eff true with
  | go u p => rw [ha] at h; exact .inr ⟨u, p, rfl, h⟩
  | early u => rw [ha] at h; cases h; exact .inl rfl
  | refuse r => rw [ha] at h; cases h

/-- An early exit raises the data-access fault and changes only memory (the accessed bits) and the TLB besides. -/
theorem access_early {s t : State} {n : Nat} {eff : Word} {w : Bool} (h : s.access n eff w = .early t) :
    t = { s with
      psr := setBit s.psr 11 true, trapPending := true, exitedEarly := true, mem := t.mem, tlb := t.tlb } := by
  rcases access_cases s n eff w with ⟨_, _, e⟩ | ⟨_, _, e⟩ | ⟨u, _, hp, e⟩ | ⟨u, p, _, hp, _, e⟩ | ⟨u, p, _, _, _, e⟩
  all_goals rw [e] at h; cases h
  · rfl
  · have := physical_none hp
    rw [this]; rfl
  · have := physical_some hp
    rw [this]; rfl

/-- An access that goes changes only memory and the TLB. -/
theorem access_go {s t : State} {n : Nat} {eff p : Word} {w : Bool} (h : s.access n eff w = .go t p) :
    s.physical eff true w = (t, some p) ∧ t = { s with mem := t.mem, tlb := t.tlb } := by
  rcases access_cases s n eff w with ⟨_, _, e⟩ | ⟨_, _, e⟩ | ⟨u, _, hp, e⟩ | ⟨u, q, _, hp, _, e⟩ | ⟨u, q, _, hp, _, e⟩
  all_goals rw [e] at h; cases h
  exact ⟨hp, physical_some hp⟩

/-! ## The fetch -/

/-- Everything a fetch of a pair can do: a hit, a fault, or a refill. -/
theorem fetchPair_cases {s t : State} {pc : Word} {r : Option DWord} (h : s.fetchPair pc = (t, r)) :
    (t = s ∧ ∃ q, r = some q) ∨
    (∃ u, s.physical (alignDown pc 8) false false = (u, none) ∧ t = { u with exitingIfetch := true } ∧ r = none) ∨
    (∃ u p, s.physical (alignDown pc 8) false false = (u, some p) ∧
      t = u.icacheFill (alignDown pc 8) (u.mem.busRead false 8 p) ∧ r = some (u.mem.busRead false 8 p)) := by
  unfold State.fetchPair at h
  simp only at h
  split at h
  · cases h; exact .inl ⟨rfl, _, rfl⟩
  · unfold State.refill at h
    split at h
    · rename_i u hp
      cases h; exact .inr (.inl ⟨u, hp, rfl, rfl⟩)
    · rename_i u p hp
      cases h; exact .inr (.inr ⟨u, p, hp, rfl, rfl⟩)

/-- A fetch that answers changes only memory (the accessed bits), the TLB and the instruction cache. -/
theorem fetchPair_some {s t : State} {pc : Word} {q : DWord} (h : s.fetchPair pc = (t, some q)) :
    t = { s with mem := t.mem, tlb := t.tlb, icache := t.icache } := by
  rcases fetchPair_cases h with ⟨rfl, _⟩ | ⟨_, _, _, h⟩ | ⟨u, p, hp, rfl, _⟩
  · rfl
  · cases h
  · have := physical_some hp
    rw [this]; rfl

/-- A fetch that faults raises the instruction-access fault and changes only memory besides. -/
theorem fetchPair_none {s t : State} {pc : Word} (h : s.fetchPair pc = (t, none)) :
    t = { s with psr := setBit s.psr 10 true, trapPending := true, exitingIfetch := true, mem := t.mem } := by
  rcases fetchPair_cases h with ⟨_, q, h⟩ | ⟨u, hp, rfl, _⟩ | ⟨u, p, hp, _, h⟩
  · cases h
  · have := physical_none hp
    rw [this]; rfl
  · cases h

end Sys2Proof.Machine
end

