-- ==== Sys2Proof/Laws/Control.lean ====
section
/-! SUPPORT. What the delay slot and the control transfers can do, said once. -/

namespace Sys2Proof.Machine

/-- In a delay slot an instruction that may stand there has its own meaning. -/
theorem execSlot_eq_exec {i : Instr} (s : State) (h1 : isControlTransfer i = false) (h2 : isTrapCall i = false) :
    execSlot i s = exec i s := by
  cases i <;> first | rfl | (cases h2; done) | cases h1

/-- In a delay slot a control transfer is refused. -/
theorem execSlot_controlTransfer {i : Instr} (s : State) (h : isControlTransfer i = true) :
    execSlot i s = .refused .controlTransferInDelaySlot := by
  cases i <;> first | rfl | cases h

/-- In a delay slot trap and intovr are refused. -/
theorem execSlot_trapCall {i : Instr} (s : State) (h : isTrapCall i = true) :
    execSlot i s = .refused .trapInDelaySlot := by
  cases i <;> first | rfl | cases h

/-- The end of a delayed branch: after its slot, with pc back at the branch. -/
def afterSlot (s : State) (k : State → Out) (u : State) : Out :=
  if u.trapPending then .next { u with pc := s.pc, trapInDelaySlot := true } else k (u.atPc s.pc)

/-- A delayed branch is its slot and then its end. -/
theorem delaySlot_eq (s : State) (k : State → Out) : delaySlot s k = andThen (runSlot s) (afterSlot s k) := rfl

/-- A delayed branch whose slot answers without a trap goes on. -/
theorem delaySlot_of_next {s u : State} {k : State → Out} (h : runSlot s = .next u) (ht : u.trapPending = false) :
    delaySlot s k = k (u.atPc s.pc) := by
  rw [delaySlot_eq, h, andThen_next, afterSlot, ht]; rfl

/-- A delayed branch whose slot traps ends there. -/
theorem delaySlot_of_trap {s u : State} {k : State → Out} (h : runSlot s = .next u) (ht : u.trapPending = true) :
    delaySlot s k = .next { u with pc := s.pc, trapInDelaySlot := true } := by
  rw [delaySlot_eq, h, andThen_next, afterSlot, ht]; rfl

/-- Everything a delayed branch can answer next: its slot trapped, or its end answered. -/
theorem delaySlot_eq_next {s t : State} {k : State → Out} (h : delaySlot s k = .next t) :
    ∃ u, runSlot s = .next u ∧
      ((u.trapPending = true ∧ t = { u with pc := s.pc, trapInDelaySlot := true }) ∨
        (u.trapPending = false ∧ k (u.atPc s.pc) = .next t)) := by
  rw [delaySlot_eq, andThen_eq_next] at h
  obtain ⟨u, hu, hk⟩ := h
  refine ⟨u, hu, ?_⟩
  unfold afterSlot at hk
  cases ht : u.trapPending <;> rw [ht] at hk
  · exact .inr ⟨rfl, hk⟩
  · cases hk; exact .inl ⟨rfl, rfl⟩

/-- Shifting left by two multiplies by four. -/
theorem shiftLeft_two (w : Word) : w <<< 2 = w * 4#32 := by
  rw [BitVec.shiftLeft_eq_mul_twoPow]; rfl

/-- The target of a long branch. -/
theorem longTarget_eq (pc : Word) (off : BitVec 26) : longTarget pc off = pc + 4#32 + off.signExtend 32 * 4#32 := by
  rw [longTarget, shiftLeft_two]

/-- The target of a short branch. -/
theorem shortTarget_eq (pc : Word) (off : BitVec 16) : shortTarget pc off = pc + 4#32 + off.signExtend 32 * 4#32 := by
  rw [shortTarget, shiftLeft_two]

end Sys2Proof.Machine
end

