-- ==== Sys2Proof/Laws/DataAccess.lean ====
section
/-! SUPPORT. The instructions that access data, as one access and what follows it, said once. -/

namespace Sys2Proof.Machine

/-- An access, and what follows it when it goes. -/
def runAccess (a : Access) (k : State → Word → Out) : Out :=
  match a with
  | .go s p => k s p
  | .early s => .next s
  | .refuse r => .refused r

/-- A load is an access. -/
theorem load_eq_run (s : State) (n : Nat) (eff : Word) (k : State → BitVec (8 * n) → Out) :
    s.load n eff k = runAccess (s.access n eff false) fun u p => k u (u.mem.busRead u.be n p) := by
  unfold State.load runAccess; cases s.access n eff false <;> rfl

/-- A store is an access. -/
theorem store_eq_run (s : State) (n : Nat) (eff : Word) (v : BitVec (8 * n)) (k : State → Out) :
    s.store n eff v k =
      runAccess (s.access n eff true) fun u p => k { u with mem := u.mem.busWrite u.be n p v } := by
  unfold State.store runAccess; cases s.access n eff true <;> rfl

/-- A masked store is an access. -/
theorem storeMasked_eq_run (s : State) (eff : Word) (v : DWord) (mask : BitVec 8) (k : State → Out) :
    s.storeMasked eff v mask k =
      runAccess (s.access 8 eff true) fun u p => k { u with mem := maskedMem u p v mask } := by
  unfold State.storeMasked runAccess maskedMem; cases s.access 8 eff true <;> rfl

/-- The state differs from `s` in what a translation changes alone. -/
def TranslatedFrom (s u : State) : Prop := ∃ m tl, u = { s with mem := m, tlb := tl }

/-- An instruction in a state is an access, with what follows it, in every state a translation can leave; what follows does
not set `exited_early`. -/
def IsAccess (f : State → Out) (s : State) (a : DataAccess) : Prop :=
  ∃ k : State → Word → Out, (∀ u, TranslatedFrom s u → f u = runAccess (u.access a.size a.eff a.write) k) ∧
    ∀ u p t, k u p = .next t → t.exitedEarly = u.exitedEarly

/-- What follows an access keeps `exited_early`. -/
def KeepsEarly (s : State) (o : Out) : Prop := ∀ t, o = .next t → t.exitedEarly = s.exitedEarly

/-- An auto-increment keeps `exited_early`. -/
@[simp] theorem autoInc_exitedEarly (s : State) (inc : Bool) (src2 : Reg) (eff : Word) :
    (autoInc s inc src2 eff).exitedEarly = s.exitedEarly := by cases inc <;> rfl

/-- The register write of a pipelined load keeps `exited_early`. -/
theorem keepsEarly_finishPfld (dest src2 : Reg) (inc : Bool) (eff : Word) (s : State) (v : Slot) :
    KeepsEarly s (finishPfld dest src2 inc eff s v) := by
  intro t h
  unfold finishPfld State.writeSlot at h
  cases hl : s.pipeL.last false <;> rw [hl] at h <;> simp only at h
  · simp only [andThen_next] at h; cases h; simp
  · split at h
    · cases h
    · simp only [andThen_next] at h; cases h; simp

/-- Every load is an access. -/
theorem isAccess_load {f : State → Out} {s : State} {n : Nat} {eff : Word} {k : State → BitVec (8 * n) → Out}
    (h : ∀ u, TranslatedFrom s u → f u = u.load n eff k) (hk : ∀ u v, KeepsEarly u (k u v)) :
    IsAccess f s ⟨n, eff, false⟩ :=
  ⟨_, fun u hu => (h u hu).trans (load_eq_run u n eff k), fun u _ t ht => hk u _ t ht⟩

/-- Every store is an access. -/
theorem isAccess_store {f : State → Out} {s : State} {n : Nat} {eff : Word} {v : BitVec (8 * n)} {k : State → Out}
    (h : ∀ u, TranslatedFrom s u → f u = u.store n eff v k) (hk : ∀ u, KeepsEarly u (k u)) :
    IsAccess f s ⟨n, eff, true⟩ :=
  ⟨_, fun u hu => (h u hu).trans (store_eq_run u n eff v k), fun _ _ t ht => by have h := hk _ t ht; exact h⟩

/-- Every masked store is an access. -/
theorem isAccess_storeMasked {f : State → Out} {s : State} {eff : Word} {v : DWord} {mask : BitVec 8} {k : State → Out}
    (h : ∀ u, TranslatedFrom s u → f u = u.storeMasked eff v mask k) (hk : ∀ u, KeepsEarly u (k u)) :
    IsAccess f s ⟨8, eff, true⟩ :=
  ⟨_, fun u hu => (h u hu).trans (storeMasked_eq_run u eff v mask k), fun _ _ t ht => by have h := hk _ t ht; exact h⟩

/-- A data access instruction whose data register fits is an access. -/
theorem exec_isAccess {i : Instr} {s : State} {a : DataAccess} (h : dataAccess s i = some a)
    (hf : dataRegisterFits i = true) : IsAccess (exec i) s a := by
  cases i <;> simp only [dataAccess, reduceCtorEq, Option.some.injEq] at h <;> subst h <;>
    simp only [dataRegisterFits, Bool.not_eq_true', Bool.and_eq_true] at hf
  case ldbReg o =>
    exact isAccess_load (k := fun s' v => .next (s'.writeReg o.dest (v.signExtend 32)))
      (by rintro u ⟨m, tl, rfl⟩; simp only [exec, execLdbReg, opLdb]; rfl)
      (by intro u v t ht; cases ht; simp)
  case ldbImm o =>
    exact isAccess_load (k := fun s' v => .next (s'.writeReg o.dest (v.signExtend 32)))
      (by rintro u ⟨m, tl, rfl⟩; simp only [exec, execLdbImm, opLdb]; rfl)
      (by intro u v t ht; cases ht; simp)
  case ldsReg o =>
    exact isAccess_load (k := fun s' v => .next (s'.writeReg o.dest (v.signExtend 32)))
      (by rintro u ⟨m, tl, rfl⟩; simp only [exec, execLdsReg, opLds]; rfl)
      (by intro u v t ht; cases ht; simp)
  case ldsImm o =>
    exact isAccess_load (k := fun s' v => .next (s'.writeReg o.dest (v.signExtend 32)))
      (by rintro u ⟨m, tl, rfl⟩; simp only [exec, execLdsImm, opLds]; rfl)
      (by intro u v t ht; cases ht; simp)
  case ldlReg o =>
    exact isAccess_load (k := fun s' v => .next (s'.writeReg o.dest v))
      (by rintro u ⟨m, tl, rfl⟩; simp only [exec, execLdlReg, opLdl]; rfl)
      (by intro u v t ht; cases ht; simp)
  case ldlImm o =>
    exact isAccess_load (k := fun s' v => .next (s'.writeReg o.dest v))
      (by rintro u ⟨m, tl, rfl⟩; simp only [exec, execLdlImm, opLdl]; rfl)
      (by intro u v t ht; cases ht; simp)
  case stb o =>
    exact isAccess_store (v := ((s.readReg o.src1).extractLsb' 0 8)) (k := .next)
      (by rintro u ⟨m, tl, rfl⟩; simp only [exec, execStb]; rfl)
      (by intro u t ht; cases ht; simp)
  case sts o =>
    exact isAccess_store (v := ((s.readReg o.src1).extractLsb' 0 16)) (k := .next)
      (by rintro u ⟨m, tl, rfl⟩; simp only [exec, execSts]; rfl)
      (by intro u t ht; cases ht; simp)
  case stl o =>
    exact isAccess_store (v := (s.readReg o.src1)) (k := .next)
      (by rintro u ⟨m, tl, rfl⟩; simp only [exec, execStl]; rfl)
      (by intro u t ht; cases ht; simp)
  case fldlReg o =>
    exact isAccess_load (k := fun s' v => .next (autoInc (s'.writeF o.dest v) o.inc o.src2 (regEff s o.src1 o.src2)))
      (by rintro u ⟨m, tl, rfl⟩; simp only [exec, execFldlReg, opFldl]; rfl)
      (by intro u v t ht; cases ht; simp)
  case fldlImm o =>
    exact isAccess_load (k := fun s' v => .next (autoInc (s'.writeF o.dest v) (o.imm.getLsbD 0) o.src2 (dispEff 4 s o.src2 o.imm)))
      (by rintro u ⟨m, tl, rfl⟩; simp only [exec, execFldlImm, opFldl]; rfl)
      (by intro u v t ht; cases ht; simp)
  case flddReg o =>
    exact isAccess_load (k := fun s' v => .next (autoInc (s'.writeFd o.dest v) o.inc o.src2 (regEff s o.src1 o.src2)))
      (by rintro u ⟨m, tl, rfl⟩; simp only [exec, execFlddReg, opFldd, oddPair, hf, if_false, Bool.false_eq_true]; rfl)
      (by intro u v t ht; cases ht; simp)
  case flddImm o =>
    exact isAccess_load (k := fun s' v => .next (autoInc (s'.writeFd o.dest v) (o.imm.getLsbD 0) o.src2 (dispEff 8 s o.src2 o.imm)))
      (by rintro u ⟨m, tl, rfl⟩; simp only [exec, execFlddImm, opFldd, oddPair, hf, if_false, Bool.false_eq_true]; rfl)
      (by intro u v t ht; cases ht; simp)
  case fldqReg o =>
    exact isAccess_load (k := fun s' v => .next (autoInc (s'.writeFq o.dest v) o.inc o.src2 (regEff s o.src1 o.src2)))
      (by rintro u ⟨m, tl, rfl⟩; simp only [exec, execFldqReg, opFldq, oddQuad, hf, Bool.or_self, if_false, Bool.false_eq_true]; rfl)
      (by intro u v t ht; cases ht; simp)
  case fldqImm o =>
    exact isAccess_load (k := fun s' v => .next (autoInc (s'.writeFq o.dest v) (o.imm.getLsbD 0) o.src2 (dispEff 16 s o.src2 o.imm)))
      (by rintro u ⟨m, tl, rfl⟩; simp only [exec, execFldqImm, opFldq, oddQuad, hf, Bool.or_self, if_false, Bool.false_eq_true]; rfl)
      (by intro u v t ht; cases ht; simp)
  case fstlReg o =>
    exact isAccess_store (v := s.readF o.dest) (k := fun s' => .next (autoInc s' o.inc o.src2 (regEff s o.src1 o.src2)))
      (by rintro u ⟨m, tl, rfl⟩; simp only [exec, execFstlReg, opFstl]; rfl)
      (by intro u t ht; cases ht; simp)
  case fstlImm o =>
    exact isAccess_store (v := s.readF o.dest) (k := fun s' => .next (autoInc s' (o.imm.getLsbD 0) o.src2 (dispEff 4 s o.src2 o.imm)))
      (by rintro u ⟨m, tl, rfl⟩; simp only [exec, execFstlImm, opFstl]; rfl)
      (by intro u t ht; cases ht; simp)
  case fstdReg o =>
    exact isAccess_store (v := s.readFd o.dest) (k := fun s' => .next (autoInc s' o.inc o.src2 (regEff s o.src1 o.src2)))
      (by rintro u ⟨m, tl, rfl⟩; simp only [exec, execFstdReg, opFstd, oddPair, hf, if_false, Bool.false_eq_true]; rfl)
      (by intro u t ht; cases ht; simp)
  case fstdImm o =>
    exact isAccess_store (v := s.readFd o.dest) (k := fun s' => .next (autoInc s' (o.imm.getLsbD 0) o.src2 (dispEff 8 s o.src2 o.imm)))
      (by rintro u ⟨m, tl, rfl⟩; simp only [exec, execFstdImm, opFstd, oddPair, hf, if_false, Bool.false_eq_true]; rfl)
      (by intro u t ht; cases ht; simp)
  case fstqReg o =>
    exact isAccess_store (v := s.readFq o.dest) (k := fun s' => .next (autoInc s' o.inc o.src2 (regEff s o.src1 o.src2)))
      (by rintro u ⟨m, tl, rfl⟩; simp only [exec, execFstqReg, opFstq, oddQuad, hf, Bool.or_self, if_false, Bool.false_eq_true]; rfl)
      (by intro u t ht; cases ht; simp)
  case fstqImm o =>
    exact isAccess_store (v := s.readFq o.dest) (k := fun s' => .next (autoInc s' (o.imm.getLsbD 0) o.src2 (dispEff 16 s o.src2 o.imm)))
      (by rintro u ⟨m, tl, rfl⟩; simp only [exec, execFstqImm, opFstq, oddQuad, hf, Bool.or_self, if_false, Bool.false_eq_true]; rfl)
      (by intro u t ht; cases ht; simp)
  case pfldlReg o =>
    exact isAccess_load (k := fun s' v => finishPfld o.dest o.src2 o.inc (regEff s o.src1 o.src2) s' (.sgl v))
      (by rintro u ⟨m, tl, rfl⟩; simp only [exec, execPfldlReg, opPfldl]; rfl)
      (fun u v t ht => keepsEarly_finishPfld _ _ _ _ _ _ t ht)
  case pfldlImm o =>
    exact isAccess_load (k := fun s' v => finishPfld o.dest o.src2 (o.imm.getLsbD 0) (dispEff 4 s o.src2 o.imm) s' (.sgl v))
      (by rintro u ⟨m, tl, rfl⟩; simp only [exec, execPfldlImm, opPfldl]; rfl)
      (fun u v t ht => keepsEarly_finishPfld _ _ _ _ _ _ t ht)
  case pflddReg o =>
    exact isAccess_load (k := fun s' v => finishPfld o.dest o.src2 o.inc (regEff s o.src1 o.src2) s' (.dbl v))
      (by rintro u ⟨m, tl, rfl⟩; simp only [exec, execPflddReg, opPfldd]; rfl)
      (fun u v t ht => keepsEarly_finishPfld _ _ _ _ _ _ t ht)
  case pflddImm o =>
    exact isAccess_load (k := fun s' v => finishPfld o.dest o.src2 (o.imm.getLsbD 0) (dispEff 8 s o.src2 o.imm) s' (.dbl v))
      (by rintro u ⟨m, tl, rfl⟩; simp only [exec, execPflddImm, opPfldd]; rfl)
      (fun u v t ht => keepsEarly_finishPfld _ _ _ _ _ _ t ht)
  case pstd o =>
    refine isAccess_storeMasked (v := s.readFd o.dest) (mask := pixelMask s.ps s.pm s.free)
      (k := fun s' => .next (autoInc ((drawnForPS s').setPM (pixelsLeft s.ps s.pm s.free)) (o.imm.getLsbD 0) o.src2
        (dispEff 8 s o.src2 o.imm))) ?_ ?_
    · rintro u ⟨m, tl, rfl⟩
      simp only [exec, execPstd, oddPair, hf]
      rfl
    · intro u t ht
      cases ht
      simp only [autoInc_exitedEarly, State.setPM_exitedEarly]
      unfold drawnForPS
      split <;> rfl

end Sys2Proof.Machine
end

