-- ==== Sys2Proof/Laws/Encoding.lean ====
section
/-! SUPPORT. The fields of an assembled word, for the formats of spec/30_encoding.md R111. -/

namespace Sys2Proof

/-- A field that lies in the low part of a concatenation. -/
theorem extractLsb'_append_low {n m : Nat} (x : BitVec n) (y : BitVec m) {k l : Nat} (h : k + l ≤ m) :
    (x ++ y).extractLsb' k l = y.extractLsb' k l := by
  apply BitVec.eq_of_getLsbD_eq
  intro i hi
  simp only [BitVec.getLsbD_extractLsb', hi, decide_true, Bool.true_and]
  rw [BitVec.getLsbD_append, if_pos (by omega)]

/-- A field that lies in the high part of a concatenation. -/
theorem extractLsb'_append_high {n m : Nat} (x : BitVec n) (y : BitVec m) {k l : Nat} (h : m ≤ k) :
    (x ++ y).extractLsb' k l = x.extractLsb' (k - m) l := by
  apply BitVec.eq_of_getLsbD_eq
  intro i hi
  simp only [BitVec.getLsbD_extractLsb', hi, decide_true, Bool.true_and]
  rw [BitVec.getLsbD_append, if_neg (by omega), show k + i - m = k - m + i by omega]

/-- All of a value. -/
theorem extractLsb'_all {n : Nat} (x : BitVec n) : x.extractLsb' 0 n = x := by simp

/-! ## The three-register formats -/

@[simp] theorem opOf_asm (op : BitVec 6) (a b c : Reg) (l : BitVec 11) : opOf (asm op a b c l) = op := by
  unfold opOf asm
  iterate 4 rw [extractLsb'_append_high _ _ (by decide)]
  exact extractLsb'_all op

@[simp] theorem src2Of_asm (op : BitVec 6) (a b c : Reg) (l : BitVec 11) : src2Of (asm op a b c l) = a := by
  unfold src2Of asm
  iterate 3 rw [extractLsb'_append_high _ _ (by decide)]
  rw [extractLsb'_append_low _ _ (by decide)]
  exact extractLsb'_all a

@[simp] theorem destOf_asm (op : BitVec 6) (a b c : Reg) (l : BitVec 11) : destOf (asm op a b c l) = b := by
  unfold destOf asm
  iterate 2 rw [extractLsb'_append_high _ _ (by decide)]
  rw [extractLsb'_append_low _ _ (by decide)]
  exact extractLsb'_all b

@[simp] theorem src1Of_asm (op : BitVec 6) (a b c : Reg) (l : BitVec 11) : src1Of (asm op a b c l) = c := by
  unfold src1Of asm
  rw [extractLsb'_append_high _ _ (by decide), extractLsb'_append_low _ _ (by decide)]
  exact extractLsb'_all c

@[simp] theorem low11Of_asm (op : BitVec 6) (a b c : Reg) (l : BitVec 11) : low11Of (asm op a b c l) = l := by
  unfold low11Of asm
  rw [extractLsb'_append_low _ _ (by decide)]
  exact extractLsb'_all l

/-- A field of the low eleven bits. -/
theorem extractLsb'_asm (op : BitVec 6) (a b c : Reg) (l : BitVec 11) {k n : Nat} (h : k + n ≤ 11) :
    (asm op a b c l).extractLsb' k n = l.extractLsb' k n := extractLsb'_append_low _ _ h

/-- A bit of the low eleven. -/
theorem getLsbD_asm (op : BitVec 6) (a b c : Reg) (l : BitVec 11) {k : Nat} (h : k < 11) :
    (asm op a b c l).getLsbD k = l.getLsbD k := by
  unfold asm
  rw [BitVec.getLsbD_append, if_pos h]

/-! ## The immediate format -/

@[simp] theorem opOf_immWord (op : BitVec 6) (o : ImmOps) : opOf (immWord op o) = op := by
  unfold opOf immWord
  iterate 3 rw [extractLsb'_append_high _ _ (by decide)]
  exact extractLsb'_all op

@[simp] theorem src2Of_immWord (op : BitVec 6) (o : ImmOps) : src2Of (immWord op o) = o.src2 := by
  unfold src2Of immWord
  iterate 2 rw [extractLsb'_append_high _ _ (by decide)]
  rw [extractLsb'_append_low _ _ (by decide)]
  exact extractLsb'_all o.src2

@[simp] theorem destOf_immWord (op : BitVec 6) (o : ImmOps) : destOf (immWord op o) = o.dest := by
  unfold destOf immWord
  rw [extractLsb'_append_high _ _ (by decide), extractLsb'_append_low _ _ (by decide)]
  exact extractLsb'_all o.dest

@[simp] theorem imm16Of_immWord (op : BitVec 6) (o : ImmOps) : imm16Of (immWord op o) = o.imm := by
  unfold imm16Of immWord
  rw [extractLsb'_append_low _ _ (by decide)]
  exact extractLsb'_all o.imm

@[simp] theorem immOps_immWord (op : BitVec 6) (o : ImmOps) : immOps (immWord op o) = o := by
  unfold immOps; simp

/-- A bit of the immediate. -/
theorem getLsbD_immWord (op : BitVec 6) (o : ImmOps) {k : Nat} (h : k < 16) :
    (immWord op o).getLsbD k = o.imm.getLsbD k := by
  unfold immWord
  rw [BitVec.getLsbD_append, if_pos h]

/-! ## The branch format -/

@[simp] theorem opOf_ctrl (op : BitVec 6) (off : BitVec 26) : opOf (op ++ off) = op := by
  unfold opOf
  rw [extractLsb'_append_high _ _ (by decide)]
  exact extractLsb'_all op

@[simp] theorem lbroffOf_ctrl (op : BitVec 6) (off : BitVec 26) : lbroffOf (op ++ off) = off := by
  unfold lbroffOf
  rw [extractLsb'_append_low _ _ (by decide)]
  exact extractLsb'_all off

/-! ## The split formats -/

/-- The two parts of a split offset, put together. -/
theorem split_join (off : BitVec 16) : off.extractLsb' 11 5 ++ off.extractLsb' 0 11 = off := by
  apply BitVec.eq_of_getLsbD_eq
  intro i hi
  rw [BitVec.getLsbD_append]
  by_cases h : i < 11
  · rw [if_pos h]; simp [h]
  · rw [if_neg h]
    simp only [BitVec.getLsbD_extractLsb', show i - 11 < 5 by omega, decide_true, Bool.true_and,
      show 11 + (i - 11) = i by omega]

@[simp] theorem splitOffOf_splitWord (op : BitVec 6) (a : Reg) (x : BitVec 5) (off : BitVec 16) :
    splitOffOf (splitWord op a x off) = off := by
  unfold splitOffOf splitWord
  rw [destOf_asm, low11Of_asm]
  exact split_join off

/-- Bit 0 of a split word is bit 0 of its offset. -/
theorem getLsbD_splitWord (op : BitVec 6) (a : Reg) (x : BitVec 5) (off : BitVec 16) :
    (splitWord op a x off).getLsbD 0 = off.getLsbD 0 := by
  unfold splitWord
  rw [getLsbD_asm _ _ _ _ _ (by decide)]
  simp

/-! ## The formats as their operand structures -/

@[simp] theorem opOf_regWord (op : BitVec 6) (o : RegOps) (l : BitVec 11) : opOf (regWord op o l) = op :=
  opOf_asm _ _ _ _ _

@[simp] theorem regOps_regWord (op : BitVec 6) (o : RegOps) (l : BitVec 11) : regOps (regWord op o l) = o := by
  unfold regOps regWord; simp

/-- Bit 0 of a REG word. -/
theorem getLsbD_regWord (op : BitVec 6) (o : RegOps) (l : BitVec 11) : (regWord op o l).getLsbD 0 = l.getLsbD 0 :=
  getLsbD_asm _ _ _ _ _ (by decide)

@[simp] theorem opOf_splitWord (op : BitVec 6) (a : Reg) (x : BitVec 5) (off : BitVec 16) :
    opOf (splitWord op a x off) = op := opOf_asm _ _ _ _ _

@[simp] theorem splitOps_splitWord (op : BitVec 6) (o : SplitOps) :
    splitOps (splitWord op o.src2 o.src1 o.off) = o := by
  unfold splitOps; rw [splitOffOf_splitWord]; unfold splitWord; simp

@[simp] theorem split5Ops_splitWord (op : BitVec 6) (o : Split5Ops) :
    split5Ops (splitWord op o.src2 o.imm5 o.off) = o := by
  unfold split5Ops; rw [splitOffOf_splitWord]; unfold splitWord; simp

@[simp] theorem opOf_fregWord (op : BitVec 6) (o : FRegOps) (size : BitVec 2) : opOf (fregWord op o size) = op :=
  opOf_asm _ _ _ _ _

/-- The low bits of a REG word of fld, fst and pfld. -/
theorem low_fregWord : ∀ (size : BitVec 2) (i : Bool), let v : BitVec 11 := 0#8 ++ size ++ BitVec.ofBool i
    v.getLsbD 0 = i ∧ v.getLsbD 1 = size.getLsbD 0 ∧ v.getLsbD 2 = size.getLsbD 1 := by decide

@[simp] theorem fregOps_fregWord (op : BitVec 6) (o : FRegOps) (size : BitVec 2) : fregOps (fregWord op o size) = o := by
  unfold fregOps fregWord
  rw [getLsbD_asm _ _ _ _ _ (by decide), (low_fregWord size o.inc).1]
  simp

/-- The size code of a REG word of fld, fst and pfld. -/
theorem size_fregWord (op : BitVec 6) (o : FRegOps) (size : BitVec 2) :
    (fregWord op o size).getLsbD 1 = size.getLsbD 0 ∧ (fregWord op o size).getLsbD 2 = size.getLsbD 1 := by
  unfold fregWord
  rw [getLsbD_asm _ _ _ _ _ (by decide), getLsbD_asm _ _ _ _ _ (by decide)]
  exact (low_fregWord size o.inc).2

/-- The cop field of a core escape word. -/
theorem copOf_asm (op : BitVec 6) (a b c : Reg) (l : BitVec 11) : copOf (asm op a b c l) = l.extractLsb' 0 3 :=
  extractLsb'_asm _ _ _ _ _ (by decide)

/-! ## The floating-point format -/

/-- The low bits of an FP word. -/
theorem low_fpWord : ∀ (p d s r : Bool) (hi : BitVec 3) (lo : BitVec 4),
    let v : BitVec 11 := BitVec.ofBool p ++ BitVec.ofBool d ++ BitVec.ofBool s ++ BitVec.ofBool r ++ hi ++ lo
    v.getLsbD 10 = p ∧ v.getLsbD 9 = d ∧ v.getLsbD 8 = s ∧ v.getLsbD 7 = r ∧ v.getLsbD 4 = hi.getLsbD 0 ∧
      v.extractLsb' 5 2 = hi.extractLsb' 1 2 ∧ v.extractLsb' 0 7 = hi ++ lo := by decide

/-- Every field of an FP word. -/
theorem fields_fpWord (hi : BitVec 3) (lo : BitVec 4) (p : Bool) (o : FpOps) :
    opOf (fpWord hi lo p o) = 0x12#6 ∧ fpOps (fpWord hi lo p o) = o ∧ pOf (fpWord hi lo p o) = p ∧
    rOf (fpWord hi lo p o) = o.r ∧ fopOf (fpWord hi lo p o) = hi ++ lo ∧ dpcOf (fpWord hi lo p o) = lo ∧
    (fpWord hi lo p o).extractLsb' 5 2 = hi.extractLsb' 1 2 ∧ (fpWord hi lo p o).getLsbD 4 = hi.getLsbD 0 := by
  obtain ⟨b10, b9, b8, b7, b4, b5, bf⟩ := low_fpWord p o.d o.s o.r hi lo
  unfold fpWord
  refine ⟨opOf_asm _ _ _ _ _, ?_, ?_, ?_, ?_, ?_, ?_, ?_⟩
  · unfold fpOps dOf sOf rOf
    rw [getLsbD_asm _ _ _ _ _ (by decide), getLsbD_asm _ _ _ _ _ (by decide), getLsbD_asm _ _ _ _ _ (by decide),
      b9, b8, b7]
    simp
  · exact (getLsbD_asm _ _ _ _ _ (by decide)).trans b10
  · exact (getLsbD_asm _ _ _ _ _ (by decide)).trans b7
  · exact (extractLsb'_asm _ _ _ _ _ (by decide)).trans bf
  · exact ((extractLsb'_asm _ _ _ _ _ (by decide)).trans (extractLsb'_append_low _ _ (by decide))).trans
      (extractLsb'_all lo)
  · exact (extractLsb'_asm _ _ _ _ _ (by decide)).trans b5
  · exact (getLsbD_asm _ _ _ _ _ (by decide)).trans b4

end Sys2Proof
end

