-- ==== Sys2Proof/Laws/Pipes.lean ====
section
/-! SUPPORT. What the ends of the floating-point and graphics instructions can do, said once. -/

namespace Sys2Proof.Machine

/-- Reading a slot's value back looks at the floating file alone. -/
theorem fslotSet_congr {s s' t t' : State} {d : Reg} {v : Slot} (hs : s'.fregs = s.fregs) (ht : t'.fregs = t.fregs)
    (h : FslotSet s t d v) : FslotSet s' t' d v := by
  cases v <;> intro i <;> simp only [readF_congr hs, readF_congr ht] <;> exact h i

/-- A provider result has the tag of the result precision. -/
theorem slotFits_fpArith {op : Config.FpOp} {rm : BitVec 2} {o : FpOps} {a b : Slot} (h : ResultFits o) :
    SlotFits o.dest (fpArith op rm o.r a b) := by
  unfold fpArith
  cases hr : o.r
  · exact trivial
  · exact h hr

/-- A converted value has the tag of the precision. -/
theorem slotFits_cvt {rm : BitVec 2} {o : FpOps} {v : Slot} (h : ResultFits o) : SlotFits o.dest (v.cvt rm o.r) := by
  unfold Slot.cvt
  cases hr : o.r
  · exact trivial
  · exact h hr

/-- Sources that fit are not bad. -/
theorem badSources_of_fit {o : FpOps} (h : SourcesFit o) : badSources o = false := by
  unfold badSources badFp oddPair
  cases hs : o.s
  · rfl
  · rw [(h hs).1, (h hs).2]; rfl

/-- Sources that are not bad fit. -/
theorem fit_of_badSources {o : FpOps} (h : badSources o = false) : SourcesFit o := by
  intro hs
  unfold badSources badFp oddPair at h
  rw [hs] at h
  simpa using h

/-- A source that fits is not bad. -/
theorem badFp_of_fit {dbl : Bool} {i : Reg} (h : dbl = true → i.getLsbD 0 = false) : badFp dbl i = false := by
  unfold badFp oddPair
  cases hd : dbl
  · rfl
  · rw [h hd]; rfl

/-- A scalar instruction whose result fits writes it, and shifts the adder pipe when told to. -/
theorem finishScalar_fits {s : State} {adv : Bool} {d : Reg} {v : Slot} (h : SlotFits d v) :
    ∃ t, finishScalar s adv d v = .next t ∧ FslotSet s t d v ∧
      t = { s with fregs := t.fregs, pipeA := if adv then ⟨v, s.pipeA.s0, s.pipeA.s1⟩ else s.pipeA } := by
  obtain ⟨u, hu, hset, he⟩ := writeSlot_fits (s := s) h
  unfold finishScalar
  rw [hu, andThen_next]
  cases adv
  · exact ⟨u, rfl, hset, he⟩
  · refine ⟨_, rfl, fslotSet_congr rfl rfl hset, ?_⟩
    simp only [if_true]
    rw [he]; rfl

/-- A pipelined instruction writes the last stage, when it fits, and shifts its pipe. -/
theorem finishPiped_fits {s : State} {pipe : FpPipe} {d : Reg} {v : Slot} (h : SlotFits d (s.pipeLast pipe)) :
    ∃ t, finishPiped s pipe d v = .next t ∧ FslotSet s t d (s.pipeLast pipe) ∧
      t = { s.pipePush pipe v with fregs := t.fregs } := by
  obtain ⟨u, hu, hset, he⟩ := writeSlot_fits (s := s) h
  unfold finishPiped
  rw [hu, andThen_next]
  refine ⟨_, rfl, fslotSet_congr rfl (by cases pipe <;> rfl) hset, ?_⟩
  rw [he]; cases pipe <;> rfl

/-- A K load stores fsrc1 as it was before the write-out or as it is after. -/
theorem kLoadValue_cases (o : FpOps) (s s' : State) :
    kLoadValue o s s' = s.readFp o.s o.src1 ∨ kLoadValue o s s' = s'.readFp o.s o.src1 := by
  unfold kLoadValue
  dsimp only
  split
  · exact .inl rfl
  · split
    · exact .inr rfl
    · exact .inl rfl

/-- Where the write-out leaves fsrc1 as it was, a K load stores it. -/
theorem kLoadValue_eq {o : FpOps} {s s' : State} (h : s'.readFp o.s o.src1 = s.readFp o.s o.src1) :
    kLoadValue o s s' = s.readFp o.s o.src1 := by
  unfold kLoadValue
  exact if_pos h.symm

/-- Everything the end of a pipelined instruction can answer next. -/
theorem finishPiped_eq_next {s t : State} {pipe : FpPipe} {d : Reg} {v : Slot} (h : finishPiped s pipe d v = .next t) :
    SlotFits d (s.pipeLast pipe) ∧ FslotSet s t d (s.pipeLast pipe) ∧ t = { s.pipePush pipe v with fregs := t.fregs } := by
  unfold finishPiped at h
  rw [andThen_eq_next] at h
  obtain ⟨u, hu, ht⟩ := h
  obtain ⟨hf, hset, he⟩ := writeSlot_eq_next hu
  cases ht
  refine ⟨hf, fslotSet_congr rfl (by cases pipe <;> rfl) hset, ?_⟩
  rw [he]; cases pipe <;> rfl

/-- Everything the end of a scalar instruction can answer next. -/
theorem finishScalar_eq_next {s t : State} {adv : Bool} {d : Reg} {v : Slot} (h : finishScalar s adv d v = .next t) :
    FslotSet s t d v ∧
      t = { s with fregs := t.fregs, pipeA := if adv then ⟨v, s.pipeA.s0, s.pipeA.s1⟩ else s.pipeA } := by
  unfold finishScalar at h
  rw [andThen_eq_next] at h
  obtain ⟨u, hu, ht⟩ := h
  obtain ⟨hf, hset, he⟩ := writeSlot_eq_next hu
  cases adv <;> cases ht
  · exact ⟨hset, he⟩
  · refine ⟨fslotSet_congr rfl rfl hset, ?_⟩
    rw [he]; rfl

/-- The scalar form of a graphics instruction whose result fits. -/
theorem finishGraphics_scalar {s : State} {d : Reg} {v : Slot} (h : SlotFits d v) :
    ∃ t, finishGraphics false s d v = .next t ∧ FslotSet s t d v ∧ t = { s with fregs := t.fregs } :=
  writeSlot_fits h

/-- The pipelined form of a graphics instruction whose stage fits. -/
theorem finishGraphics_piped {s : State} {d : Reg} {v : Slot} (h : SlotFits d s.pipeG) :
    ∃ t, finishGraphics true s d v = .next t ∧ FslotSet s t d s.pipeG ∧
      t = { s with fregs := t.fregs, pipeG := v } := by
  obtain ⟨u, hu, hset, he⟩ := writeSlot_fits (s := s) h
  unfold finishGraphics
  rw [if_pos rfl, hu, andThen_next]
  refine ⟨_, rfl, fslotSet_congr rfl rfl hset, ?_⟩
  rw [he]

/-- Everything the end of a graphics instruction can answer next changes the floating file and G alone. -/
theorem finishGraphics_eq_next {piped : Bool} {s t : State} {d : Reg} {v : Slot}
    (h : finishGraphics piped s d v = .next t) :
    t = { s with fregs := t.fregs, pipeG := if piped then v else s.pipeG } := by
  unfold finishGraphics at h
  cases piped
  · obtain ⟨_, _, he⟩ := writeSlot_eq_next h
    exact he
  · rw [if_pos rfl, andThen_eq_next] at h
    obtain ⟨u, hu, ht⟩ := h
    obtain ⟨_, _, he⟩ := writeSlot_eq_next hu
    cases ht
    rw [he]; rfl

/-! ## What cannot be written out -/

/-- A 64-bit value is refused by an odd register. -/
theorem writeSlot_unfit {s : State} {d : Reg} {v : Slot} (h : ¬ SlotFits d v) :
    s.writeSlot d v = .refused .unalignedFpOperand := by
  cases v with
  | sgl w => exact absurd trivial h
  | dbl w =>
    have hd : oddPair d = true := by unfold oddPair; simpa [SlotFits] using h
    simp only [State.writeSlot, hd, if_true]

/-- A pipelined instruction is refused when the last stage does not fit fdest. -/
theorem finishPiped_unfit {s : State} {p : FpPipe} {d : Reg} {v : Slot} (h : ¬ SlotFits d (s.pipeLast p)) :
    finishPiped s p d v = .refused .unalignedFpOperand := by
  unfold finishPiped; rw [writeSlot_unfit h]; rfl

/-- A scalar instruction is refused when its result does not fit fdest. -/
theorem finishScalar_unfit {s : State} {adv : Bool} {d : Reg} {v : Slot} (h : ¬ SlotFits d v) :
    finishScalar s adv d v = .refused .unalignedFpOperand := by
  unfold finishScalar; rw [writeSlot_unfit h]; rfl

/-- A graphics instruction is refused when what it writes out does not fit fdest. -/
theorem finishGraphics_unfit {piped : Bool} {s : State} {d : Reg} {v : Slot}
    (h : ¬ SlotFits d (if piped then s.pipeG else v)) : finishGraphics piped s d v = .refused .unalignedFpOperand := by
  unfold finishGraphics
  cases piped
  · exact writeSlot_unfit h
  · rw [if_pos rfl] at h ⊢; rw [writeSlot_unfit h]; rfl

/-! ## The integer of fix and ftrunc -/

/-- Rounding takes a magnitude no further than an integer that bounds it. -/
theorem roundShift_le {rm : BitVec 2} {neg : Bool} {m k b : Nat} (h : m ≤ b * 2 ^ k) : roundShift rm neg m k ≤ b := by
  have hk : 0 < 2 ^ k := by positivity
  have hd : m / 2 ^ k ≤ b := Nat.div_le_of_le_mul (by rwa [Nat.mul_comm])
  unfold roundShift
  simp only
  split
  · rename_i hu
    have hr : m % 2 ^ k ≠ 0 := by rintro h0; simp [roundsUp, h0] at hu
    have hm := Nat.div_add_mod m (2 ^ k)
    by_contra hc
    have hb : m / 2 ^ k = b := by omega
    rw [hb, Nat.mul_comm] at hm
    omega
  · exact hd

/-- A source in range rounds to an integer that 32 bits hold, under every rounding mode: fix makes no second check
(41 R184). -/
theorem roundInt_of_inIntRange {rm : BitVec 2} {neg : Bool} {m : Nat} {e : Int} (h : inIntRange neg m e = true) :
    -(2 ^ 31 : Int) ≤ roundInt rm neg m e ∧ roundInt rm neg m e < 2 ^ 31 := by
  have hv : (if 0 ≤ e then m * 2 ^ e.toNat else roundShift rm neg m (-e).toNat) ≤ if neg then 2 ^ 31 else 2 ^ 31 - 1 := by
    unfold inIntRange at h
    by_cases he : 0 ≤ e
    · rw [if_pos he] at h ⊢; exact of_decide_eq_true h
    · rw [if_neg he] at h ⊢; exact roundShift_le (of_decide_eq_true h)
  unfold roundInt
  cases neg <;> simp only [if_true, if_false, Bool.false_eq_true] at hv ⊢ <;> omega

end Sys2Proof.Machine
end

