-- ==== Sys2Proof/Laws/Kept.lean ====
section
/-! SUPPORT. What an instruction that is no control transfer and writes no control register keeps, operation by
operation. -/

namespace Sys2Proof.Machine

/-- The program counter and the control registers stay, but for OF, SE and the trap bits that are raised; the host's messages
wait as before; memory and the TLB stay in order. -/
structure Kept (s t : State) : Prop where
  pc : t.pc = s.pc
  pcUpdated : t.pcUpdated = s.pcUpdated
  fir : t.fir = s.fir
  firLatched : t.firLatched = s.firLatched
  dirbase : t.dirbase = s.dirbase
  db : t.db = s.db
  icache : t.icache = s.icache
  par : t.par = s.par
  mailbox : t.mailbox = s.mailbox
  drainDelay : t.drainDelay = s.drainDelay
  epsr : EpsrKept s t [24]
  fsr : FsrKept s t [8]
  psr : ∀ k, k < 2 ∨ (4 ≤ k ∧ k < 16) →
    t.psr.getLsbD k = s.psr.getLsbD k ∨ (8 ≤ k ∧ k < 13 ∧ t.psr.getLsbD k = true)
  mem : s.mem.wf = true → t.mem.wf = true
  tlb : Table.sorted s.tlb = true → Table.sorted t.tlb = true

/-- Nothing changed. -/
theorem Kept.refl (s : State) : Kept s s where
  pc := rfl
  pcUpdated := rfl
  fir := rfl
  firLatched := rfl
  dirbase := rfl
  db := rfl
  icache := rfl
  par := rfl
  mailbox := rfl
  drainDelay := rfl
  epsr := fun _ _ => rfl
  fsr := fun _ _ => rfl
  psr := fun _ _ => .inl rfl
  mem := id
  tlb := id

/-- One change after another. -/
theorem Kept.trans {s t u : State} (h : Kept s t) (g : Kept t u) : Kept s u where
  pc := g.pc.trans h.pc
  pcUpdated := g.pcUpdated.trans h.pcUpdated
  fir := g.fir.trans h.fir
  firLatched := g.firLatched.trans h.firLatched
  dirbase := g.dirbase.trans h.dirbase
  db := g.db.trans h.db
  icache := g.icache.trans h.icache
  par := g.par.trans h.par
  mailbox := g.mailbox.trans h.mailbox
  drainDelay := g.drainDelay.trans h.drainDelay
  epsr := fun k hk => (g.epsr k hk).trans (h.epsr k hk)
  fsr := fun k hk => (g.fsr k hk).trans (h.fsr k hk)
  psr := fun k hk => by
    rcases g.psr k hk with e | e
    · rw [e]; exact h.psr k hk
    · exact .inr e
  mem := fun hm => g.mem (h.mem hm)
  tlb := fun ht => g.tlb (h.tlb ht)

/-- A next state, if there is one, is kept. -/
def OutKept (s : State) (o : Out) : Prop := ∀ t, o = .next t → Kept s t

/-- A next state. -/
theorem outKept_next {s t : State} (h : Kept s t) : OutKept s (.next t) := fun u hu => by cases hu; exact h

/-- A refusal. -/
theorem outKept_refused (s : State) (r : Refusal) : OutKept s (.refused r) := fun u hu => by cases hu

/-- One operation after another. -/
theorem outKept_andThen {s : State} {o : Out} {f : State → Out} (h : OutKept s o) (g : ∀ u, OutKept u (f u)) :
    OutKept s (andThen o f) := by
  intro t ht
  obtain ⟨u, hu, ht⟩ := andThen_eq_next.1 ht
  exact (h u hu).trans (g u t ht)

/-- A change of the PSR that leaves bits 0, 1 and 4 to 15 alone. -/
theorem kept_psr (s : State) (p : Word) (h : ∀ k, k < 2 ∨ (4 ≤ k ∧ k < 16) → p.getLsbD k = s.psr.getLsbD k) :
    Kept s { s with psr := p } :=
  { Kept.refl s with psr := fun k hk => .inl (h k hk) }

/-- A write of an integer register. -/
theorem kept_writeReg (s : State) (i : Reg) (v : Word) : Kept s (s.writeReg i v) := { Kept.refl s with }

/-- A write of a floating register. -/
theorem kept_writeF (s : State) (i : Reg) (v : Word) : Kept s (s.writeF i v) := { Kept.refl s with }

/-- A write of a floating pair. -/
theorem kept_writeFd (s : State) (i : Reg) (v : DWord) : Kept s (s.writeFd i v) := { Kept.refl s with }

/-- A write of four floating registers. -/
theorem kept_writeFq (s : State) (i : Reg) (v : BitVec 128) : Kept s (s.writeFq i v) := { Kept.refl s with }

/-- A write of CC. -/
theorem kept_setCC (s : State) (b : Bool) : Kept s (s.setCC b) :=
  kept_psr s _ fun k hk => by rw [getLsbD_setBit _ _ _ _ (by omega), if_neg (by omega)]

/-- A write of SC. -/
theorem kept_setSC (s : State) (v : BitVec 5) : Kept s (s.setSC v) :=
  kept_psr s _ fun k hk => by rw [getLsbD_setField _ 17 5 _ _ (by omega), if_neg (by omega)]

/-- A write of PM. -/
theorem kept_setPM (s : State) (v : BitVec 8) : Kept s (s.setPM v) :=
  kept_psr s _ fun k hk => by rw [getLsbD_setField _ 24 8 _ _ (by omega), if_neg (by omega)]

/-- A write of OF. -/
theorem kept_setOF (s : State) (b : Bool) : Kept s (s.setOF b) :=
  { Kept.refl s with
    epsr := fun k hk => by
      show (setBit s.epsr 24 b).getLsbD k = _
      rw [getLsbD_setBit _ _ _ _ (by omega), if_neg (by simpa using hk)] }

/-- A write of SE. -/
theorem kept_setSE (s : State) (b : Bool) : Kept s (s.setSE b) :=
  { Kept.refl s with
    fsr := fun k hk => by
      show (setBit s.fsr 8 b).getLsbD k = _
      rw [getLsbD_setBit _ _ _ _ (by omega), if_neg (by simpa using hk)] }

/-- Raising a trap. -/
theorem kept_raise (s : State) (kind : TrapKind) : Kept s (s.raise kind) :=
  { Kept.refl s with
    psr := fun k _ => by
      show (setBit s.psr kind.bit true).getLsbD k = _ ∨ _ ∧ _ ∧ (setBit s.psr kind.bit true).getLsbD k = _
      rw [getLsbD_setBit _ _ _ _ (by cases kind <;> decide)]
      by_cases h : k = kind.bit
      · rw [if_pos h]
        exact .inr (by subst h; cases kind <;> decide)
      · rw [if_neg h]; exact .inl rfl }

/-- Drawing a free value. -/
theorem kept_drawn (s : State) : Kept s s.drawn := { Kept.refl s with }

/-- An auto-increment. -/
theorem kept_autoInc (s : State) (inc : Bool) (src2 : Reg) (eff : Word) : Kept s (autoInc s inc src2 eff) := by
  unfold autoInc
  split
  · exact kept_writeReg s _ _
  · exact Kept.refl s

/-- Shifting a pipe. -/
theorem kept_pipePush (s : State) (pipe : FpPipe) (v : Slot) : Kept s (s.pipePush pipe v) := by
  cases pipe <;> exact { Kept.refl s with }

/-- Writing a slot to its register. -/
theorem outKept_writeSlot (s : State) (d : Reg) (v : Slot) : OutKept s (s.writeSlot d v) := by
  intro t h
  obtain ⟨_, _, he⟩ := writeSlot_eq_next h
  rw [he]
  exact { Kept.refl s with }

/-- The end of a pipelined instruction. -/
theorem outKept_finishPiped (s : State) (pipe : FpPipe) (d : Reg) (v : Slot) : OutKept s (finishPiped s pipe d v) :=
  outKept_andThen (outKept_writeSlot s d _) fun u => outKept_next (kept_pipePush u pipe v)

/-- The end of a scalar instruction. -/
theorem outKept_finishScalar (s : State) (adv : Bool) (d : Reg) (v : Slot) : OutKept s (finishScalar s adv d v) :=
  outKept_andThen (outKept_writeSlot s d _) fun u => outKept_next (by
    split
    · exact kept_pipePush u .adder v
    · exact Kept.refl u)

/-- The end of a graphics instruction. -/
theorem outKept_finishGraphics (piped : Bool) (s : State) (d : Reg) (v : Slot) :
    OutKept s (finishGraphics piped s d v) := by
  unfold finishGraphics
  split
  · exact outKept_andThen (outKept_writeSlot s d _) fun u => outKept_next { Kept.refl u with }
  · exact outKept_writeSlot s d _

/-- A translation for data. -/
theorem kept_physical {s t : State} {va : Word} {w : Bool} {r : Option Word} (h : s.physical va true w = (t, r)) :
    Kept s t := by
  cases r with
  | some p =>
    have e := physical_some h
    have hm := physical_wf h
    have ht := physical_tlb_sorted h
    have k : Kept s { s with mem := t.mem, tlb := t.tlb } := { Kept.refl s with mem := hm, tlb := ht }
    rw [e]; exact k
  | none =>
    have e := physical_none h
    have hm := physical_wf h
    have k : Kept s { s with mem := t.mem } := { Kept.refl s with mem := hm }
    rw [e]; exact k.trans (kept_raise _ _)

/-- Setting `exited_early`. -/
theorem kept_exitedEarly (s : State) : Kept s { s with exitedEarly := true } := { Kept.refl s with }

/-- A data access, and what follows it. -/
theorem outKept_runAccess {s : State} {n : Nat} {eff : Word} {w : Bool} {k : State → Word → Out}
    (hk : ∀ u p, OutKept u (k u p)) : OutKept s (runAccess (s.access n eff w) k) := by
  rcases access_cases s n eff w with ⟨_, _, e⟩ | ⟨_, _, e⟩ | ⟨u, _, hp, e⟩ | ⟨u, p, _, hp, _, e⟩ | ⟨u, p, _, hp, _, e⟩ <;>
    rw [e]
  · exact outKept_next ((kept_raise s _).trans (kept_exitedEarly _))
  · exact outKept_refused s _
  · exact outKept_next ((kept_physical hp).trans (kept_exitedEarly _))
  · exact outKept_next ((kept_physical hp).trans ((kept_raise u _).trans (kept_exitedEarly _)))
  · exact fun t ht => (kept_physical hp).trans (hk u p t ht)

/-- A load, and what follows it. -/
theorem outKept_load {s : State} {n : Nat} {eff : Word} {k : State → BitVec (8 * n) → Out}
    (hk : ∀ u v, OutKept u (k u v)) : OutKept s (s.load n eff k) := by
  rw [load_eq_run]; exact outKept_runAccess fun u p => hk u _

/-- Memory written, kept in canonical form. -/
theorem kept_mem (s : State) (m : Memory) (h : s.mem.wf = true → m.wf = true) : Kept s { s with mem := m } :=
  { Kept.refl s with mem := h }

/-- A store, and what follows it. -/
theorem outKept_store {s : State} {n : Nat} {eff : Word} {v : BitVec (8 * n)} {k : State → Out}
    (hk : ∀ u, OutKept u (k u)) : OutKept s (s.store n eff v k) := by
  rw [store_eq_run]
  exact outKept_runAccess fun u p t ht =>
    (kept_mem u _ fun h => Memory.busWrite_wf u.be n p v h).trans (hk _ t ht)

/-- The memory a masked store leaves is in canonical form. -/
theorem maskedMem_wf {s : State} (p : Word) (v : DWord) (mask : BitVec 8) (h : s.mem.wf = true) :
    (maskedMem s p v mask).wf = true := by
  unfold maskedMem
  split
  · exact Memory.busWrite_wf s.be 8 p v h
  · exact writeMasked_wf s.be p v mask h 8

/-- A masked store, and what follows it. -/
theorem outKept_storeMasked {s : State} {eff : Word} {v : DWord} {mask : BitVec 8} {k : State → Out}
    (hk : ∀ u, OutKept u (k u)) : OutKept s (s.storeMasked eff v mask k) := by
  rw [storeMasked_eq_run]
  exact outKept_runAccess fun u p t ht => (kept_mem u _ (maskedMem_wf p v mask)).trans (hk _ t ht)

end Sys2Proof.Machine
end

