-- ==== Sys2Proof/Laws/Step.lean ====
section
/-! SUPPORT. What a step can do, said once. -/

namespace Sys2Proof.Machine

/-- A running core with no message waiting takes a core step. -/
theorem step_running {s : State} (hk : s.killed = false) (hh : s.halted = false) (hm : s.mailbox = Mailbox.empty) :
    step s = coreStep s := by
  unfold step hostStep State.hostMessages
  rw [hk, hm]
  simp [hk, hh]

/-- Posting the same messages twice is posting them once. -/
theorem Mailbox.union_self (a b : Mailbox) : (a.union b).union b = a.union b := by
  simp [Mailbox.union]

/-- Messages posted into an empty mailbox are the messages in it. -/
theorem Mailbox.empty_union (m : Mailbox) : Mailbox.empty.union m = m := by
  simp [Mailbox.union, Mailbox.empty]

/-- What the wait for the drain is before a step: no message, or the drain, or one step less to wait. -/
theorem hostMessages_cases (s : State) :
    (s.mailbox = Mailbox.empty ∧ s.hostMessages = s) ∨
    (s.mailbox ≠ Mailbox.empty ∧ s.drainDelay = 0 ∧ s.hostMessages = s.drain.drawn) ∨
    (∃ n, s.mailbox ≠ Mailbox.empty ∧ s.drainDelay = n + 1 ∧ s.hostMessages = { s with drainDelay := n }) := by
  unfold State.hostMessages
  by_cases h : s.mailbox = Mailbox.empty
  · exact .inl ⟨h, if_pos h⟩
  · rw [if_neg h]
    cases hd : s.drainDelay with
    | zero => exact .inr (.inl ⟨h, rfl, rfl⟩)
    | succ n => exact .inr (.inr ⟨n, h, rfl, rfl⟩)

/-- A fetch that hits changes nothing. -/
theorem fetchPair_hit {s : State} {pc : Word} {pair : DWord} (h : s.icacheHit (alignDown pc 8) = some pair) :
    s.fetchPair pc = (s, some pair) := by
  unfold State.fetchPair
  simp only [h]

/-- The pair of a core step, once fetched, is run from the half pc selects. -/
theorem runPair_of_fetch {s u : State} {pair : DWord} (h : s.fetchPair s.pc = (u, some pair)) :
    runPair s = if s.pc.getLsbD 2 then highHalf pair u else lowHalf pair u := by
  unfold runPair
  simp only [h]

/-- A core step whose fetch faults takes the trap at pc. -/
theorem runPair_of_fault {s u : State} (h : s.fetchPair s.pc = (u, none)) : runPair s = .next (u.takeTrap s.pc) := by
  unfold runPair
  simp only [h]

/-- Everything the step of the machine can answer next. -/
theorem step_eq_next {s t : State} (h : step s = .next t) :
    (t = s.hostMessages ∧ (t.killed = true ∨ t.halted = true)) ∨ coreStep s.hostMessages = .next t := by
  unfold step hostStep at h
  split at h
  · cases h
  · simp only at h
    split at h
    · rename_i hh
      cases h
      exact .inl ⟨rfl, by simpa using hh⟩
    · exact .inr h

end Sys2Proof.Machine
end

