-- ==== Sys2Proof/Tests/Slice0.lean ====
section
/-! SUPPORT. Tests of the model, each on fixed values: the well-formedness checks, the decoding of words written out from the
spec's encodings, one step or two for each instruction with the start and end states of spec/95_test_vectors.md (the row's name
stands in the docstring; where there is no row, the values are worked out by hand from the rule named), and for each
statement with hypotheses a state and operands that meet them. -/

set_option Elab.async false

namespace Sys2Proof.Tests

open Sys2Proof Sys2Proof.Machine Sys2Proof.Claims

/-! ## Helpers -/

/-- The state after reset. -/
def z : State := State.reset

/-- The state after the instruction of a word. -/
def run (w : Word) (s : State) : State :=
  match execWord w s with
  | .next t => t
  | _ => { s with killed := true }

/-- The state after one step. -/
def stepped (s : State) : State :=
  match step s with
  | .next t => t
  | _ => { s with killed := true }

/-- Integer registers set. -/
def regs (s : State) (l : List (Reg × Word)) : State := l.foldl (fun s p => s.writeReg p.1 p.2) s

/-- Floating registers set. -/
def fregs (s : State) (l : List (Reg × Word)) : State := l.foldl (fun s p => s.writeF p.1 p.2) s

/-- Floating register pairs set. -/
def fpairs (s : State) (l : List (Reg × DWord)) : State := l.foldl (fun s p => s.writeFd p.1 p.2) s

/-- Words of memory set, little-endian. -/
def words (s : State) (l : List (Word × Word)) : State :=
  { s with mem := l.foldl (fun m p => m.busWrite false 4 p.1 p.2) s.mem }

/-- A word of memory, read little-endian. -/
def wordAt (s : State) (a : Word) : Word := s.mem.busRead false 4 a

/-- The PSR set. -/
def withPsr (v : Word) (s : State) : State := { s with psr := v }

/-- Big-endian data. -/
def bigEndian (s : State) : State := { s with epsr := s.epsr ||| 0x800000#32 }

/-- The memory of 95 LS1 to LS8, with r4 = 0x1000 and r5 = 0x55555555. -/
def m1000 : State :=
  words (regs z [(4, 0x1000), (5, 0x55555555)])
    [(0x1000, 0x44332211), (0x1004, 0x88776655), (0x1008, 0xAAAAAAAA), (0x100C, 0xBBBBBBBB)]

/-- The two words of a branch and its slot at an address, r5 = 0, and pc there. -/
def branchAt (a w slot : Word) : State :=
  { words (regs z [(5, 0)]) [(a, w), (a + 4, slot)] with pc := a }

/-- `addu 1,r5,r5`. -/
def countSlot : Word := 0x84A50001#32

/-- `ld.l 0(r6),r7`, which traps when r6 is 0x1002. -/
def trapSlot : Word := 0x14C70001#32

/-- The two-level page tables of 95 T1: directory at 0x10000, table at 0x20000, page 0x403 at frame 0x55, with the PSR, the
directory entry and the table entry given. -/
def paged (psr pde pte : Word) : State :=
  withPsr psr { words (regs z [(4, 0x403000), (5, 0x12345678)]) [(0x10004, pde), (0x2000C, pte), (0x55004, 0xCAFEF00D)] with
    dirbase := 0x00010001#32 }

/-- A pipe of three slots of single precision. -/
def singles (a b c : Word) : Pipe := ⟨.sgl a, .sgl b, .sgl c⟩

/-! ## Well-formedness: each check refuses an ill-formed term -/

theorem test_illFormed_ldsImm : (Instr.ldsImm ⟨4#5, 5#5, 3#16⟩).wellFormed = false := by decide
theorem test_illFormed_ldlImm : (Instr.ldlImm ⟨4#5, 5#5, 2#16⟩).wellFormed = false := by decide
theorem test_illFormed_sts : (Instr.sts ⟨4#5, 5#5, 3#16⟩).wellFormed = false := by decide
theorem test_illFormed_stl : (Instr.stl ⟨4#5, 5#5, 2#16⟩).wellFormed = false := by decide
theorem test_illFormed_flddImm : (Instr.flddImm ⟨4#5, 6#5, 4#16⟩).wellFormed = false := by decide
theorem test_illFormed_flddImm_single : (Instr.flddImm ⟨4#5, 6#5, 2#16⟩).wellFormed = false := by decide
theorem test_illFormed_fldlImm : (Instr.fldlImm ⟨4#5, 6#5, 4#16⟩).wellFormed = false := by decide
theorem test_illFormed_fldqImm : (Instr.fldqImm ⟨4#5, 8#5, 6#16⟩).wellFormed = false := by decide
theorem test_illFormed_fstdImm : (Instr.fstdImm ⟨4#5, 6#5, 4#16⟩).wellFormed = false := by decide
theorem test_illFormed_fstlImm : (Instr.fstlImm ⟨4#5, 6#5, 0#16⟩).wellFormed = false := by decide
theorem test_illFormed_fstqImm : (Instr.fstqImm ⟨4#5, 8#5, 0#16⟩).wellFormed = false := by decide
theorem test_illFormed_pflddImm : (Instr.pflddImm ⟨4#5, 6#5, 4#16⟩).wellFormed = false := by decide
theorem test_illFormed_pfldlImm : (Instr.pfldlImm ⟨4#5, 6#5, 0#16⟩).wellFormed = false := by decide
theorem test_illFormed_pfgt : (Instr.pfgt ⟨2#5, 3#5, 0#5, false, false, true⟩).wellFormed = false := by decide
theorem test_illFormed_pfle : (Instr.pfle ⟨2#5, 3#5, 0#5, false, false, false⟩).wellFormed = false := by decide

/-! ## Decoding -/

/-- Loads and stores of the integer file. The words are put together from the fields of 30 R113 and the opcodes of R116 to R118. -/
theorem test_decode_integer_memory :
  decode 0x028BD000#32 = .ok (.ldbReg ⟨0x14#5, 0xB#5, 0x1A#5⟩) ∧
  decode 0x06AE9235#32 = .ok (.ldbImm ⟨0x15#5, 0xE#5, 0x9235#16⟩) ∧
  decode 0x08114000#32 = .ok (.ixfr ⟨0x11#5, 0x8#5⟩) ∧
  decode 0x0EF27A35#32 = .ok (.stb ⟨0x17#5, 0xF#5, 0x9235#16⟩) ∧
  decode 0x1317B000#32 = .ok (.ldsReg ⟨0x18#5, 0x17#5, 0x16#5⟩) ∧
  decode 0x133AE801#32 = .ok (.ldlReg ⟨0x19#5, 0x1A#5, 0x1D#5⟩) ∧
  decode 0x175D1FFE#32 = .ok (.ldsImm ⟨0x1A#5, 0x1D#5, 0x1FFE#16⟩) ∧
  decode 0x17601FFD#32 = .ok (.ldlImm ⟨0x1B#5, 0x0#5, 0x1FFD#16⟩) ∧
  decode 0x1F8597FE#32 = .ok (.sts ⟨0x1C#5, 0x12#5, 0x2FFE#16⟩) ∧
  decode 0x1FA5CFFD#32 = .ok (.stl ⟨0x1D#5, 0x19#5, 0x2FFD#16⟩) := by decide

/-- Loads and stores of the floating file. The words are put together from the fields of 30 R113 and the opcodes of R116 to R118. -/
theorem test_decode_float_memory :
  decode 0x23C90001#32 = .ok (.flddReg ⟨0x1E#5, 0x9#5, 0x0#5, true⟩) ∧
  decode 0x23EC3803#32 = .ok (.fldlReg ⟨0x1F#5, 0xC#5, 0x7#5, true⟩) ∧
  decode 0x200F7005#32 = .ok (.fldqReg ⟨0x0#5, 0xF#5, 0xE#5, true⟩) ∧
  decode 0x24328009#32 = .ok (.flddImm ⟨0x1#5, 0x12#5, 0x8009#16⟩) ∧
  decode 0x24558003#32 = .ok (.fldlImm ⟨0x2#5, 0x15#5, 0x8003#16⟩) ∧
  decode 0x24788015#32 = .ok (.fldqImm ⟨0x3#5, 0x18#5, 0x8015#16⟩) ∧
  decode 0x289B5001#32 = .ok (.fstdReg ⟨0x4#5, 0x1B#5, 0xA#5, true⟩) ∧
  decode 0x28BE8803#32 = .ok (.fstlReg ⟨0x5#5, 0x1E#5, 0x11#5, true⟩) ∧
  decode 0x28C1C005#32 = .ok (.fstqReg ⟨0x6#5, 0x1#5, 0x18#5, true⟩) ∧
  decode 0x2CE48009#32 = .ok (.fstdImm ⟨0x7#5, 0x4#5, 0x8009#16⟩) ∧
  decode 0x2D078002#32 = .ok (.fstlImm ⟨0x8#5, 0x7#5, 0x8002#16⟩) ∧
  decode 0x2D2A8014#32 = .ok (.fstqImm ⟨0x9#5, 0xA#5, 0x8014#16⟩) ∧
  decode 0x35609235#32 = .ok (.flush ⟨0xB#5, 0x9235#16⟩) ∧
  decode 0x3DB69235#32 = .ok (.pstd ⟨0xD#5, 0x16#5, 0x9235#16⟩) ∧
  decode 0x628BD001#32 = .ok (.pflddReg ⟨0x14#5, 0xB#5, 0x1A#5, true⟩) ∧
  decode 0x62AE0803#32 = .ok (.pfldlReg ⟨0x15#5, 0xE#5, 0x1#5, true⟩) ∧
  decode 0x66D18009#32 = .ok (.pflddImm ⟨0x16#5, 0x11#5, 0x8009#16⟩) ∧
  decode 0x66F48003#32 = .ok (.pfldlImm ⟨0x17#5, 0x14#5, 0x8003#16⟩) := by decide

/-- Control registers. The words are put together from the fields of 30 R113 and the opcodes of R116 to R118. -/
theorem test_decode_control_registers :
  decode 0x30AD0000#32 = .ok (.ldc ⟨0x5#5, 0xD#5⟩) ∧
  decode 0x38A01000#32 = .ok (.stc ⟨0x5#5, 0x2#5⟩) := by decide

/-- Control transfer. The words are put together from the fields of 30 R113 and the opcodes of R116 to R118. -/
theorem test_decode_control_transfer :
  decode 0x40008000#32 = .ok (.bri 0x10#5) ∧
  decode 0x45FCB800#32 = .ok (.trap ⟨0xF#5, 0x1C#5, 0x17#5⟩) ∧
  decode 0x5212F235#32 = .ok (.btneReg ⟨0x10#5, 0x1E#5, 0x9235#16⟩) ∧
  decode 0x56322A35#32 = .ok (.btneImm ⟨0x11#5, 0x5#5, 0x9235#16⟩) ∧
  decode 0x5A526235#32 = .ok (.bteReg ⟨0x12#5, 0xC#5, 0x9235#16⟩) ∧
  decode 0x5E729A35#32 = .ok (.bteImm ⟨0x13#5, 0x13#5, 0x9235#16⟩) ∧
  decode 0x6AABCDEF#32 = .ok (.br 0x2ABCDEF#26) ∧
  decode 0x6EABCDEF#32 = .ok (.call 0x2ABCDEF#26) ∧
  decode 0x72ABCDEF#32 = .ok (.bc 0x2ABCDEF#26) ∧
  decode 0x76ABCDEF#32 = .ok (.bct 0x2ABCDEF#26) ∧
  decode 0x7AABCDEF#32 = .ok (.bnc 0x2ABCDEF#26) ∧
  decode 0x7EABCDEF#32 = .ok (.bnct 0x2ABCDEF#26) ∧
  decode 0xB6B20A35#32 = .ok (.bla ⟨0x15#5, 0x1#5, 0x9235#16⟩) ∧
  decode 0x4C000001#32 = .ok (.lock) ∧
  decode 0x4C00A802#32 = .ok (.calli 0x15#5) ∧
  decode 0x4C000004#32 = .ok (.intovr) ∧
  decode 0x4C000007#32 = .ok (.unlock) := by decide

/-- Integer arithmetic and shifts. The words are put together from the fields of 30 R113 and the opcodes of R116 to R118. -/
theorem test_decode_integer_add_and_shift :
  decode 0x83C90000#32 = .ok (.adduReg ⟨0x1E#5, 0x9#5, 0x0#5⟩) ∧
  decode 0x87EC9235#32 = .ok (.adduImm ⟨0x1F#5, 0xC#5, 0x9235#16⟩) ∧
  decode 0x880F7000#32 = .ok (.subuReg ⟨0x0#5, 0xF#5, 0xE#5⟩) ∧
  decode 0x8C329235#32 = .ok (.subuImm ⟨0x1#5, 0x12#5, 0x9235#16⟩) ∧
  decode 0x9055E000#32 = .ok (.addsReg ⟨0x2#5, 0x15#5, 0x1C#5⟩) ∧
  decode 0x94789235#32 = .ok (.addsImm ⟨0x3#5, 0x18#5, 0x9235#16⟩) ∧
  decode 0x989B5000#32 = .ok (.subsReg ⟨0x4#5, 0x1B#5, 0xA#5⟩) ∧
  decode 0x9CBE9235#32 = .ok (.subsImm ⟨0x5#5, 0x1E#5, 0x9235#16⟩) ∧
  decode 0xA0C1C000#32 = .ok (.shlReg ⟨0x6#5, 0x1#5, 0x18#5⟩) ∧
  decode 0xA4E49235#32 = .ok (.shlImm ⟨0x7#5, 0x4#5, 0x9235#16⟩) ∧
  decode 0xA9073000#32 = .ok (.shrReg ⟨0x8#5, 0x7#5, 0x6#5⟩) ∧
  decode 0xAD2A9235#32 = .ok (.shrImm ⟨0x9#5, 0xA#5, 0x9235#16⟩) ∧
  decode 0xB94DA000#32 = .ok (.shraReg ⟨0xA#5, 0xD#5, 0x14#5⟩) ∧
  decode 0xBD709235#32 = .ok (.shraImm ⟨0xB#5, 0x10#5, 0x9235#16⟩) ∧
  decode 0xB28BD000#32 = .ok (.shrd ⟨0x14#5, 0xB#5, 0x1A#5⟩) := by decide

/-- Logical instructions. The words are put together from the fields of 30 R113 and the opcodes of R116 to R118. -/
theorem test_decode_logical :
  decode 0xC1931000#32 = .ok (.andReg ⟨0xC#5, 0x13#5, 0x2#5⟩) ∧
  decode 0xC5B69235#32 = .ok (.andImm ⟨0xD#5, 0x16#5, 0x9235#16⟩) ∧
  decode 0xD1D98000#32 = .ok (.andnotReg ⟨0xE#5, 0x19#5, 0x10#5⟩) ∧
  decode 0xD5FC9235#32 = .ok (.andnotImm ⟨0xF#5, 0x1C#5, 0x9235#16⟩) ∧
  decode 0xE21FF000#32 = .ok (.orReg ⟨0x10#5, 0x1F#5, 0x1E#5⟩) ∧
  decode 0xE6229235#32 = .ok (.orImm ⟨0x11#5, 0x2#5, 0x9235#16⟩) ∧
  decode 0xF2456000#32 = .ok (.xorReg ⟨0x12#5, 0x5#5, 0xC#5⟩) ∧
  decode 0xF6689235#32 = .ok (.xorImm ⟨0x13#5, 0x8#5, 0x9235#16⟩) ∧
  decode 0xCED19235#32 = .ok (.andh ⟨0x16#5, 0x11#5, 0x9235#16⟩) ∧
  decode 0xDEF49235#32 = .ok (.andnoth ⟨0x17#5, 0x14#5, 0x9235#16⟩) ∧
  decode 0xEF179235#32 = .ok (.orh ⟨0x18#5, 0x17#5, 0x9235#16⟩) ∧
  decode 0xFF3A9235#32 = .ok (.xorh ⟨0x19#5, 0x1A#5, 0x9235#16⟩) := by decide

/-- The adder and multiplier pipes. The words are put together from the fields of 30 R113 and the opcodes of R116 to R118. -/
theorem test_decode_float_pipes :
  decode 0x4BC901A0#32 = .ok (.fmul ⟨0x0#5, 0x1E#5, 0x9#5, false, true, true⟩) ∧
  decode 0x4BEC3FA0#32 = .ok (.pfmul ⟨0x7#5, 0x1F#5, 0xC#5, true, true, true⟩) ∧
  decode 0x480F71A1#32 = .ok (.fmlow ⟨0xE#5, 0x0#5, 0xF#5, false, true, true⟩) ∧
  decode 0x4832ABA2#32 = .ok (.frcp ⟨0x15#5, 0x1#5, 0x12#5, true, true, true⟩) ∧
  decode 0x4855E1A3#32 = .ok (.frsqr ⟨0x1C#5, 0x2#5, 0x15#5, false, true, true⟩) ∧
  decode 0x48781FA4#32 = .ok (.pfmul3 true ⟨0x3#5, 0x3#5, 0x18#5, true, true, true⟩) ∧
  decode 0x489B51B0#32 = .ok (.fadd ⟨0xA#5, 0x4#5, 0x1B#5, false, true, true⟩) ∧
  decode 0x48BE8FB0#32 = .ok (.pfadd ⟨0x11#5, 0x5#5, 0x1E#5, true, true, true⟩) ∧
  decode 0x48C1C1B1#32 = .ok (.fsub ⟨0x18#5, 0x6#5, 0x1#5, false, true, true⟩) ∧
  decode 0x48E4FFB1#32 = .ok (.pfsub ⟨0x1F#5, 0x7#5, 0x4#5, true, true, true⟩) ∧
  decode 0x490731B2#32 = .ok (.fix ⟨0x6#5, 0x8#5, 0x7#5, false, true, true⟩) ∧
  decode 0x492A6FB2#32 = .ok (.pfix ⟨0xD#5, 0x9#5, 0xA#5, true, true, true⟩) ∧
  decode 0x494DA1B3#32 = .ok (.famov ⟨0x14#5, 0xA#5, 0xD#5, false, true, true⟩) ∧
  decode 0x4970DFB3#32 = .ok (.pfamov ⟨0x1B#5, 0xB#5, 0x10#5, true, true, true⟩) ∧
  decode 0x49931134#32 = .ok (.pfgt ⟨0x2#5, 0xC#5, 0x13#5, false, true, false⟩) ∧
  decode 0x49B64BB4#32 = .ok (.pfle ⟨0x9#5, 0xD#5, 0x16#5, true, true, true⟩) ∧
  decode 0x49D981B5#32 = .ok (.pfeq ⟨0x10#5, 0xE#5, 0x19#5, false, true, true⟩) ∧
  decode 0x49FCBBBA#32 = .ok (.ftrunc ⟨0x17#5, 0xF#5, 0x1C#5, true, true, true⟩) ∧
  decode 0x4A1FF5BA#32 = .ok (.pftrunc ⟨0x1E#5, 0x10#5, 0x1F#5, false, true, true⟩) := by decide

/-- Dual-operation instructions. The words are put together from the fields of 30 R113 and the opcodes of R116 to R118. -/
theorem test_decode_dual :
  decode 0x4B5D258C#32 = .ok (.pfam 0xC#4 ⟨0x4#5, 0x1A#5, 0x1D#5, false, true, true⟩) ∧
  decode 0x4B605B8C#32 = .ok (.pfmam 0xC#4 ⟨0xB#5, 0x1B#5, 0x0#5, true, true, true⟩) ∧
  decode 0x4B83959C#32 = .ok (.pfsm 0xC#4 ⟨0x12#5, 0x1C#5, 0x3#5, false, true, true⟩) ∧
  decode 0x4BA6CB9C#32 = .ok (.pfmsm 0xC#4 ⟨0x19#5, 0x1D#5, 0x6#5, true, true, true⟩) := by decide

/-- Graphics instructions. The words are put together from the fields of 30 R113 and the opcodes of R116 to R118. -/
theorem test_decode_graphics :
  decode 0x4A222BC0#32 = .ok (.fxfr ⟨0x5#5, 0x11#5, 0x2#5, true, true, true⟩) ∧
  decode 0x4A4561C9#32 = .ok (.fiadd ⟨0xC#5, 0x12#5, 0x5#5, false, true, true⟩) ∧
  decode 0x4A689FC9#32 = .ok (.pfiadd ⟨0x13#5, 0x13#5, 0x8#5, true, true, true⟩) ∧
  decode 0x4A8BD1CD#32 = .ok (.fisub ⟨0x1A#5, 0x14#5, 0xB#5, false, true, true⟩) ∧
  decode 0x4AAE0FCD#32 = .ok (.pfisub ⟨0x1#5, 0x15#5, 0xE#5, true, true, true⟩) ∧
  decode 0x4AD141D0#32 = .ok (.faddp ⟨0x8#5, 0x16#5, 0x11#5, false, true, true⟩) ∧
  decode 0x4AF47FD0#32 = .ok (.pfaddp ⟨0xF#5, 0x17#5, 0x14#5, true, true, true⟩) ∧
  decode 0x4B17B1D1#32 = .ok (.faddz ⟨0x16#5, 0x18#5, 0x17#5, false, true, true⟩) ∧
  decode 0x4B3AEFD1#32 = .ok (.pfaddz ⟨0x1D#5, 0x19#5, 0x1A#5, true, true, true⟩) ∧
  decode 0x4B5D21D7#32 = .ok (.fzchkl ⟨0x4#5, 0x1A#5, 0x1D#5, false, true, true⟩) ∧
  decode 0x4B605FD7#32 = .ok (.pfzchkl ⟨0xB#5, 0x1B#5, 0x0#5, true, true, true⟩) ∧
  decode 0x4B8391DA#32 = .ok (.form ⟨0x12#5, 0x1C#5, 0x3#5, false, true, true⟩) ∧
  decode 0x4BA6CFDA#32 = .ok (.pform ⟨0x19#5, 0x1D#5, 0x6#5, true, true, true⟩) ∧
  decode 0x4BC901DF#32 = .ok (.fzchks ⟨0x0#5, 0x1E#5, 0x9#5, false, true, true⟩) ∧
  decode 0x4BEC3FDF#32 = .ok (.pfzchks ⟨0x7#5, 0x1F#5, 0xC#5, true, true, true⟩) := by decide

/-- 95 E-1 to E-15 and E-24 to E-26: words of the spec. -/
theorem test_decode_spec_words :
  decode 0x80430800#32 = .ok (.adduReg ⟨2#5, 3#5, 1#5⟩) ∧
  decode 0x84A5FFFF#32 = .ok (.adduImm ⟨5#5, 5#5, 0xFFFF#16⟩) ∧
  decode 0xC4A000FF#32 = .ok (.andImm ⟨5#5, 0#5, 0x00FF#16⟩) ∧
  decode 0xEC071234#32 = .ok (.orh ⟨0#5, 7#5, 0x1234#16⟩) ∧
  decode 0x14850001#32 = .ok (.ldlImm ⟨4#5, 5#5, 1#16⟩) ∧
  decode 0x14850002#32 = .ok (.ldsImm ⟨4#5, 5#5, 2#16⟩) ∧
  decode 0x1C802805#32 = .ok (.stl ⟨4#5, 5#5, 5#16⟩) ∧
  decode 0x0C9F2FFF#32 = .ok (.stb ⟨4#5, 5#5, 0xFFFF#16⟩) ∧
  decode 0x6BFFFFFF#32 = .ok (.br 0x3FFFFFF#26) ∧
  decode 0x5CDF2FFF#32 = .ok (.bteImm ⟨6#5, 5#5, 0xFFFF#16⟩) ∧
  decode 0xB4BF27FE#32 = .ok (.bla ⟨5#5, 4#5, 0xFFFE#16⟩) ∧
  decode 0x488815B0#32 = .ok (.pfadd ⟨2#5, 4#5, 8#5, false, true, true⟩) ∧
  decode 0x48641630#32 = .ok (.pfadd ⟨2#5, 3#5, 4#5, true, false, false⟩) ∧
  decode 0x486014B4#32 = .ok (.pfle ⟨2#5, 3#5, 0#5, false, false, true⟩) ∧
  decode 0x48601434#32 = .ok (.pfgt ⟨2#5, 3#5, 0#5, false, false, false⟩) ∧
  decode 0x48802C00#32 = .ok (.pfam 0#4 ⟨5#5, 4#5, 0#5, false, false, false⟩) ∧
  decode 0x48802C10#32 = .ok (.pfsm 0#4 ⟨5#5, 4#5, 0#5, false, false, false⟩) ∧
  decode 0x48861189#32 = .ok (.pfmam 9#4 ⟨2#5, 4#5, 6#5, false, true, true⟩) ∧
  decode 0x4C004002#32 = .ok (.calli 8#5) ∧ decode 0x4C000004#32 = .ok .intovr ∧
  decode 0x4C000001#32 = .ok .lock ∧ decode 0x4C000007#32 = .ok .unlock ∧
  decode 0xA0000000#32 = .ok (.shlReg ⟨0#5, 0#5, 0#5⟩) ∧ decode 0xA00007FF#32 = .ok (.shlReg ⟨0#5, 0#5, 0#5⟩) ∧
  decode 0xB0000200#32 = .ok (.shrd ⟨0#5, 0#5, 0#5⟩) ∧ decode 0x40000800#32 = .ok (.bri 1#5) ∧
  decode 0x00000000#32 = .ok (.ldbReg ⟨0#5, 0#5, 0#5⟩) := by decide

/-- 95 E-16, E-17, E-18, E-23: words that are no instruction. -/
theorem test_decode_rejects :
  decode 0x18000000#32 = .error .unassignedPrimary ∧ decode 0xC8000000#32 = .error .unassignedPrimary ∧
  decode 0xD8000000#32 = .error .unassignedPrimary ∧ decode 0xE8000000#32 = .error .unassignedPrimary ∧
  decode 0xF8000000#32 = .error .unassignedPrimary ∧ decode 0x4C000000#32 = .error .unassignedEsc ∧
  decode 0x4C000003#32 = .error .unassignedEsc ∧ decode 0x4C000005#32 = .error .unassignedEsc ∧
  decode 0x4C000006#32 = .error .unassignedEsc ∧ decode 0x48000025#32 = .error .unassignedFp ∧
  decode 0x4800002F#32 = .error .unassignedFp ∧ decode 0x48000036#32 = .error .unassignedFp ∧
  decode 0x48000041#32 = .error .unassignedFp ∧ decode 0x4800007F#32 = .error .unassignedFp ∧
  decode 0x64880004#32 = .error .pfldQuad ∧ decode 0x60880004#32 = .error .pfldQuad := by decide

/-! ## Integer arithmetic, shifts and logic -/

/-- 95 S1. -/
theorem test_addu :
    let s := run 0x80430800#32 (regs z [(1, 0xFFFFFFFF), (2, 1)])
    s.readReg 3 = 0#32 ∧ s.cc = true ∧ s.overflow = true := by decide

/-- 95 AS6. -/
theorem test_addu_imm :
    let s := run 0x84A67FFF#32 (regs z [(5, 0xFFFF8001)])
    s.readReg 6 = 0#32 ∧ s.cc = true ∧ s.overflow = true := by decide

/-- 95 AS8. -/
theorem test_subu :
    let s := run 0x88A62000#32 (regs z [(4, 3), (5, 5)])
    s.readReg 6 = 0xFFFFFFFE#32 ∧ s.cc = false ∧ s.overflow = true := by decide

/-- 44 R252: 0xFFFFFFFF - 1, no borrow. -/
theorem test_subu_imm :
    let s := run 0x8CA6FFFF#32 (regs z [(5, 1)])
    s.readReg 6 = 0xFFFFFFFE#32 ∧ s.cc = true ∧ s.overflow = false := by decide

/-- 95 AS17: -a is 2^31. -/
theorem test_adds :
    let s := run 0x90430800#32 (regs z [(1, 0x80000000), (2, 0)])
    s.readReg 3 = 0x80000000#32 ∧ s.cc = true ∧ s.overflow = false := by decide

/-- 95 AS18. -/
theorem test_adds_imm :
    let s := run 0x94A5FFFF#32 (regs z [(5, 0)])
    s.readReg 5 = 0xFFFFFFFF#32 ∧ s.cc = true ∧ s.overflow = false := by decide

/-- 95 AS21. -/
theorem test_subs :
    let s := run 0x98A62000#32 (regs z [(4, 0x80000000), (5, 1)])
    s.readReg 6 = 0x7FFFFFFF#32 ∧ s.cc = true ∧ s.overflow = true := by decide

/-- 95 AS23. -/
theorem test_subs_imm :
    let s := run 0x9CA60000#32 (regs z [(5, 5)])
    s.readReg 6 = 0xFFFFFFFB#32 ∧ s.cc = true ∧ s.overflow = false := by decide

/-- 95 SH2: only five bits of the count. -/
theorem test_shl : (run 0xA0A62000#32 (regs z [(4, 0x21), (5, 0x40000001)])).readReg 6 = 0x80000002#32 := by decide

/-- 95 SH1. -/
theorem test_shl_imm : (run 0xA4A60004#32 (regs z [(5, 0xF000000F)])).readReg 6 = 0x000000F0#32 := by decide

/-- 44 R261: a count of 36 shifts by 4 and SC is 4. -/
theorem test_shr :
    let s := run 0xA8A62000#32 (regs z [(4, 0x24), (5, 0x80000001)])
    s.readReg 6 = 0x08000000#32 ∧ s.sc = 4#5 := by decide

/-- 95 SH6. -/
theorem test_shr_imm :
    let s := run 0xACA6FFFF#32 (regs z [(5, 0x80000000)])
    s.readReg 6 = 1#32 ∧ s.sc = 31#5 := by decide

/-- 44 R262: the sign is shifted in, and SC is as it was. -/
theorem test_shra :
    let s := run 0xB8A62000#32 ((regs z [(4, 1), (5, 0x80000000)]).setSC 5#5)
    s.readReg 6 = 0xC0000000#32 ∧ s.sc = 5#5 := by decide

/-- 95 SH8. -/
theorem test_shra_imm : (run 0xBCA60004#32 (regs z [(5, 0x7FFFFFF0)])).readReg 6 = 0x07FFFFFF#32 := by decide

/-- 95 SH9. -/
theorem test_shrd :
    (run 0xB0A62000#32 ((regs z [(4, 0xAB), (5, 0x12345678)]).setSC 8#5)).readReg 6 = 0xAB123456#32 := by decide

/-- 95 LG1. -/
theorem test_and : (run 0xC0A62000#32 (regs z [(4, 0xFF00FF00), (5, 0x0FF00FF0)])).readReg 6 = 0x0F000F00#32 := by decide

/-- 95 LG3: the immediate is zero-extended. -/
theorem test_and_imm : (run 0xC4A6FFFF#32 (regs z [(5, 0xFFFFFFFF)])).readReg 6 = 0xFFFF#32 := by decide

/-- 95 LG4. -/
theorem test_andh :
    let s := run 0xCCA68000#32 (regs z [(5, 0x7FFFFFFF)])
    s.readReg 6 = 0#32 ∧ s.cc = true := by decide

/-- 95 LG6: the complement is of src1. -/
theorem test_andnot :
    (run 0xD0A62000#32 (regs z [(4, 0xFFFF0000), (5, 0x12345678)])).readReg 6 = 0x00005678#32 := by decide

/-- 95 LG5. -/
theorem test_andnot_imm : (run 0xD4A6000F#32 (regs z [(5, 0xFFFFFFFF)])).readReg 6 = 0xFFFFFFF0#32 := by decide

/-- 95 LG7. -/
theorem test_andnoth :
    let s := run 0xDCA6FFFF#32 (regs z [(5, 0xABCD0000)])
    s.readReg 6 = 0#32 ∧ s.cc = true := by decide

/-- 44 R274. -/
theorem test_or : (run 0xE0A62000#32 (regs z [(4, 0xF0), (5, 0x0F)])).readReg 6 = 0xFF#32 := by decide

/-- 95 LG9. -/
theorem test_or_imm : (run 0xE4E75678#32 (regs z [(7, 0x12340000)])).readReg 7 = 0x12345678#32 := by decide

/-- 95 LG10. -/
theorem test_orh : (run 0xEC071234#32 z).readReg 7 = 0x12340000#32 := by decide

/-- 95 LG11: src1 and src2 the same register. -/
theorem test_xor :
    let s := run 0xF0A62800#32 (regs z [(5, 77)])
    s.readReg 6 = 0#32 ∧ s.cc = true := by decide

/-- 95 LG12. -/
theorem test_xor_imm : (run 0xF4A6FFFF#32 (regs z [(5, 0xFF00)])).readReg 6 = 0xFF#32 := by decide

/-- 95 LG13. -/
theorem test_xorh :
    let s := run 0xFCA68000#32 (regs z [(5, 0x80000000)])
    s.readReg 6 = 0#32 ∧ s.cc = true := by decide

/-! ## Loads and stores -/

/-- 95 LS5. -/
theorem test_ldb : (run 0x00853000#32 (regs m1000 [(6, 1)])).readReg 5 = 0x22#32 := by decide

/-- 95 LS4. -/
theorem test_ldb_imm : (run 0x04850007#32 m1000).readReg 5 = 0xFFFFFF88#32 := by decide

/-- 95 LS8: misaligned. -/
theorem test_lds :
    let s := run 0x10853000#32 (regs m1000 [(6, 1)])
    s.readReg 5 = 0x55555555#32 ∧ s.psr = 0x800#32 := by decide

/-- 95 LS3. -/
theorem test_lds_imm : (run 0x14850006#32 m1000).readReg 5 = 0xFFFF8877#32 := by decide

/-- 95 LS7: misaligned. -/
theorem test_ldl :
    let s := run 0x10853001#32 (regs m1000 [(6, 2)])
    s.readReg 5 = 0x55555555#32 ∧ s.psr = 0x800#32 := by decide

/-- 95 LS6: a negative displacement. -/
theorem test_ldl_imm : (run 0x1485FFFD#32 (regs m1000 [(4, 0x1004)])).readReg 5 = 0x44332211#32 := by decide

/-- 95 LS8b. -/
theorem test_ldl_big_endian : (run 0x14850001#32 (bigEndian m1000)).readReg 5 = 0x11223344#32 := by decide

/-- 95 LS9. -/
theorem test_stb : wordAt (run 0x0C9F2FFF#32 (regs m1000 [(4, 0x1001), (5, 0xABCDEF99)])) 0x1000 = 0x44332299#32 := by decide

/-- 95 LS10, big-endian. -/
theorem test_sts : wordAt (run 0x1C802802#32 (bigEndian (regs m1000 [(5, 0xABCD1234)]))) 0x1000 = 0x34122211#32 := by decide

/-- 95 LS11, big-endian. -/
theorem test_stl : wordAt (run 0x1C802805#32 (bigEndian (regs m1000 [(5, 0xA1B2C3D4)]))) 0x1004 = 0xD4C3B2A1#32 := by decide

/-- 46 R320: register form. -/
theorem test_fldl : (run 0x20863002#32 (regs m1000 [(6, 4)])).readF 6 = 0x88776655#32 := by decide

/-- 95 LS13: auto-increment. -/
theorem test_fldl_imm :
    let s := run 0x2486000B#32 m1000
    s.readF 6 = 0xAAAAAAAA#32 ∧ s.readReg 4 = 0x1008#32 := by decide

/-- 95 LS14. -/
theorem test_fldd :
    let s := run 0x20823001#32 (regs m1000 [(6, 8)])
    s.readFd 2 = 0xBBBBBBBBAAAAAAAA#64 ∧ s.readReg 4 = 0x1008#32 := by decide

/-- 46 R321: big-endian. -/
theorem test_fldd_imm : (run 0x24860000#32 (bigEndian m1000)).readFd 6 = 0x1122334455667788#64 := by decide

/-- 46 R322: register form. -/
theorem test_fldq :
    let s := run 0x20883004#32 (regs m1000 [(6, 0)])
    s.readFd 8 = 0x8877665544332211#64 ∧ s.readFd 10 = 0xBBBBBBBBAAAAAAAA#64 := by decide

/-- 95 I1b: f0 and f1 stay 0. -/
theorem test_fldq_imm :
    let s := run 0x24800004#32 m1000
    s.readFd 0 = 0#64 ∧ s.readFd 2 = 0xBBBBBBBBAAAAAAAA#64 := by decide

/-- 46 R323: register form, auto-increment. -/
theorem test_fstl :
    let s := run 0x28863003#32 (fregs (regs m1000 [(6, 4)]) [(6, 0x3F800000)])
    wordAt s 0x1004 = 0x3F800000#32 ∧ s.readReg 4 = 0x1004#32 := by decide

/-- 95 LS12c. -/
theorem test_fstl_imm : wordAt (run 0x2C860006#32 (fregs m1000 [(6, 0x3F800000)])) 0x1004 = 0x3F800000#32 := by decide

/-- 46 R324: register form. -/
theorem test_fstd :
    let s := run 0x28883000#32 (fregs (regs m1000 [(6, 8)]) [(8, 1), (9, 2)])
    wordAt s 0x1008 = 1#32 ∧ wordAt s 0x100C = 2#32 := by decide

/-- 95 LS12, big-endian. -/
theorem test_fstd_imm :
    let s := run 0x2C880010#32 (bigEndian (fregs m1000 [(8, 0x11223344), (9, 0x55667788)]))
    wordAt s 0x1010 = 0x88776655#32 ∧ wordAt s 0x1014 = 0x44332211#32 := by decide

/-- 46 R325: register form. -/
theorem test_fstq :
    let s := run 0x28883004#32 (fregs (regs m1000 [(6, 0)]) [(8, 1), (9, 2), (10, 3), (11, 4)])
    wordAt s 0x1000 = 1#32 ∧ wordAt s 0x100C = 4#32 := by decide

/-- 95 LS12b, big-endian. -/
theorem test_fstq_imm :
    let s := run 0x2C880014#32 (bigEndian (fregs m1000 [(8, 1), (9, 2), (10, 3), (11, 4)]))
    wordAt s 0x1010 = 0x04000000#32 ∧ wordAt s 0x101C = 0x01000000#32 := by decide

/-- 46 R326, register form: f8 receives the oldest stage. -/
theorem test_pfldl :
    let s := run 0x60883002#32 { regs m1000 [(6, 4)] with pipeL := singles 1 2 3 }
    s.readF 8 = 3#32 ∧ s.pipeL = singles 0x88776655 1 2 := by decide

/-- 95 LS16, the fourth load. -/
theorem test_pfldl_imm :
    let s := run 0x648B000E#32 { m1000 with pipeL := singles 0xAAAAAAAA 0x88776655 0x44332211 }
    s.readF 11 = 0x44332211#32 ∧ s.pipeL = singles 0xBBBBBBBB 0xAAAAAAAA 0x88776655 := by decide

/-- 46 R327, register form: the old stage is written by its own tag. -/
theorem test_pfldd :
    let s := run 0x60883000#32 { regs m1000 [(6, 8)] with pipeL := ⟨.sgl 1#32, .sgl 2#32, .dbl 0x0000000400000003#64⟩ }
    s.readFd 8 = 0x0000000400000003#64 ∧ s.pipeL.s0 = .dbl 0xBBBBBBBBAAAAAAAA#64 := by decide

/-- 95 LS16, the fifth load. -/
theorem test_pfldd_imm :
    let s := run 0x648C0000#32 { fregs m1000 [(13, 1)] with pipeL := singles 0xBBBBBBBB 0xAAAAAAAA 0x88776655 }
    s.readFd 12 = 0x0000000188776655#64 ∧ s.pipeL.s0 = .dbl 0x8877665544332211#64 := by decide

/-- 95 LS17a: PS = 1. -/
theorem test_pstd :
    let s := run 0x3C880000#32 (withPsr 0xA5400000#32 (fregs m1000 [(8, 0xD3D2D1D0), (9, 0xD7D6D5D4)]))
    wordAt s 0x1000 = 0x4433D1D0#32 ∧ wordAt s 0x1004 = 0x8877D5D4#32 ∧ s.pm = 0x0A#8 := by decide

/-- 95 LS17c: PS = 2. -/
theorem test_pstd_wide :
    let s := run 0x3C880000#32 (withPsr 0xA6800000#32 (fregs m1000 [(8, 0xD3D2D1D0), (9, 0xD7D6D5D4)]))
    wordAt s 0x1000 = 0x44332211#32 ∧ wordAt s 0x1004 = 0xD7D6D5D4#32 ∧ s.pm = 0x29#8 := by decide

/-- 95 LS18. -/
theorem test_flush : run 0x34800021#32 m1000 = regs m1000 [(4, 0x1020)] := by decide

/-- 95 LS19. -/
theorem test_ixfr : (run 0x08062800#32 (regs z [(5, 0x3F800000)])).readF 6 = 0x3F800000#32 := by decide

/-- 95 LS20: the data breakpoint. -/
theorem test_breakpoint :
    let s := { withPsr 1#32 m1000 with db := 0x1000#32 }
    (run 0x14850001#32 s).psr = 0x801#32 ∧ (run 0x04850002#32 s).readReg 5 = 0x33#32 := by decide

/-! ## Translation -/

/-- 95 T1: a load whose translation walks. -/
theorem test_walk_load :
    let s := run 0x14850005#32 (paged 0x40#32 0x00020007#32 0x00055005#32)
    s.readReg 5 = 0xCAFEF00D#32 ∧ wordAt s 0x10004 = 0x20027#32 ∧ wordAt s 0x2000C = 0x55025#32 := by decide

/-- 95 T3: a user write to a page that is not writable. -/
theorem test_walk_protected :
    let s := paged 0x40#32 0x00020007#32 0x00055005#32
    (run 0x1C802805#32 s).psr = 0x840#32 ∧ (run 0x1C802805#32 s).mem = s.mem := by decide

/-- 95 T4: a supervisor write to a clean page. -/
theorem test_walk_clean :
    let s := run 0x1C802805#32 (paged 0#32 0x00020007#32 0x00055005#32)
    s.psr = 0x800#32 ∧ wordAt s 0x2000C = 0x55025#32 ∧ s.tlb = [] := by decide

/-! ## Control registers -/

/-- 95 CR2: the first read of a latched FIR, and the second. -/
theorem test_ldc_fir :
    let s := run 0x30050000#32 { z with fir := 0x1000#32, firLatched := true }
    s.readReg 5 = 0x1000#32 ∧ (run 0x30050000#32 { s with pc := 0xFFFFFF08#32 }).readReg 5 = 0xFFFFFF08#32 := by decide

/-- 95 CR18. -/
theorem test_ldc_epsr : (run 0x30A50000#32 z).readReg 5 = 0x40001#32 := by decide

/-- 95 CR4: a user write of the PSR. -/
theorem test_stc_psr : (run 0x38203000#32 (withPsr 0x40#32 (regs z [(6, 0xFF00000C)]))).psr = 0xFF00004C#32 := by decide

/-- 95 CR7: ITI empties the TLB and is stored as 0. -/
theorem test_stc_dirbase :
    let s := run 0x38403000#32 { regs z [(6, 0x00400021)] with tlb := [(3, ⟨1#20, 2#20⟩)] }
    s.dirbase = 0x400001#32 ∧ s.tlb = [] := by decide

/-- 95 CR9, CR13. -/
theorem test_stc_epsr_fsr :
    (run 0x38A03000#32 (regs z [(6, 0xFFFFFFFF)])).epsr = 0xFFC5E001#32 ∧
    (run 0x38803000#32 (regs z [(6, 0xFFFFFFFF)])).fsr = 0x003E01EF#32 := by decide

/-! ## Control transfer: one step of the machine -/

/-- 95 B1. -/
theorem test_br :
    let s := stepped (branchAt 0x100 0x68000003#32 countSlot)
    s.readReg 5 = 1#32 ∧ s.pc = 0x110#32 := by decide

/-- 95 B7: the slot traps. -/
theorem test_br_slot_traps :
    let s := stepped (regs (branchAt 0x100 0x68000003#32 trapSlot) [(6, 0x1002)])
    s.fir = 0x104#32 ∧ s.pc = 0xFFFFFF00#32 ∧ s.psr = 0x800#32 := by decide

/-- 95 B2. -/
theorem test_bc :
    let s := stepped (withPsr 4#32 (branchAt 0x200 0x70000002#32 countSlot))
    s.readReg 5 = 0#32 ∧ s.pc = 0x20C#32 := by decide

/-- 95 B3, at the high word of a pair. -/
theorem test_bnc :
    (stepped (branchAt 0x204 0x78000002#32 countSlot)).pc = 0x210#32 ∧
    (stepped (withPsr 4#32 (branchAt 0x204 0x78000002#32 countSlot))).pc = 0x208#32 := by decide

/-- 95 B4, B5. -/
theorem test_bct :
    let s := branchAt 0x3000 0x74000002#32 countSlot
    (stepped (withPsr 4#32 s)).pc = 0x300C#32 ∧ (stepped (withPsr 4#32 s)).readReg 5 = 1#32 ∧
    (stepped s).pc = 0x3008#32 ∧ (stepped s).readReg 5 = 0#32 := by decide

/-- 95 B6. -/
theorem test_bnct :
    let s := branchAt 0x3010 0x7FFFFFFD#32 countSlot
    (stepped s).pc = 0x3008#32 ∧ (stepped (withPsr 4#32 s)).pc = 0x3018#32 := by decide

/-- 95 B9. -/
theorem test_bte : (stepped (regs (branchAt 0x5000 0x58C02804#32 countSlot) [(5, 9), (6, 9)])).pc = 0x5014#32 := by decide

/-- 95 B10: 37 is not 5. -/
theorem test_bte_imm :
    (stepped (regs (branchAt 0x5000 0x5CDF2FFF#32 countSlot) [(6, 5)])).pc = 0x5000#32 ∧
    (stepped (regs (branchAt 0x5004 0x5CDF2FFF#32 countSlot) [(6, 37)])).pc = 0x5008#32 := by decide

/-- 95 B11. -/
theorem test_btne : (stepped (regs (branchAt 0x5000 0x50C02804#32 countSlot) [(5, 9), (6, 8)])).pc = 0x5014#32 := by decide

/-- 95 B12. -/
theorem test_btne_imm : (stepped (regs (branchAt 0x5000 0x54DF07FE#32 countSlot) [(6, 1)])).pc = 0x4FFC#32 := by decide

/-- 95 B15: the compare is unbounded. -/
theorem test_bla :
    let s := stepped (withPsr 8#32 (regs (branchAt 0x4000 0xB4BF27FE#32 0xA0000000#32) [(4, 0x80000000), (5, 0x80000000)]))
    s.readReg 5 = 0#32 ∧ s.pc = 0x3FFC#32 ∧ s.lcc = false := by decide

/-- 95 B14: not taken. -/
theorem test_bla_falls :
    let s := stepped (regs (branchAt 0x4000 0xB4BF27FE#32 0xA0000000#32) [(4, 0xFFFFFFFF), (5, 5)])
    s.readReg 5 = 4#32 ∧ s.pc = 0x4008#32 ∧ s.lcc = true := by decide

/-- 95 B17: the slot reads the old r1. -/
theorem test_call :
    let s := stepped (regs (branchAt 0x2000 0x6C000040#32 0x80060800#32) [(1, 0x11111111)])
    s.readReg 6 = 0x11111111#32 ∧ s.readReg 1 = 0x2008#32 ∧ s.pc = 0x2104#32 := by decide

/-- 95 B18. -/
theorem test_calli :
    let s := stepped (regs (branchAt 0x2000 0x4C004002#32 countSlot) [(8, 0x7003)])
    s.readReg 1 = 0x2008#32 ∧ s.pc = 0x7000#32 := by decide

/-- 95 B19: no trap bit is set. -/
theorem test_bri :
    let s := stepped (withPsr 0x90#32 (regs (branchAt 0x6000 0x40002000#32 countSlot) [(4, 0x7002)]))
    s.pc = 0x7000#32 ∧ s.psr = 0x90#32 := by decide

/-- 95 B20: a trap return. -/
theorem test_bri_return :
    let s := stepped { withPsr 0x1A0#32 (regs (branchAt 0xFFFFFF10 0x40002000#32 countSlot) [(4, 0x1004)]) with
      firLatched := true, snapDim := .full, snapDimOp := true }
    s.pc = 0x1004#32 ∧ s.psr = 0xF0#32 ∧ s.firLatched = false ∧ s.dim = .full := by decide

/-- 95 B22. -/
theorem test_trap :
    let s := stepped (withPsr 0x50#32 (branchAt 0x4004 0x44000000#32 countSlot))
    s.psr = 0x1A0#32 ∧ s.fir = 0x4004#32 ∧ s.pc = 0xFFFFFF00#32 := by decide

/-- 95 B23. -/
theorem test_intovr :
    let s := branchAt 0x4004 0x4C000004#32 countSlot
    (stepped (s.setOF true)).fir = 0x4004#32 ∧ (stepped s).pc = 0x4008#32 := by decide

/-- 95 B24. -/
theorem test_lock_unlock : run 0x4C000001#32 m1000 = m1000 ∧ run 0x4C000007#32 m1000 = m1000 := by decide

/-! ## Floating point -/

/-- 95 A2: single operands, a double result. -/
theorem test_fadd :
    (run 0x486410B0#32 (fregs z [(2, 0x3F800000), (3, 0x40000000)])).readFd 4 = 0x4008000000000000#64 := by decide

/-- 95 A3. -/
theorem test_fsub :
    (run 0x488611B1#32 (fpairs z [(2, 0x4014000000000000), (4, 0x4008000000000000)])).readFd 6 =
      0x4000000000000000#64 := by decide

/-- 95 A4: fsrc2 is forwarded from the last stage. -/
theorem test_pfadd :
    let s := run 0x48841430#32 { fregs z [(2, 0x3F800000), (4, 0x42C60000)] with pipeA := singles 1 2 0x41200000 }
    s.readF 4 = 0x41200000#32 ∧ s.pipeA = singles 0x41300000 1 2 := by decide

/-- 95 A5: fsrc1 is not. -/
theorem test_pfadd_src1 :
    let s := run 0x48442430#32 { fregs z [(2, 0x3F800000), (4, 0x42C60000)] with pipeA := singles 1 2 0x41200000 }
    s.readF 4 = 0x41200000#32 ∧ s.pipeA = singles 0x42C80000 1 2 := by decide

/-- 95 A9. -/
theorem test_pfsub :
    (run 0x48641431#32 (fregs z [(2, 0x3F800000), (3, 0x40000000)])).pipeA = singles 0xBF800000 0 0 := by decide

/-- 95 A11: -2.5 toward minus infinity. -/
theorem test_fix :
    (Slot.dbl 0xC004000000000000#64).fix 1#2 = some 0xFFFFFFFD#32 ∧
    (run 0x480621B2#32 (fpairs z [(4, 0xC004000000000000)])).freeCount = 1 := by decide

/-- 41 R184: 2147483647.0 and -2147483648.0 are in range; 2147483647.4 and -2147483648.5 are not, though they would round into
it. -/
theorem test_fix_range :
    (Slot.dbl 0x41DFFFFFFFC00000#64).fix 0#2 = some 0x7FFFFFFF#32 ∧
    (Slot.dbl 0xC1E0000000000000#64).fix 0#2 = some 0x80000000#32 ∧
    (Slot.dbl 0x41DFFFFFFFD9999A#64).fix 0#2 = none ∧ (Slot.dbl 0xC1E0000000100000#64).fix 0#2 = none := by decide

/-- 95 A14. -/
theorem test_pfix :
    let s := run 0x480625B2#32 { fpairs z [(4, 0x4004000000000000)] with pipeA := singles 1 2 3 }
    s.readF 6 = 3#32 ∧ s.pipeA.s1 = .sgl 1#32 := by decide

/-- 95 A13. -/
theorem test_ftrunc :
    (Slot.dbl 0xC007333333333333#64).fix 3#2 = some 0xFFFFFFFE#32 ∧
    (run 0x480621BA#32 (fpairs z [(4, 0xC007333333333333)])).freeCount = 1 := by decide

/-- 41 R185: 2147483647.5 is out of range before it is truncated, 2147483646.5 is not. -/
theorem test_ftrunc_range :
    (Slot.dbl 0x41DFFFFFFFE00000#64).fix 3#2 = none ∧
    (Slot.dbl 0x41DFFFFFFFA00000#64).fix 3#2 = some 0x7FFFFFFE#32 := by decide

/-- 41 R185: the old last stage is written out. -/
theorem test_pftrunc :
    let s := run 0x480625BA#32 { fpairs z [(4, 0x4004000000000000)] with pipeA := singles 1 2 3 }
    s.readF 6 = 3#32 ∧ s.pipeA.s2 = .sgl 2#32 := by decide

/-- 95 A16: .ds is legal here. -/
theorem test_famov : (run 0x48041133#32 (fpairs z [(2, 0x3FF8000000000000)])).readF 4 = 0x3FC00000#32 := by decide

/-- 41 R186: a NaN passes bit for bit. -/
theorem test_pfamov :
    let s := run 0x48041433#32 { fregs z [(2, 0x7FC00001)] with pipeA := singles 1 2 3 }
    s.readF 4 = 3#32 ∧ s.pipeA = singles 0x7FC00001 1 2 := by decide

/-- 95 A18, A22. -/
theorem test_pfgt :
    (run 0x48601434#32 (fregs z [(2, 0x40000000), (3, 0x3F800000)])).cc = true ∧
    (run 0x48601434#32 (fregs z [(2, 0x7FC00000), (3, 0x3F800000)])).cc = false := by decide

/-- 95 A20, A22. -/
theorem test_pfle :
    (run 0x486014B4#32 (fregs z [(2, 0x3F800000), (3, 0x3F800000)])).cc = false ∧
    (run 0x486014B4#32 (fregs z [(2, 0x7FC00000), (3, 0x3F800000)])).cc = true := by decide

/-- 95 A23: the two zeros are equal. -/
theorem test_pfeq :
    let s := run 0x48601435#32 (fregs z [(2, 0), (3, 0x80000000)])
    s.cc = true ∧ s.ccRaw = true ∧ s.ccValid = true := by decide

/-- 95 M4. -/
theorem test_fmul :
    (run 0x486410A0#32 (fregs z [(2, 0x40000000), (3, 0x40400000)])).readFd 4 = 0x4018000000000000#64 := by decide

/-- 95 M3: double sources read the second stage and leave the third. -/
theorem test_pfmul :
    let s := run 0x488815A0#32 { fpairs z [(2, 0x4000000000000000), (4, 0x4008000000000000)] with pipeM := singles 1 2 3 }
    s.readF 8 = 2#32 ∧ s.pipeM = ⟨.dbl 0x4018000000000000#64, .sgl 1#32, .sgl 3#32⟩ := by decide

/-- 95 M1: single sources read the third. -/
theorem test_pfmul_single :
    let s := run 0x48681420#32 { fregs z [(2, 0x40000000), (3, 0x40400000)] with pipeM := singles 1 2 3 }
    s.readF 8 = 3#32 ∧ s.pipeM = singles 0x40C00000 1 2 := by decide

/-- 95 M5: bits 52:0; the bits of any value above them admit the vector's. -/
theorem test_fmlow :
    fmlowValue 0x0000000100000003#64 5#64 0#64 = 0x000000050000000F#64 ∧
    fmlowValue 0x8000000000000002#64 3#64 0x400#64 = 0x8000000000000006#64 := by decide

/-- 95 M6a: 1/3. -/
theorem test_frcp : (run 0x48860022#32 (fregs z [(4, 0x40400000)])).readF 6 = 0x3EAA8000#32 := by decide

/-- 95 M6b: of 0, with the traps enabled. -/
theorem test_frcp_zero :
    let s := run 0x48860022#32 { z with par := { z.par with fpTrapsEnabled := true }, fsr := 0x20#32 }
    s.fsr = 0x120#32 ∧ s.psr = 0x1000#32 := by decide

set_option maxRecDepth 4000 in
/-- 95 M6c. -/
theorem test_frsqr :
    (run 0x48860023#32 (fregs z [(4, 0x40800000)])).readF 6 = 0x3F000000#32 ∧
    (run 0x48860023#32 (fregs z [(4, 0xC0800000), (6, 9)])).readF 6 = 9#32 := by decide

/-- 95 M7. -/
theorem test_pfmul3 :
    let s := run 0x488615A4#32 { fpairs z [(2, 0x4000000000000000), (4, 0x4008000000000000)] with pipeM := singles 1 2 3 }
    s.readF 6 = 3#32 ∧ s.pipeM = ⟨.dbl 0x4018000000000000#64, .sgl 1#32, .sgl 2#32⟩ := by decide

/-- The operands of 95 DO1 to DO6. -/
def dualStart : State := fregs { z with kr := 0x40000000#64, t := 0x3F800000#64 } [(4, 0x40400000), (5, 0x41200000)]

/-- 95 DO3. -/
theorem test_pfam :
    let s := run 0x48802C02#32 { dualStart with pipeM := singles 0 0 0x40E00000, pipeA := singles 0 0 0x40A00000 }
    s.pipeM.s0 = .sgl 0x40C00000#32 ∧ s.pipeA.s0 = .sgl 0x41700000#32 := by decide

/-- 95 DO5: double precision, K1 times the adder's last stage. -/
theorem test_pfam_double :
    let s := run 0x4886158A#32 { fpairs { z with kr := 0x4000000000000000#64 } [(2, 0x3FF0000000000000), (4, 0x4000000000000000)]
      with pipeA := ⟨.sgl 0, .sgl 0, .dbl 0x4008000000000000#64⟩, pipeM := singles 1 2 3 }
    s.readFd 6 = 0x4008000000000000#64 ∧ s.pipeM = ⟨.dbl 0x4018000000000000#64, .sgl 1#32, .sgl 3#32⟩ := by decide

/-- 95 DO4. -/
theorem test_pfmam :
    let s := run 0x48681009#32 { fregs z [(2, 0x40000000), (3, 0x40400000)] with pipeM := singles 0 0 0x40800000 }
    s.readF 8 = 0x40800000#32 ∧ s.pipeA.s0 = .sgl 0x41000000#32 := by decide

/-- 95 DO6. -/
theorem test_pfsm :
    (run 0x48802C10#32 { dualStart with pipeM := singles 0 0 0x40800000 }).pipeA.s0 = .sgl 0x40C00000#32 := by decide

/-- 42 R212, routing 1 with fdest = fsrc1: the multiplier uses the old K1 (2 * 2). -/
theorem test_pfsm_kload :
    let s := run 0x48821591#32 { fpairs { z with kr := 0x4000000000000000#64 } [(2, 0x3FF0000000000000), (4, 0x4000000000000000)]
      with pipeA := ⟨.sgl 0, .sgl 0, .dbl 0x4008000000000000#64⟩, pipeM := singles 1 2 3 }
    s.readFd 2 = 0x4008000000000000#64 ∧ s.pipeM.s0 = .dbl 0x4010000000000000#64 := by decide

/-- 42 R212, routing 1 with fdest = f6: K1 receives fsrc1, and K2 keeps its value. -/
theorem test_pfsm_kload_apart :
    let s := run 0x48861591#32 (fpairs z [(2, 0x3FF0000000000000), (4, 0x4000000000000000)])
    s.kr = 0x3FF0000000000000#64 ∧ s.ki = 0#64 := by decide

/-- 42 R212, routing 0: fdest from the multiplier pipe, 10 - 4 into the adder. -/
theorem test_pfmsm :
    let s := run 0x48882810#32 { dualStart with pipeM := singles 0 0 0x40800000 }
    s.readF 8 = 0x40800000#32 ∧ s.pipeA.s0 = .sgl 0x40C00000#32 := by decide

/-! ## Graphics -/

/-- 95 G10. -/
theorem test_fxfr : (run 0x48073040#32 (fregs z [(6, 0x3F800000)])).readReg 7 = 0x3F800000#32 := by decide

/-- 95 G2: the carry crosses bit 31. -/
theorem test_fiadd : (run 0x488611C9#32 (fpairs z [(2, 0xFFFFFFFF), (4, 1)])).readFd 6 = 0x100000000#64 := by decide

/-- 95 G1. -/
theorem test_pfiadd :
    let s := run 0x48641449#32 (fregs { z with pipeG := .sgl 7#32 } [(2, 0xFFFFFFFF), (3, 2)])
    s.readF 4 = 7#32 ∧ s.pipeG = .sgl 1#32 := by decide

/-- 95 G2. -/
theorem test_fisub : (run 0x4864104D#32 (fregs z [(3, 1)])).readF 4 = 0xFFFFFFFF#32 := by decide

/-- 43 R233. -/
theorem test_pfisub :
    let s := run 0x4864144D#32 (fregs { z with pipeG := .sgl 7#32 } [(3, 1)])
    s.readF 4 = 7#32 ∧ s.pipeG = .sgl 0xFFFFFFFF#32 := by decide

/-- 95 G4, PS = 1. -/
theorem test_faddp :
    let s := run 0x488611D0#32
      (fpairs { withPsr 0x400000#32 z with merge := 0xAAAAAAAAAAAAAAAA#64 } [(2, 0x1100220033004400), (4, 0x0100010001000100)])
    s.readFd 6 = 0x1200230034004500#64 ∧ s.merge = 0x12AA22AA36AA46AA#64 := by decide

/-- 95 G9. -/
theorem test_pfaddp :
    let s := run 0x488615D0#32
      (fpairs { z with pipeG := .sgl 0x55555555#32 } [(2, 0x1100220033004400), (4, 0x0100010001000100)])
    s.readF 6 = 0x55555555#32 ∧ s.pipeG = .dbl 0x1200230034004500#64 := by decide

/-- 95 G6. -/
theorem test_faddz :
    let s := run 0x488611D1#32 (fpairs z [(2, 0x123456789ABCDEF0), (4, 0x0001000000010000)])
    s.readFd 6 = 0x123556789ABDDEF0#64 ∧ s.merge = 0x123500009ABD0000#64 := by decide

/-- 95 G6, the second, pipelined. -/
theorem test_pfaddz :
    let s := run 0x488615D1#32 (fpairs { z with merge := 0x123500009ABD0000#64 } [(2, 0xAAAA0000BBBB0000), (4, 0)])
    s.merge = 0xAAAA1235BBBB9ABD#64 ∧ s.pipeG = .dbl 0xAAAA0000BBBB0000#64 := by decide

/-- 95 G6. -/
theorem test_form :
    let s := run 0x480611DA#32 (fpairs { z with merge := 0xAAAA1235BBBB9ABD#64 } [(2, 0x000000FF000000FF)])
    s.readFd 6 = 0xAAAA12FFBBBB9AFF#64 ∧ s.merge = 0#64 := by decide

/-- 43 R238. -/
theorem test_pform :
    let s := run 0x480615DA#32 (fpairs { z with merge := 0xAAAA1235BBBB9ABD#64 } [(2, 0x000000FF000000FF)])
    s.pipeG = .dbl 0xAAAA12FFBBBB9AFF#64 ∧ s.merge = 0#64 := by decide

/-- 95 G7. -/
theorem test_fzchks :
    let s := run 0x488611DF#32 (fpairs (withPsr 0xFF000000#32 z) [(2, 0x0001000200030004), (4, 0x0002000200020005)])
    s.readFd 6 = 0x0001000200020004#64 ∧ s.pm = 0x6F#8 := by decide

/-- 43 R240: pipelined, the operands of 95 G7. -/
theorem test_pfzchks :
    let s := run 0x488615DF#32 (fpairs (withPsr 0xFF000000#32 z) [(2, 0x0001000200030004), (4, 0x0002000200020005)])
    s.pipeG = .dbl 0x0001000200020004#64 ∧ s.pm = 0x6F#8 := by decide

/-- 95 G8. -/
theorem test_fzchkl :
    let s := run 0x488611D7#32 (fpairs (withPsr 0xFF000000#32 z) [(2, 0x0000001000000020), (4, 0x0000001100000020)])
    s.readFd 6 = 0x0000001000000020#64 ∧ s.pm = 0x7F#8 := by decide

/-- 43 R241: pipelined, the operands of 95 G8. -/
theorem test_pfzchkl :
    let s := run 0x488615D7#32 (fpairs (withPsr 0xFF000000#32 z) [(2, 0x0000001000000020), (4, 0x0000001100000020)])
    s.pipeG = .dbl 0x0000001000000020#64 ∧ s.pm = 0x7F#8 := by decide

/-! ## The step -/

/-- 95 E2: a word that is no instruction. -/
theorem test_step_unassigned :
    let s := stepped (branchAt 0x1000 0x18000000#32 countSlot)
    s.psr = 0x100#32 ∧ s.fir = 0x1000#32 := by decide

/-- 95 E4: the interrupt is sampled after both halves. -/
theorem test_step_interrupt :
    let s := stepped { withPsr 0x10#32 (branchAt 0x1000 countSlot countSlot) with extIntr := true }
    s.readReg 5 = 2#32 ∧ s.fir = 0x1008#32 ∧ s.psr = 0x220#32 := by decide

/-- 95 T11: the fetch faults. -/
theorem test_step_fetch_fault :
    let s := stepped { paged 0x40#32 0x00020006#32 0x00055005#32 with pc := 0x403000#32 }
    s.psr = 0x480#32 ∧ s.fir = 0x403000#32 := by decide

/-- 95 D1: the first word marked for the dual-instruction mode. -/
theorem test_step_dim : (stepped (branchAt 0x1000 0x48641230#32 0xA0000000#32)).dim = .temp := by decide

/-- The instruction of a table word is decoded and run first. -/
theorem test_withFetchWord :
    decodeTableWord 32 0x84A50001 = some (.adduImm ⟨5#5, 5#5, 1#16⟩) ∧
    (stepped (z.withFetchWord 32 0x84A50001)).readReg 5 = 0x55AA5506#32 := by decide

/-! ## Witnesses: states and operands that meet the hypotheses of the statements

One theorem for each clause with hypotheses, named after the statement; each is the conjunction of the clause's hypotheses at a
concrete state and operands, at the edge of a range where there is one. -/

/-! ### Integer unit and control registers -/

theorem witness_SignedFlagsAreExact_adds :
    ∃ t, exec (.addsReg ⟨2#5, 3#5, 1#5⟩) (regs z [(1, 0x7FFFFFFF), (2, 1)]) = .next t ∧ t.overflow = true := ⟨_, rfl, by decide⟩

theorem witness_SignedFlagsAreExact_subs :
    ∃ t, exec (.subsReg ⟨2#5, 3#5, 1#5⟩) (regs z [(1, 0x80000000), (2, 1)]) = .next t ∧ t.overflow = true := ⟨_, rfl, by decide⟩

theorem witness_SignedFlagsAreExact_imm :
    (∃ t, exec (.addsImm ⟨2#5, 3#5, 0xFFFF#16⟩) (regs z [(2, 0x80000000)]) = .next t ∧ t.overflow = true) ∧
    (∃ t, exec (.subsImm ⟨2#5, 3#5, 0x7FFF#16⟩) (regs z [(2, 0x80000000)]) = .next t ∧ t.overflow = true) :=
  ⟨⟨_, rfl, by decide⟩, ⟨_, rfl, by decide⟩⟩

theorem witness_Shifts_shrd :
    (3#5 = (⟨2#5, 3#5, 1#5⟩ : RegOps).dest ∧ 3#5 ≠ 0#5) ∧ (0#5 ≠ (⟨2#5, 3#5, 1#5⟩ : RegOps).dest ∨ 0#5 = 0#5) := by decide

theorem witness_ControlRegisterRead :
    (1#5, z.psr) ∈ [(1#5, z.psr), (2#5, z.dirbase), (3#5, z.db), (4#5, z.fsr), (5#5, z.epsr)] ∧
    (5#5, z.epsr) ∈ [(1#5, z.psr), (2#5, z.dirbase), (3#5, z.db), (4#5, z.fsr), (5#5, z.epsr)] := by decide

theorem witness_ControlRegisterRead_iti : Invariant z := by constructor <;> decide

theorem witness_ControlRegisterOutOfRange : 5 < (6#5).toNat ∧ 5 < (31#5).toNat := by decide

/-! ### Memory and translation -/

theorem witness_MemoryRoundTrip :
    m1000.mem.wf = true ∧ m1000.mem ≠ [] ∧ 1 ∈ [1, 2, 4, 8, 16] ∧ 16 ∈ [1, 2, 4, 8, 16] := by decide

theorem witness_MemoryRoundTrip_bytes : InBytes 0xFFFFFFFF#32 2 0 ∧ ¬ InBytes 0xFFFFFFFF#32 2 1 :=
  ⟨⟨1, by decide⟩, fun ⟨i, h, e⟩ => by
    have hi : i = 0 ∨ i = 1 := by omega
    rcases hi with rfl | rfl <;> exact absurd e (by decide)⟩

theorem witness_TranslationWithoutWalk_off : z.dirbase.getLsbD 0 = false := by decide

/-- Translation on, with the last page in the TLB for a read and a write. -/
def hit : State := { z with dirbase := 0x10001#32, tlb := [(126, ⟨0xFFFFF#20, 0x12345#20⟩), (127, ⟨0xFFFFF#20, 0x12345#20⟩)] }

theorem witness_TranslationWithoutWalk_hit :
    hit.dirbase.getLsbD 0 = true ∧ SlotHolds hit 0xFFFFFFFF#32 true ⟨0xFFFFF#20, 0x12345#20⟩ ∧
    SlotHolds hit 0xFFFFF000#32 false ⟨0xFFFFF#20, 0x12345#20⟩ := by
  unfold SlotHolds; decide

/-- An empty slot does not hold the page. -/
theorem missesOf {s : State} {va : Word} {w : Bool}
    (h : s.tlb.lookup (2 * ((va.toNat / 2 ^ 12) % s.par.tlbSets) + (if w then 1 else 0)) = none) : SlotMisses s va w :=
  fun e he => by rw [h] at he; cases he

/-- Translation on, both slots consulted, with the last page in the slot for writes alone. -/
def crossHit : State :=
  { z with
    dirbase := 0x10001#32, tlb := [(127, ⟨0xFFFFF#20, 0x12345#20⟩)], par := { z.par with tlbCrossHit := true } }

theorem witness_TranslationWithoutWalk_cross :
    crossHit.dirbase.getLsbD 0 = true ∧ crossHit.par.tlbCrossHit = true ∧ SlotMisses crossHit 0xFFFFFFFF#32 false ∧
    SlotHolds crossHit 0xFFFFFFFF#32 (!false) ⟨0xFFFFF#20, 0x12345#20⟩ := by
  refine ⟨by decide, by decide, missesOf (by decide), by unfold SlotHolds; decide⟩

/-- A miss of the own slot, with the other one not consulted; of both, with both consulted; and of an entry for another page. -/
theorem witness_PageWalk_misses :
    (hit.dirbase.getLsbD 0 = true ∧ SlotMisses hit 0x1000#32 false ∧ hit.par.tlbCrossHit = false) ∧
    (crossHit.dirbase.getLsbD 0 = true ∧ SlotMisses crossHit 0x1000#32 false ∧ SlotMisses crossHit 0x1000#32 true) ∧
    SlotMisses crossHit 0xBF000#32 true := by
  refine ⟨⟨by decide, missesOf (by decide), by decide⟩, ⟨by decide, missesOf (by decide), missesOf (by decide)⟩, fun e he => ?_⟩
  cases (show crossHit.tlb.lookup 127 = some ⟨0xFFFFF#20, 0x12345#20⟩ by decide).symm.trans he
  decide

/-- The two entries a walk reads. -/
def entries (s : State) (va : Word) : Word × Word :=
  let pde := wordAt s (s.pdeAddr va)
  (pde, wordAt s (Machine.pteAddr pde va))

/-- An absent page table: the access is violated. -/
theorem witness_PageWalk_violates :
    (entries (paged 0x40#32 0x00020006#32 0x00055005#32) 0x403004#32).1.getLsbD 0 = false := by decide

/-- Both entries grant a user's read, and a supervisor's write; the page is clean. -/
theorem witness_PageWalk_fill_and_clean :
    entries (paged 0x40#32 0x00020007#32 0x00055005#32) 0x403004#32 = (0x00020007#32, 0x00055005#32) ∧
    (0x00020007#32 : Word).getLsbD 0 = true ∧ (0x00020007#32 : Word).getLsbD 2 = true ∧
    (0x00055005#32 : Word).getLsbD 0 = true ∧ (0x00055005#32 : Word).getLsbD 2 = true ∧
    (paged 0#32 0x00020007#32 0x00055005#32).user = false ∧ (paged 0#32 0x00020007#32 0x00055005#32).wp = false ∧
    (0x00055005#32 : Word).getLsbD 6 = false := by decide

/-- A state in which the translation of a load walks. -/
def walking : State := paged 0x40#32 0x00020007#32 0x00055005#32

theorem witness_AccessAfterWalk :
    ∃ t p, dataAccess walking (.ldlImm ⟨4#5, 5#5, 5#16⟩) = some ⟨4, 0x403004#32, false⟩ ∧ (0x403004#32).toNat % 4 = 0 ∧
      walking.physical 0x403004#32 true false = (t, some p) ∧ t.tlb ≠ walking.tlb := ⟨_, _, rfl, rfl, rfl, by decide⟩

theorem witness_DataAccessFaults_misaligned :
    dataAccess m1000 (.ldlReg ⟨4#5, 5#5, 0#5⟩) = some ⟨4, 0x1000#32, false⟩ ∧
    dataAccess (regs m1000 [(4, 0xFFFFFFFF)]) (.ldlReg ⟨4#5, 5#5, 0#5⟩) = some ⟨4, 0xFFFFFFFF#32, false⟩ ∧
    dataRegisterFits (.ldlReg ⟨4#5, 5#5, 0#5⟩) = true ∧ (0xFFFFFFFF#32).toNat % 4 ≠ 0 ∧
    m1000.par.alignCheck = true ∧ ({ m1000 with par := { m1000.par with alignCheck := false } } : State).par.alignCheck = false := by
  decide

theorem witness_DataAccessFaults_translation :
    ∃ t, dataAccess walking (.stl ⟨4#5, 5#5, 5#16⟩) = some ⟨4, 0x403004#32, true⟩ ∧
      dataRegisterFits (.stl ⟨4#5, 5#5, 5#16⟩) = true ∧ (0x403004#32).toNat % 4 = 0 ∧
      walking.physical 0x403004#32 true true = (t, none) := ⟨_, rfl, rfl, rfl, rfl⟩

/-- The breakpoint is enabled for reads, at 0x1000. -/
def breaking : State := { withPsr 1#32 m1000 with db := 0x1000#32 }

theorem witness_DataAccessFaults_breakpoint :
    dataAccess breaking (.ldlReg ⟨4#5, 5#5, 0#5⟩) = some ⟨4, 0x1000#32, false⟩ ∧
    breaking.physical 0x1000#32 true false = (breaking, some 0x1000#32) ∧ breaking.psr.getLsbD 0 = true ∧
    (0x1000#32).toNat - (0x1000#32).toNat % 4 = breaking.db.toNat := by decide

theorem witness_FaultingAccessIsPrecise :
    ∃ t, dataAccess walking (.stl ⟨4#5, 5#5, 5#16⟩) = some ⟨4, 0x403004#32, true⟩ ∧ walking.exitedEarly = false ∧
      exec (.stl ⟨4#5, 5#5, 5#16⟩) walking = .next t ∧ t.exitedEarly = true := ⟨_, rfl, rfl, rfl, rfl⟩

/-! ### Loads and stores -/

/-- r4 the base and r2 the index of the accesses below. -/
def based (s : State) (base index : Word) : State := regs s [(4, base), (2, index)]

/-- The last byte, half and word of the address space. -/
theorem witness_IntegerLoads :
    (based z 0xFFFFFFFE 1).Resident 1 ((based z 0xFFFFFFFE 1).readReg 2#5 + (based z 0xFFFFFFFE 1).readReg 4#5) false 0xFFFFFFFF#32 ∧
    (based z 0xFFFFFFFC 2).Resident 2 ((based z 0xFFFFFFFC 2).readReg 2#5 + (based z 0xFFFFFFFC 2).readReg 4#5) false 0xFFFFFFFE#32 ∧
    (based z 0xFFFFFFF8 4).Resident 4 ((based z 0xFFFFFFF8 4).readReg 2#5 + (based z 0xFFFFFFF8 4).readReg 4#5) false 0xFFFFFFFC#32 := by
  unfold State.Resident State.Breaks; decide

/-- The same with a displacement, and through the TLB. -/
theorem witness_IntegerLoads_imm :
    (based hit 0 0).Resident 4 ((BitVec.signExtend 32 0xFFFD#16 &&& ~~~3#32) + (based hit 0 0).readReg 4#5) false 0x12345FFC#32 := by
  unfold State.Resident State.Breaks; decide

theorem witness_IntegerStores :
    m1000.mem.wf = true ∧
    m1000.Resident 1 (BitVec.signExtend 32 0xFFFF#16 + m1000.readReg 4#5) true 0xFFF#32 ∧
    m1000.Resident 2 ((BitVec.signExtend 32 0xFFFE#16 &&& ~~~1#32) + m1000.readReg 4#5) true 0xFFE#32 ∧
    m1000.Resident 4 ((BitVec.signExtend 32 0xFFFD#16 &&& ~~~3#32) + m1000.readReg 4#5) true 0xFFC#32 := by
  unfold State.Resident State.Breaks; decide

theorem witness_FloatLoads :
    (2#5).getLsbD 0 = false ∧ (28#5).getLsbD 0 = false ∧ (28#5).getLsbD 1 = false ∧
    (based z 0xFFFFFFF8 4).Resident 4 ((based z 0xFFFFFFF8 4).readReg 2#5 + (based z 0xFFFFFFF8 4).readReg 4#5) false 0xFFFFFFFC#32 ∧
    (based z 0xFFFFFFF0 8).Resident 8 ((based z 0xFFFFFFF0 8).readReg 2#5 + (based z 0xFFFFFFF0 8).readReg 4#5) false 0xFFFFFFF8#32 ∧
    (based z 0xFFFFFFE0 16).Resident 16 ((based z 0xFFFFFFE0 16).readReg 2#5 + (based z 0xFFFFFFE0 16).readReg 4#5) false 0xFFFFFFF0#32 := by
  unfold State.Resident State.Breaks; decide

theorem witness_FloatLoads_imm :
    (based z 0 0).Resident 4 ((BitVec.signExtend 32 0xFFFF#16 &&& ~~~3#32) + (based z 0 0).readReg 4#5) false 0xFFFFFFFC#32 ∧
    (based z 0 0).Resident 8 ((BitVec.signExtend 32 0xFFF9#16 &&& ~~~7#32) + (based z 0 0).readReg 4#5) false 0xFFFFFFF8#32 ∧
    (based z 0 0).Resident 16 ((BitVec.signExtend 32 0xFFF5#16 &&& ~~~15#32) + (based z 0 0).readReg 4#5) false 0xFFFFFFF0#32 := by
  unfold State.Resident State.Breaks; decide

theorem witness_FloatStores :
    z.mem.wf = true ∧ (30#5).getLsbD 0 = false ∧ (28#5).getLsbD 1 = false ∧
    (based z 0xFFFFFFF8 4).Resident 4 ((based z 0xFFFFFFF8 4).readReg 2#5 + (based z 0xFFFFFFF8 4).readReg 4#5) true 0xFFFFFFFC#32 ∧
    (based z 0xFFFFFFF0 8).Resident 8 ((based z 0xFFFFFFF0 8).readReg 2#5 + (based z 0xFFFFFFF0 8).readReg 4#5) true 0xFFFFFFF8#32 ∧
    (based z 0xFFFFFFE0 16).Resident 16 ((based z 0xFFFFFFE0 16).readReg 2#5 + (based z 0xFFFFFFE0 16).readReg 4#5) true 0xFFFFFFF0#32 := by
  unfold State.Resident State.Breaks; decide

theorem witness_FloatStores_imm :
    (based z 0 0).Resident 4 ((BitVec.signExtend 32 0xFFFF#16 &&& ~~~3#32) + (based z 0 0).readReg 4#5) true 0xFFFFFFFC#32 ∧
    (based z 0 0).Resident 8 ((BitVec.signExtend 32 0xFFF9#16 &&& ~~~7#32) + (based z 0 0).readReg 4#5) true 0xFFFFFFF8#32 ∧
    (based z 0 0).Resident 16 ((BitVec.signExtend 32 0xFFF5#16 &&& ~~~15#32) + (based z 0 0).readReg 4#5) true 0xFFFFFFF0#32 := by
  unfold State.Resident State.Breaks; decide

/-- An odd fdest fits a stage of single precision, an even one any stage. -/
theorem witness_PipelinedLoads :
    SlotFits 9#5 z.pipeL.s2 ∧ SlotFits 8#5 (.dbl 5#64) ∧
    (based z 0xFFFFFFF8 4).Resident 4 ((based z 0xFFFFFFF8 4).readReg 2#5 + (based z 0xFFFFFFF8 4).readReg 4#5) false 0xFFFFFFFC#32 ∧
    (based z 0xFFFFFFF0 8).Resident 8 ((based z 0xFFFFFFF0 8).readReg 2#5 + (based z 0xFFFFFFF0 8).readReg 4#5) false 0xFFFFFFF8#32 := by
  unfold State.Resident State.Breaks; exact ⟨trivial, rfl, by decide⟩

theorem witness_PixelStore :
    (8#5).getLsbD 0 = false ∧ m1000.mem.wf = true ∧
    m1000.Resident 8 ((BitVec.signExtend 32 0xFFF9#16 &&& ~~~7#32) + m1000.readReg 4#5) true 0xFF8#32 ∧
    m1000.ps = 0#2 ∧ (withPsr 0x400000#32 m1000).ps = 1#2 ∧ (withPsr 0x800000#32 m1000).ps = 2#2 ∧
    (withPsr 0xC00000#32 m1000).ps = 3#2 := by
  unfold State.Resident State.Breaks; decide

/-! ### Control transfer -/

/-- The slot that counts, behind a branch, and the slot that traps. -/
def counting : State := branchAt 0x2000 0x68000003#32 countSlot
/-- As `counting`. -/
def trapping : State := regs (branchAt 0x2000 0x68000003#32 trapSlot) [(6, 0x1002)]

theorem witness_ConditionalBranches :
    (∃ u, runSlot counting = .next u ∧ u.trapPending = false) ∧
    (if counting.ccValid then counting.ccRaw else counting.psr.getLsbD 2) = false ∧
    (∃ u, runSlot (withPsr 4#32 counting) = .next u ∧ u.trapPending = false) ∧
    (if (withPsr 4#32 counting).ccValid then (withPsr 4#32 counting).ccRaw else (withPsr 4#32 counting).psr.getLsbD 2) = true :=
  ⟨⟨_, rfl, rfl⟩, by decide, ⟨_, rfl, rfl⟩, by decide⟩

theorem witness_DelayedJumps : ∃ u, runSlot counting = .next u ∧ u.trapPending = false := ⟨_, rfl, rfl⟩

theorem witness_BranchOnLccAndAdd :
    4#5 ≠ 5#5 ∧ ∃ u, runSlot (counting.writeReg 5#5 (counting.readReg 4#5 + counting.readReg 5#5)) = .next u ∧
      u.trapPending = false := ⟨by decide, _, rfl, rfl⟩

theorem witness_IndirectBranch :
    (∃ u, runSlot counting = .next u ∧ u.trapPending = false) ∧ counting.psr &&& 0x1F00#32 = 0#32 ∧
    (∃ u, runSlot (withPsr 0x1000#32 counting) = .next u ∧ u.trapPending = false) ∧
    (withPsr 0x1000#32 counting).psr &&& 0x1F00#32 ≠ 0#32 := ⟨⟨_, rfl, rfl⟩, by decide, ⟨_, rfl, rfl⟩, by decide⟩

theorem witness_TrapInSlot :
    (∃ u, runSlot trapping = .next u ∧ u.trapPending = true) ∧ trapping.branchCC = false ∧
    (∃ u, runSlot (withPsr 4#32 trapping) = .next u ∧ u.trapPending = true) ∧ (withPsr 4#32 trapping).branchCC = true ∧
    (∃ u, runSlot (trapping.writeReg 5#5 (trapping.readReg 4#5 + trapping.readReg 5#5)) = .next u ∧ u.trapPending = true) :=
  ⟨⟨_, rfl, rfl⟩, by decide, ⟨_, rfl, rfl⟩, by decide, ⟨_, rfl, rfl⟩⟩

/-- A nop in the instruction cache at 0x2004, and pc at 0x2000. -/
def nopSlot : State := { (z.icacheFill 0x2000#32 0xA000000000000000#64) with pc := 0x2000#32 }

theorem witness_DelayedBranchesComplete :
    nopSlot.icacheHit (alignDown (nopSlot.pc + 4#32) 8) = some 0xA000000000000000#64 ∧
    selectWord (nopSlot.pc + 4#32) 0xA000000000000000#64 = 0xA0000000#32 ∧ nopSlot.trapPending = false ∧
    nopSlot.psr &&& 0x1F00#32 = 0#32 ∧ 4#5 ≠ 5#5 := by decide

/-- A slot word in memory, the branch at 0x2000. -/
def slotted (w : Word) : State := branchAt 0x2000 0x68000003#32 w

theorem witness_SlotRunsInstruction :
    (∃ u, ({ slotted countSlot with pc := 0x2004#32 } : State).fetch 0x2004#32 = (u, some countSlot)) ∧
    decode countSlot = .ok (.adduImm ⟨5#5, 5#5, 1#16⟩) ∧
    isControlTransfer (.adduImm ⟨5#5, 5#5, 1#16⟩) = false ∧ isTrapCall (.adduImm ⟨5#5, 5#5, 1#16⟩) = false ∧
    (∃ u, ({ slotted 0x40000800#32 with pc := 0x2004#32 } : State).fetch 0x2004#32 = (u, some 0x40000800#32)) ∧
    decode 0x40000800#32 = .ok (.bri 1#5) ∧ isControlTransfer (.bri 1#5) = true ∧
    (∃ u, ({ slotted 0x4C000004#32 with pc := 0x2004#32 } : State).fetch 0x2004#32 = (u, some 0x4C000004#32)) ∧
    decode 0x4C000004#32 = .ok .intovr ∧ isTrapCall .intovr = true ∧
    (∃ u, ({ slotted 0x18000000#32 with pc := 0x2004#32 } : State).fetch 0x2004#32 = (u, some 0x18000000#32)) ∧
    decode 0x18000000#32 = .error .unassignedPrimary :=
  ⟨⟨_, rfl⟩, by decide, by decide, by decide, ⟨_, rfl⟩, by decide, by decide, ⟨_, rfl⟩, by decide, by decide, ⟨_, rfl⟩, by decide⟩

theorem witness_SlotRunsInstruction_fetch_fault :
    ∃ u, ({ z with pc := 0x2004#32, dirbase := 1#32 } : State).fetch 0x2004#32 = (u, none) := ⟨_, rfl⟩

theorem witness_TrapAndLock : (z.setOF true).epsr.getLsbD 24 = true ∧ z.epsr.getLsbD 24 = false := by decide

/-! ### Floating point -/

/-- Operands of a format: fsrc1 = f2, fsrc2 = f4, fdest = f6. -/
def ops (s r : Bool) : FpOps := ⟨2#5, 4#5, 6#5, false, s, r⟩

theorem witness_ScalarArithmetic :
    (¬ Ds (ops false false) ∧ SourcesFit (ops false false) ∧ ResultFits (ops false false)) ∧
    (¬ Ds (ops false true) ∧ SourcesFit (ops false true) ∧ ResultFits (ops false true)) ∧
    (¬ Ds (ops true true) ∧ SourcesFit (ops true true) ∧ ResultFits (ops true true)) := by
  unfold Ds SourcesFit ResultFits; decide

theorem witness_PipelinedArithmetic :
    ¬ Ds (ops true true) ∧ SourcesFit (ops true true) ∧ ¬ Ds (ops false true) ∧ SourcesFit (ops false true) ∧
    SlotFits 6#5 z.pipeA.s2 ∧ SlotFits 6#5 z.pipeM.s2 ∧ SlotFits 6#5 z.pipeM.s1 ∧ SlotFits 6#5 (.dbl 1#64) ∧
    (ops false true).s = false ∧ (ops true true).s = true := by
  unfold Ds SourcesFit; exact ⟨by decide, by decide, by decide, by decide, trivial, trivial, trivial, rfl, rfl, rfl⟩

theorem witness_ConvertToInteger :
    (ops true true).r = true ∧ (ops true true).src1.getLsbD 0 = false ∧ (ops true true).dest.getLsbD 0 = false ∧
    SlotFits (ops true true).dest z.pipeA.s2 ∧
    (src (fpairs z [(2, 0x4004000000000000)]) true 2#5).fix 0#2 = some 2#32 :=
  ⟨rfl, rfl, rfl, trivial, by decide⟩

theorem witness_Moves :
    (ops true false).src1.getLsbD 0 = false ∧ ResultFits (ops true false) ∧ SlotFits (ops true false).dest z.pipeA.s2 ∧
    (ops true true).s = (ops true true).r := ⟨rfl, fun h => by simp [ops] at h, trivial, rfl⟩

theorem witness_Compares :
    SourcesFit (ops true true) ∧ SlotFits (ops true true).dest z.pipeA.s2 ∧ (ops false false).s = false ∧
    ((fregs z [(2, 0x7FC00001)]).readF (ops false false).src1).extractLsb' 23 8 = 0xFF#8 ∧
    ((fregs z [(2, 0x7FC00001)]).readF (ops false false).src1).extractLsb' 0 23 ≠ 0#23 :=
  ⟨fun _ => ⟨rfl, rfl⟩, trivial, rfl, by decide, by decide⟩

/-- A double NaN in fsrc2 whose fraction is in its low word alone. -/
theorem witness_Compares_double :
    (ops true true).s = true ∧
    ((fregs z [(5, 0xFFF00000), (4, 1)]).readF ((ops true true).src2 + 1#5)).extractLsb' 20 11 = 0x7FF#11 ∧
    (fregs z [(5, 0xFFF00000), (4, 1)]).readF (ops true true).src2 ≠ 0#32 := by decide

theorem witness_MultiplyLow :
    (ops true true).s = true ∧ (ops true true).r = true ∧ SourcesFit (ops true true) ∧ ResultFits (ops true true) := by
  unfold SourcesFit ResultFits; decide

/-- f4 holds 2.0, then 0.0, then -2.0. -/
theorem witness_Approximations :
    ¬ Ds (ops false true) ∧ ResultFits (ops false true) ∧
    (src (fregs z [(4, 0x40000000)]) false 4#5).isZero = false ∧ (src (fregs z [(4, 0x40000000)]) false 4#5).sign = false ∧
    (src z false 4#5).isZero = true ∧ (src (fregs z [(4, 0xC0000000)]) false 4#5).sign = true ∧
    (ops true true).src2.getLsbD 0 = false ∧ z.par.fpTrapsEnabled = false ∧
    ({ z with par := { z.par with fpTrapsEnabled := true } } : State).par.fpTrapsEnabled = true ∧ z.fsr.getLsbD 5 = false ∧
    ({ z with fsr := 0x20#32 } : State).fsr.getLsbD 5 = true := by
  unfold Ds ResultFits; decide

theorem witness_DualOperations :
    ¬ Ds (ops true true) ∧ SourcesFit (ops true true) ∧ SlotFits (ops true true).dest z.pipeA.s2 ∧
    SlotFits (ops true true).dest z.pipeM.s1 ∧ ¬ Ds (ops false false) ∧ SourcesFit (ops false false) ∧
    SlotFits (ops false false).dest z.pipeM.s2 := by
  unfold Ds SourcesFit; exact ⟨by decide, by decide, trivial, trivial, by decide, by decide, trivial⟩

theorem witness_GraphicsAdd :
    (ops true true).s = (ops true true).r ∧ SourcesFit (ops true true) ∧ (ops false false).s = (ops false false).r ∧
    SourcesFit (ops false false) ∧ SlotFits (ops true true).dest (.dbl 1#64) ∧ SlotFits (ops true true).dest z.pipeG ∧
    SlotFits 7#5 (.sgl 1#32) := by
  unfold SourcesFit; exact ⟨rfl, by decide, rfl, by decide, rfl, trivial, trivial⟩

theorem witness_PixelMerge :
    (ops true true).src1.getLsbD 0 = false ∧ (ops true true).src2.getLsbD 0 = false ∧
    SlotFits (ops true true).dest (.dbl 1#64) ∧ SlotFits (ops true true).dest z.pipeG ∧ z.ps = 0#2 ∧
    (withPsr 0x400000#32 z).ps = 1#2 ∧ (withPsr 0x800000#32 z).ps = 2#2 ∧ (withPsr 0xC00000#32 z).ps = 3#2 :=
  ⟨rfl, rfl, rfl, trivial, by decide, by decide, by decide, by decide⟩

theorem witness_ZBufferCheck :
    (ops true true).src1.getLsbD 0 = false ∧ (ops true true).src2.getLsbD 0 = false ∧
    SlotFits (ops true true).dest (.dbl 1#64) ∧ SlotFits (ops true true).dest z.pipeG := ⟨rfl, rfl, rfl, trivial⟩

theorem witness_IllegalPrecisionTraps :
    (ops true false).s = true ∧ (ops true false).r = false ∧ (ops true false).s ≠ (ops true false).r ∧
    ¬ ((ops false true).s = true ∧ (ops false true).r = true) := by decide

theorem witness_UnalignedOperandRefused :
    dataAccess m1000 (.fldqReg ⟨4#5, 2#5, 0#5, false⟩) = some ⟨16, 0x1000#32, false⟩ ∧
    dataRegisterFits (.fldqReg ⟨4#5, 2#5, 0#5, false⟩) = false ∧
    (⟨3#5, 5#5, 7#5, false, true, true⟩ : FpOps).s = true ∧ (⟨3#5, 5#5, 7#5, false, true, true⟩ : FpOps).r = true ∧
    (⟨3#5, 5#5, 7#5, false, true, true⟩ : FpOps).src1.getLsbD 0 = true ∧
    (⟨3#5, 5#5, 7#5, false, true, true⟩ : FpOps).src2.getLsbD 0 = true ∧
    (⟨3#5, 5#5, 7#5, false, true, true⟩ : FpOps).dest.getLsbD 0 = true := by decide

/-- .sd with an odd fdest, on an operand that frcp and frsqr accept. -/
theorem witness_UnalignedOperandRefused_result :
    (⟨2#5, 4#5, 7#5, false, false, true⟩ : FpOps).r = true ∧ (⟨2#5, 4#5, 7#5, false, false, true⟩ : FpOps).dest.getLsbD 0 = true ∧
    (src (fregs z [(4, 0x40000000)]) false 4#5).isZero = false ∧ (src (fregs z [(4, 0x40000000)]) false 4#5).sign = false := by
  decide

/-- Every stage that is written out is a double, and fdest is odd. -/
def doubles : State :=
  let d : Slot := .dbl 1#64
  { m1000 with pipeA := ⟨d, d, d⟩, pipeM := ⟨d, d, d⟩, pipeL := ⟨d, d, d⟩, pipeG := d }

theorem witness_UnalignedOperandRefused_stage :
    ¬ SlotFits 7#5 doubles.pipeA.s2 ∧ ¬ SlotFits 7#5 doubles.pipeM.s1 ∧ ¬ SlotFits 7#5 doubles.pipeM.s2 ∧
    ¬ SlotFits 7#5 doubles.pipeG ∧ ¬ SlotFits 7#5 doubles.pipeL.s2 ∧ ¬ Ds (ops true true) ∧ ¬ Ds (ops false false) ∧
    (ops true true).s = (ops true true).r ∧ doubles.Resident 8 0x1000#32 false 0x1000#32 ∧
    doubles.Resident 4 0x1004#32 false 0x1004#32 := by
  unfold SlotFits doubles Ds State.Resident State.Breaks; decide

theorem witness_AdderLatency :
    ∃ s1 s2 s3 s4, exec (.pfadd (ops true true)) z = .next s1 ∧ exec (.pfle (ops true false)) s1 = .next s2 ∧
      exec (.pfmam 9#4 (ops false false)) s2 = .next s3 ∧ exec (.pfix (ops false true)) s3 = .next s4 ∧
      advancesAdder (.pfadd (ops true true)) = true ∧ advancesAdder (.pfle (ops true false)) = true ∧
      advancesAdder (.pfmam 9#4 (ops false false)) = true ∧ advancesAdder (.pfix (ops false true)) = true ∧
      adderWritesTo (.pfix (ops false true)) = some 6#5 :=
  ⟨_, _, _, _, rfl, rfl, rfl, rfl, rfl, rfl, rfl, rfl, rfl⟩

/-! ### Traps and the step -/

theorem witness_TrapEntry :
    (({ z with trapExternal := true, pcUpdated := true } : State).trapExternal = true ∧
      ({ z with trapExternal := true, pcUpdated := true } : State).pcUpdated = true) ∧
    (({ z with trapExternal := true } : State).trapExternal = true ∧ ({ z with trapExternal := true } : State).pcUpdated = false) ∧
    (({ z with trapInDelaySlot := true } : State).trapExternal = false ∧
      ({ z with trapInDelaySlot := true } : State).trapInDelaySlot = true) ∧
    (z.trapExternal = false ∧ z.trapInDelaySlot = false) := by decide

theorem witness_InterruptSampling :
    z.extIntr = false ∧ ({ z with extIntr := true } : State).extIntr = true ∧ ({ z with extIntr := true } : State).im = false ∧
    (withPsr 0x10#32 { z with extIntr := true }).im = true := by decide

/-- A running core with two words at 0x1000. -/
def pairAt (lo hi : Word) (pc : Word) : State := { branchAt 0x1000 lo hi with pc := pc }

/-- The pair of the two words. -/
def pairOf (lo hi : Word) : DWord := hi ++ lo

/-- In the high half: an instruction that ends in a next state, and one that is refused. -/
theorem witness_StepRunsDecoded_high :
    (∃ u t, (pairAt 0#32 countSlot 0x1004).beginStep.fetchPair 0x1004#32 = (u, some (pairOf 0#32 countSlot)) ∧
      decode (selectWord 0x1004#32 (pairOf 0#32 countSlot)) = .ok (.adduImm ⟨5#5, 5#5, 1#16⟩) ∧
      exec (.adduImm ⟨5#5, 5#5, 1#16⟩) u = .next t) ∧
    (∃ u, (pairAt 0#32 0x48A611B0#32 0x1004).beginStep.fetchPair 0x1004#32 = (u, some (pairOf 0#32 0x48A611B0#32)) ∧
      decode (selectWord 0x1004#32 (pairOf 0#32 0x48A611B0#32)) = .ok (.fadd ⟨2#5, 5#5, 6#5, false, true, true⟩) ∧
      exec (.fadd ⟨2#5, 5#5, 6#5, false, true, true⟩) u = .refused .unalignedFpOperand) ∧
    (pairAt 0#32 countSlot 0x1004).killed = false ∧ (pairAt 0#32 countSlot 0x1004).halted = false ∧
    (pairAt 0#32 countSlot 0x1004).mailbox = Mailbox.empty ∧ (0x1004#32).getLsbD 2 = true :=
  ⟨⟨_, _, rfl, by decide, rfl⟩, ⟨_, rfl, by decide, rfl⟩, rfl, rfl, rfl, rfl⟩

/-- In the low half: an instruction that falls through, one that traps, one that writes pc, and one that is refused. -/
theorem witness_StepRunsDecoded_low :
    (∃ u t, (pairAt countSlot countSlot 0x1000).beginStep.fetchPair 0x1000#32 = (u, some (pairOf countSlot countSlot)) ∧
      decode (selectWord 0x1000#32 (pairOf countSlot countSlot)) = .ok (.adduImm ⟨5#5, 5#5, 1#16⟩) ∧
      exec (.adduImm ⟨5#5, 5#5, 1#16⟩) { u with dimOp := dimFlagged (lowWord (pairOf countSlot countSlot)) } = .next t ∧
      t.trapPending = false ∧ t.pcUpdated = false) ∧
    (∃ u t, (pairAt 0x44000000#32 countSlot 0x1000).beginStep.fetchPair 0x1000#32 = (u, some (pairOf 0x44000000#32 countSlot)) ∧
      decode (selectWord 0x1000#32 (pairOf 0x44000000#32 countSlot)) = .ok (.trap ⟨0#5, 0#5, 0#5⟩) ∧
      exec (.trap ⟨0#5, 0#5, 0#5⟩) { u with dimOp := dimFlagged (lowWord (pairOf 0x44000000#32 countSlot)) } = .next t ∧
      t.trapPending = true) ∧
    (∃ u t, (pairAt 0x68000003#32 countSlot 0x1000).beginStep.fetchPair 0x1000#32 = (u, some (pairOf 0x68000003#32 countSlot)) ∧
      decode (selectWord 0x1000#32 (pairOf 0x68000003#32 countSlot)) = .ok (.br 3#26) ∧
      exec (.br 3#26) { u with dimOp := dimFlagged (lowWord (pairOf 0x68000003#32 countSlot)) } = .next t ∧
      t.trapPending = false ∧ t.pcUpdated = true) ∧
    (∃ u, (pairAt 0x68000003#32 0x40000800#32 0x1000).beginStep.fetchPair 0x1000#32 =
        (u, some (pairOf 0x68000003#32 0x40000800#32)) ∧
      exec (.br 3#26) { u with dimOp := dimFlagged (lowWord (pairOf 0x68000003#32 0x40000800#32)) } =
        .refused .controlTransferInDelaySlot) ∧
    (0x1000#32).getLsbD 2 = false :=
  ⟨⟨_, _, rfl, by decide, rfl, rfl, rfl⟩, ⟨_, _, rfl, by decide, rfl, rfl⟩, ⟨_, _, rfl, by decide, rfl, rfl, rfl⟩,
    ⟨_, rfl, rfl⟩, rfl⟩

/-- After the high half: a trap; dual-instruction mode; an interrupt that is accepted, and none; and a word in the high half that
is no instruction, after a low half that falls through. -/
theorem witness_StepRunsDecoded_endings :
    (∃ u t, (pairAt 0#32 0x44000000#32 0x1004).beginStep.fetchPair 0x1004#32 = (u, some (pairOf 0#32 0x44000000#32)) ∧
      exec (.trap ⟨0#5, 0#5, 0#5⟩) u = .next t ∧ t.trapPending = true) ∧
    (∃ u t, ({ pairAt 0#32 countSlot 0x1004 with dim := .full } : State).beginStep.fetchPair 0x1004#32 =
        (u, some (pairOf 0#32 countSlot)) ∧
      exec (.adduImm ⟨5#5, 5#5, 1#16⟩) u = .next t ∧ t.trapPending = false ∧ t.dim = .full ∧ t.pcUpdated = false) ∧
    (∃ u t, (withPsr 0x10#32 { pairAt 0#32 countSlot 0x1004 with extIntr := true }).beginStep.fetchPair 0x1004#32 =
        (u, some (pairOf 0#32 countSlot)) ∧
      exec (.adduImm ⟨5#5, 5#5, 1#16⟩) u = .next t ∧ t.trapPending = false ∧ t.dim = .none ∧
      t.sampleInterrupt.trapPending = true) ∧
    (∃ u t, (pairAt 0#32 countSlot 0x1004).beginStep.fetchPair 0x1004#32 = (u, some (pairOf 0#32 countSlot)) ∧
      exec (.adduImm ⟨5#5, 5#5, 1#16⟩) u = .next t ∧ t.trapPending = false ∧ t.dim = .none ∧
      t.sampleInterrupt.trapPending = false ∧ t.sampleInterrupt.pcUpdated = false) ∧
    (∃ u t, (pairAt countSlot 0x18000000#32 0x1000).beginStep.fetchPair 0x1000#32 =
        (u, some (pairOf countSlot 0x18000000#32)) ∧
      exec (.adduImm ⟨5#5, 5#5, 1#16⟩) { u with dimOp := dimFlagged (lowWord (pairOf countSlot 0x18000000#32)) } = .next t ∧
      t.trapPending = false ∧ t.pcUpdated = false ∧
      decode (highWord (pairOf countSlot 0x18000000#32)) = .error .unassignedPrimary) :=
  ⟨⟨_, _, rfl, rfl, rfl⟩, ⟨_, _, rfl, rfl, rfl, rfl, rfl⟩, ⟨_, _, rfl, rfl, rfl, rfl, rfl⟩,
    ⟨_, _, rfl, rfl, rfl, rfl, rfl, rfl⟩, _, _, rfl, rfl, rfl, rfl, by decide⟩

/-- A fetch that faults: translation on, with no page table, and pc at the high half. -/
theorem witness_StepRunsDecoded_fault :
    ∃ u, ({ z with dirbase := 1#32, pc := 0x1004#32 } : State).beginStep.fetchPair 0x1004#32 = (u, none) := ⟨_, rfl⟩

/-- A pair in the instruction cache, with no instruction in either half, and pc at the high one. -/
def cached : State :=
  z.icacheFill (alignDown 0x1004#32 8) 0xC800000018000000#64

theorem witness_UnassignedWordTraps :
    cached.killed = false ∧ cached.halted = false ∧ cached.mailbox = Mailbox.empty ∧
    ({ cached with pc := 0x1004#32 } : State).icacheHit (alignDown 0x1004#32 8) = some 0xC800000018000000#64 ∧
    decode (selectWord 0x1004#32 0xC800000018000000#64) = .error .unassignedPrimary ∧
    decode (selectWord 0x1000#32 0xC800000018000000#64) = .error .unassignedPrimary := by decide

theorem witness_Fetch :
    cached.icache.lookup (((0x1004#32 &&& 0xFFFFFFF8#32 : Word).toNat / 8) % cached.par.icacheLines) =
      some ⟨0x200#29, 0xC800000018000000#64⟩ ∧
    (0x200#29).toNat = (0x1004#32 &&& 0xFFFFFFF8#32 : Word).toNat / 8 ∧
    z.icacheHit (0xFFFFFFFC#32 &&& 0xFFFFFFF8#32) = none ∧ z.dirbase.getLsbD 0 = false := by decide

/-- A refill under translation: by a TLB hit, and by a walk. -/
theorem witness_Fetch_translated :
    (hit.icacheHit 0xFFFFFFF8#32 = none ∧ hit.physical 0xFFFFFFF8#32 false false = (hit, some 0x12345FF8#32)) ∧
    (walking.icacheHit 0x403000#32 = none ∧ ∃ t, walking.physical 0x403000#32 false false = (t, some 0x00055000#32)) :=
  ⟨by decide, by decide, _, rfl⟩

theorem witness_Fetch_fault :
    ∃ t, ({ z with dirbase := 1#32 } : State).icacheHit (0xFFFFFFFC#32 &&& 0xFFFFFFF8#32) = none ∧
      ({ z with dirbase := 1#32 } : State).physical (0xFFFFFFFC#32 &&& 0xFFFFFFF8#32) false false = (t, none) := ⟨_, rfl, rfl⟩

theorem witness_HostMessages :
    ({ z with killed := true } : State).killed = true ∧
    (z.killed = false ∧ ({ z with halted := true } : State).halted = true ∧ z.mailbox = Mailbox.empty) ∧
    (z.post { Mailbox.empty with interrupt := true }).mailbox = { Mailbox.empty with interrupt := true } ∧
    (z.post { Mailbox.empty with halt := true }).mailbox = { Mailbox.empty with halt := true } ∧
    (z.post { Mailbox.empty with resume := true }).mailbox = { Mailbox.empty with resume := true } ∧
    (z.post { Mailbox.empty with kill := true }).mailbox = { Mailbox.empty with kill := true } ∧
    ((z.post { Mailbox.empty with reset := true }).mailbox.reset = true ∧
      (z.post { Mailbox.empty with reset := true }).mailbox.interrupt = false ∧
      (z.post { Mailbox.empty with reset := true }).mailbox.halt = false ∧
      (z.post { Mailbox.empty with reset := true }).mailbox.resume = false) ∧
    (z.post { Mailbox.empty with interrupt := true }).mailbox ≠ Mailbox.empty := by decide

/-- A HALT that is drained before the next step, and one that waits another. -/
theorem witness_HostMessages_wait :
    (∃ t, step { counting with mailbox := { Mailbox.empty with halt := true } } = .next t ∧ t.halted = true) ∧
    (∃ t, step { counting with mailbox := { Mailbox.empty with halt := true }, drainDelay := 1 } = .next t ∧
      t.halted = false ∧ t.drainDelay = 0 ∧ t.pc = 0x2010#32) := ⟨⟨_, rfl, by decide⟩, _, rfl, by decide⟩

/-! ### The machine -/

/-- A state of the invariant that is not the reset state, and its next one. -/
theorem witness_StepKeepsInvariant : Invariant counting ∧ ∃ t, step counting = .next t ∧ t.pc = 0x2010#32 :=
  ⟨⟨by decide, by decide, by decide, by decide, by decide, by decide, by decide, by decide⟩, _, rfl, by decide⟩

/-- In user mode: a write of the PSR, and a load that raises the data-access fault. -/
theorem witness_UserModeProtectsPsr :
    (isBri (.stc ⟨1#5, 6#5⟩) = false ∧ (withPsr 0x40#32 z).user = true ∧
      ∃ t, exec (.stc ⟨1#5, 6#5⟩) (withPsr 0x40#32 z) = .next t) ∧
    (isBri (.stl ⟨4#5, 5#5, 5#16⟩) = false ∧ walking.user = true ∧
      ∃ t, exec (.stl ⟨4#5, 5#5, 5#16⟩) walking = .next t ∧ t.psr = 0x840#32) :=
  ⟨⟨rfl, rfl, _, rfl⟩, rfl, rfl, _, rfl, by decide⟩

theorem witness_OnlyTransfersWritePc :
    isControlTransfer (.stl ⟨4#5, 5#5, 5#16⟩) = false ∧ isStc (.stl ⟨4#5, 5#5, 5#16⟩) = false ∧
    ∃ t, exec (.stl ⟨4#5, 5#5, 5#16⟩) m1000 = .next t := ⟨rfl, rfl, _, rfl⟩

theorem witness_DecodeEncode :
    (Instr.fldqImm ⟨31#5, 31#5, 0xFFF5#16⟩).wellFormed = true ∧ (Instr.pfle ⟨2#5, 3#5, 0#5, true, false, true⟩).wellFormed = true ∧
    decode 0x84A5FFFF#32 = .ok (.adduImm ⟨5#5, 5#5, 0xFFFF#16⟩) := by decide

end Sys2Proof.Tests
end

/-! SUPPORT. What every instruction but a control transfer, ld.c and st.c keeps: each shared operation of the instructions,
then the instructions themselves. -/

namespace Sys2Proof.Machine

/-! ## Outcomes that keep -/

/-- A choice of two outcomes. -/
theorem outKept_ite {s : State} {c : Prop} [Decidable c] {a b : Out} (ha : OutKept s a) (hb : OutKept s b) :
    OutKept s (if c then a else b) := by
  split
  · exact ha
  · exact hb

/-- What follows a change. -/
theorem Kept.outKept {s u : State} {o : Out} (h : Kept s u) (ho : OutKept u o) : OutKept s o :=
  fun t ht => h.trans (ho t ht)

/-- The instruction trap. -/
theorem outKept_raise (s : State) (kind : TrapKind) : OutKept s (.next (s.raise kind)) := outKept_next (kept_raise s kind)

/-! ## The integer unit -/

/-- The end of an add or subtract. -/
theorem outKept_writeArith (s : State) (dest : Reg) (result : Word) (cc ovf : Bool) :
    OutKept s (writeArith s dest result cc ovf) :=
  outKept_next (((kept_setCC s cc).trans (kept_setOF _ ovf)).trans (kept_writeReg _ dest result))

/-- The end of a logical instruction. -/
theorem outKept_writeLogic (s : State) (dest : Reg) (result : Word) : OutKept s (writeLogic s dest result) :=
  outKept_next ((kept_setCC s _).trans (kept_writeReg _ dest result))

/-- A shift that writes no flag. -/
theorem outKept_writeReg (s : State) (dest : Reg) (v : Word) : OutKept s (.next (s.writeReg dest v)) :=
  outKept_next (kept_writeReg s dest v)

/-- `shr`, which writes SC. -/
theorem outKept_opShr (s : State) (dest : Reg) (a b : Word) : OutKept s (opShr s dest a b) :=
  outKept_next ((kept_setSC s _).trans (kept_writeReg _ dest _))

/-! ## Loads and stores -/

/-- An integer load of a byte. -/
theorem outKept_opLdb (s : State) (dest : Reg) (eff : Word) : OutKept s (opLdb s dest eff) :=
  outKept_load fun u _ => outKept_writeReg u dest _

/-- An integer load of two bytes. -/
theorem outKept_opLds (s : State) (dest : Reg) (eff : Word) : OutKept s (opLds s dest eff) :=
  outKept_load fun u _ => outKept_writeReg u dest _

/-- An integer load of a word. -/
theorem outKept_opLdl (s : State) (dest : Reg) (eff : Word) : OutKept s (opLdl s dest eff) :=
  outKept_load fun u v => outKept_writeReg u dest v

/-- A floating load of 32 bits. -/
theorem outKept_opFldl (s : State) (dest src2 : Reg) (inc : Bool) (eff : Word) : OutKept s (opFldl s dest src2 inc eff) :=
  outKept_load fun u v => outKept_next ((kept_writeF u dest v).trans (kept_autoInc _ inc src2 eff))

/-- A floating load of 64 bits. -/
theorem outKept_opFldd (s : State) (dest src2 : Reg) (inc : Bool) (eff : Word) : OutKept s (opFldd s dest src2 inc eff) :=
  outKept_ite (outKept_refused s _) <|
    outKept_load fun u v => outKept_next ((kept_writeFd u dest v).trans (kept_autoInc _ inc src2 eff))

/-- A floating load of 128 bits. -/
theorem outKept_opFldq (s : State) (dest src2 : Reg) (inc : Bool) (eff : Word) : OutKept s (opFldq s dest src2 inc eff) :=
  outKept_ite (outKept_refused s _) <|
    outKept_load fun u v => outKept_next ((kept_writeFq u dest v).trans (kept_autoInc _ inc src2 eff))

/-- A floating store of 32 bits. -/
theorem outKept_opFstl (s : State) (dest src2 : Reg) (inc : Bool) (eff : Word) : OutKept s (opFstl s dest src2 inc eff) :=
  outKept_store fun u => outKept_next (kept_autoInc u inc src2 eff)

/-- A floating store of 64 bits. -/
theorem outKept_opFstd (s : State) (dest src2 : Reg) (inc : Bool) (eff : Word) : OutKept s (opFstd s dest src2 inc eff) :=
  outKept_ite (outKept_refused s _) <| outKept_store fun u => outKept_next (kept_autoInc u inc src2 eff)

/-- A floating store of 128 bits. -/
theorem outKept_opFstq (s : State) (dest src2 : Reg) (inc : Bool) (eff : Word) : OutKept s (opFstq s dest src2 inc eff) :=
  outKept_ite (outKept_refused s _) <| outKept_store fun u => outKept_next (kept_autoInc u inc src2 eff)

/-- The end of a pipelined load. -/
theorem outKept_finishPfld (dest src2 : Reg) (inc : Bool) (eff : Word) (s : State) (v : Slot) :
    OutKept s (finishPfld dest src2 inc eff s v) :=
  outKept_andThen (outKept_writeSlot s dest _) fun u =>
    have hpush : Kept u { u with pipeL := u.pipeL.push false v } := { Kept.refl u with }
    outKept_next (hpush.trans (kept_autoInc _ inc src2 eff))

/-- A pipelined load of 32 bits. -/
theorem outKept_opPfldl (s : State) (dest src2 : Reg) (inc : Bool) (eff : Word) : OutKept s (opPfldl s dest src2 inc eff) :=
  outKept_load fun u v => outKept_finishPfld dest src2 inc eff u (.sgl v)

/-- A pipelined load of 64 bits. -/
theorem outKept_opPfldd (s : State) (dest src2 : Reg) (inc : Bool) (eff : Word) : OutKept s (opPfldd s dest src2 inc eff) :=
  outKept_load fun u v => outKept_finishPfld dest src2 inc eff u (.dbl v)

/-- The free value drawn for PSR.PS = 3. -/
theorem kept_drawnForPS (s : State) : Kept s (drawnForPS s) := by
  unfold drawnForPS
  split
  · exact kept_drawn s
  · exact Kept.refl s

/-- The pixel store. -/
theorem outKept_execPstd (o : ImmOps) (s : State) : OutKept s (execPstd o s) :=
  outKept_ite (outKept_refused s _) <| outKept_storeMasked fun u =>
    outKept_next (((kept_drawnForPS u).trans (kept_setPM _ _)).trans (kept_autoInc _ _ _ _))

/-! ## Floating point -/

/-- The scalar two-operand instructions. -/
theorem outKept_opScalar (op : Config.FpOp) (adv : Bool) (o : FpOps) (s : State) : OutKept s (opScalar op adv o s) :=
  outKept_ite (outKept_raise s _) <| outKept_ite (outKept_refused s _) (outKept_finishScalar s adv o.dest _)

/-- The pipelined two-operand instructions. -/
theorem outKept_opPiped (op : Config.FpOp) (pipe : FpPipe) (o : FpOps) (s : State) : OutKept s (opPiped op pipe o s) :=
  outKept_ite (outKept_raise s _) <| outKept_ite (outKept_refused s _) (outKept_finishPiped s pipe o.dest _)

/-- fix and ftrunc. -/
theorem outKept_opFix (piped : Bool) (rm : BitVec 2) (o : FpOps) (s : State) : OutKept s (opFix piped rm o s) :=
  outKept_ite (outKept_raise s _) <| outKept_ite (outKept_refused s _) <|
    outKept_ite ((kept_drawn s).outKept (outKept_finishPiped _ _ _ _))
      ((kept_drawn s).outKept (outKept_finishScalar _ _ _ _))

/-- famov and pfamov. -/
theorem outKept_opMove (piped : Bool) (o : FpOps) (s : State) : OutKept s (opMove piped o s) :=
  outKept_ite (outKept_refused s _) <| outKept_ite (outKept_finishPiped s _ _ _) (outKept_finishScalar s _ _ _)

/-- CC and the side channel of a compare. -/
theorem kept_setCompare (s : State) (c : Bool) : Kept s (s.setCompare c) := { kept_setCC s c with }

/-- The compares. -/
theorem outKept_opCompare (rel : Config.FpRel) (o : FpOps) (s : State) : OutKept s (opCompare rel o s) :=
  outKept_ite (outKept_refused s _) <| (kept_drawn s).outKept <|
    outKept_andThen (outKept_finishPiped _ _ _ _) fun u => outKept_next (kept_setCompare u _)

/-- `pfmul3.dd`. -/
theorem outKept_execPfmul3 (p : Bool) (o : FpOps) (s : State) : OutKept s (execPfmul3 p o s) :=
  outKept_ite (outKept_raise s _) (outKept_opPiped _ _ o s)

/-- `fmlow.dd`. -/
theorem outKept_execFmlow (o : FpOps) (s : State) : OutKept s (execFmlow o s) :=
  outKept_ite (outKept_raise s _) <| outKept_ite (outKept_refused s _) <|
    (kept_drawn s).outKept (outKept_writeSlot _ _ _)

/-- The answer of frcp and frsqr to an invalid input. -/
theorem kept_sourceException (s : State) : Kept s (sourceException s) := by
  unfold sourceException
  split
  · dsimp only
    split
    · exact (kept_setSE s true).trans (kept_raise _ _)
    · exact kept_setSE s true
  · exact Kept.refl s

/-- frcp and frsqr. -/
theorem outKept_opApprox (invalid : Slot → Bool) (f : BitVec 2 → Bool → Slot → Slot) (o : FpOps) (s : State) :
    OutKept s (opApprox invalid f o s) :=
  outKept_ite (outKept_raise s _) <| outKept_ite (outKept_refused s _) <|
    outKept_ite (outKept_next (kept_sourceException s)) ((kept_setSE s false).outKept (outKept_writeSlot _ _ _))

/-- `frsqr` is the approximation that refuses zero and negative operands (41 R181). -/
theorem exec_frsqr (o : FpOps) (s : State) :
    exec (.frsqr o) s = opApprox (fun v => v.isZero || v.sign) reciprocalSqrt o s := rfl

/-- The loads of KR, KI and T. -/
theorem kept_dualLoads (row : Route) (lastM src1 : Slot) (s : State) : Kept s (dualLoads row lastM src1 s) := by
  unfold dualLoads
  dsimp only
  split_ifs <;> exact { Kept.refl s with }

/-- The dual-operation instructions. -/
theorem outKept_opDual (isM : Bool) (addOp : Config.FpOp) (dpc : BitVec 4) (o : FpOps) (s : State) :
    OutKept s (opDual isM addOp dpc o s) :=
  outKept_ite (outKept_raise s _) <| outKept_ite (outKept_refused s _) <|
    outKept_andThen (outKept_writeSlot s _ _) fun u =>
      outKept_next (((kept_dualLoads _ _ _ u).trans (kept_pipePush _ _ _)).trans (kept_pipePush _ _ _))

/-! ## Graphics -/

/-- A write of MERGE. -/
theorem kept_merge (s : State) (m : DWord) : Kept s { s with merge := m } := { Kept.refl s with }

/-- The graphics add and subtract. -/
theorem outKept_opInteger (piped : Bool) (f32 : Word → Word → Word) (f64 : DWord → DWord → DWord) (o : FpOps) (s : State) :
    OutKept s (opInteger piped f32 f64 o s) :=
  outKept_ite (outKept_raise s _) <| outKept_ite (outKept_refused s _) (outKept_finishGraphics _ _ _ _)

/-- The pixel add. -/
theorem outKept_opFaddp (piped : Bool) (o : FpOps) (s : State) : OutKept s (opFaddp piped o s) :=
  outKept_ite (outKept_refused s _) <|
    ((kept_drawnForPS s).trans (kept_merge _ _)).outKept (outKept_finishGraphics _ _ _ _)

/-- The Z add. -/
theorem outKept_opFaddz (piped : Bool) (o : FpOps) (s : State) : OutKept s (opFaddz piped o s) :=
  outKept_ite (outKept_refused s _) <| (kept_merge s _).outKept (outKept_finishGraphics _ _ _ _)

/-- The merge with MERGE. -/
theorem outKept_opForm (piped : Bool) (o : FpOps) (s : State) : OutKept s (opForm piped o s) :=
  outKept_ite (outKept_refused s _) <| (kept_merge s _).outKept (outKept_finishGraphics _ _ _ _)

/-- The Z checks. -/
theorem outKept_opZcheck (piped : Bool) (value : DWord → DWord → DWord) (mask : BitVec 8 → DWord → DWord → BitVec 8)
    (o : FpOps) (s : State) : OutKept s (opZcheck piped value mask o s) :=
  outKept_ite (outKept_refused s _) <|
    ((kept_setPM s _).trans (kept_merge _ _)).outKept (outKept_finishGraphics _ _ _ _)

/-! ## The instructions -/

/-- `intovr`. -/
theorem outKept_execIntovr (s : State) : OutKept s (execIntovr s) :=
  outKept_next (by
    split
    · exact kept_raise s _
    · exact Kept.refl s)

/-- Every instruction but a control transfer, ld.c and st.c keeps what `Kept` lists. -/
theorem exec_outKept {i : Instr} (s : State) (hc : isControlTransfer i = false) (hst : ¬ ∃ o, i = .stc o)
    (hld : ¬ ∃ o, i = .ldc o) : OutKept s (exec i s) := by
  cases i
  case br | call | bc | bct | bnc | bnct | bteReg | bteImm | btneReg | btneImm | bla | bri | calli => cases hc
  case stc o => exact absurd ⟨o, rfl⟩ hst
  case ldc o => exact absurd ⟨o, rfl⟩ hld
  case ldbReg | ldbImm => exact outKept_opLdb s _ _
  case ldsReg | ldsImm => exact outKept_opLds s _ _
  case ldlReg | ldlImm => exact outKept_opLdl s _ _
  case stb | sts | stl => exact outKept_store fun u => outKept_next (Kept.refl u)
  case fldlReg | fldlImm => exact outKept_opFldl s _ _ _ _
  case flddReg | flddImm => exact outKept_opFldd s _ _ _ _
  case fldqReg | fldqImm => exact outKept_opFldq s _ _ _ _
  case fstlReg | fstlImm => exact outKept_opFstl s _ _ _ _
  case fstdReg | fstdImm => exact outKept_opFstd s _ _ _ _
  case fstqReg | fstqImm => exact outKept_opFstq s _ _ _ _
  case pfldlReg | pfldlImm => exact outKept_opPfldl s _ _ _ _
  case pflddReg | pflddImm => exact outKept_opPfldd s _ _ _ _
  case pstd o => exact outKept_execPstd o s
  case flush => exact outKept_next (kept_autoInc s _ _ _)
  case ixfr => exact outKept_next (kept_writeF s _ _)
  case adduReg | adduImm | subuReg | subuImm | addsReg | addsImm | subsReg | subsImm =>
    exact outKept_writeArith s _ _ _ _
  case shlReg | shlImm | shraReg | shraImm | shrd | fxfr => exact outKept_writeReg s _ _
  case shrReg | shrImm => exact outKept_opShr s _ _ _
  case andReg | andImm | andh | andnotReg | andnotImm | andnoth | orReg | orImm | orh | xorReg | xorImm | xorh =>
    exact outKept_writeLogic s _ _
  case fadd | fsub | fmul => exact outKept_opScalar _ _ _ s
  case pfadd | pfsub | pfmul => exact outKept_opPiped _ _ _ s
  case fix | pfix | ftrunc | pftrunc => exact outKept_opFix _ _ _ s
  case famov | pfamov => exact outKept_opMove _ _ s
  case pfgt | pfle | pfeq => exact outKept_opCompare _ _ s
  case pfmul3 p o => exact outKept_execPfmul3 p o s
  case fmlow o => exact outKept_execFmlow o s
  case frcp o => exact outKept_opApprox Slot.isZero reciprocal o s
  case frsqr o => exact exec_frsqr o s ▸ outKept_opApprox _ _ o s
  case pfam | pfmam | pfsm | pfmsm => exact outKept_opDual _ _ _ _ s
  case fiadd | pfiadd | fisub | pfisub => exact outKept_opInteger _ _ _ _ s
  case faddp | pfaddp => exact outKept_opFaddp _ _ s
  case faddz | pfaddz => exact outKept_opFaddz _ _ s
  case form | pform => exact outKept_opForm _ _ s
  case fzchks | pfzchks | fzchkl | pfzchkl => exact outKept_opZcheck _ _ _ _ s
  case trap => exact outKept_raise s _
  case intovr => exact outKept_execIntovr s
  case lock | unlock => exact outKept_next (Kept.refl s)

/-! ## ld.c and st.c -/

/-- ld.c writes an integer register, and of the state that `Kept` speaks of FIR and its latch alone (45 R292). -/
theorem execLdc_eq_next {o : LdcOps} {s t : State} (h : execLdc o s = .next t) :
    t = { s with iregs := t.iregs, fir := t.fir, firLatched := t.firLatched, freeCount := t.freeCount } ∧
      (t.fir = s.fir ∨ t.fir = s.pc) := by
  unfold execLdc at h
  split at h <;> cases h
  case h_1 =>
    refine ⟨rfl, ?_⟩
    show (if s.firLatched = true then s.fir else s.pc) = _ ∨ (if s.firLatched = true then s.fir else s.pc) = _
    split
    · exact .inl rfl
    · exact .inr rfl
  all_goals exact ⟨rfl, .inl rfl⟩

/-- st.c writes control registers other than FIR, and nothing besides but the TLB and the instruction cache, which a write of
ITI empties (45 R293). -/
theorem execStc_eq_next {o : StcOps} {s t : State} (h : execStc o s = .next t) :
    t = { s with
      psr := t.psr, dirbase := t.dirbase, db := t.db, fsr := t.fsr, epsr := t.epsr, tlb := t.tlb, icache := t.icache } := by
  unfold execStc at h
  dsimp only at h
  split at h <;> cases h
  case h_2 => unfold writeDirbase; split <;> rfl
  all_goals rfl

/-- An instruction that is no control transfer is st.c, or ld.c, or keeps what `Kept` lists. -/
theorem exec_cases {i : Instr} (s : State) (hc : isControlTransfer i = false) :
    (∃ o, i = .stc o) ∨ (∃ o, i = .ldc o) ∨ OutKept s (exec i s) := by
  by_cases hst : ∃ o, i = .stc o
  · exact .inl hst
  by_cases hld : ∃ o, i = .ldc o
  · exact .inr (.inl hld)
  · exact .inr (.inr (exec_outKept s hc hst hld))

/-- Settles O58: all but ld.c and st.c keep what `Kept` lists, and each of the two writes its own registers alone. -/
theorem onlyTransfersWritePc : Obligations.OnlyTransfersWritePc := by
  intro i s t hc h
  rcases exec_cases s hc with ⟨o, rfl⟩ | ⟨o, rfl⟩ | hk
  · rw [execStc_eq_next (o := o) h]
    exact ⟨rfl, rfl, nofun, fun _ => ⟨rfl, rfl⟩⟩
  · obtain ⟨e, _⟩ := execLdc_eq_next (o := o) h
    rw [e]
    exact ⟨rfl, rfl, fun _ => ⟨rfl, rfl, fun _ _ => rfl⟩, fun hn => absurd rfl (hn o)⟩
  · have k := hk t h
    exact ⟨k.pc, k.pcUpdated, fun _ => ⟨k.dirbase, k.db, k.epsr⟩, fun _ => ⟨k.fir, k.firLatched⟩⟩

end Sys2Proof.Machine

/-! SUPPORT. The invariant is kept by every instruction, by every part of the step and by the drain of the messages. -/

namespace Sys2Proof.Machine

/-! ## Masks and alignment -/

/-- Two words agree under a mask when they agree on its bits. -/
theorem and_mask_eq {mask a b : Word} (h : ∀ k, mask.getLsbD k = true → a.getLsbD k = b.getLsbD k) :
    a &&& mask = b &&& mask := by
  apply BitVec.eq_of_getLsbD_eq
  intro k _
  rw [BitVec.getLsbD_and, BitVec.getLsbD_and]
  cases hm : mask.getLsbD k
  · rw [Bool.and_false, Bool.and_false]
  · rw [h k hm]

/-- A merge agrees with the old word under a mask whose bits it does not write. -/
theorem mergeBits_and {mask written new old : Word} (h : written &&& mask = 0#32) :
    mergeBits written new old &&& mask = old &&& mask := by
  refine and_mask_eq fun k hk => ?_
  have hw : written.getLsbD k = false := by
    have := congrArg (fun w : Word => w.getLsbD k) h
    simpa [hk] using this
  rw [getLsbD_mergeBits, hw]
  rfl

/-- A multiple of 4 is left by a step of a multiple of 4. -/
theorem add_aligned {a b : Word} (ha : a.toNat % 4 = 0) (hb : b.toNat % 4 = 0) : (a + b).toNat % 4 = 0 := by
  rw [BitVec.toNat_add]
  omega

/-- Four times an offset is a multiple of 4. -/
theorem shiftLeft_two_aligned (w : Word) : (w <<< 2).toNat % 4 = 0 := by
  rw [shiftLeft_two, BitVec.toNat_mul]
  simp

/-- The target of a long branch at an instruction is an instruction's address. -/
theorem longTarget_aligned {pc : Word} (off : BitVec 26) (h : pc.toNat % 4 = 0) : (longTarget pc off).toNat % 4 = 0 :=
  add_aligned (add_aligned h rfl) (shiftLeft_two_aligned _)

/-- The target of a short branch at an instruction is an instruction's address. -/
theorem shortTarget_aligned {pc : Word} (off : BitVec 16) (h : pc.toNat % 4 = 0) : (shortTarget pc off).toNat % 4 = 0 :=
  add_aligned (add_aligned h rfl) (shiftLeft_two_aligned _)

/-- The target of a register branch is an instruction's address. -/
theorem registerTarget_aligned (s : State) (src1 : Reg) : (registerTarget s src1).toNat % 4 = 0 := alignDown_four_mod _

/-- The address of the trap handler and of reset is an instruction's. -/
theorem trapVector_aligned : Config.trapVector.toNat % 4 = 0 := by decide

/-! ## The invariant at fixed parameters -/

/-- The invariant, and the parameters of the implementation are `p`. -/
structure InvariantAt (p : Params) (s : State) : Prop extends Invariant s where
  par : s.par = p

/-- A next state, if there is one, is of the invariant. -/
def OutInvariant (p : Params) (o : Out) : Prop := ∀ t, o = .next t → InvariantAt p t

section

variable {p : Params} {s t : State}

/-- A next state. -/
theorem outInvariant_next (h : InvariantAt p s) : OutInvariant p (.next s) := fun _ ht => by cases ht; exact h

/-- A refusal. -/
theorem outInvariant_refused (r : Refusal) : OutInvariant p (.refused r) := fun _ ht => by cases ht

/-- One operation after another. -/
theorem outInvariant_andThen {o : Out} {f : State → Out} (h : OutInvariant p o)
    (g : ∀ u, InvariantAt p u → OutInvariant p (f u)) : OutInvariant p (andThen o f) := by
  intro t ht
  obtain ⟨u, hu, ht⟩ := andThen_eq_next.1 ht
  exact g u (h u hu) t ht

/-- What `Kept` lists is enough for the invariant. -/
theorem InvariantAt.of_kept (h : InvariantAt p s) (k : Kept s t) : InvariantAt p t where
  pcAligned := k.pc ▸ h.pcAligned
  firAligned := k.fir ▸ h.firAligned
  memWf := k.mem h.memWf
  tlbSorted := k.tlb h.tlbSorted
  icacheSorted := k.icache ▸ h.icacheSorted
  itiZero := k.dirbase ▸ h.itiZero
  epsrKept := (and_mask_eq fun b hb => k.epsr b (by rintro (_ | ⟨_, ⟨⟩⟩); cases hb)).trans h.epsrKept
  fsrKept := (and_mask_eq fun b hb => k.fsr b (by rintro (_ | ⟨_, ⟨⟩⟩); cases hb)).trans h.fsrKept
  par := k.par.trans h.par

/-- A new program counter. -/
theorem InvariantAt.atPc (h : InvariantAt p s) {pc : Word} (hpc : pc.toNat % 4 = 0) : InvariantAt p (s.atPc pc) :=
  { h with pcAligned := hpc }

/-- A jump. -/
theorem InvariantAt.jump (h : InvariantAt p s) {pc : Word} (hpc : pc.toNat % 4 = 0) : InvariantAt p (s.jump pc) :=
  { h with pcAligned := hpc }

/-! ## Instructions that write a control register -/

/-- ld.c. -/
theorem outInvariant_execLdc (o : LdcOps) (h : InvariantAt p s) : OutInvariant p (execLdc o s) := by
  intro t ht
  obtain ⟨e, hfir⟩ := execLdc_eq_next ht
  have hf : t.fir.toNat % 4 = 0 := by
    rcases hfir with hf | hf <;> rw [hf]
    · exact h.firAligned
    · exact h.pcAligned
  rw [e]
  exact { h with firAligned := hf }

/-- A write of DIRBASE stores ITI as 0, and empties the two caches or leaves them. -/
theorem InvariantAt.writeDirbase (h : InvariantAt p s) (v : Word) : InvariantAt p (writeDirbase s v) := by
  have hiti : (v &&& 0xFFFFFFDF#32).getLsbD 5 = false := by simp
  unfold Machine.writeDirbase
  split
  · exact { h with tlbSorted := rfl, icacheSorted := rfl, itiZero := hiti }
  · exact { h with itiZero := hiti }

/-- A write of the EPSR leaves the fixed fields. -/
theorem InvariantAt.writeEpsr (h : InvariantAt p s) (v : Word) : InvariantAt p (writeEpsr s v) :=
  { h with epsrKept := (mergeBits_and (by cases s.user <;> decide)).trans h.epsrKept }

/-- A write of the FSR leaves the fixed bits. -/
theorem InvariantAt.writeFsr (h : InvariantAt p s) (v : Word) : InvariantAt p (writeFsr s v) :=
  { h with fsrKept := (mergeBits_and (by decide)).trans h.fsrKept }

/-- st.c. -/
theorem outInvariant_execStc (o : StcOps) (h : InvariantAt p s) : OutInvariant p (execStc o s) := by
  unfold execStc
  dsimp only
  split <;> apply outInvariant_next
  case h_1 => exact { h with }
  case h_2 => exact h.writeDirbase _
  case h_3 => exact { h with }
  case h_4 => exact h.writeFsr _
  case h_5 => exact h.writeEpsr _
  case h_6 => exact h

/-! ## The delay slot and the control transfers -/

/-- Every instruction that is no control transfer. -/
theorem outInvariant_exec_of_not_transfer {i : Instr} (hc : isControlTransfer i = false) (h : InvariantAt p s) :
    OutInvariant p (exec i s) := by
  rcases exec_cases s hc with ⟨o, rfl⟩ | ⟨o, rfl⟩ | hk
  · exact outInvariant_execStc o h
  · exact outInvariant_execLdc o h
  · exact fun t ht => h.of_kept (hk t ht)

/-- An instruction in a delay slot: one of those that are no control transfer, or a refusal. -/
theorem outInvariant_execSlot (i : Instr) (h : InvariantAt p s) : OutInvariant p (execSlot i s) := by
  cases hc : isControlTransfer i
  · cases ht : isTrapCall i
    · rw [execSlot_eq_exec s hc ht]
      exact outInvariant_exec_of_not_transfer hc h
    · rw [execSlot_trapCall s ht]
      exact outInvariant_refused _
  · rw [execSlot_controlTransfer s hc]
    exact outInvariant_refused _

/-- A word in a delay slot. -/
theorem outInvariant_execSlotWord (w : Word) (h : InvariantAt p s) : OutInvariant p (execSlotWord w s) := by
  unfold execSlotWord
  split
  · exact outInvariant_execSlot _ h
  · exact outInvariant_next (h.of_kept (kept_raise s _))

/-- A translation, for data or for a fetch. -/
theorem InvariantAt.physical (h : InvariantAt p s) {va : Word} {d w : Bool} {r : Option Word}
    (hp : s.physical va d w = (t, r)) : InvariantAt p t := by
  have hm := physical_wf hp h.memWf
  have ht := physical_tlb_sorted hp h.tlbSorted
  cases r with
  | some a => rw [physical_some hp]; exact { h with memWf := hm, tlbSorted := ht }
  | none => rw [physical_none hp]; exact { h with memWf := hm }

/-- The fetch of a pair. -/
theorem InvariantAt.fetchPair (h : InvariantAt p s) {pc : Word} {r : Option DWord} (hf : s.fetchPair pc = (t, r)) :
    InvariantAt p t := by
  rcases fetchPair_cases hf with ⟨rfl, _⟩ | ⟨u, hp, rfl, _⟩ | ⟨u, a, hp, rfl, _⟩
  · exact h
  · exact { h.physical hp with }
  · exact { h.physical hp with icacheSorted := Table.sorted_insert _ _ _ (h.physical hp).icacheSorted }

/-- The fetch of a word. -/
theorem InvariantAt.fetch (h : InvariantAt p s) {pc : Word} {r : Option Word} (hf : s.fetch pc = (t, r)) :
    InvariantAt p t := by
  unfold State.fetch at hf
  split at hf <;> cases hf
  · exact h.fetchPair (by assumption)
  · exact h.fetchPair (by assumption)

/-- The slot of a delayed branch. -/
theorem outInvariant_runSlot (h : InvariantAt p s) : OutInvariant p (runSlot s) := by
  have hpc : InvariantAt p (s.atPc (s.pc + 4#32)) := h.atPc (add_aligned h.pcAligned rfl)
  unfold runSlot
  dsimp only
  split
  · exact outInvariant_execSlotWord _ (hpc.fetch (by assumption))
  · exact outInvariant_next (hpc.fetch (by assumption))

/-- A delayed branch: its end starts with pc back at the branch. -/
theorem outInvariant_delaySlot {k : State → Out} (h : InvariantAt p s)
    (hk : ∀ u, InvariantAt p u → OutInvariant p (k u)) : OutInvariant p (delaySlot s k) := by
  intro t ht
  obtain ⟨u, hu, ⟨_, rfl⟩ | ⟨_, hn⟩⟩ := delaySlot_eq_next ht
  · exact { (outInvariant_runSlot h u hu) with pcAligned := h.pcAligned }
  · exact hk _ ((outInvariant_runSlot h u hu).atPc h.pcAligned) t hn

/-- A branch without a delay slot. -/
theorem outInvariant_branchIf {taken : Bool} {target : Word} (h : InvariantAt p s) (ht : target.toNat % 4 = 0) :
    OutInvariant p (branchIf taken target s) := by
  apply outInvariant_next
  split
  · exact h.jump ht
  · exact h

/-- A conditional delayed branch. -/
theorem outInvariant_delayedIf {taken : Bool} {target : Word} (h : InvariantAt p s) (ht : target.toNat % 4 = 0) :
    OutInvariant p (delayedIf taken target s) := by
  unfold delayedIf
  split
  · exact outInvariant_delaySlot h fun u hu => outInvariant_next (hu.jump ht)
  · exact outInvariant_next (h.jump (add_aligned h.pcAligned rfl))

/-- The end of a call. -/
theorem outInvariant_link {target : Word} (h : InvariantAt p s) (ht : target.toNat % 4 = 0) :
    OutInvariant p (link target s) :=
  outInvariant_next ((h.of_kept (kept_writeReg s _ _)).jump ht)

/-- The end of bla. -/
theorem outInvariant_blaEnd (off : BitVec 16) (lccNew : Bool) (h : InvariantAt p s) :
    OutInvariant p (blaEnd off lccNew s) := by
  have ht : (if s.lcc = true then shortTarget s.pc off else s.pc + 8#32).toNat % 4 = 0 := by
    split
    · exact shortTarget_aligned off h.pcAligned
    · exact add_aligned h.pcAligned rfl
  exact outInvariant_next { h.jump ht with }

/-- bla. -/
theorem outInvariant_execBla (o : SplitOps) (h : InvariantAt p s) : OutInvariant p (execBla o s) := by
  unfold execBla
  split
  · exact outInvariant_next h
  · exact outInvariant_delaySlot (h.of_kept (kept_writeReg s _ _)) fun u hu => outInvariant_blaEnd _ _ hu

/-- The end of bri. -/
theorem outInvariant_briEnd {ret : Bool} {target : Word} (h : InvariantAt p s) (ht : target.toNat % 4 = 0) :
    OutInvariant p (briEnd ret target s) := by
  apply outInvariant_next
  split
  · exact { h.jump ht with }
  · exact h.jump ht

/-- Every instruction. -/
theorem outInvariant_exec (i : Instr) (h : InvariantAt p s) : OutInvariant p (exec i s) := by
  cases hc : isControlTransfer i
  · exact outInvariant_exec_of_not_transfer hc h
  cases i
  case br off =>
    exact outInvariant_delaySlot h fun u hu => outInvariant_next (hu.jump (longTarget_aligned off hu.pcAligned))
  case call off =>
    exact outInvariant_delaySlot h fun u hu => outInvariant_link hu (longTarget_aligned off hu.pcAligned)
  case bc off | bnc off => exact outInvariant_branchIf h (longTarget_aligned off h.pcAligned)
  case bct off | bnct off => exact outInvariant_delayedIf h (longTarget_aligned off h.pcAligned)
  case bteReg o | bteImm o | btneReg o | btneImm o =>
    exact outInvariant_branchIf h (shortTarget_aligned o.off h.pcAligned)
  case bla o => exact outInvariant_execBla o h
  case bri src1 =>
    exact outInvariant_delaySlot h fun u hu => outInvariant_briEnd hu (registerTarget_aligned s src1)
  case calli src1 =>
    exact outInvariant_delaySlot h fun u hu => outInvariant_link hu (registerTarget_aligned s src1)
  all_goals cases hc

/-- Every word. -/
theorem outInvariant_execWord (w : Word) (h : InvariantAt p s) : OutInvariant p (execWord w s) := by
  unfold execWord
  split
  · exact outInvariant_exec _ h
  · exact outInvariant_next (h.of_kept (kept_raise s _))

/-! ## The step -/

/-- Trap entry: FIR receives the address of an instruction. -/
theorem InvariantAt.takeTrap (h : InvariantAt p s) {savepc : Word} (hpc : savepc.toNat % 4 = 0) :
    InvariantAt p (s.takeTrap savepc) := by
  have h4 : (savepc + 4#32).toNat % 4 = 0 := add_aligned hpc rfl
  have hf : (s.faultAddress savepc).toNat % 4 = 0 := by
    unfold State.faultAddress
    split_ifs
    · exact h.pcAligned
    · exact h4
    · exact h4
    · exact hpc
  exact { h with pcAligned := trapVector_aligned, firAligned := hf }

/-- The interrupt pin is none of the fixed fields of the EPSR. -/
theorem InvariantAt.setIntPin (h : InvariantAt p s) (b : Bool) : InvariantAt p (s.setIntPin b) :=
  { h with
    epsrKept := (and_mask_eq fun k hk => by
      show (setBit s.epsr 17 b).getLsbD k = _
      rw [getLsbD_setBit _ _ _ _ (by omega), if_neg (by rintro rfl; cases hk)]).trans h.epsrKept }

/-- The sampling of the interrupt. -/
theorem InvariantAt.sampleInterrupt (h : InvariantAt p s) : InvariantAt p s.sampleInterrupt := by
  unfold State.sampleInterrupt
  split_ifs
  · exact { (h.of_kept (kept_raise s .interrupt)).setIntPin true with }
  · exact { h with }
  · exact h.setIntPin false

/-- The interrupt sampled or not, after the high half. -/
theorem InvariantAt.sampleAfterHigh (h : InvariantAt p s) : InvariantAt p s.sampleAfterHigh := by
  unfold State.sampleAfterHigh
  split
  · exact h.sampleInterrupt
  · exact h

/-- The trap a step takes, or the advance of pc. -/
theorem InvariantAt.trapOrAdvance (h : InvariantAt p s) {savepc : Word} (hpc : savepc.toNat % 4 = 0) :
    InvariantAt p (s.trapOrAdvance savepc) := by
  unfold State.trapOrAdvance
  split_ifs
  · exact h.takeTrap hpc
  · exact h
  · exact h.atPc (add_aligned h.pcAligned rfl)

/-- The high half of a pair. -/
theorem outInvariant_highHalf (pair : DWord) (h : InvariantAt p s) : OutInvariant p (highHalf pair s) :=
  outInvariant_andThen (outInvariant_execWord _ h) fun _ hu =>
    outInvariant_next (hu.sampleAfterHigh.trapOrAdvance h.pcAligned)

/-- The low half of a pair, and the high half after it. -/
theorem outInvariant_lowHalf (pair : DWord) (h : InvariantAt p s) : OutInvariant p (lowHalf pair s) := by
  have hflag : InvariantAt p { s with dimOp := dimFlagged (lowWord pair) } := { h with }
  refine outInvariant_andThen (outInvariant_execWord _ hflag) fun u hu => ?_
  split_ifs
  · exact outInvariant_next (hu.takeTrap h.pcAligned)
  · exact outInvariant_next hu
  · exact outInvariant_highHalf pair { hu with pcAligned := add_aligned hu.pcAligned rfl }

/-- The pair of a step. -/
theorem outInvariant_runPair (h : InvariantAt p s) : OutInvariant p (runPair s) := by
  cases hf : s.fetchPair s.pc with
  | mk u r =>
    have hu := h.fetchPair hf
    cases r with
    | none =>
      rw [runPair_of_fault hf]
      exact outInvariant_next (hu.takeTrap h.pcAligned)
    | some pair =>
      rw [runPair_of_fetch hf]
      split
      · exact outInvariant_highHalf pair hu
      · exact outInvariant_lowHalf pair hu

/-- A step of the running core. -/
theorem outInvariant_coreStep (h : InvariantAt p s) : OutInvariant p (coreStep s) :=
  outInvariant_andThen (outInvariant_runPair (s := s.beginStep) { h with }) fun _ hu => outInvariant_next { hu with }

/-! ## The host's messages -/

/-- The reset event keeps memory and the parameters, and resets what else the invariant speaks of. -/
theorem InvariantAt.resetEvent (h : InvariantAt p s) : InvariantAt p s.resetEvent where
  pcAligned := trapVector_aligned
  firAligned := rfl
  memWf := h.memWf
  tlbSorted := rfl
  icacheSorted := rfl
  itiZero := BitVec.getLsbD_zero
  epsrKept := rfl
  fsrKept := BitVec.zero_and
  par := h.par

/-- INTERRUPT and RESET of a drain. -/
theorem InvariantAt.drainReset (h : InvariantAt p s) : InvariantAt p s.drainReset := by
  have h1 : InvariantAt p (if s.mailbox.reset then s.resetEvent else s) := by
    split
    · exact h.resetEvent
    · exact h
  unfold State.drainReset
  dsimp only
  split
  · exact { h1 with }
  · exact h1

/-- The wait for the drain, and the drain. -/
theorem InvariantAt.hostMessages (h : InvariantAt p s) : InvariantAt p s.hostMessages := by
  rcases hostMessages_cases s with ⟨_, e⟩ | ⟨_, _, e⟩ | ⟨_, _, _, e⟩ <;> rw [e]
  · exact h
  · exact { h.drainReset with }
  · exact { h with }

/-- Every step of the machine. -/
theorem outInvariant_step (h : InvariantAt p s) : OutInvariant p (step s) := by
  intro t ht
  rcases step_eq_next ht with ⟨rfl, _⟩ | hc
  · exact h.hostMessages
  · exact outInvariant_coreStep h.hostMessages t hc

end

/-- Settles O56: every step keeps the invariant at the parameters it starts with. -/
theorem stepKeepsInvariant : Obligations.StepKeepsInvariant := by
  intro s t h ht
  have k := outInvariant_step ⟨h, rfl⟩ t ht
  exact ⟨k.toInvariant, k.par⟩

end Sys2Proof.Machine

/-! SUPPORT. Which floating operands are refused: each shared operation of the floating instructions, then the lists of
O44. -/

namespace Sys2Proof.Machine

open Sys2Proof.Claims

/-! ## What fits -/

/-- The precisions that trap, as the model tests for them. -/
theorem isDs_eq_false {o : FpOps} (h : ¬ Ds o) : isDs o = false := by
  unfold isDs
  unfold Ds at h
  cases hs : o.s <;> cases hr : o.r <;> simp_all

/-- A double result is no `.ds` word. -/
theorem not_ds_of_r {o : FpOps} (h : o.r = true) : ¬ Ds o := fun hd => by
  rw [hd.2] at h
  cases h

/-- A double source in an odd register does not fit. -/
theorem not_sourcesFit {o : FpOps} (hs : o.s = true) (h : o.src1.getLsbD 0 = true ∨ o.src2.getLsbD 0 = true) :
    ¬ SourcesFit o := by
  intro hf
  obtain ⟨h1, h2⟩ := hf hs
  rcases h with h | h
  · rw [h1] at h; cases h
  · rw [h2] at h; cases h

/-- A double result for an odd register does not fit. -/
theorem not_resultFits {o : FpOps} (hr : o.r = true) (h : o.dest.getLsbD 0 = true) : ¬ ResultFits o := by
  intro hf
  rw [hf hr] at h
  cases h

/-- A source field that can be read at the source precision (10 R14). -/
def SourceFits (o : FpOps) (i : Reg) : Prop := o.s = true → i.getLsbD 0 = false

/-- A double source in an odd register does not fit. -/
theorem not_sourceFits {o : FpOps} {i : Reg} (hs : o.s = true) (h : i.getLsbD 0 = true) : ¬ SourceFits o i := by
  intro hf
  rw [hf hs] at h
  cases h

/-- A source that is not bad fits. -/
theorem fit_of_badFp {o : FpOps} {i : Reg} (h : badFp o.s i = false) : SourceFits o i := by
  intro hs
  unfold badFp oddPair at h
  rwa [hs, Bool.true_and] at h

/-- A provider result fits only where the result precision does. -/
theorem resultFits_of_fpArith {op : Config.FpOp} {rm : BitVec 2} {o : FpOps} {a b : Slot}
    (h : SlotFits o.dest (fpArith op rm o.r a b)) : ResultFits o := by
  intro hr
  unfold fpArith at h
  rw [hr] at h
  exact h

/-- A converted value fits only where the precision does. -/
theorem resultFits_of_cvt {rm : BitVec 2} {o : FpOps} {v : Slot} (h : SlotFits o.dest (v.cvt rm o.r)) : ResultFits o := by
  intro hr
  unfold Slot.cvt at h
  rw [hr] at h
  exact h

/-! ## The refusals of the shared operations -/

/-- A test for a bad operand, and an outcome that is refused where the operand is good. -/
theorem ite_refused {bad : Bool} {x : Out} (h : bad = false → x = .refused .unalignedFpOperand) :
    (if bad = true then .refused .unalignedFpOperand else x) = (.refused .unalignedFpOperand : Out) := by
  cases bad
  · exact h rfl
  · rfl

section

variable {s : State} {o : FpOps}

/-- The scalar two-operand instructions. -/
theorem opScalar_refused {op : Config.FpOp} {adv : Bool} (hd : ¬ Ds o) (h : ¬ (SourcesFit o ∧ ResultFits o)) :
    opScalar op adv o s = .refused .unalignedFpOperand := by
  unfold opScalar
  rw [isDs_eq_false hd]
  exact ite_refused fun hb => finishScalar_unfit fun hf => h ⟨fit_of_badSources hb, resultFits_of_fpArith hf⟩

/-- The pipelined two-operand instructions. -/
theorem opPiped_refused {op : Config.FpOp} {pipe : FpPipe} (hd : ¬ Ds o)
    (h : ¬ (SourcesFit o ∧ SlotFits o.dest (s.pipeLast pipe))) :
    opPiped op pipe o s = .refused .unalignedFpOperand := by
  unfold opPiped
  rw [isDs_eq_false hd]
  exact ite_refused fun hb => finishPiped_unfit fun hf => h ⟨fit_of_badSources hb, hf⟩

/-- fix and ftrunc, whose result is double. -/
theorem opFix_refused {piped : Bool} {rm : BitVec 2} (hr : o.r = true)
    (h : ¬ (SourceFits o o.src1 ∧ if piped then SlotFits o.dest s.pipeA.s2 else ResultFits o)) :
    opFix piped rm o s = .refused .unalignedFpOperand := by
  unfold opFix
  rw [hr]
  refine ite_refused fun hb => ?_
  cases piped
  · exact finishScalar_unfit fun hf => h ⟨fit_of_badFp hb, fun _ => hf⟩
  · exact finishPiped_unfit fun hf => h ⟨fit_of_badFp hb, hf⟩

/-- famov and pfamov. -/
theorem opMove_refused {piped : Bool}
    (h : ¬ (SourceFits o o.src1 ∧ if piped then SlotFits o.dest s.pipeA.s2 else ResultFits o)) :
    opMove piped o s = .refused .unalignedFpOperand := by
  refine ite_refused fun hb => ?_
  cases piped
  · exact finishScalar_unfit fun hf => h ⟨fit_of_badFp hb, resultFits_of_cvt hf⟩
  · exact finishPiped_unfit fun hf => h ⟨fit_of_badFp hb, hf⟩

/-- The compares. -/
theorem opCompare_refused {rel : Config.FpRel} (h : ¬ (SourcesFit o ∧ SlotFits o.dest s.pipeA.s2)) :
    opCompare rel o s = .refused .unalignedFpOperand :=
  ite_refused fun hb => by
    dsimp only
    rw [finishPiped_unfit fun hf => h ⟨fit_of_badSources hb, hf⟩]
    rfl

/-- `fmlow.dd`. -/
theorem execFmlow_refused (hs : o.s = true) (hr : o.r = true) (h : ¬ (SourcesFit o ∧ ResultFits o)) :
    execFmlow o s = .refused .unalignedFpOperand := by
  unfold execFmlow
  rw [hs, hr]
  exact ite_refused fun hb => writeSlot_unfit fun hf => h ⟨fit_of_badSources hb, fun _ => hf⟩

/-- `pfmul3.dd`. -/
theorem execPfmul3_refused (hs : o.s = true) (hr : o.r = true) (h : ¬ (SourcesFit o ∧ SlotFits o.dest s.pipeM.s2)) :
    execPfmul3 true o s = .refused .unalignedFpOperand := by
  unfold execPfmul3
  rw [hs, hr]
  exact opPiped_refused (not_ds_of_r hr) h

/-- frcp and frsqr on a source that does not fit. -/
theorem opApprox_refused_source {invalid : Slot → Bool} {f : BitVec 2 → Bool → Slot → Slot} (hd : ¬ Ds o)
    (h : badFp o.s o.src2 = true) : opApprox invalid f o s = .refused .unalignedFpOperand := by
  unfold opApprox
  rw [isDs_eq_false hd, h]
  rfl

/-- frcp and frsqr on a valid operand, with a result that does not fit. -/
theorem opApprox_refused_result {invalid : Slot → Bool} {f : BitVec 2 → Bool → Slot → Slot} (hd : ¬ Ds o)
    (hv : invalid (s.readFp o.s o.src2) = false) (h : ¬ ResultFits o) :
    opApprox invalid f o s = .refused .unalignedFpOperand := by
  unfold opApprox
  rw [isDs_eq_false hd]
  refine ite_refused fun _ => ?_
  rw [hv]
  exact writeSlot_unfit fun hf => h (resultFits_of_cvt hf)

/-- The dual-operation instructions. -/
theorem opDual_refused {isM : Bool} {addOp : Config.FpOp} {dpc : BitVec 4} (hd : ¬ Ds o)
    (h : ¬ (SourcesFit o ∧ SlotFits o.dest (if isM then s.pipeM.last o.s else s.pipeA.s2))) :
    opDual isM addOp dpc o s = .refused .unalignedFpOperand := by
  unfold opDual
  rw [isDs_eq_false hd]
  refine ite_refused fun hb => ?_
  rw [writeSlot_unfit (v := if isM then s.pipeM.last o.s else s.pipeA.last false) fun hf =>
    h ⟨fit_of_badSources hb, hf⟩]
  rfl

/-- The graphics add and subtract. -/
theorem opInteger_refused {piped : Bool} {f32 : Word → Word → Word} {f64 : DWord → DWord → DWord} (hsr : o.s = o.r)
    (h : ¬ (SourcesFit o ∧ if piped then SlotFits o.dest s.pipeG else ResultFits o)) :
    opInteger piped f32 f64 o s = .refused .unalignedFpOperand := by
  unfold opInteger
  rw [hsr, bne_self_eq_false]
  refine ite_refused fun hb => finishGraphics_unfit fun hf => h ⟨fit_of_badSources hb, ?_⟩
  cases piped
  · intro hr
    rw [hr] at hf
    exact hf
  · exact hf

/-- What the graphics instructions on 64-bit sources write out fits fdest. -/
def GraphicsFits (s : State) (o : FpOps) (piped : Bool) : Prop :=
  if piped then SlotFits o.dest s.pipeG else o.dest.getLsbD 0 = false

/-- The end of a graphics instruction on 64-bit sources. -/
theorem finishGraphics_dbl_refused {piped : Bool} {u : State} {v : DWord} (hu : u.pipeG = s.pipeG)
    (h : ¬ GraphicsFits s o piped) : finishGraphics piped u o.dest (.dbl v) = .refused .unalignedFpOperand := by
  refine finishGraphics_unfit fun hf => h ?_
  cases piped
  · exact hf
  · rw [if_pos rfl, hu] at hf
    exact hf

/-- Both 64-bit sources of a graphics instruction fit, and what it writes out. -/
def GraphicsPairsFit (s : State) (o : FpOps) (piped : Bool) : Prop :=
  o.src1.getLsbD 0 = false ∧ o.src2.getLsbD 0 = false ∧ GraphicsFits s o piped

/-- The test of two 64-bit sources, and the rest of a graphics instruction. -/
theorem pairSources_refused {piped : Bool} {x : Out} (h : ¬ GraphicsPairsFit s o piped)
    (hx : ¬ GraphicsFits s o piped → x = .refused .unalignedFpOperand) :
    (if oddPair o.src1 || oddPair o.src2 then .refused .unalignedFpOperand else x) =
      (.refused .unalignedFpOperand : Out) := by
  refine ite_refused fun hb => hx fun hf => h ?_
  obtain ⟨h1, h2⟩ := Bool.or_eq_false_iff.1 hb
  exact ⟨h1, h2, hf⟩

/-- The pixel add. -/
theorem opFaddp_refused {piped : Bool} (h : ¬ GraphicsPairsFit s o piped) :
    opFaddp piped o s = .refused .unalignedFpOperand :=
  pairSources_refused h fun hf => finishGraphics_dbl_refused (by dsimp only; split <;> rfl) hf

/-- The Z add. -/
theorem opFaddz_refused {piped : Bool} (h : ¬ GraphicsPairsFit s o piped) :
    opFaddz piped o s = .refused .unalignedFpOperand :=
  pairSources_refused h fun hf => finishGraphics_dbl_refused rfl hf

/-- The Z checks. -/
theorem opZcheck_refused {piped : Bool} {value : DWord → DWord → DWord} {mask : BitVec 8 → DWord → DWord → BitVec 8}
    (h : ¬ GraphicsPairsFit s o piped) : opZcheck piped value mask o s = .refused .unalignedFpOperand :=
  pairSources_refused h fun hf => finishGraphics_dbl_refused rfl hf

/-- The merge with MERGE, which reads fsrc1 alone. -/
theorem opForm_refused {piped : Bool} (h : ¬ (o.src1.getLsbD 0 = false ∧ GraphicsFits s o piped)) :
    opForm piped o s = .refused .unalignedFpOperand :=
  ite_refused fun hb => finishGraphics_dbl_refused rfl fun hf => h ⟨hb, hf⟩

/-- A pipelined load that reaches the bus, when the oldest load does not fit fdest. -/
theorem finishPfld_refused {dest src2 : Reg} {inc : Bool} {eff : Word} {v : Slot} (h : ¬ SlotFits dest s.pipeL.s2) :
    finishPfld dest src2 inc eff s v = .refused .unalignedFpOperand := by
  unfold finishPfld
  rw [writeSlot_unfit (v := s.pipeL.last false) h]
  rfl

/-- pfld.l. -/
theorem opPfldl_refused {dest src2 : Reg} {inc : Bool} {eff p : Word} (h : ¬ SlotFits dest s.pipeL.s2)
    (hr : s.Resident 4 eff false p) : opPfldl s dest src2 inc eff = .refused .unalignedFpOperand := by
  unfold opPfldl
  rw [load_resident hr]
  exact finishPfld_refused h

/-- pfld.d. -/
theorem opPfldd_refused {dest src2 : Reg} {inc : Bool} {eff p : Word} (h : ¬ SlotFits dest s.pipeL.s2)
    (hr : s.Resident 8 eff false p) : opPfldd s dest src2 inc eff = .refused .unalignedFpOperand := by
  unfold opPfldd
  rw [load_resident hr]
  exact finishPfld_refused h

/-! ## Lists of refused instructions -/

/-- The first instruction of a list, and the others. -/
theorem refuses_cons {i : Instr} {is : List Instr} :
    Refuses s (i :: is) ↔ exec i s = .refused .unalignedFpOperand ∧ Refuses s is := List.forall_mem_cons

/-- No instruction. -/
theorem refuses_nil : Refuses s [] := nofun

/-- One instruction. -/
theorem refuses_single {i : Instr} (h : exec i s = .refused .unalignedFpOperand) : Refuses s [i] :=
  refuses_cons.2 ⟨h, refuses_nil⟩

/-- A floating load, store or pixel store whose data register does not fit. -/
theorem refuses_dataRegister {i : Instr} {a : DataAccess} (ha : dataAccess s i = some a)
    (hf : dataRegisterFits i = false) : Refuses s [i] := by
  refine refuses_single ?_
  cases i
  case flddReg | flddImm | fstdReg | fstdImm | pstd => exact if_pos (by simpa [dataRegisterFits, oddPair] using hf)
  case fldqReg | fldqImm | fstqReg | fstqImm =>
    exact if_pos (by simpa [dataRegisterFits, oddQuad, ← Bool.not_or] using hf)
  all_goals cases hf

/-- The compares and moves of double operands. -/
theorem refuses_compareMove (hs : o.s = true) :
    (o.src1.getLsbD 0 = true ∨ o.src2.getLsbD 0 = true → Refuses s [.pfgt o, .pfle o, .pfeq o]) ∧
    (o.src1.getLsbD 0 = true → Refuses s [.famov o, .pfamov o]) := by
  refine ⟨fun h => ?_, fun h => ?_⟩ <;> simp only [refuses_cons, refuses_nil, and_true]
  · have c (rel : Config.FpRel) : opCompare rel o s = .refused .unalignedFpOperand :=
      opCompare_refused fun hf => not_sourcesFit hs h hf.1
    exact ⟨c .gt, c .le, c .eq⟩
  · have c (piped : Bool) : opMove piped o s = .refused .unalignedFpOperand :=
      opMove_refused fun hf => not_sourceFits hs h hf.1
    exact ⟨c false, c true⟩

/-- The instructions that read two double sources. -/
theorem refuses_doubleSources (dpc : BitVec 4) (hs : o.s = true) (hr : o.r = true)
    (h : o.src1.getLsbD 0 = true ∨ o.src2.getLsbD 0 = true) :
    Refuses s
      [.fadd o, .fsub o, .fmul o, .fmlow o, .fiadd o, .fisub o, .pfadd o, .pfsub o, .pfmul o, .pfmul3 true o, .pfiadd o,
        .pfisub o, .pfam dpc o, .pfmam dpc o, .pfsm dpc o, .pfmsm dpc o] := by
  have hd := not_ds_of_r hr
  have bad {fits : Prop} : ¬ (SourcesFit o ∧ fits) := fun hf => not_sourcesFit hs h hf.1
  have hsr : o.s = o.r := hs.trans hr.symm
  simp only [refuses_cons, refuses_nil, and_true]
  exact ⟨opScalar_refused hd bad, opScalar_refused hd bad, opScalar_refused hd bad, execFmlow_refused hs hr bad,
    opInteger_refused hsr bad, opInteger_refused hsr bad, opPiped_refused hd bad, opPiped_refused hd bad,
    opPiped_refused hd bad, execPfmul3_refused hs hr bad, opInteger_refused hsr bad, opInteger_refused hsr bad,
    opDual_refused hd bad, opDual_refused hd bad, opDual_refused hd bad, opDual_refused hd bad⟩

/-- The conversions of a double source. -/
theorem refuses_fixSource (hs : o.s = true) (hr : o.r = true) (h : o.src1.getLsbD 0 = true) :
    Refuses s [.fix o, .pfix o, .ftrunc o, .pftrunc o] := by
  have c (piped : Bool) (rm : BitVec 2) : opFix piped rm o s = .refused .unalignedFpOperand :=
    opFix_refused hr fun hf => not_sourceFits hs h hf.1
  simp only [refuses_cons, refuses_nil, and_true]
  exact ⟨c false s.rm, c true s.rm, c false 3#2, c true 3#2⟩

/-- The approximations of a double source. -/
theorem refuses_approxSource (hs : o.s = true) (hr : o.r = true) (h : o.src2.getLsbD 0 = true) :
    Refuses s [.frcp o, .frsqr o] := by
  have hb : badFp o.s o.src2 = true := by
    unfold badFp oddPair
    rw [hs, h]
    rfl
  have c (invalid : Slot → Bool) (f : BitVec 2 → Bool → Slot → Slot) :
      opApprox invalid f o s = .refused .unalignedFpOperand := opApprox_refused_source (not_ds_of_r hr) hb
  simp only [refuses_cons, refuses_nil, and_true]
  exact ⟨c _ _, exec_frsqr o s ▸ c _ _⟩

/-- The graphics instructions on two 64-bit sources. -/
theorem refuses_graphicsSources (h : o.src1.getLsbD 0 = true ∨ o.src2.getLsbD 0 = true) :
    Refuses s [.faddp o, .pfaddp o, .faddz o, .pfaddz o, .fzchks o, .pfzchks o, .fzchkl o, .pfzchkl o] := by
  have bad {piped : Bool} : ¬ GraphicsPairsFit s o piped := by
    rintro ⟨h1, h2, _⟩
    rw [h1, h2] at h
    simp at h
  simp only [refuses_cons, refuses_nil, and_true]
  exact ⟨opFaddp_refused bad, opFaddp_refused bad, opFaddz_refused bad, opFaddz_refused bad, opZcheck_refused bad,
    opZcheck_refused bad, opZcheck_refused bad, opZcheck_refused bad⟩

/-- form and pform. -/
theorem refuses_formSource (h : o.src1.getLsbD 0 = true) : Refuses s [.form o, .pform o] := by
  have c (piped : Bool) : opForm piped o s = .refused .unalignedFpOperand := opForm_refused fun hf => by
    rw [h] at hf
    cases hf.1
  simp only [refuses_cons, refuses_nil, and_true]
  exact ⟨c false, c true⟩

/-- The scalar graphics instructions, whose result is 64 bits. -/
theorem refuses_graphicsResult (h : o.dest.getLsbD 0 = true) :
    Refuses s [.faddp o, .faddz o, .form o, .fzchks o, .fzchkl o] := by
  have hg : ¬ GraphicsFits s o false := fun hf => by
    rw [show o.dest.getLsbD 0 = false from hf] at h
    cases h
  have bad : ¬ GraphicsPairsFit s o false := fun hf => hg hf.2.2
  simp only [refuses_cons, refuses_nil, and_true]
  exact ⟨opFaddp_refused bad, opFaddz_refused bad, opForm_refused fun hf => hg hf.2, opZcheck_refused bad,
    opZcheck_refused bad⟩

/-- The scalar instructions with a double result. -/
theorem refuses_scalarResult (hr : o.r = true) (h : o.dest.getLsbD 0 = true) :
    Refuses s [.fadd o, .fsub o, .fmul o, .famov o, .fix o, .ftrunc o] := by
  have hd := not_ds_of_r hr
  have bad {fits : Prop} : ¬ (fits ∧ ResultFits o) := fun hf => not_resultFits hr h hf.2
  simp only [refuses_cons, refuses_nil, and_true]
  exact ⟨opScalar_refused hd bad, opScalar_refused hd bad, opScalar_refused hd bad, opMove_refused bad,
    opFix_refused hr bad, opFix_refused hr bad⟩

/-- The scalar `.dd` instructions. -/
theorem refuses_doubleResult (hs : o.s = true) (hr : o.r = true) (h : o.dest.getLsbD 0 = true) :
    Refuses s [.fmlow o, .fiadd o, .fisub o] := by
  have hsr : o.s = o.r := hs.trans hr.symm
  have bad {fits : Prop} : ¬ (fits ∧ ResultFits o) := fun hf => not_resultFits hr h hf.2
  simp only [refuses_cons, refuses_nil, and_true]
  exact ⟨execFmlow_refused hs hr bad, opInteger_refused hsr bad, opInteger_refused hsr bad⟩

/-- The approximations of an operand they accept. -/
theorem refuses_approxResult (hr : o.r = true) (h : o.dest.getLsbD 0 = true) (hz : (src s o.s o.src2).isZero = false) :
    Refuses s [.frcp o] ∧ ((src s o.s o.src2).sign = false → Refuses s [.frsqr o]) := by
  have hd := not_ds_of_r hr
  have hres := not_resultFits hr h
  refine ⟨refuses_single (opApprox_refused_result hd hz hres), fun hsg => ?_⟩
  refine refuses_single ((exec_frsqr o s).trans (opApprox_refused_result hd ?_ hres))
  exact Bool.or_eq_false_iff.2 ⟨hz, hsg⟩

/-- The pipelined instructions that write out the adder pipe. -/
theorem refuses_adderStage (dpc : BitVec 4) (h : ¬ SlotFits o.dest s.pipeA.s2) :
    Refuses s [.pfamov o, .pfgt o, .pfle o, .pfeq o] ∧
    (¬ Ds o → Refuses s [.pfadd o, .pfsub o, .pfam dpc o, .pfsm dpc o]) ∧
    (o.r = true → Refuses s [.pfix o, .pftrunc o]) := by
  have bad {fits : Prop} : ¬ (fits ∧ SlotFits o.dest s.pipeA.s2) := fun hf => h hf.2
  refine ⟨?_, fun hd => ?_, fun hr => ?_⟩ <;> simp only [refuses_cons, refuses_nil, and_true]
  · exact ⟨opMove_refused bad, opCompare_refused bad, opCompare_refused bad, opCompare_refused bad⟩
  · exact ⟨opPiped_refused hd bad, opPiped_refused hd bad, opDual_refused hd bad, opDual_refused hd bad⟩
  · exact ⟨opFix_refused hr bad, opFix_refused hr bad⟩

/-- The pipelined instructions that write out the multiplier pipe. -/
theorem refuses_multiplierStage (dpc : BitVec 4) (h : ¬ SlotFits o.dest (if o.s then s.pipeM.s1 else s.pipeM.s2))
    (hd : ¬ Ds o) : Refuses s [.pfmul o, .pfmam dpc o, .pfmsm dpc o] := by
  have bad {fits : Prop} : ¬ (fits ∧ SlotFits o.dest (s.pipeM.last o.s)) := fun hf => h hf.2
  simp only [refuses_cons, refuses_nil, and_true]
  exact ⟨opPiped_refused hd bad, opDual_refused hd bad, opDual_refused hd bad⟩

/-- The pipelined graphics instructions, which write out G. -/
theorem refuses_graphicsStage (h : ¬ SlotFits o.dest s.pipeG) :
    Refuses s [.pfaddp o, .pfaddz o, .pform o, .pfzchks o, .pfzchkl o] ∧
    (o.s = o.r → Refuses s [.pfiadd o, .pfisub o]) := by
  have bad : ¬ GraphicsPairsFit s o true := fun hf => h hf.2.2
  have bad' {fits : Prop} : ¬ (fits ∧ SlotFits o.dest s.pipeG) := fun hf => h hf.2
  refine ⟨?_, fun hsr => ?_⟩ <;> simp only [refuses_cons, refuses_nil, and_true]
  · exact ⟨opFaddp_refused bad, opFaddz_refused bad, opForm_refused bad', opZcheck_refused bad, opZcheck_refused bad⟩
  · exact ⟨opInteger_refused hsr bad', opInteger_refused hsr bad'⟩

end

/-- Settles O44: the data registers, the sources, the results and the stages, each by the list that names it. -/
theorem unalignedOperandRefused : Obligations.UnalignedOperandRefused := by
  intro s
  refine ⟨fun i a => refuses_dataRegister, fun o dpc => ?_, fun o p => ?_, fun o p => ?_⟩
  · exact ⟨refuses_compareMove,
      fun hs hr => ⟨refuses_doubleSources dpc hs hr, refuses_fixSource hs hr, refuses_approxSource hs hr⟩,
      refuses_graphicsSources, refuses_formSource,
      fun h => ⟨refuses_graphicsResult h, fun hr =>
        ⟨refuses_scalarResult hr h, fun hs => refuses_doubleResult hs hr h, refuses_approxResult hr h⟩⟩,
      refuses_adderStage dpc, refuses_multiplierStage dpc,
      fun h hs hr => refuses_single (execPfmul3_refused hs hr fun hf => h hf.2),
      refuses_graphicsStage⟩
  · exact fun h => ⟨fun hr => refuses_single (opPfldl_refused h hr), fun hr => refuses_single (opPfldd_refused h hr)⟩
  · exact fun h => ⟨fun hr => refuses_single (opPfldl_refused h hr), fun hr => refuses_single (opPfldd_refused h hr)⟩

end Sys2Proof.Machine

/-! SUPPORT. The hard-wired registers, and the state after reset. -/

namespace Sys2Proof.Machine

/-! ## The hard-wired registers -/

/-- Writes of f0 and f1 are suppressed (10 R13). -/
theorem sameFregs_writeF {s : State} {d : Reg} (v : Word) (h : d.toNat < 2) : SameFregs s (s.writeF d v) := by
  intro i
  rw [readF_writeF, if_neg]
  rintro ⟨rfl, hi⟩
  omega

/-- A write of the pair f0, f1 is suppressed (10 R13). -/
theorem sameFregs_writeFd_zero (s : State) (v : DWord) : SameFregs s (s.writeFd 0#5 v) :=
  fun i => (sameFregs_writeF (highWord v) (by decide) i).trans (sameFregs_writeF (lowWord v) (by decide) i)

/-- The pair f0, f1 reads 0 (10 R13, R14). -/
theorem readFd_zero (s : State) : s.readFd 0#5 = 0#64 := by
  show (0#32 ++ 0#32 : DWord) = 0#64
  decide

/-- A write of f0 to f3 reaches f2 and f3 alone (10 R13, R14). -/
theorem readF_writeFq_zero (s : State) (v : BitVec 128) (i : Reg) :
    (s.writeFq 0#5 v).readF i =
      if i = 2#5 then v.extractLsb' 64 32 else if i = 3#5 then v.extractLsb' 96 32 else s.readF i := by
  have h0 : ¬ (i = 0#5 ∧ 2 ≤ i.toNat) := by rintro ⟨rfl, h⟩; exact absurd h (by decide)
  have h1 : ¬ (i = 0#5 + 1#5 ∧ 2 ≤ i.toNat) := by rintro ⟨rfl, h⟩; exact absurd h (by decide)
  rw [fquadSet_writeFq s 0#5 v rfl rfl i, if_neg h0, if_neg h1]
  rfl

/-- Settles O6: what each read and each write of a hard-wired register does. -/
theorem hardWiredZeros : Obligations.HardWiredZeros := by
  intro s v d q
  refine ⟨rfl, rfl, rfl, readFd_zero s, fun i => ?_, sameFregs_writeF v (by decide), sameFregs_writeF v (by decide),
    sameFregs_writeFd_zero s d, readF_writeFq_zero s q⟩
  rw [readReg_writeReg, if_neg (fun h => h.2 h.1)]

/-! ## The state after reset -/

/-- Every floating register reads 0 after reset (10 R15). -/
theorem readF_reset (i : Reg) : State.reset.readF i = 0#32 := by
  revert i
  decide

/-- Settles O54: each field of the state after reset, at the value the spec gives. -/
theorem resetState : Obligations.ResetState := by
  refine ⟨rfl, rfl, readF_reset, rfl, rfl, rfl, rfl, rfl, rfl, rfl, rfl, rfl, rfl, ?_, ?_, rfl, rfl, rfl, rfl, rfl, rfl,
    rfl, rfl, rfl, rfl, rfl, rfl, rfl, rfl, rfl⟩
  · decide
  · decide

end Sys2Proof.Machine

/-! SUPPORT. Memory and translation: a bus access of every size, the TLB and the page walk, what stops a data access, and the
fetch of a pair. -/

namespace Sys2Proof.Machine

open Sys2Proof.Claims

/-! ## The bus -/

/-- A value written is read back under the same byte order (20 R63). -/
theorem Memory.busRead_busWrite {m : Memory} (be : Bool) {n : Nat} (p : Word) (v : BitVec (8 * n)) (hn : n ≤ 2 ^ 32)
    (hm : m.wf = true) : (m.busWrite be n p v).busRead be n p = v :=
  eq_of_bytes fun _ hi => (byteOf_busRead _ be n p hi).trans (Memory.busWrite_at be p v hn hm hi)

/-- Settles O11: each clause is a law of the bus write, at the five sizes of an access. -/
theorem memoryRoundTrip : Obligations.MemoryRoundTrip := by
  intro m be n p v hm hsize
  have hn : n ≤ 2 ^ 32 := by
    simp only [List.mem_cons, List.not_mem_nil, or_false] at hsize
    omega
  exact ⟨fun _ hi => Memory.busWrite_at be p v hn hm hi, fun _ ha => Memory.busWrite_other m be n p v ha,
    Memory.busRead_busWrite be p v hn hm, Memory.busWrite_wf be n p v hm⟩

/-! ## The TLB -/

section

variable {s : State} {va : Word} {d w : Bool}

/-- The key of the slot of a page and a direction, as a number (20 R68). -/
theorem tlbKey_tlbSet (s : State) (va : Word) (w : Bool) :
    tlbKey (s.tlbSet va) w = 2 * ((va.toNat / 2 ^ 12) % s.par.tlbSets) + (if w then 1 else 0) := by
  rw [tlbKey, State.tlbSet, toNat_page]

/-- An entry is of a page exactly when the page numbers agree. -/
theorem eq_page_iff {v : BitVec 20} : v = va.extractLsb' 12 20 ↔ v.toNat = va.toNat / 2 ^ 12 := by
  rw [← BitVec.toNat_inj, toNat_page]

/-- A probe of a slot that holds the page answers the frame. -/
theorem tlbProbe_of_holds {e : TlbEntry} (h : SlotHolds s va w e) : s.tlbProbe va w = some e.pframe := by
  obtain ⟨hl, hv⟩ := h
  rw [← tlbKey_tlbSet] at hl
  rw [State.tlbProbe, hl]
  exact if_pos (eq_page_iff.2 hv)

/-- A probe of a slot that does not hold the page answers nothing. -/
theorem tlbProbe_of_misses (h : SlotMisses s va w) : s.tlbProbe va w = none := by
  unfold SlotMisses at h
  rw [← tlbKey_tlbSet] at h
  unfold State.tlbProbe
  split
  · next e he => exact if_neg (mt eq_page_iff.1 (h e he))
  · rfl

/-- The slot just filled answers the frame it was filled with. -/
theorem tlbProbe_tlbFill (s : State) (va : Word) (w : Bool) (f : BitVec 20) : (s.tlbFill va w f).tlbProbe va w = some f := by
  have hl : (s.tlbFill va w f).tlb.lookup (tlbKey ((s.tlbFill va w f).tlbSet va) w) = some ⟨va.extractLsb' 12 20, f⟩ :=
    Table.lookup_insert_self _ _ s.tlb
  rw [State.tlbProbe, hl]
  exact if_pos rfl

/-- The slot of the access direction answers first. -/
theorem tlbLookup_own {f : BitVec 20} (h : s.tlbProbe va w = some f) : s.tlbLookup va w = some f := by
  simp [State.tlbLookup, h]

/-- With cross hits, the slot of the other direction answers when the own one does not (20 R68). -/
theorem tlbLookup_cross {f : BitVec 20} (hc : s.par.tlbCrossHit = true) (h : s.tlbProbe va w = none)
    (h' : s.tlbProbe va (!w) = some f) : s.tlbLookup va w = some f := by
  simp [State.tlbLookup, h, hc, h']

/-- No slot consulted answers. -/
theorem tlbLookup_none (h : s.tlbProbe va w = none) (h' : s.par.tlbCrossHit = true → s.tlbProbe va (!w) = none) :
    s.tlbLookup va w = none := by
  cases hc : s.par.tlbCrossHit
  · simp [State.tlbLookup, h, hc]
  · simp [State.tlbLookup, h, h' hc]

/-! ## Translation -/

/-- Translation off is the identity (20 R66). -/
theorem physical_off (h : s.ate = false) : s.physical va d w = (s, some va) := by
  rw [State.physical, h, if_neg Bool.false_ne_true]

/-- A TLB hit answers the frame and the offset, with nothing changed (20 R68). -/
theorem physical_hit {f : BitVec 20} (h : s.ate = true) (hl : s.tlbLookup va w = some f) :
    s.physical va d w = (s, some (physAddr f va)) := by
  rw [State.physical, if_pos h, State.translate, hl]

/-- A TLB miss is the walk (20 R70). -/
theorem physical_miss (h : s.ate = true) (hl : s.tlbLookup va w = none) : s.physical va d w = s.walk va d w := by
  rw [State.physical, if_pos h, State.translate, hl]

/-- Settles O12: translation off, a hit of the own slot, and a hit of the other direction's. -/
theorem translationWithoutWalk : Obligations.TranslationWithoutWalk := by
  intro s va d w frameOf
  have frameOf_of_lookup {e : TlbEntry} (ha : s.ate = true) (hl : s.tlbLookup va w = some e.pframe) : frameOf e :=
    ⟨_, physical_hit ha hl, toNat_physAddr e.pframe va⟩
  refine ⟨physical_off, fun e ha he => ?_, fun e ha hc hm he => ?_⟩
  · exact frameOf_of_lookup ha (tlbLookup_own (tlbProbe_of_holds he))
  · exact frameOf_of_lookup ha (tlbLookup_cross hc (tlbProbe_of_misses hm) (tlbProbe_of_holds he))

/-- The translator's fault sets DAT or IAT and `trap_pending` (20 R65). -/
theorem accessFault_eq (s : State) (d : Bool) :
    s.accessFault d = { s with psr := s.psr ||| (if d then 0x800#32 else 0x400#32), trapPending := true } := by
  cases d <;> rfl

/-- Settles O13: the miss is the walk, and the walk violated, clean, or filling the slot. -/
theorem pageWalk : Obligations.PageWalk := by
  intro s va d w pdeAddr pde pteAddr pte violates m fault
  have violates_iff (e : Word) : s.entryViolates e d w = true ↔ violates e := entryViolates_iff s e d w
  refine ⟨fun ha hm hm' => ?_, toNat_pdeAddr s va, toNat_pteAddr pde va, fun hv => ?_, fun hpde hpte => ?_⟩
  · exact physical_miss ha (tlbLookup_none (tlbProbe_of_misses hm) fun hc => tlbProbe_of_misses (hm' hc))
  · rw [walk_violates (hv.imp (violates_iff pde).2 (violates_iff pte).2), accessFault_eq]
  · have hpde' := mt (violates_iff pde).1 hpde
    have hpte' := mt (violates_iff pte).1 hpte
    refine ⟨fun hd hw hclean => ?_, fun hn => ⟨_, walk_fill hpde' hpte' hn, ?_⟩⟩
    · rw [walk_clean hpde' hpte' ⟨hd, hw, hclean⟩, accessFault_eq]
      rfl
    · rw [toNat_physAddr, toNat_page]
      rfl

end

/-! ## A translation made again -/

/-- After a walk that filled the slot the same translation is a hit (20 R72). -/
theorem physical_after_fill {s : State} {va : Word} {d w : Bool} (f : BitVec 20) (h : s.ate = true) :
    (s.tlbFill va w f).physical va d w = (s.tlbFill va w f, some (physAddr f va)) :=
  physical_hit h (tlbLookup_own (tlbProbe_tlbFill s va w f))

/-- A translation that succeeded, made again, is a hit with nothing changed (20 R72). -/
theorem physical_again {s t : State} {va p : Word} {d w : Bool} (h : s.physical va d w = (t, some p)) :
    t.physical va d w = (t, some p) := by
  cases ha : s.ate
  · cases (physical_off ha).symm.trans h
    exact h
  · cases hl : s.tlbLookup va w with
    | some f =>
      cases (physical_hit ha hl).symm.trans h
      exact h
    | none =>
      rcases walk_cases ((physical_miss ha hl).symm.trans h) with ⟨_, hp⟩ | ⟨_, hp⟩ | ⟨f, rfl, hp⟩
      · cases hp
      · cases hp
      · cases hp
        exact physical_after_fill f ha

/-- A translation that answers leaves a state that differs in what a translation changes alone. -/
theorem translatedFrom_of_physical {s t : State} {va p : Word} {d w : Bool} (h : s.physical va d w = (t, some p)) :
    TranslatedFrom s t := ⟨t.mem, t.tlb, physical_some h⟩

/-- The data access of an instruction depends on nothing a translation changes. -/
theorem dataAccess_translated {s t : State} (h : TranslatedFrom s t) (i : Instr) : dataAccess t i = dataAccess s i := by
  obtain ⟨m, tl, rfl⟩ := h
  cases i <;> rfl

/-- Of an aligned access only the translation and the breakpoint compare are left to check. -/
theorem access_of_physical {s t : State} {n : Nat} {eff p : Word} {w : Bool} (ha : eff.toNat % n = 0)
    (h : s.physical eff true w = (t, some p)) :
    s.access n eff w = if t.breakpointHit n w p then .early t.exitEarly else .go t p := by
  rw [State.access, if_neg (not_not.2 ha), h]

/-- An aligned access checks in the state its translation leaves what it checks before it. -/
theorem access_after_physical {s t : State} {n : Nat} {eff p : Word} {w : Bool} (ha : eff.toNat % n = 0)
    (h : s.physical eff true w = (t, some p)) : s.access n eff w = t.access n eff w :=
  (access_of_physical ha h).trans (access_of_physical ha (physical_again h)).symm

/-- Settles O14: an instruction is its access in both states, and is refused in both if its data register does not fit. -/
theorem accessAfterWalk : Obligations.AccessAfterWalk := by
  refine ⟨fun s t va p d w => physical_again, fun i s t a p hi ha hp => ?_⟩
  have hst := translatedFrom_of_physical hp
  have hit : dataAccess t i = some a := (dataAccess_translated hst i).trans hi
  refine ⟨hit, ?_⟩
  cases hf : dataRegisterFits i
  · exact (refuses_dataRegister hi hf i (List.mem_singleton_self i)).trans
      (refuses_dataRegister hit hf i (List.mem_singleton_self i)).symm
  · obtain ⟨k, hk, _⟩ := exec_isAccess hi hf
    rw [hk s ⟨s.mem, s.tlb, rfl⟩, hk t hst, access_after_physical ha hp]

/-! ## What stops a data access -/

/-- A misaligned access, by P_ALIGN_CHECK (20 R79). -/
theorem access_of_misaligned {s : State} {n : Nat} {eff : Word} (w : Bool) (h : eff.toNat % n ≠ 0) :
    s.access n eff w = if s.par.alignCheck then .early s.exitEarly else .refuse .misalignedUnchecked := by
  rw [State.access, if_pos h]

/-- An aligned access whose translation faults (20 R75). -/
theorem access_of_physical_none {s t : State} {n : Nat} {eff : Word} {w : Bool} (ha : eff.toNat % n = 0)
    (h : s.physical eff true w = (t, none)) : s.access n eff w = .early { t with exitedEarly := true } := by
  rw [State.access, if_neg (not_not.2 ha), h]

/-- The size of a data access is 1, 2, 4, 8 or 16. -/
theorem dataAccess_size {s : State} {i : Instr} {a : DataAccess} (h : dataAccess s i = some a) :
    ∃ k < 5, a.size = 2 ^ k := by
  cases i <;> simp only [dataAccess, reduceCtorEq, Option.some.injEq] at h <;> subst h <;> dsimp only
  all_goals decide

/-- The breakpoint compare on numbers (20 R77). -/
theorem breaks_of_toNat {s : State} {k : Nat} (hk : k < 32) {w : Bool} {p : Word}
    (he : (if w then s.psr.getLsbD 1 else s.psr.getLsbD 0) = true) (hp : p.toNat - p.toNat % 2 ^ k = s.db.toNat) :
    s.Breaks (2 ^ k) w p :=
  ⟨he, BitVec.eq_of_toNat_eq ((toNat_alignDown_pow p k hk).trans hp)⟩

/-- A data access that translates keeps what the breakpoint compare reads. -/
theorem breaks_translated {s t : State} (h : TranslatedFrom s t) {n : Nat} {w : Bool} {p : Word} (hb : s.Breaks n w p) :
    t.Breaks n w p := by
  obtain ⟨m, tl, rfl⟩ := h
  exact hb

/-- An aligned access that translates and hits the breakpoint exits early. -/
theorem access_of_breaks {s t : State} {n : Nat} {eff p : Word} {w : Bool} (ha : eff.toNat % n = 0)
    (h : s.physical eff true w = (t, some p)) (hb : s.Breaks n w p) : s.access n eff w = .early t.exitEarly := by
  have ht : t.breakpointHit n w p = true :=
    (breakpointHit_iff t n w p).2 (breaks_translated (translatedFrom_of_physical h) hb)
  rw [access_of_physical ha h, if_pos ht]

/-- A data access instruction whose access exits early answers the state of the early exit. -/
theorem exec_of_early {i : Instr} {s t : State} {a : DataAccess} (hi : dataAccess s i = some a)
    (hf : dataRegisterFits i = true) (h : s.access a.size a.eff a.write = .early t) : exec i s = .next t := by
  obtain ⟨k, hk, _⟩ := exec_isAccess hi hf
  rw [hk s ⟨s.mem, s.tlb, rfl⟩, h, runAccess]

/-- A data access instruction whose access is refused is refused. -/
theorem exec_of_refuse {i : Instr} {s : State} {r : Refusal} {a : DataAccess} (hi : dataAccess s i = some a)
    (hf : dataRegisterFits i = true) (h : s.access a.size a.eff a.write = .refuse r) : exec i s = .refused r := by
  obtain ⟨k, hk, _⟩ := exec_isAccess hi hf
  rw [hk s ⟨s.mem, s.tlb, rfl⟩, h, runAccess]

/-- Settles O15: the three checks of an access, each with what it leaves. -/
theorem dataAccessFaults : Obligations.DataAccessFaults := by
  intro i s t a p hi hf fault
  refine ⟨fun hmis => ⟨fun hc => ?_, fun hc => ?_⟩, fun hal => ⟨fun hp => ?_, fun hp he hdb => ?_⟩⟩
  · exact exec_of_early hi hf (by rw [access_of_misaligned a.write hmis, hc]; rfl)
  · exact exec_of_refuse hi hf (by rw [access_of_misaligned a.write hmis, hc]; rfl)
  · have raised : t.psr = s.psr ||| 0x800#32 ∧ t.trapPending = true := by
      rw [physical_none hp]
      exact ⟨rfl, rfl⟩
    have kept : t = { s with psr := t.psr, trapPending := t.trapPending, mem := t.mem } := by
      rw [physical_none hp]
      rfl
    exact ⟨exec_of_early hi hf (access_of_physical_none hal hp), raised.1, raised.2, physical_outside hp, kept⟩
  · obtain ⟨k, hk, hsize⟩ := dataAccess_size hi
    have hb : s.Breaks a.size a.write p := by
      rw [hsize] at hdb ⊢
      exact breaks_of_toNat (by omega) he hdb
    exact exec_of_early hi hf (access_of_breaks hal hp hb)

/-! ## The fetch -/

/-- The line of an address, as a number (20 R90). -/
theorem toNat_line (va : Word) : (va.extractLsb' 3 29).toNat = va.toNat / 8 := by
  have := va.isLt
  simp [Nat.shiftRight_eq_div_pow]
  omega

/-- A line with the address's tag, in its place, is a hit (20 R90). -/
theorem icacheHit_of_line {s : State} {va : Word} {l : ICacheLine}
    (hl : s.icache.lookup ((va.toNat / 8) % s.par.icacheLines) = some l) (ht : l.tag.toNat = va.toNat / 8) :
    s.icacheHit va = some l.data := by
  have htag : l.tag = va.extractLsb' 3 29 := BitVec.eq_of_toNat_eq (ht.trans (toNat_line va).symm)
  rw [← toNat_line] at hl
  rw [State.icacheHit, State.icacheIndex, hl]
  exact if_pos htag

/-- A fetch that misses is a refill (20 R91). -/
theorem fetchPair_miss {s : State} {pc : Word} (h : s.icacheHit (alignDown pc 8) = none) :
    s.fetchPair pc = s.refill (alignDown pc 8) := by
  simp only [State.fetchPair, h]

/-- A refill that translates reads the pair little-endian in the state the translation leaves and fills the line (20 R91). -/
theorem refill_some {s t : State} {va p : Word} (h : s.physical va false false = (t, some p)) :
    ∃ pair : DWord, s.refill va = (t.icacheFill va pair, some pair) ∧
      ∀ i, i < 8 → byteOf pair i = t.mem.byte (p + BitVec.ofNat 32 i).toNat :=
  ⟨t.mem.busRead false 8 p, by rw [State.refill, h], fun _ hi => byteOf_busRead t.mem false 8 p hi⟩

/-- A refill whose translation faults answers nothing (20 R91). -/
theorem refill_none {s t : State} {va : Word} (h : s.physical va false false = (t, none)) :
    s.refill va = ({ t with exitingIfetch := true }, none) := by
  rw [State.refill, h]

/-- Settles O51: a hit, and a miss by what its translation answers. -/
theorem fetch : Obligations.Fetch := by
  intro s pc va
  refine ⟨fun l hl htag => fetchPair_hit (icacheHit_of_line hl htag), fun hm ha => ?_, fun t p hm hp => ?_,
    fun t hm hp => ?_⟩
  · rw [fetchPair_miss hm]
    exact refill_some (physical_off ha)
  · rw [fetchPair_miss hm]
    exact refill_some hp
  · have left : t.psr = s.psr ||| 0x400#32 ∧ t.icache = s.icache ∧ t.tlb = s.tlb := by
      rw [physical_none hp]
      exact ⟨rfl, rfl, rfl⟩
    exact ⟨(fetchPair_miss hm).trans (refill_none hp), left⟩

end Sys2Proof.Machine

/-! SUPPORT. The encoding: each format's words decode to the instruction of their table row, and what the decoder answers is
well formed; then what an illegal precision and an unassigned word do. -/

namespace Sys2Proof.Machine

open Sys2Proof.Claims

/-! ## Encoded words decode, format by format

Each lemma takes the row of the decoding table as its hypothesis `h`, stated of every word that has the row's fields. -/

section

variable {w : Word} {op : BitVec 6} {i : Instr}

/-- A REG word; its bit 0 tells ld.s from ld.l. -/
theorem decode_regWord {o : RegOps} {low : BitVec 11}
    (h : ∀ w, opOf w = op → regOps w = o → w.getLsbD 0 = low.getLsbD 0 → decode w = .ok i) :
    decode (regWord op o low) = .ok i :=
  h _ (opOf_regWord op o low) (regOps_regWord op o low) (getLsbD_regWord op o low)

/-- An IMM word. -/
theorem decode_immWord {o : ImmOps} (h : ∀ w, opOf w = op → immOps w = o → decode w = .ok i) :
    decode (immWord op o) = .ok i :=
  h _ (opOf_immWord op o) (immOps_immWord op o)

/-- A SPLIT word. -/
theorem decode_splitWord {o : SplitOps} (h : ∀ w, opOf w = op → splitOps w = o → decode w = .ok i) :
    decode (splitWord op o.src2 o.src1 o.off) = .ok i :=
  h _ (opOf_splitWord op _ _ _) (splitOps_splitWord op o)

/-- A SPLIT5 word. -/
theorem decode_split5Word {o : Split5Ops} (h : ∀ w, opOf w = op → split5Ops w = o → decode w = .ok i) :
    decode (splitWord op o.src2 o.imm5 o.off) = .ok i :=
  h _ (opOf_splitWord op _ _ _) (split5Ops_splitWord op o)

/-- A REG word of fld, fst or pfld, with its size code. -/
theorem decode_fregWord {o : FRegOps} {size : BitVec 2}
    (h : ∀ w, opOf w = op → fregOps w = o → w.getLsbD 1 = size.getLsbD 0 → w.getLsbD 2 = size.getLsbD 1 →
      decode w = .ok i) :
    decode (fregWord op o size) = .ok i :=
  have ⟨h1, h2⟩ := size_fregWord op o size
  h _ (opOf_fregWord op o size) (fregOps_fregWord op o size) h1 h2

/-- A CTRL word. -/
theorem decode_ctrlWord {off : BitVec 26} (h : ∀ w, opOf w = op → lbroffOf w = off → decode w = .ok i) :
    decode (op ++ off) = .ok i :=
  h _ (opOf_ctrl op off) (lbroffOf_ctrl op off)

/-- The core escape is read by cop alone. -/
theorem decode_of_escape (hop : opOf w = 0x13#6) : decode w = decodeEsc w := by rw [decode, hop]; rfl

/-- A core escape word, by its cop. -/
theorem decode_escWord {a b src1 : Reg} {low : BitVec 11}
    (h : ∀ w, copOf w = low.extractLsb' 0 3 → src1Of w = src1 → decodeEsc w = .ok i) :
    decode (asm 0x13#6 a b src1 low) = .ok i :=
  (decode_of_escape (opOf_asm _ a b src1 low)).trans (h _ (copOf_asm _ a b src1 low) (src1Of_asm _ a b src1 low))

/-- The FP escape is read by fop and by bits of its own. -/
theorem decode_of_fpEscape (hop : opOf w = 0x12#6) : decode w = decodeFp w := by rw [decode, hop]; rfl

/-- A dual-operation word, by P and the bit that tells add from subtract. -/
theorem decode_dualWord {hi : BitVec 3} {dpc : BitVec 4} {p : Bool} {o : FpOps} (hhi : hi.extractLsb' 1 2 = 0#2)
    (h : ∀ w, w.getLsbD 4 = hi.getLsbD 0 → pOf w = p → dpcOf w = dpc → fpOps w = o → decodeDual w = i) :
    decode (fpWord hi dpc p o) = .ok i := by
  obtain ⟨hop, hops, hp, -, -, hdpc, hsel, h4⟩ := fields_fpWord hi dpc p o
  rw [decode_of_fpEscape hop, decodeFp, if_pos (hsel.trans hhi), h _ h4 hp hdpc hops]

/-- Any other FP word, by fop and P; R tells pfgt from pfle. -/
theorem decode_fpWord {hi : BitVec 3} {lo : BitVec 4} {p : Bool} {o : FpOps} (hhi : hi.extractLsb' 1 2 ≠ 0#2)
    (h : ∀ w, fopOf w = hi ++ lo → pOf w = p → rOf w = o.r → fpOps w = o → decodeFpSingle w = .ok i) :
    decode (fpWord hi lo p o) = .ok i := by
  obtain ⟨hop, hops, hp, hr, hfop, -, hsel, -⟩ := fields_fpWord hi lo p o
  rw [decode_of_fpEscape hop, decodeFp, if_neg (hsel ▸ hhi), h _ hfop hp hr hops]

end

/-! ## The size codes, as bits of the word -/

/-- Bits of imm16 are bits of the word. -/
theorem getLsbD_imm16Of (w : Word) {k : Nat} (h : k < 16) : (imm16Of w).getLsbD k = w.getLsbD k := by
  simp only [imm16Of, BitVec.getLsbD_extractLsb', h, decide_true, Bool.true_and, Nat.zero_add]

/-- Bit 0 of a split offset is bit 0 of the word. -/
theorem getLsbD_splitOffOf (w : Word) : (splitOffOf w).getLsbD 0 = w.getLsbD 0 := by
  rw [splitOffOf, BitVec.getLsbD_append, if_pos (by decide), low11Of, BitVec.getLsbD_extractLsb']
  rfl

/-- The code of ld.s. -/
theorem halfCode_imm16Of {w : Word} : halfCode (imm16Of w) = true ↔ w.getLsbD 0 = false := by
  rw [halfCode, getLsbD_imm16Of w (by decide), Bool.not_eq_true']

/-- The code of ld.l. -/
theorem wordCode_imm16Of {w : Word} : wordCode (imm16Of w) = true ↔ w.getLsbD 0 = true := by
  rw [wordCode, getLsbD_imm16Of w (by decide)]

/-- The code of st.s. -/
theorem halfCode_splitOffOf {w : Word} : halfCode (splitOffOf w) = true ↔ w.getLsbD 0 = false := by
  rw [halfCode, getLsbD_splitOffOf, Bool.not_eq_true']

/-- The code of st.l. -/
theorem wordCode_splitOffOf {w : Word} : wordCode (splitOffOf w) = true ↔ w.getLsbD 0 = true := by
  rw [wordCode, getLsbD_splitOffOf]

/-- The 4-byte code of fld, fst and pfld. -/
theorem singleCode_imm16Of {w : Word} : singleCode (imm16Of w) = true ↔ w.getLsbD 1 = true := by
  rw [singleCode, getLsbD_imm16Of w (by decide)]

/-- The 16-byte code. -/
theorem quadCode_imm16Of {w : Word} :
    quadCode (imm16Of w) = true ↔ w.getLsbD 2 = true ∧ w.getLsbD 1 = false := by
  rw [quadCode, getLsbD_imm16Of w (by decide), getLsbD_imm16Of w (by decide), Bool.and_eq_true, Bool.not_eq_true']

/-- The 8-byte code. -/
theorem doubleCode_imm16Of {w : Word} :
    doubleCode (imm16Of w) = true ↔ w.getLsbD 2 = false ∧ w.getLsbD 1 = false := by
  rw [doubleCode, getLsbD_imm16Of w (by decide), getLsbD_imm16Of w (by decide), Bool.and_eq_true, Bool.not_eq_true',
    Bool.not_eq_true']

/-! ## Decoding an encoded instruction -/

/-- A well-formed instruction is decoded from its word: by the row of its opcode and, where instructions share a row, by the
size code or the P and R bits. -/
theorem decode_encode {i : Instr} (hwf : i.wellFormed = true) : decode (encode i) = .ok i := by
  cases i
  case ldbReg | trap | adduReg | subuReg | addsReg | subsReg | shlReg | shrReg | shraReg | andReg | andnotReg | orReg |
      xorReg | shrd =>
    exact decode_regWord fun w hop ho _ => by subst ho; rw [decode, hop]; rfl
  case ldsReg | ldlReg => exact decode_regWord fun w hop ho h0 => by subst ho; rw [decode, hop]; simp only [h0]; rfl
  case ldbImm | pstd | adduImm | subuImm | addsImm | subsImm | shlImm | shrImm | shraImm | andImm | andnotImm | orImm |
      xorImm | andh | andnoth | orh | xorh =>
    exact decode_immWord fun w hop ho => by subst ho; rw [decode, hop]; rfl
  case ldsImm =>
    refine decode_immWord ?_
    rintro w hop rfl
    rw [decode, hop]; simp only [halfCode_imm16Of.1 hwf]; rfl
  case ldlImm =>
    refine decode_immWord ?_
    rintro w hop rfl
    rw [decode, hop]; simp only [wordCode_imm16Of.1 hwf]; rfl
  case fldlImm | fstlImm | pfldlImm =>
    refine decode_immWord ?_
    rintro w hop rfl
    rw [decode, hop]; simp only [singleCode_imm16Of.1 hwf]; rfl
  case fldqImm | fstqImm =>
    refine decode_immWord ?_
    rintro w hop rfl
    obtain ⟨h2, h1⟩ := quadCode_imm16Of.1 hwf
    rw [decode, hop]; simp only [h1, h2]; rfl
  case flddImm | fstdImm | pflddImm =>
    refine decode_immWord ?_
    rintro w hop rfl
    obtain ⟨h2, h1⟩ := doubleCode_imm16Of.1 hwf
    rw [decode, hop]; simp only [h1, h2]; rfl
  case stb | btneReg | bteReg | bla => exact decode_splitWord fun w hop ho => by subst ho; rw [decode, hop]; rfl
  case sts =>
    refine decode_splitWord ?_
    rintro w hop rfl
    rw [decode, hop]; simp only [halfCode_splitOffOf.1 hwf]; rfl
  case stl =>
    refine decode_splitWord ?_
    rintro w hop rfl
    rw [decode, hop]; simp only [wordCode_splitOffOf.1 hwf]; rfl
  case btneImm | bteImm => exact decode_split5Word fun w hop ho => by subst ho; rw [decode, hop]; rfl
  case flddReg | fldlReg | fldqReg | fstdReg | fstlReg | fstqReg | pflddReg | pfldlReg =>
    exact decode_fregWord fun w hop ho h1 h2 => by
      subst ho; rw [decode, hop]; simp only [h1, h2]; rfl
  case br | call | bc | bct | bnc | bnct => exact decode_ctrlWord fun w hop ho => by subst ho; rw [decode, hop]; rfl
  case ixfr | ldc | flush | stc | bri => simp [encode, decode]
  case lock | calli | intovr | unlock => exact decode_escWord fun w hcop hsrc1 => by simp [decodeEsc, hcop, hsrc1]
  case pfam | pfmam | pfsm | pfmsm =>
    exact decode_dualWord rfl fun w h4 hp hdpc ho => by simp only [decodeDual, h4, hp, hdpc, ho]; rfl
  case pfgt o =>
    have hr : o.r = false := by simpa [Instr.wellFormed] using hwf
    exact decode_fpWord (by decide) fun w hfop _ hrw ho => by simp [decodeFpSingle, hfop, hrw, hr, ho]
  case pfle o =>
    have hr : o.r = true := hwf
    exact decode_fpWord (by decide) fun w hfop _ hrw ho => by simp [decodeFpSingle, hfop, hrw, hr, ho]
  all_goals exact decode_fpWord (by decide) fun w hfop hp _ ho => by simp [decodeFpSingle, hfop, hp, ho]

/-! ## What the decoder answers is well formed -/

/-- A decoder's answer is no instruction, or a well-formed one. -/
def AnswersWellFormed (x : Except DecodeError Instr) : Prop := ∀ i, x = .ok i → i.wellFormed = true

/-- An instruction. -/
theorem answersWellFormed_ok {i : Instr} (h : i.wellFormed = true) : AnswersWellFormed (.ok i) :=
  fun j hj => by cases hj; exact h

/-- A word that is no instruction. -/
theorem answersWellFormed_error (e : DecodeError) : AnswersWellFormed (.error e) := fun j hj => by cases hj

/-- A choice by a bit. -/
theorem answersWellFormed_ite {b : Bool} {x y : Except DecodeError Instr} (hx : b = true → AnswersWellFormed x)
    (hy : b = false → AnswersWellFormed y) : AnswersWellFormed (if b = true then x else y) := by
  cases b
  · exact hy rfl
  · exact hx rfl

/-- A choice by a bit of two constructors that admit every operand. -/
theorem answersWellFormed_ite_ok {b : Bool} {i j : Instr} (hi : i.wellFormed = true) (hj : j.wellFormed = true) :
    AnswersWellFormed (if b = true then .ok i else .ok j) :=
  answersWellFormed_ite (fun _ => answersWellFormed_ok hi) (fun _ => answersWellFormed_ok hj)

/-- A choice by the size code, bits 2:1 (46 R311). -/
theorem answersWellFormed_size {w : Word} {single quad double : Except DecodeError Instr}
    (hs : singleCode (imm16Of w) = true → AnswersWellFormed single)
    (hq : quadCode (imm16Of w) = true → AnswersWellFormed quad)
    (hd : doubleCode (imm16Of w) = true → AnswersWellFormed double) :
    AnswersWellFormed (if w.getLsbD 1 = true then single else if w.getLsbD 2 = true then quad else double) :=
  answersWellFormed_ite (fun h1 => hs (singleCode_imm16Of.2 h1)) fun h1 =>
    answersWellFormed_ite (fun h2 => hq (quadCode_imm16Of.2 ⟨h2, h1⟩)) fun h2 => hd (doubleCode_imm16Of.2 ⟨h2, h1⟩)

/-- The core escape. -/
theorem decodeEsc_wellFormed (w : Word) : AnswersWellFormed (decodeEsc w) := by
  unfold decodeEsc
  split
  case h_5 => exact answersWellFormed_error _
  all_goals exact answersWellFormed_ok rfl

/-- The dual operations admit every operand. -/
theorem decodeDual_wellFormed (w : Word) : (decodeDual w).wellFormed = true := by
  unfold decodeDual
  split <;> rfl

/-- The FP escape but the dual operations: the R bit tells pfgt from pfle. -/
theorem decodeFpSingle_wellFormed (w : Word) : AnswersWellFormed (decodeFpSingle w) := by
  unfold decodeFpSingle
  split
  case h_10 =>
    exact answersWellFormed_ite (fun hr => answersWellFormed_ok hr) fun hr => answersWellFormed_ok (by
      rw [Instr.wellFormed, Bool.not_eq_true']; exact hr)
  case h_2 | h_3 | h_4 | h_5 | h_11 | h_13 => exact answersWellFormed_ok rfl
  case h_21 => exact answersWellFormed_error _
  all_goals exact answersWellFormed_ite_ok rfl rfl

/-- The FP escape. -/
theorem decodeFp_wellFormed (w : Word) : AnswersWellFormed (decodeFp w) := by
  unfold decodeFp
  split
  · exact answersWellFormed_ok (decodeDual_wellFormed w)
  · exact decodeFpSingle_wellFormed w

/-- Every word; `h_n` is the n-th row of the decoding table. -/
theorem decode_wellFormed (w : Word) : AnswersWellFormed (decode w) := by
  unfold decode
  split
  case h_5 => exact answersWellFormed_ite_ok rfl rfl
  case h_6 =>
    exact answersWellFormed_ite (fun h => answersWellFormed_ok (wordCode_imm16Of.2 h)) fun h =>
      answersWellFormed_ok (halfCode_imm16Of.2 h)
  case h_7 =>
    exact answersWellFormed_ite (fun h => answersWellFormed_ok (wordCode_splitOffOf.2 h)) fun h =>
      answersWellFormed_ok (halfCode_splitOffOf.2 h)
  case h_8 | h_10 =>
    exact answersWellFormed_size (fun _ => answersWellFormed_ok rfl) (fun _ => answersWellFormed_ok rfl) fun _ =>
      answersWellFormed_ok rfl
  case h_9 | h_11 =>
    exact answersWellFormed_size (fun h => answersWellFormed_ok h) (fun h => answersWellFormed_ok h) fun h =>
      answersWellFormed_ok h
  case h_18 => exact decodeFp_wellFormed w
  case h_19 => exact decodeEsc_wellFormed w
  case h_24 =>
    exact answersWellFormed_size (fun _ => answersWellFormed_ok rfl) (fun _ => answersWellFormed_error _) fun _ =>
      answersWellFormed_ok rfl
  case h_25 =>
    exact answersWellFormed_size (fun h => answersWellFormed_ok h) (fun _ => answersWellFormed_error _) fun h =>
      answersWellFormed_ok h
  case h_60 => exact answersWellFormed_error _
  all_goals exact answersWellFormed_ok rfl

/-- Settles O59: the round trip of every well-formed instruction, and the decoder's answers. -/
theorem decodeEncode : Obligations.DecodeEncode :=
  ⟨fun _ => decode_encode, fun w i => decode_wellFormed w i⟩

/-- Settles O60: each word, decoded. -/
theorem decodeWords : Obligations.DecodeWords := by
  unfold Obligations.DecodeWords
  decide

/-! ## Illegal precisions -/

/-- The instruction trap, in the numbers of 60 R370. -/
theorem raise_instruction (s : State) :
    s.raise .instruction = { s with psr := s.psr ||| 0x100#32, trapPending := true } := rfl

section

variable {s : State} {o : FpOps}

/-- The precisions that trap, as the model tests for them. -/
theorem isDs_of_ds (h : Ds o) : isDs o = true := by
  rw [isDs, h.1, h.2]; rfl

/-- The scalar two-operand instructions. -/
theorem opScalar_ds {op : Config.FpOp} {adv : Bool} (h : Ds o) : opScalar op adv o s = .next (s.raise .instruction) :=
  if_pos (isDs_of_ds h)

/-- The pipelined two-operand instructions. -/
theorem opPiped_ds {op : Config.FpOp} {pipe : FpPipe} (h : Ds o) : opPiped op pipe o s = .next (s.raise .instruction) :=
  if_pos (isDs_of_ds h)

/-- frcp and frsqr. -/
theorem opApprox_ds {invalid : Slot → Bool} {f : BitVec 2 → Bool → Slot → Slot} (h : Ds o) :
    opApprox invalid f o s = .next (s.raise .instruction) :=
  if_pos (isDs_of_ds h)

/-- The dual operations. -/
theorem opDual_ds {isM : Bool} {addOp : Config.FpOp} {dpc : BitVec 4} (h : Ds o) :
    opDual isM addOp dpc o s = .next (s.raise .instruction) :=
  if_pos (isDs_of_ds h)

/-- fix and ftrunc to single precision. -/
theorem opFix_single {piped : Bool} {rm : BitVec 2} (h : o.r = false) :
    opFix piped rm o s = .next (s.raise .instruction) :=
  if_pos (by rw [h]; rfl)

/-- The graphics add and subtract on two precisions. -/
theorem opInteger_mixed {piped : Bool} {f32 : Word → Word → Word} {f64 : DWord → DWord → DWord} (h : o.s ≠ o.r) :
    opInteger piped f32 f64 o s = .next (s.raise .instruction) :=
  if_pos (bne_iff_ne.2 h)

/-- `fmlow` other than `.dd`. -/
theorem execFmlow_not_dd (h : ¬ (o.s = true ∧ o.r = true)) : execFmlow o s = .next (s.raise .instruction) :=
  if_pos (by rwa [Bool.not_eq_true', ← Bool.not_eq_true, Bool.and_eq_true])

/-- `pfmul3` other than pipelined `.dd`. -/
theorem execPfmul3_not_dd {p : Bool} (h : ¬ (p = true ∧ o.s = true ∧ o.r = true)) :
    execPfmul3 p o s = .next (s.raise .instruction) :=
  if_pos (by rwa [Bool.not_eq_true', ← Bool.not_eq_true, Bool.and_eq_true, Bool.and_eq_true, and_assoc])

end

/-- Settles O43: each group traps by the first test of its shared operation. -/
theorem illegalPrecisionTraps : Obligations.IllegalPrecisionTraps := by
  intro s o traps
  refine ⟨fun hs hr => ?_, fun hr => ?_, fun hsr => ?_, fun hdd => ?_, execPfmul3_not_dd fun h => by cases h.1⟩
  · have hds : Ds o := ⟨hs, hr⟩
    exact ⟨opScalar_ds hds, opPiped_ds hds, opScalar_ds hds, opPiped_ds hds, opScalar_ds hds, opPiped_ds hds,
      opApprox_ds hds, (exec_frsqr o s).trans (opApprox_ds hds),
      fun dpc => ⟨opDual_ds hds, opDual_ds hds, opDual_ds hds, opDual_ds hds⟩⟩
  · exact ⟨opFix_single hr, opFix_single hr, opFix_single hr, opFix_single hr⟩
  · exact ⟨opInteger_mixed hsr, opInteger_mixed hsr, opInteger_mixed hsr, opInteger_mixed hsr⟩
  · exact ⟨execFmlow_not_dd hdd, fun p => execPfmul3_not_dd fun h => hdd h.2⟩

/-! ## Unassigned words -/

section

variable {s : State} {pair : DWord} {e : DecodeError}

/-- A word that is no instruction raises the instruction trap (30 R112). -/
theorem execWord_of_error {w : Word} (h : decode w = .error e) : execWord w s = .next (s.raise .instruction) := by
  simp only [execWord, h]

/-- In the high half it is trapped at pc. -/
theorem highHalf_of_error (h : decode (highWord pair) = .error e) :
    highHalf pair s = .next ((s.raise .instruction).takeTrap s.pc) := by
  have no_sample : (s.raise .instruction).sampleAfterHigh = s.raise .instruction :=
    if_neg fun hs => by cases hs.2
  rw [highHalf, execWord_of_error h, andThen_next, no_sample]
  rfl

/-- In the low half it is trapped at pc, with the flag of the dual-instruction mode as the low word has it. -/
theorem lowHalf_of_error (h : decode (lowWord pair) = .error e) :
    lowHalf pair s =
      .next ((({ s with dimOp := dimFlagged (lowWord pair) } : State).raise .instruction).takeTrap s.pc) := by
  rw [lowHalf, execWord_of_error h]
  rfl

/-- A step that starts on a word that is no instruction. -/
theorem step_of_error (hk : s.killed = false) (hh : s.halted = false) (hm : s.mailbox = Mailbox.empty)
    (hhit : s.icacheHit (alignDown s.pc 8) = some pair) (h : decode (selectWord s.pc pair) = .error e) :
    step s = .next
      ((({ s.beginStep with dimOp := if s.pc.getLsbD 2 then false else dimFlagged (lowWord pair) } : State).raise
        .instruction).takeTrap s.pc).dimTransition := by
  have fetched : s.beginStep.fetchPair s.beginStep.pc = (s.beginStep, some pair) := fetchPair_hit hhit
  rw [step_running hk hh hm, coreStep, runPair_of_fetch fetched]
  unfold selectWord at h
  cases hpc : s.pc.getLsbD 2
  · rw [hpc] at h
    rw [State.beginStep_pc, hpc, if_neg Bool.false_ne_true, lowHalf_of_error h]
    rfl
  · rw [hpc] at h
    rw [State.beginStep_pc, hpc, if_pos rfl, highHalf_of_error h]
    rfl

/-- Bit k of the PSR after the entry of an instruction trap. -/
theorem getLsbD_entryPsr_raise (p : Word) (k : Nat) :
    (entryPsr (setBit p 8 true)).getLsbD k = if k = 8 then true else (entryPsr p).getLsbD k := by
  simp only [getLsbD_entryPsr, getLsbD_setBit p 8 _ true (by decide)]
  by_cases h : k = 8
  · subst h; rfl
  · simp [h]

end

/-- Settles O50: the step is a trap entry, whose PSR is read bit by bit. -/
theorem unassignedWordTraps : Obligations.UnassignedWordTraps := by
  intro s pair e hk hh hm hhit hdec
  have bits (k : Nat) := getLsbD_entryPsr_raise s.psr k
  refine ⟨_, step_of_error hk hh hm hhit hdec, bits 8, ?_, ?_, ?_, ?_, fun k hk => ?_, fun _ => rfl, rfl⟩
  · exact (bits 7).trans (getLsbD_entryPsr s.psr 7)
  · exact (bits 5).trans (getLsbD_entryPsr s.psr 5)
  · exact (bits 6).trans (getLsbD_entryPsr s.psr 6)
  · exact (bits 4).trans (getLsbD_entryPsr s.psr 4)
  · obtain ⟨h4, h5, h6, h7, h8⟩ : k ≠ 4 ∧ k ≠ 5 ∧ k ≠ 6 ∧ k ≠ 7 ∧ k ≠ 8 := by simpa using hk
    calc (entryPsr (setBit s.psr 8 true)).getLsbD k
      _ = (entryPsr s.psr).getLsbD k := by rw [bits, if_neg h8]
      _ = s.psr.getLsbD k := by rw [getLsbD_entryPsr, if_neg h7, if_neg h5, if_neg (not_or.2 ⟨h6, h4⟩)]

end Sys2Proof.Machine


/-! SUPPORT. The step: how each half of a pair ends, and the transition of the dual-instruction mode. -/

namespace Sys2Proof.Machine

open Sys2Proof.Claims

/-! ## The dual-instruction mode -/

/-- The opcode field as a number (30 R113). -/
theorem toNat_opOf (w : Word) : (opOf w).toNat = w.toNat / 2 ^ 26 := by
  have := w.isLt
  simp only [opOf, BitVec.extractLsb'_toNat, Nat.shiftRight_eq_div_pow]
  omega

/-- The D bit of a word as a number (40 R155). -/
theorem getLsbD_nine_iff (w : Word) : w.getLsbD 9 = true ↔ w.toNat / 2 ^ 9 % 2 = 1 := by
  rw [← BitVec.testBit_toNat, Nat.testBit_eq_decide_div_mod_eq, decide_eq_true_iff]

/-- The flagged words, in the numbers of 40 R155. -/
theorem dimFlagged_iff (w : Word) :
    dimFlagged w = true ↔ (w.toNat / 2 ^ 26 = 0x12 ∧ w.toNat / 2 ^ 9 % 2 = 1) ∨ w.toNat = 0xB0000200 := by
  have op_iff : opOf w = 0x12#6 ↔ w.toNat / 2 ^ 26 = 0x12 := by rw [← toNat_opOf, ← BitVec.toNat_inj]; rfl
  have nop_iff : w = 0xB0000200#32 ↔ w.toNat = 0xB0000200 := by rw [← BitVec.toNat_inj]; rfl
  rw [dimFlagged, Bool.or_eq_true, Bool.and_eq_true, decide_eq_true_iff, decide_eq_true_iff, op_iff,
    getLsbD_nine_iff, nop_iff]

/-- The table of 40 R156. -/
theorem nextDim_eq (d : DimState) (flagged : Bool) : nextDim d flagged =
    if d = .none then (if flagged then .temp else .none)
    else if d = .temp then (if flagged then .full else .none)
    else (if flagged then .full else .temp) := by
  cases d <;> rfl

/-- Settles O52: the transition by its table, and the flagged words by their fields. -/
theorem dualInstructionMode : Obligations.DualInstructionMode :=
  ⟨fun s => by rw [State.dimTransition, nextDim_eq], dimFlagged_iff⟩

/-! ## The trap, or the advance of pc -/

section

variable {s : State} {savepc : Word}

/-- A pending trap is taken. -/
theorem State.trapOrAdvance_of_trap (h : s.trapPending = true) : s.trapOrAdvance savepc = s.takeTrap savepc :=
  if_pos h

/-- A pc that was written stays. -/
theorem State.trapOrAdvance_of_pcUpdated (ht : s.trapPending = false) (hp : s.pcUpdated = true) :
    s.trapOrAdvance savepc = s := by
  rw [State.trapOrAdvance, if_neg (Bool.eq_false_iff.1 ht), if_pos hp]

/-- A pc that was not written goes to the next word. -/
theorem State.trapOrAdvance_of_not_pcUpdated (ht : s.trapPending = false) (hp : s.pcUpdated = false) :
    s.trapOrAdvance savepc = { s with pc := s.pc + 4#32 } := by
  rw [State.trapOrAdvance, if_neg (Bool.eq_false_iff.1 ht), if_neg (Bool.eq_false_iff.1 hp), State.atPc]

/-- With a trap pending no interrupt is sampled. -/
theorem State.sampleAfterHigh_of_trap (h : s.trapPending = true) : s.sampleAfterHigh = s :=
  if_neg fun hs => Bool.false_ne_true (hs.2.symm.trans h)

/-- In dual-instruction mode no interrupt is sampled. -/
theorem State.sampleAfterHigh_of_dual (h : s.dim = .temp ∨ s.dim = .full) : s.sampleAfterHigh = s := by
  refine if_neg fun hs => ?_
  rcases h with h | h <;> cases hs.1.symm.trans h

/-- Outside it, with no trap pending, the interrupt is sampled. -/
theorem State.sampleAfterHigh_of_single (ht : s.trapPending = false) (hd : s.dim = .none) :
    s.sampleAfterHigh = s.sampleInterrupt :=
  if_pos ⟨hd, ht⟩

end

/-! ## The halves of a pair -/

/-- The end of a step that ran its pair: the transition of the dual-instruction mode (40 R156). -/
def endStep (o : Out) : Out := andThen o fun t => .next t.dimTransition

/-- The step of a running core is its pair, then the transition. -/
theorem step_eq_endStep {s : State} (hk : s.killed = false) (hh : s.halted = false) (hm : s.mailbox = Mailbox.empty) :
    step s = endStep (runPair s.beginStep) :=
  step_running hk hh hm

section

variable {s u t : State} {pair : DWord} {i : Instr} {r : Refusal} {savepc : Word}

/-- A word that decodes runs its instruction (40 R150). -/
theorem execWord_of_ok {w : Word} (h : decode w = .ok i) : execWord w s = exec i s := by
  simp only [execWord, h]

/-- The high half after an instruction that answers: the sampling, then the trap or the advance. -/
theorem highHalf_of_next (h : execWord (highWord pair) u = .next t) :
    highHalf pair u = .next (t.sampleAfterHigh.trapOrAdvance u.pc) := by
  rw [highHalf, h, andThen_next]

/-- The high half of a refused instruction. -/
theorem highHalf_of_refused (h : execWord (highWord pair) u = .refused r) : highHalf pair u = .refused r := by
  rw [highHalf, h, andThen_refused]

/-- The low half when its instruction raised a trap. -/
theorem lowHalf_of_trap (h : execWord (lowWord pair) { u with dimOp := dimFlagged (lowWord pair) } = .next t)
    (ht : t.trapPending = true) : lowHalf pair u = .next (t.takeTrap u.pc) := by
  rw [lowHalf, h, andThen_next, if_pos ht]

/-- The low half when its instruction wrote pc. -/
theorem lowHalf_of_pcUpdated (h : execWord (lowWord pair) { u with dimOp := dimFlagged (lowWord pair) } = .next t)
    (ht : t.trapPending = false) (hp : t.pcUpdated = true) : lowHalf pair u = .next t := by
  rw [lowHalf, h, andThen_next, if_neg (Bool.eq_false_iff.1 ht), if_pos hp]

/-- The low half when its instruction falls through to the high one. -/
theorem lowHalf_of_not_pcUpdated (h : execWord (lowWord pair) { u with dimOp := dimFlagged (lowWord pair) } = .next t)
    (ht : t.trapPending = false) (hp : t.pcUpdated = false) : lowHalf pair u = highHalf pair t.betweenHalves := by
  rw [lowHalf, h, andThen_next, if_neg (Bool.eq_false_iff.1 ht), if_neg (Bool.eq_false_iff.1 hp)]

/-- The low half of a refused instruction. -/
theorem lowHalf_of_refused (h : execWord (lowWord pair) { u with dimOp := dimFlagged (lowWord pair) } = .refused r) :
    lowHalf pair u = .refused r := by
  rw [lowHalf, h, andThen_refused]

/-! ## The endings of a step -/

/-- A step that comes to the trap or the advance with no trap pending ends at its state. -/
theorem endsAt_of_step (h : step s = endStep (.next (t.trapOrAdvance savepc))) (ht : t.trapPending = false) :
    EndsAt s t := by
  refine ⟨fun hp => ?_, fun hp => ?_⟩
  · rw [h, State.trapOrAdvance_of_pcUpdated ht hp]; rfl
  · rw [h, State.trapOrAdvance_of_not_pcUpdated ht hp]; rfl

/-- A step whose instruction in the high half left `t`: by the trap that is pending, the mode, and the sampling. -/
theorem endsAfterHigh_of_step (h : step s = endStep (.next (t.sampleAfterHigh.trapOrAdvance savepc))) :
    EndsAfterHigh s t savepc := by
  refine ⟨fun ht => ?_, fun ht hd => ?_, fun ht hd => ?_⟩
  · rw [h, State.sampleAfterHigh_of_trap ht, State.trapOrAdvance_of_trap ht]; rfl
  · rw [State.sampleAfterHigh_of_dual hd] at h
    exact endsAt_of_step h ht
  · rw [State.sampleAfterHigh_of_single ht hd] at h
    refine ⟨fun hv => ?_, endsAt_of_step h⟩
    rw [h, State.trapOrAdvance_of_trap hv]; rfl

/-- A step that comes to the high half runs its word. -/
theorem runsHigh_of_step (h : step s = endStep (highHalf pair u)) : RunsHigh s u (highWord pair) := by
  refine ⟨fun i hi => ⟨fun t ht => ?_, fun r hr => ?_⟩, fun e he => ?_⟩
  · exact endsAfterHigh_of_step (by rw [h, highHalf_of_next ((execWord_of_ok hi).trans ht)])
  · rw [h, highHalf_of_refused ((execWord_of_ok hi).trans hr)]; rfl
  · rw [h, highHalf_of_error he]; rfl

end

/-- Settles O49: by what the fetch answers, the half pc selects, and how its instruction leaves the state. -/
theorem stepRunsDecoded : Obligations.StepRunsDecoded := by
  intro s u hk hh hm
  have hstep : step s = endStep (runPair s.beginStep) := step_eq_endStep hk hh hm
  refine ⟨fun pair i hf hi => ?_, fun hf => ?_⟩
  · have hpc : u.pc = s.pc := by rw [fetchPair_some hf, State.beginStep_pc]
    have hrun : runPair s.beginStep = if s.pc.getLsbD 2 then highHalf pair u else lowHalf pair u := runPair_of_fetch hf
    rw [selectWord] at hi
    rw [hrun] at hstep
    refine ⟨fun hhigh => ?_, fun hlow => ?_⟩
    · rw [if_pos hhigh] at hi hstep
      rw [← hpc]
      exact (runsHigh_of_step hstep).1 i hi
    · rw [hlow, if_neg Bool.false_ne_true] at hi hstep
      have hexec := execWord_of_ok (s := { u with dimOp := dimFlagged (lowWord pair) }) hi
      refine ⟨fun t ht htrap => ?_, fun t ht htrap hup => ?_, fun t ht htrap hup => ?_, fun r hr => ?_⟩
      · rw [hstep, lowHalf_of_trap (hexec.trans ht) htrap, hpc]; rfl
      · rw [hstep, lowHalf_of_pcUpdated (hexec.trans ht) htrap hup]; rfl
      · rw [lowHalf_of_not_pcUpdated (hexec.trans ht) htrap hup] at hstep
        exact runsHigh_of_step hstep
      · rw [hstep, lowHalf_of_refused (hexec.trans hr)]; rfl
  · rw [runPair_of_fault hf] at hstep
    refine ⟨hstep, ?_⟩
    -- The flow word of the step's start is clear, so FIR receives the address in pc.
    rw [fetchPair_none hf]
    exact ⟨rfl, rfl, rfl, rfl, rfl⟩

end Sys2Proof.Machine

/-! SUPPORT. The adder and multiplier instructions: the operands as the statements read them, what each shared operation comes
to on operands that fit, and what the end of an instruction leaves. -/

namespace Sys2Proof.Machine

open Sys2Proof.Claims

/-! ## Operands -/

/-- The model's operand read is the statements' one. -/
theorem readFp_eq_src (s : State) (dbl : Bool) (i : Reg) : s.readFp dbl i = src s dbl i := rfl

/-- f0 and f1 are the registers below 2. -/
theorem two_le_toNat_iff (d : Reg) : 2 ≤ d.toNat ↔ d ≠ 0#5 ∧ d ≠ 1#5 := by
  bv_omega

/-- The model's forwarding rule is the statements' one (41 R174). -/
theorem forwarded_eq_src2OrLast (s : State) (o : FpOps) (last : Slot) : forwarded s o last = src2OrLast s o last := by
  simp only [forwarded, src2OrLast, two_le_toNat_iff, readFp_eq_src]

/-- A value converted to its own precision is itself (41 R174). -/
theorem cvt_src_same (s : State) (rm : BitVec 2) (dbl : Bool) (i : Reg) : (src s dbl i).cvt rm dbl = src s dbl i := by
  cases dbl <;> rfl

/-! ## The shared operations on operands that fit -/

section

variable {s : State} {o : FpOps}

/-- The scalar two-operand instructions (41 R170). -/
theorem opScalar_of_fit {op : Config.FpOp} {adv : Bool} (hd : ¬ Ds o) (hf : SourcesFit o) :
    opScalar op adv o s =
      finishScalar s adv o.dest (fpArith op s.rm o.r (src s o.s o.src1) (src s o.s o.src2)) := by
  unfold opScalar
  rw [isDs_eq_false hd, badSources_of_fit hf]
  rfl

/-- The pipelined two-operand instructions (41 R171, R174). -/
theorem opPiped_of_fit {op : Config.FpOp} {pipe : FpPipe} (hd : ¬ Ds o) (hf : SourcesFit o) :
    opPiped op pipe o s =
      finishPiped s pipe o.dest
        (fpArith op s.rm o.r (src s o.s o.src1) (src2OrLast s o (s.pipeLast pipe))) := by
  unfold opPiped
  rw [isDs_eq_false hd, badSources_of_fit hf, forwarded_eq_src2OrLast]
  rfl

/-- fix and ftrunc, scalar and pipelined (41 R184, R185). -/
theorem opFix_of_fit {piped : Bool} {rm : BitVec 2} (hr : o.r = true) (hf : SourceFits o o.src1) :
    opFix piped rm o s =
      if piped then finishPiped s.drawn .adder o.dest (fixValue rm (src s o.s o.src1) s.free)
      else finishScalar s.drawn false o.dest (fixValue rm (src s o.s o.src1) s.free) := by
  unfold opFix
  rw [hr, badFp_of_fit hf]
  rfl

/-- famov and pfamov (41 R186). -/
theorem opMove_of_fit {piped : Bool} (hf : SourceFits o o.src1) :
    opMove piped o s =
      if piped then finishPiped s .adder o.dest ((src s o.s o.src1).cvt s.rm o.r)
      else finishScalar s false o.dest ((src s o.s o.src1).cvt s.rm o.r) := by
  unfold opMove
  rw [badFp_of_fit hf]
  rfl

/-- The compares (41 R189). -/
theorem opCompare_of_fit {rel : Config.FpRel} (hf : SourcesFit o) :
    opCompare rel o s =
      andThen (finishPiped s.drawn .adder o.dest (compareSlot o.s s.free)) fun u =>
        .next (u.setCompare (compareCC rel (fpCompare rel s.rm o.s (src s o.s o.src1) (src s o.s o.src2)))) := by
  unfold opCompare
  rw [badSources_of_fit hf]
  rfl

/-- `fmlow.dd` (41 R178). -/
theorem execFmlow_of_fit (hs : o.s = true) (hr : o.r = true) (hf : SourcesFit o) :
    execFmlow o s = s.drawn.writeSlot o.dest (.dbl (fmlowValue (s.readFd o.src1) (s.readFd o.src2) s.free)) := by
  unfold execFmlow
  rw [badSources_of_fit hf, hs, hr]
  rfl

/-- frcp and frsqr on an invalid operand (41 R180, R181). -/
theorem opApprox_of_invalid {invalid : Slot → Bool} {f : BitVec 2 → Bool → Slot → Slot} (hd : ¬ Ds o)
    (hf : SourceFits o o.src2) (hv : invalid (src s o.s o.src2) = true) :
    opApprox invalid f o s = .next (sourceException s) := by
  unfold opApprox
  rw [isDs_eq_false hd, badFp_of_fit hf]
  exact if_pos hv

/-- frcp and frsqr on a valid operand (41 R180, R181). -/
theorem opApprox_of_valid {invalid : Slot → Bool} {f : BitVec 2 → Bool → Slot → Slot} (hd : ¬ Ds o)
    (hf : SourceFits o o.src2) (hv : invalid (src s o.s o.src2) = false) :
    opApprox invalid f o s =
      (s.setSE false).writeSlot o.dest (((f s.rm o.s (src s o.s o.src2).reduced).reduced).cvt s.rm o.r) := by
  unfold opApprox
  rw [isDs_eq_false hd, badFp_of_fit hf]
  exact if_neg (Bool.not_eq_true _ ▸ hv)

end

/-! ## What the end of an instruction leaves -/

section

variable {i : Instr} {s : State} {d : Reg} {v : Slot}

/-- An instruction that ends as a scalar one with no pipe. -/
theorem scalarLeaves_of_exec (h : exec i s = finishScalar s false d v) (hf : SlotFits d v) : ScalarLeaves i s d v := by
  obtain ⟨t, ht, hset, he⟩ := finishScalar_fits (s := s) (adv := false) hf
  exact ⟨t, h.trans ht, hset, fun a => by rw [he], he⟩

/-- An instruction that ends as a scalar one that may advance the adder pipe (41 R172). -/
theorem scalarAddLeaves_of_exec (h : exec i s = finishScalar s s.par.scalarFaddAdvances d v) (hf : SlotFits d v) :
    ScalarAddLeaves i s d v := by
  obtain ⟨t, ht, hset, he⟩ := finishScalar_fits (s := s) (adv := s.par.scalarFaddAdvances) hf
  exact ⟨t, h.trans ht, hset, fun a => by rw [he], by rw [he], by rw [he]⟩

/-- An instruction that ends in the adder pipe. -/
theorem adderLeaves_of_exec (h : exec i s = finishPiped s .adder d v) (hf : SlotFits d s.pipeA.s2) :
    AdderLeaves i s d v := by
  obtain ⟨t, ht, hset, he⟩ := finishPiped_fits (s := s) (pipe := .adder) (v := v) hf
  exact ⟨t, h.trans ht, hset, fun a => by rw [he]; rfl, he⟩

/-- An instruction that ends in the multiplier pipe of three stages (41 R175). -/
theorem multiplier3Leaves_of_exec (h : exec i s = finishPiped s (.multiplier false) d v) (hf : SlotFits d s.pipeM.s2) :
    Multiplier3Leaves i s d v := by
  obtain ⟨t, ht, hset, he⟩ := finishPiped_fits (s := s) (pipe := .multiplier false) (v := v) hf
  exact ⟨t, h.trans ht, hset, fun a => by rw [he]; rfl, he⟩

/-- An instruction that ends in the multiplier pipe of two stages (41 R175). -/
theorem multiplier2Leaves_of_exec (h : exec i s = finishPiped s (.multiplier true) d v) (hf : SlotFits d s.pipeM.s1) :
    Multiplier2Leaves i s d v := by
  obtain ⟨t, ht, hset, he⟩ := finishPiped_fits (s := s) (pipe := .multiplier true) (v := v) hf
  exact ⟨t, h.trans ht, hset, fun a => by rw [he]; rfl, he⟩

end

/-! ## Add, subtract and multiply -/

/-- Settles O32: each of the three is the scalar operation, ended by the write of its result. -/
theorem scalarArithmetic : Obligations.ScalarArithmetic := fun _ _ hd hs hr =>
  ⟨scalarAddLeaves_of_exec (opScalar_of_fit hd hs) (slotFits_fpArith hr),
    scalarAddLeaves_of_exec (opScalar_of_fit hd hs) (slotFits_fpArith hr),
    scalarLeaves_of_exec (opScalar_of_fit hd hs) (slotFits_fpArith hr)⟩

/-- `pfmul` runs in the two-stage pipe for double sources, else in the three-stage one (41 R175). -/
theorem exec_pfmul {o : FpOps} {short : Bool} (s : State) (hs : o.s = short) :
    exec (.pfmul o) s = opPiped .mul (.multiplier short) o s := by
  rw [← hs]
  rfl

/-- `pfmul3.dd` runs in the three-stage pipe (41 R176). -/
theorem exec_pfmul3 {o : FpOps} (s : State) (hs : o.s = true) (hr : o.r = true) :
    exec (.pfmul3 true o) s = opPiped .mul (.multiplier false) o s := by
  show execPfmul3 true o s = _
  unfold execPfmul3
  rw [hs, hr]
  rfl

/-- Settles O33: each of the four is the pipelined operation in its pipe, which the source precision selects for pfmul. -/
theorem pipelinedArithmetic : Obligations.PipelinedArithmetic := by
  intro s o hd hs
  refine ⟨fun hf => ⟨adderLeaves_of_exec (opPiped_of_fit hd hs) hf, adderLeaves_of_exec (opPiped_of_fit hd hs) hf⟩,
    fun hf => ⟨fun hsgl => ?_, fun hdbl => ?_⟩, fun hf hdbl => ?_⟩
  · exact multiplier3Leaves_of_exec ((exec_pfmul s hsgl).trans (opPiped_of_fit hd hs)) hf
  · have hr : o.r = true := Bool.eq_true_of_not_eq_false fun hr => hd ⟨hdbl, hr⟩
    exact multiplier3Leaves_of_exec ((exec_pfmul3 s hdbl hr).trans (opPiped_of_fit hd hs)) hf
  · exact multiplier2Leaves_of_exec ((exec_pfmul s hdbl).trans (opPiped_of_fit hd hs)) hf

/-! ## Convert to integer -/

/-- The low half of a concatenation. -/
theorem lowWord_append (hi lo : Word) : lowWord (hi ++ lo) = lo := BitVec.extractLsb'_append_eq_right

/-- The double that fix and ftrunc leave, with the integer in its low word where there is one (41 R184, log 9). -/
theorem fixValue_eq_dbl (rm : BitVec 2) (x : Slot) (free : DWord) :
    ∃ v : DWord, fixValue rm x free = .dbl v ∧ ∀ n, x.fix rm = some n → lowWord v = n := by
  refine ⟨_, rfl, fun n hn => ?_⟩
  rw [hn]
  exact lowWord_append _ n

section

variable {i : Instr} {s : State} {o : FpOps} {rm : BitVec 2}

/-- The scalar forms of fix and ftrunc. -/
theorem fix_scalar_leaves (hi : exec i s = opFix false rm o s) (hr : o.r = true) (hs : SourceFits o o.src1)
    (hd : o.dest.getLsbD 0 = false) :
    ∃ (t : State) (v : DWord), exec i s = .next t ∧ FpairSet s t o.dest v ∧
      (∀ n, (src s o.s o.src1).fix rm = some n → lowWord v = n) ∧ SameMem s t ∧
      t = { s with fregs := t.fregs, freeCount := s.freeCount + 1 } := by
  obtain ⟨v, hv, hlow⟩ := fixValue_eq_dbl rm (src s o.s o.src1) s.free
  obtain ⟨t, ht, hset, he⟩ := finishScalar_fits (s := s.drawn) (adv := false) (d := o.dest) (v := .dbl v) hd
  rw [opFix_of_fit hr hs, hv] at hi
  exact ⟨t, v, hi.trans ht, fslotSet_congr (v := .dbl v) rfl rfl hset, hlow, fun a => by rw [he]; rfl, he⟩

/-- The pipelined forms of fix and ftrunc. -/
theorem fix_piped_leaves (hi : exec i s = opFix true rm o s) (hr : o.r = true) (hs : SourceFits o o.src1)
    (hd : SlotFits o.dest s.pipeA.s2) :
    ∃ (t : State) (v : DWord), exec i s = .next t ∧ FslotSet s t o.dest s.pipeA.s2 ∧
      (∀ n, (src s o.s o.src1).fix rm = some n → lowWord v = n) ∧ SameMem s t ∧
      t = { s with
        fregs := t.fregs, pipeA := ⟨.dbl v, s.pipeA.s0, s.pipeA.s1⟩, freeCount := s.freeCount + 1 } := by
  obtain ⟨v, hv, hlow⟩ := fixValue_eq_dbl rm (src s o.s o.src1) s.free
  obtain ⟨t, ht, hset, he⟩ := finishPiped_fits (s := s.drawn) (pipe := .adder) (d := o.dest) (v := .dbl v) hd
  rw [opFix_of_fit hr hs, hv] at hi
  exact ⟨t, v, hi.trans ht, fslotSet_congr rfl rfl hset, hlow, fun a => by rw [he]; rfl, he⟩

end

/-- Settles O34: the four are one conversion under two rounding modes and with two ends. -/
theorem convertToInteger : Obligations.ConvertToInteger := fun _ _ hr hs =>
  ⟨fun hd => ⟨fix_scalar_leaves rfl hr hs hd, fix_scalar_leaves rfl hr hs hd⟩,
    fun hd => ⟨fix_piped_leaves rfl hr hs hd, fix_piped_leaves rfl hr hs hd⟩⟩

/-! ## Move -/

/-- Settles O35: the conversion, with a scalar or a pipelined end. -/
theorem moves : Obligations.Moves := fun s o hs =>
  ⟨fun hr => scalarLeaves_of_exec (opMove_of_fit hs) (slotFits_cvt hr),
    fun hf => adderLeaves_of_exec (opMove_of_fit hs) hf, fun h => h ▸ cvt_src_same s s.rm o.s o.src1⟩

/-! ## Compare -/

/-- An all-ones exponent and a fraction that is not zero make a NaN. -/
theorem Format.classify_eq_nan {f : Format} {x : Nat} (he : x / 2 ^ f.fracBits % 2 ^ f.expBits = f.expMax)
    (hf : x % 2 ^ f.fracBits ≠ 0) : f.classify x = .nan := by
  unfold Format.classify
  dsimp only
  rw [if_pos he, if_neg hf]

/-- A field of a word as a number. -/
theorem toNat_field {w : Nat} (x : BitVec w) (lo len : Nat) :
    (x.extractLsb' lo len).toNat = x.toNat / 2 ^ lo % 2 ^ len := by
  rw [BitVec.extractLsb'_toNat, Nat.shiftRight_eq_div_pow]

/-- A single NaN, by its fields. -/
theorem classify_single_nan {w : Word} (he : w.extractLsb' 23 8 = 0xFF#8) (hf : w.extractLsb' 0 23 ≠ 0#23) :
    (format false).classify (w.setWidth 64).toNat = .nan := by
  simp only [Ne, ← BitVec.toNat_inj, toNat_field, pow_zero, Nat.div_one] at he hf
  rw [BitVec.toNat_setWidth_of_le (by decide)]
  exact Format.classify_eq_nan he hf

/-- A double NaN, by the fields of its two registers. -/
theorem classify_double_nan {hi lo : Word} (he : hi.extractLsb' 20 11 = 0x7FF#11)
    (hf : hi.extractLsb' 0 20 ≠ 0#20 ∨ lo ≠ 0#32) : (format true).classify (hi ++ lo).toNat = .nan := by
  simp only [Ne, ← BitVec.toNat_inj, toNat_field, BitVec.toNat_ofNat] at he hf
  have hlo := lo.isLt
  rw [toNat_append_eq]
  refine Format.classify_eq_nan ?_ ?_
  · show _ / 2 ^ 52 % 2 ^ 11 = 2047
    omega
  · show _ % 2 ^ 52 ≠ 0
    omega

/-- No relation holds of an unordered pair (41 R189). -/
theorem fpCompareBits_of_nan {dbl : Bool} {rel : Config.FpRel} {rm : BitVec 2} {a b : DWord}
    (h : (format dbl).classify a.toNat = .nan ∨ (format dbl).classify b.toNat = .nan) :
    fpCompareBits dbl rel rm a b = false := by
  unfold fpCompareBits
  exact if_pos h

section

variable {s : State} {o : FpOps} {r : Reg}

/-- No relation holds of two singles when one is a NaN. -/
theorem fpCompare_single_nan (rel : Config.FpRel) (hs : o.s = false) (hr : r = o.src1 ∨ r = o.src2)
    (he : (s.readF r).extractLsb' 23 8 = 0xFF#8) (hf : (s.readF r).extractLsb' 0 23 ≠ 0#23) :
    fpCompare rel s.rm o.s (src s o.s o.src1) (src s o.s o.src2) = false := by
  have hn := classify_single_nan he hf
  rw [hs]
  refine fpCompareBits_of_nan ?_
  rcases hr with rfl | rfl
  · exact .inl hn
  · exact .inr hn

/-- No relation holds of two doubles when one is a NaN. -/
theorem fpCompare_double_nan (rel : Config.FpRel) (hs : o.s = true) (hr : r = o.src1 ∨ r = o.src2)
    (he : (s.readF (r + 1#5)).extractLsb' 20 11 = 0x7FF#11)
    (hf : (s.readF (r + 1#5)).extractLsb' 0 20 ≠ 0#20 ∨ s.readF r ≠ 0#32) :
    fpCompare rel s.rm o.s (src s o.s o.src1) (src s o.s o.src2) = false := by
  have hn := classify_double_nan he hf
  rw [hs]
  refine fpCompareBits_of_nan ?_
  rcases hr with rfl | rfl
  · exact .inl hn
  · exact .inr hn

/-- What a compare leaves: CC and the side channel hold `compareCC` of the relation, and the adder pipe advances. -/
theorem compare_leaves {i : Instr} {rel : Config.FpRel} {c : Bool} (hi : exec i s = opCompare rel o s)
    (hf : SourcesFit o) (hd : SlotFits o.dest s.pipeA.s2)
    (hc : compareCC rel (fpCompare rel s.rm o.s (src s o.s o.src1) (src s o.s o.src2)) = c) :
    ∃ (t : State) (v : DWord), exec i s = .next t ∧ FslotSet s t o.dest s.pipeA.s2 ∧
      t.pipeA = ⟨if o.s then .dbl v else .sgl (lowWord v), s.pipeA.s0, s.pipeA.s1⟩ ∧
      t.cc = c ∧ t.ccRaw = c ∧ t.ccValid = true ∧ PsrKept s t [2] ∧ SameMem s t ∧
      t = { s with
        fregs := t.fregs, pipeA := t.pipeA, psr := t.psr, ccRaw := t.ccRaw, ccValid := t.ccValid,
        freeCount := s.freeCount + 1 } := by
  obtain ⟨u, hu, hset, he⟩ :=
    finishPiped_fits (s := s.drawn) (pipe := .adder) (v := compareSlot o.s s.free) hd
  rw [opCompare_of_fit hf, hu, andThen_next, hc] at hi
  have hpsr : u.psr = s.psr := by rw [he]; rfl
  refine ⟨u.setCompare c, s.free, hi, fslotSet_congr rfl rfl hset, by rw [he]; rfl, ?_, rfl, rfl, fun k hk => ?_,
    fun a => by rw [he]; rfl, by rw [he]; rfl⟩
  · exact (getLsbD_setBit u.psr 2 2 c (by omega)).trans (if_pos rfl)
  · rw [List.mem_singleton] at hk
    rw [State.setCompare_psr, getLsbD_setBit _ _ _ _ (by omega), if_neg hk, hpsr]

end

/-- Settles O36: the three are one compare, and a NaN operand makes its relation false. -/
theorem compares : Obligations.Compares := fun _ _ hs hd =>
  ⟨compare_leaves rfl hs hd rfl, compare_leaves rfl hs hd rfl, compare_leaves rfl hs hd rfl,
    fun hsgl _ hr he hf rel => fpCompare_single_nan rel hsgl hr he hf,
    fun hdbl _ hr he hf rel => fpCompare_double_nan rel hdbl hr he hf⟩

/-! ## Multiply low -/

/-- The low 53 bits of `fmlow.dd` are those of the integer product. -/
theorem fmlowValue_mod (a b free : DWord) : (fmlowValue a b free).toNat % 2 ^ 53 = a.toNat * b.toNat % 2 ^ 53 := by
  unfold fmlowValue
  rw [toNat_append_eq, Nat.mul_add_mod_self_right, BitVec.extractLsb'_toNat, BitVec.toNat_mul, Nat.shiftRight_zero,
    Nat.mod_mod, Nat.mod_mod_of_dvd _ (by decide)]

/-- Settles O37: the result is written as a double after one free value is drawn. -/
theorem multiplyLow : Obligations.MultiplyLow := by
  intro s o hs hr hf hd a b
  obtain ⟨t, ht, hset, he⟩ := writeSlot_fits (s := s.drawn) (v := .dbl (fmlowValue a b s.free)) (hd hr)
  exact ⟨t, _, (execFmlow_of_fit hs hr hf).trans ht, fslotSet_congr (v := .dbl _) rfl rfl hset, fmlowValue_mod a b s.free,
    fun c => by rw [he]; rfl, he⟩

/-! ## Reciprocal and reciprocal square root -/

section

variable {i : Instr} {s : State} {o : FpOps} {invalid : Slot → Bool} {f : BitVec 2 → Bool → Slot → Slot}

/-- frcp and frsqr on a valid operand clear SE and write the approximation. -/
theorem approx_valid_leaves (hi : exec i s = opApprox invalid f o s) (hd : ¬ Ds o) (hf : SourceFits o o.src2)
    (hv : invalid (src s o.s o.src2) = false) (hr : ResultFits o) :
    ∃ t, exec i s = .next t ∧
      FslotSet s t o.dest (((f s.rm o.s (src s o.s o.src2).reduced).reduced).cvt s.rm o.r) ∧ t.fsr.getLsbD 8 = false ∧
      FsrKept s t [8] ∧ SameMem s t ∧ t = { s with fregs := t.fregs, fsr := t.fsr } := by
  obtain ⟨t, ht, hset, he⟩ := writeSlot_fits (s := s.setSE false) (slotFits_cvt (rm := s.rm) hr)
  have hfsr : t.fsr = setBit s.fsr 8 false := by rw [he]; rfl
  refine ⟨t, hi.trans ((opApprox_of_valid hd hf hv).trans ht), fslotSet_congr rfl rfl hset, ?_, fun k hk => ?_,
    fun a => by rw [he]; rfl, by rw [he]; rfl⟩
  · rw [hfsr, getLsbD_setBit _ _ _ _ (by omega), if_pos rfl]
  · rw [List.mem_singleton] at hk
    rw [hfsr, getLsbD_setBit _ _ _ _ (by omega), if_neg hk]

/-- The source exception with P_FP_TRAPS_ENABLED false: nothing. -/
theorem sourceException_off (h : s.par.fpTrapsEnabled = false) : sourceException s = s := by
  unfold sourceException
  rw [h]
  rfl

/-- The source exception with P_FP_TRAPS_ENABLED true and FTE clear: SE. -/
theorem sourceException_masked (h : s.par.fpTrapsEnabled = true) (ht : s.fsr.getLsbD 5 = false) :
    sourceException s = { s with fsr := s.fsr ||| 0x100#32 } := by
  unfold sourceException
  rw [if_pos h]
  exact if_neg (Bool.not_eq_true _ ▸ ht)

/-- The source exception with P_FP_TRAPS_ENABLED true and FTE set: SE and the floating trap. -/
theorem sourceException_raised (h : s.par.fpTrapsEnabled = true) (ht : s.fsr.getLsbD 5 = true) :
    sourceException s =
      { s with fsr := s.fsr ||| 0x100#32, psr := s.psr ||| 0x1000#32, trapPending := true } := by
  unfold sourceException
  rw [if_pos h]
  exact if_pos ht

/-- frcp and frsqr on an invalid operand, by P_FP_TRAPS_ENABLED and FTE. -/
theorem approx_invalid_leaves (hi : exec i s = opApprox invalid f o s) (hd : ¬ Ds o) (hf : SourceFits o o.src2)
    (hv : invalid (src s o.s o.src2) = true) :
    (s.par.fpTrapsEnabled = false → exec i s = .next s) ∧
    (s.par.fpTrapsEnabled = true → s.fsr.getLsbD 5 = false → exec i s = .next { s with fsr := s.fsr ||| 0x100#32 }) ∧
    (s.par.fpTrapsEnabled = true → s.fsr.getLsbD 5 = true →
      exec i s = .next { s with fsr := s.fsr ||| 0x100#32, psr := s.psr ||| 0x1000#32, trapPending := true }) := by
  have hx : exec i s = .next (sourceException s) := hi.trans (opApprox_of_invalid hd hf hv)
  exact ⟨fun hp => by rw [hx, sourceException_off hp], fun hp ht => by rw [hx, sourceException_masked hp ht],
    fun hp ht => by rw [hx, sourceException_raised hp ht]⟩

end

/-- Settles O38: frcp and frsqr are one approximation with two tests for an invalid operand. -/
theorem approximations : Obligations.Approximations := by
  intro s o hd hf
  refine ⟨fun hz hr => ?_, fun hz => ?_, fun hz hn hr => ?_, fun h => ?_⟩
  · exact approx_valid_leaves (i := .frcp o) rfl hd hf hz hr
  · exact approx_invalid_leaves (i := .frcp o) rfl hd hf hz
  · exact approx_valid_leaves (exec_frsqr o s) hd hf (Bool.or_eq_false_iff.2 ⟨hz, hn⟩) hr
  · exact approx_invalid_leaves (exec_frsqr o s) hd hf (Bool.or_eq_true_iff.2 h)

end Sys2Proof.Machine

/-! SUPPORT. The dual-operation instructions: the routing table by its fields, the loads of KR, KI and T, and what one of them
leaves. -/

namespace Sys2Proof.Machine

open Sys2Proof.Claims

/-! ## The routing table -/

/-- The sixteen rows of the table, field by field (42 R211). -/
theorem route_eq : ∀ dpc : BitVec 4, route dpc =
    ⟨mOp1 dpc.toNat, mOp2 dpc.toNat, aOp1 dpc.toNat, aOp2 dpc.toNat, tLoads dpc.toNat, kLoads dpc.toNat⟩ := by
  decide

/-- A row that loads a K register multiplies with KI or with KR (42 R211). -/
theorem mOp1_ne_ki_iff_of_kLoads : ∀ dpc : BitVec 4, kLoads dpc.toNat = true →
    (mOp1 dpc.toNat ≠ .ki ↔ mOp1 dpc.toNat = .kr) := by
  decide

/-! ## The operands -/

/-- The model's read of an operand source is the statements' one (42 R212). -/
theorem sourceValue_eq_dualOperand (s : State) (o : FpOps) (isM : Bool) (x : Source) :
    sourceValue s o isM x = dualOperand s o isM s.pipeA.s2 (s.pipeM.last o.s) x := by
  cases x with
  | apipe => cases isM <;> rfl
  | src1 | src2 | kr | ki | t | mpipe => rfl

/-- A source operand looks at the floating file alone. -/
theorem src_congr {s t : State} (h : t.fregs = s.fregs) (dbl : Bool) (i : Reg) : src t dbl i = src s dbl i := by
  simp only [src, readF_congr h]

/-! ## The loads of KR, KI and T -/

/-- What a load stores is the slot's value, whatever the free upper half of a single (42 R214). -/
theorem stored_storeValue (free : Word) (v : Slot) : Stored v (storeValue free v) := by
  cases v with
  | sgl w => exact lowWord_append free w
  | dbl w => rfl

/-- The loads of a row: T from the multiplier's last stage, KI or else KR from `v`, and one free value drawn for both (42 R212,
R214). -/
theorem dualLoads_eq (row : Route) (lastM v : Slot) (s : State) :
    dualLoads row lastM v s =
      { s with
        t := if row.tload then storeValue (highWord s.free) lastM else s.t
        kr := if row.kload = true ∧ row.m1 ≠ .ki then storeValue (lowWord s.free) v else s.kr
        ki := if row.kload = true ∧ row.m1 = .ki then storeValue (lowWord s.free) v else s.ki
        freeCount := if row.tload || row.kload then s.freeCount + 1 else s.freeCount } := by
  unfold dualLoads
  obtain ⟨m1, m2, a1, a2, tload, kload⟩ := row
  by_cases hm : m1 = .ki
  · subst hm
    cases tload <;> cases kload <;> rfl
  · cases tload <;> cases kload <;> simp [hm]

/-- A field that one condition loads with `new` is as `new` where it holds and as before where it does not. -/
theorem ite_loaded {c : Prop} [Decidable c] {P : DWord → Prop} {new : DWord} (old : DWord) (h : P new) :
    if c then P (if c then new else old) else (if c then new else old) = old := by
  by_cases hc : c
  · simpa only [if_pos hc] using h
  · simp only [if_neg hc]

/-! ## What a dual-operation instruction leaves -/

section

variable {i : Instr} {s : State} {o : FpOps} {isM : Bool} {addOp : Config.FpOp} {dpc : BitVec 4}

/-- A dual-operation instruction on operands that fit (42 R212). -/
theorem opDual_of_fit (hd : ¬ Ds o) (hf : SourcesFit o) :
    opDual isM addOp dpc o s =
      let lastM := s.pipeM.last o.s
      let val := dualOperand s o isM s.pipeA.s2 lastM
      let newM := fpArith .mul s.rm o.r (val (route dpc).m1) (val (route dpc).m2)
      let newA := fpArith addOp s.rm o.r (val (route dpc).a1) (val (route dpc).a2)
      andThen (s.writeSlot o.dest (if isM then lastM else s.pipeA.s2)) fun u =>
        .next (((dualLoads (route dpc) lastM (kLoadValue o s u) u).pipePush (.multiplier o.s) newM).pipePush
          .adder newA) := by
  unfold opDual
  rw [isDs_eq_false hd, badSources_of_fit hf]
  simp only [sourceValue_eq_dualOperand]
  rfl

/-- A K load by the model's free choice is one of the two the statements admit (log 36). -/
theorem kLoaded_of_kLoadValue {u t : State} (ht : t.fregs = u.fregs) (free : Word) :
    KLoaded s t o (storeValue free (kLoadValue o s u)) := by
  unfold KLoaded
  rw [src_congr ht]
  rcases kLoadValue_cases o s u with h | h
  · rw [h]
    exact .inl (stored_storeValue free _)
  · rw [h]
    exact .inr (stored_storeValue free _)

/-- An instruction that is a dual operation writes the last stage, when it fits, loads by its row, and advances both pipes. -/
theorem dualLeaves_of_exec (h : exec i s = opDual isM addOp dpc o s) (hd : ¬ Ds o) (hf : SourcesFit o) :
    DualLeaves i s isM addOp dpc.toNat o := by
  intro (hfit : SlotFits o.dest (if isM then s.pipeM.last o.s else s.pipeA.s2))
  obtain ⟨u, hu, hset, he⟩ := writeSlot_fits (s := s) hfit
  obtain ⟨f, rfl⟩ : ∃ f, u = { s with fregs := f } := ⟨_, he⟩
  have hrun := h.trans (opDual_of_fit hd hf)
  simp only [hu, andThen_next, route_eq, dualLoads_eq, and_congr_right (mOp1_ne_ki_iff_of_kLoads dpc)] at hrun
  exact ⟨_, hrun, fslotSet_congr rfl rfl hset, rfl, rfl, ite_loaded s.t (stored_storeValue _ _),
    ite_loaded s.kr (kLoaded_of_kLoadValue rfl _), ite_loaded s.ki (kLoaded_of_kLoadValue rfl _), fun _ => rfl, rfl⟩

end

/-- Settles O39: the four are one operation, by the pipe that supplies fdest and by add or subtract. -/
theorem dualOperations : Obligations.DualOperations := fun _ _ _ hd hs =>
  ⟨dualLeaves_of_exec rfl hd hs, dualLeaves_of_exec rfl hd hs, dualLeaves_of_exec rfl hd hs,
    dualLeaves_of_exec rfl hd hs⟩

end Sys2Proof.Machine

/-! SUPPORT. The graphics instructions: the fields of a packed word, the pixel mask a Z check leaves in the PSR, the shared
operations on operands that fit, and what the scalar and the pipelined form leave. -/

namespace Sys2Proof.Machine

open Sys2Proof.Claims

/-! ## What a graphics instruction leaves -/

/-- An instruction that ends as a graphics one, on a state with the PSR, MERGE and the free-value counter written (43 R230). -/
theorem graphicsLeaves_of_exec {scalar piped : Instr} {s : State} {d : Reg} {v : Slot} {psr : Word} {merge : DWord}
    {n : Nat}
    (hs : exec scalar s = finishGraphics false { s with psr := psr, merge := merge, freeCount := n } d v)
    (hp : exec piped s = finishGraphics true { s with psr := psr, merge := merge, freeCount := n } d v) :
    GraphicsLeaves scalar piped s d v psr merge n := by
  refine ⟨fun hfit => ?_, fun (hfit : SlotFits d { s with psr := psr, merge := merge, freeCount := n }.pipeG) => ?_⟩
  · obtain ⟨t, ht, hset, he⟩ := finishGraphics_scalar hfit
    exact ⟨t, hs.trans ht, fslotSet_congr rfl rfl hset, fun a => by rw [he], he⟩
  · obtain ⟨t, ht, hset, he⟩ := finishGraphics_piped (v := v) hfit
    exact ⟨t, hp.trans ht, fslotSet_congr rfl rfl hset, fun a => by rw [he], he⟩

/-! ## Integer add and subtract -/

section

variable {s : State} {o : FpOps} {piped : Bool}

/-- fiadd and fisub on operands that fit (43 R232, R233). -/
theorem opInteger_of_fit {f32 : Word → Word → Word} {f64 : DWord → DWord → DWord} (hp : o.s = o.r) (hf : SourcesFit o) :
    opInteger piped f32 f64 o s = finishGraphics piped s o.dest
      (if o.s then .dbl (f64 (pair s o.src1) (pair s o.src2)) else .sgl (f32 (s.readF o.src1) (s.readF o.src2))) := by
  unfold opInteger
  rw [badSources_of_fit hf, ← hp, bne_self_eq_false]
  rfl

/-! ## Pixel merge -/

/-- MERGE after faddp, with the bits each pixel size keeps written out (43 R236). -/
theorem faddpMerge_eq (ps : BitVec 2) (merge r free : DWord) :
    faddpMerge ps merge r free =
      if ps = 0#2 then (merge >>> 8 &&& 0x00FF00FF00FF00FF#64) ||| (r &&& 0xFF00FF00FF00FF00#64)
      else if ps = 1#2 then (merge >>> 6 &&& 0x03FF03FF03FF03FF#64) ||| (r &&& 0xFC00FC00FC00FC00#64)
      else if ps = 2#2 then (merge >>> 8 &&& 0x00FFFFFF00FFFFFF#64) ||| (r &&& 0xFF000000FF000000#64)
      else free := rfl

/-- The free value that PS = 3 draws is counted, and nothing else changes (log 13). -/
theorem drawnForPS_eq (s : State) :
    drawnForPS s = { s with freeCount := if s.ps = 3#2 then s.freeCount + 1 else s.freeCount } := by
  unfold drawnForPS
  split <;> rfl

/-- The model's test of the two 64-bit sources passes where both fit (10 R14). -/
theorem oddPairs_eq_false {i j : Reg} (hi : i.getLsbD 0 = false) (hj : j.getLsbD 0 = false) :
    (oddPair i || oddPair j) = false := by
  unfold oddPair
  rw [hi, hj]
  rfl

/-- faddp and pfaddp on operands that fit (43 R236). -/
theorem opFaddp_of_fit (h1 : o.src1.getLsbD 0 = false) (h2 : o.src2.getLsbD 0 = false) :
    opFaddp piped o s = finishGraphics piped
      { s with
        merge := faddpMerge s.ps s.merge (pair s o.src1 + pair s o.src2) s.free
        freeCount := if s.ps = 3#2 then s.freeCount + 1 else s.freeCount }
      o.dest (.dbl (pair s o.src1 + pair s o.src2)) := by
  have hrun : opFaddp piped o s = finishGraphics piped
      { drawnForPS s with merge := faddpMerge s.ps s.merge (pair s o.src1 + pair s o.src2) s.free }
      o.dest (.dbl (pair s o.src1 + pair s o.src2)) := by
    unfold opFaddp
    rw [oddPairs_eq_false h1 h2]
    rfl
  rw [hrun, drawnForPS_eq]

/-- faddz and pfaddz on operands that fit (43 R237). -/
theorem opFaddz_of_fit (h1 : o.src1.getLsbD 0 = false) (h2 : o.src2.getLsbD 0 = false) :
    opFaddz piped o s = finishGraphics piped
      { s with
        merge := (s.merge >>> 16 &&& 0x0000FFFF0000FFFF#64) |||
          ((pair s o.src1 + pair s o.src2) &&& 0xFFFF0000FFFF0000#64) }
      o.dest (.dbl (pair s o.src1 + pair s o.src2)) := by
  unfold opFaddz
  rw [oddPairs_eq_false h1 h2]
  rfl

/-- form and pform on an operand that fits (43 R238). -/
theorem opForm_of_fit (h1 : o.src1.getLsbD 0 = false) :
    opForm piped o s = finishGraphics piped { s with merge := 0#64 } o.dest (.dbl (pair s o.src1 ||| s.merge)) := by
  unfold opForm oddPair
  rw [h1]
  rfl

/-! ## Z-buffer check -/

/-- The four Z checks on operands that fit (43 R240, R241). -/
theorem opZcheck_of_fit {value : DWord → DWord → DWord} {mask : BitVec 8 → DWord → DWord → BitVec 8}
    (h1 : o.src1.getLsbD 0 = false) (h2 : o.src2.getLsbD 0 = false) :
    opZcheck piped value mask o s = finishGraphics piped
      { s with
        psr := setField s.psr 24 8 (mask s.pm (pair s o.src1) (pair s o.src2))
        merge := if s.par.fzchkClearsMerge then 0#64 else s.merge }
      o.dest (.dbl (value (pair s o.src1) (pair s o.src2))) := by
  unfold opZcheck
  rw [oddPairs_eq_false h1 h2]
  rfl

end

/-! ## The fields of a packed word -/

section

variable {w : Nat}

/-- The last part of a concatenation is field 0. -/
theorem field_zero_append {m : Nat} (x : BitVec m) (y : BitVec w) : (x ++ y).extractLsb' (w * 0) w = y :=
  BitVec.extractLsb'_append_eq_right

/-- The fields above the last part of a concatenation are those of the first part. -/
theorem field_succ_append {m : Nat} (x : BitVec m) (y : BitVec w) (i : Nat) :
    (x ++ y).extractLsb' (w * (i + 1)) w = x.extractLsb' (w * i) w := by
  rw [extractLsb'_append_high _ _ (Nat.le_mul_of_pos_right w i.succ_pos), Nat.mul_succ, Nat.add_sub_cancel]

/-- Field `i` of two fields. -/
theorem field_pack2 (f : Nat → BitVec w) : ∀ i < 2, (f 1 ++ f 0).extractLsb' (w * i) w = f i
  | 0, _ => field_zero_append _ _
  | 1, _ => (field_succ_append _ _ 0).trans (extractLsb'_all _)

/-- Field `i` of four fields. -/
theorem field_pack4 (f : Nat → BitVec w) : ∀ i < 4, (f 3 ++ f 2 ++ f 1 ++ f 0).extractLsb' (w * i) w = f i
  | 0, _ => field_zero_append _ _
  | i + 1, hi => by
    rw [field_succ_append]
    match i with
    | 0 => exact field_zero_append _ _
    | i + 1 => rw [field_succ_append]; exact field_pack2 (fun j => f (j + 2)) i (by omega)

/-- A field of a Z check's result is the smaller of the two (43 R240, R241). -/
theorem toNat_minField (a b : DWord) (i : Nat) :
    (minField w a b i).toNat = min (b.extractLsb' (w * i) w).toNat (a.extractLsb' (w * i) w).toNat := by
  unfold minField
  split <;> omega

end

/-! ## The pixel mask -/

/-- The bit a Z check puts into PM for field `i`: b is not above a (43 R240, R241). -/
def zBit (w : Nat) (a b : DWord) (i : Nat) : BitVec 1 :=
  BitVec.ofBool (decide ((b.extractLsb' (w * i) w).toNat ≤ (a.extractLsb' (w * i) w).toNat))

/-- The new bits of fzchks stand above four old ones. -/
theorem fzchksPM_eq (pm : BitVec 8) (a b : DWord) :
    fzchksPM pm a b =
      (zBit 16 a b 3 ++ zBit 16 a b 2 ++ zBit 16 a b 1 ++ zBit 16 a b 0 : BitVec 4) ++ pm.extractLsb' 4 4 := rfl

/-- The new bits of fzchkl stand above six old ones. -/
theorem fzchklPM_eq (pm : BitVec 8) (a b : DWord) :
    fzchklPM pm a b = (zBit 32 a b 1 ++ zBit 32 a b 0 : BitVec 2) ++ pm.extractLsb' 2 6 := rfl

/-- A bit is a field one bit wide. -/
theorem getLsbD_of_field {m i : Nat} {x : BitVec m} {y : BitVec 1} (h : x.extractLsb' (1 * i) 1 = y) :
    x.getLsbD i = y.getLsbD 0 := by
  rw [← h, BitVec.getLsbD_extractLsb']
  simp

/-- The PSR with PM shifted right by `n`, under new bits: what lies below PM is as before, the old bits have moved down, and
the new ones stand above them (43 R240, R241). -/
theorem getLsbD_psr_shiftedPM {n m w : Nat} (hnm : n + m = 8) {s : State} {v : BitVec 8} {new : BitVec n} {a b : DWord}
    (hv : ∀ k, v.getLsbD k = (new ++ s.pm.extractLsb' n m).getLsbD k)
    (hnew : ∀ i < n, new.extractLsb' (1 * i) 1 = zBit w a b i) :
    (∀ k, k < 24 → (setField s.psr 24 8 v).getLsbD k = s.psr.getLsbD k) ∧
    (∀ k, k < m → (setField s.psr 24 8 v).getLsbD (24 + k) = s.psr.getLsbD (24 + n + k)) ∧
    (∀ i, i < n → ((setField s.psr 24 8 v).getLsbD (24 + m + i) = true ↔
      (b.extractLsb' (w * i) w).toNat ≤ (a.extractLsb' (w * i) w).toNat)) := by
  refine ⟨fun k hk => ?_, fun k hk => ?_, fun i hi => ?_⟩
  · rw [getLsbD_setField _ _ _ _ _ (by omega), if_neg (by omega)]
  · rw [getLsbD_setField _ _ _ _ _ (by omega), if_pos (by omega), Nat.add_sub_cancel_left, hv, BitVec.getLsbD_append,
      if_pos hk]
    simp [State.pm, hk, show n + k < 8 by omega, Nat.add_assoc]
  · rw [getLsbD_setField _ _ _ _ _ (by omega), if_pos (by omega), hv, BitVec.getLsbD_append, if_neg (by omega),
      show 24 + m + i - 24 - m = i by omega, getLsbD_of_field (hnew i hi)]
    simp [zBit]

/-! ## The statements -/

/-- Settles O40: the four are one operation, by add or subtract and by its end. -/
theorem graphicsAdd : Obligations.GraphicsAdd := fun _ _ hp hf =>
  ⟨graphicsLeaves_of_exec (opInteger_of_fit hp hf) (opInteger_of_fit hp hf),
    graphicsLeaves_of_exec (opInteger_of_fit hp hf) (opInteger_of_fit hp hf)⟩

/-- Settles O41: each instruction is its merge, then the scalar or the pipelined end. -/
theorem pixelMerge : Obligations.PixelMerge := by
  refine fun s o h1 => ⟨fun h2 => ⟨?_, ?_⟩, ?_⟩
  · have hleaves := graphicsLeaves_of_exec (s := s) (scalar := .faddp o) (piped := .pfaddp o)
      (opFaddp_of_fit h1 h2) (opFaddp_of_fit h1 h2)
    rwa [faddpMerge_eq] at hleaves
  · exact graphicsLeaves_of_exec (opFaddz_of_fit h1 h2) (opFaddz_of_fit h1 h2)
  · exact graphicsLeaves_of_exec (opForm_of_fit h1) (opForm_of_fit h1)

/-- Settles O42: result and new mask bits are packed fields, four of 16 bits or two of 32, and the ends are the shared ones. -/
theorem zBufferCheck : Obligations.ZBufferCheck := by
  intro s o h1 h2 a b merge
  constructor
  · obtain ⟨hbelow, hold, hnew⟩ := getLsbD_psr_shiftedPM (n := 4) (m := 4) (s := s) rfl
      (fun k => congrArg (·.getLsbD k) (fzchksPM_eq s.pm a b)) (field_pack4 (zBit 16 a b))
    refine ⟨_, fzchksValue a b, fun i hi => ?_, hbelow, hold, hnew,
      graphicsLeaves_of_exec (opZcheck_of_fit h1 h2) (opZcheck_of_fit h1 h2)⟩
    rw [← toNat_minField, fzchksValue, field_pack4 (minField 16 a b) i hi]
  · obtain ⟨hbelow, hold, hnew⟩ := getLsbD_psr_shiftedPM (n := 2) (m := 6) (s := s) rfl
      (fun k => congrArg (·.getLsbD k) (fzchklPM_eq s.pm a b)) (field_pack2 (zBit 32 a b))
    refine ⟨_, fzchklValue a b, fun i hi => ?_, hbelow, hold, hnew,
      graphicsLeaves_of_exec (opZcheck_of_fit h1 h2) (opZcheck_of_fit h1 h2)⟩
    rw [← toNat_minField, fzchklValue, field_pack2 (minField 32 a b) i hi]

end Sys2Proof.Machine

/-! SUPPORT. The integer unit: what an add or subtract, a logical instruction and a shift leave, and the flags of adds and subs
as facts about the true sum and difference. -/

namespace Sys2Proof.Machine

open Sys2Proof.Claims

/-! ## The flag and count fields -/

section

variable {s t : State}

/-- A PSR that differs by a write of bit 2 reads that bit as CC (10 R21). -/
theorem cc_of_psr_eq {b : Bool} (h : t.psr = setBit s.psr 2 b) : t.cc = b := by
  unfold State.cc
  rw [h, getLsbD_setBit _ _ _ _ (by omega), if_pos rfl]

/-- A write of bit 2 keeps every other bit of the PSR. -/
theorem psrKept_of_psr_eq {b : Bool} (h : t.psr = setBit s.psr 2 b) : PsrKept s t [2] := fun k hk => by
  rw [h, getLsbD_setBit _ _ _ _ (by omega), if_neg (List.mem_singleton.not.1 hk)]

/-- An EPSR that differs by a write of bit 24 reads that bit as OF (10 R22). -/
theorem overflow_of_epsr_eq {b : Bool} (h : t.epsr = setBit s.epsr 24 b) : t.overflow = b := by
  unfold State.overflow
  rw [h, getLsbD_setBit _ _ _ _ (by omega), if_pos rfl]

/-- A write of bit 24 keeps every other bit of the EPSR. -/
theorem epsrKept_of_epsr_eq {b : Bool} (h : t.epsr = setBit s.epsr 24 b) : EpsrKept s t [24] := fun k hk => by
  rw [h, getLsbD_setBit _ _ _ _ (by omega), if_neg (List.mem_singleton.not.1 hk)]

/-- A PSR that differs by a write of bits 21:17 reads them as SC (10 R21). -/
theorem sc_of_psr_eq {v : BitVec 5} (h : t.psr = setField s.psr 17 5 v) : t.sc = v := by
  unfold State.sc
  refine BitVec.eq_of_getLsbD_eq fun k hk => ?_
  rw [h, BitVec.getLsbD_extractLsb', getLsbD_setField _ _ _ _ _ (by omega), if_pos (by omega), Nat.add_sub_cancel_left]
  simp [hk]

/-- A write of bits 21:17 keeps every other bit of the PSR. -/
theorem psrKept_sc_of_psr_eq {v : BitVec 5} (h : t.psr = setField s.psr 17 5 v) : PsrKept s t [17, 18, 19, 20, 21] :=
  fun k hk => by
    simp only [List.mem_cons, List.not_mem_nil, or_false, not_or] at hk
    rw [h, getLsbD_setField _ _ _ _ _ (by omega), if_neg (by omega)]

end

/-! ## The immediates -/

/-- The immediate in the high half is the immediate shifted left by 16 (30 R115). -/
theorem himm16_eq (imm : BitVec 16) : himm16 imm = imm.setWidth 32 <<< 16 := by
  unfold himm16
  refine BitVec.eq_of_toNat_eq ?_
  rw [toNat_append_eq, BitVec.toNat_shiftLeft, BitVec.toNat_setWidth, Nat.shiftLeft_eq]
  simp only [BitVec.toNat_ofNat]
  omega

/-- The shift count of an immediate form is bits 4:0 of the immediate (44 R260). -/
theorem extractLsb'_simm16 (imm : BitVec 16) : (simm16 imm).extractLsb' 0 5 = imm.extractLsb' 0 5 := by
  unfold simm16
  refine BitVec.eq_of_getLsbD_eq fun k hk => ?_
  simp only [BitVec.getLsbD_extractLsb', BitVec.getLsbD_signExtend, show 0 + k < 32 by omega, show 0 + k < 16 by omega,
    decide_true, Bool.true_and, if_true]

/-- The signed number of an immediate survives the sign extension. -/
theorem toInt_simm16 (imm : BitVec 16) : (simm16 imm).toInt = imm.toInt := BitVec.toInt_signExtend_of_le (by decide)

/-! ## What the shared ends leave -/

section

variable {i : Instr} {s : State} {d : Reg} {a b r : Word}

/-- An add or subtract leaves its result and its two flags, and nothing else (44 R250). -/
theorem arithLeaves_of_exec {cc ovf : Bool} {isCC isOF : Prop} (hi : exec i s = writeArith s d r cc ovf)
    (hcc : cc = true ↔ isCC) (hovf : ovf = true ↔ isOF) : ∃ t, exec i s = .next t ∧ ArithLeaves s t d r isCC isOF := by
  refine ⟨_, hi, iregSet_writeReg ((s.setCC cc).setOF ovf) d r, ?_, ?_, psrKept_of_psr_eq (b := cc) rfl,
    epsrKept_of_epsr_eq (b := ovf) rfl, fun _ => rfl, rfl⟩
  · rwa [cc_of_psr_eq (s := s) (b := cc) rfl]
  · rwa [overflow_of_epsr_eq (s := s) (b := ovf) rfl]

/-- A logical instruction leaves its result, and in CC whether it is zero (44 R269). -/
theorem logicLeaves_of_exec (hi : exec i s = writeLogic s d r) : ∃ t, exec i s = .next t ∧ LogicLeaves s t d r := by
  refine ⟨_, hi, iregSet_writeReg (s.setCC (zeroCC r)) d r, ?_, psrKept_of_psr_eq (b := zeroCC r) rfl, fun _ => rfl, rfl⟩
  rw [cc_of_psr_eq (s := s) (b := zeroCC r) rfl]
  exact decide_eq_true_iff

/-- An instruction that writes one integer register leaves that register alone. -/
theorem onlyIreg_of_exec (hi : exec i s = .next (s.writeReg d r)) : ∃ t, exec i s = .next t ∧ OnlyIreg s t d r :=
  ⟨_, hi, iregSet_writeReg s d r, fun _ => rfl, rfl⟩

/-- shr leaves its result, and in SC the count (44 R261). -/
theorem shrLeaves_of_exec {n : BitVec 5} (hi : exec i s = opShr s d a b) (hn : a.extractLsb' 0 5 = n) :
    ∃ t, exec i s = .next t ∧ ShrLeaves s t d n b := by
  subst hn
  exact ⟨_, hi, iregSet_writeReg (s.setSC (a.extractLsb' 0 5)) d _, sc_of_psr_eq (s := s) rfl,
    psrKept_sc_of_psr_eq (v := a.extractLsb' 0 5) rfl, fun _ => rfl, rfl⟩

/-! ## Add and subtract -/

/-- The carry out of bit 31 says that the unsigned sum does not fit (44 R251). -/
theorem adduCarry_iff (a b : Word) : adduCarry a b = true ↔ 2 ^ 32 ≤ a.toNat + b.toNat := by
  have hsum : (a.setWidth 33 + b.setWidth 33).toNat = a.toNat + b.toNat := by
    rw [BitVec.toNat_add, BitVec.toNat_setWidth, BitVec.toNat_setWidth]
    omega
  unfold adduCarry
  rw [← BitVec.msb_eq_getLsbD_last (a.setWidth 33 + b.setWidth 33), BitVec.msb_eq_decide, hsum, decide_eq_true_iff]

/-- addu: CC and OF are both the carry (44 R251). -/
theorem adduLeaves_of_exec (hi : exec i s = opAddu s d a b) : ∃ t, exec i s = .next t ∧ AdduLeaves s t d a b :=
  arithLeaves_of_exec hi (adduCarry_iff a b) (adduCarry_iff a b)

/-- subu: OF is the borrow, the negation of CC (44 R252). -/
theorem subuLeaves_of_exec (hi : exec i s = opSubu s d a b) : ∃ t, exec i s = .next t ∧ SubuLeaves s t d a b :=
  arithLeaves_of_exec hi decide_eq_true_iff (by simp [subuNoBorrow])

/-- adds: CC compares in the integers, OF the signs (44 R253). -/
theorem addsLeaves_of_exec (hi : exec i s = opAdds s d a b) : ∃ t, exec i s = .next t ∧ AddsLeaves s t d a b :=
  arithLeaves_of_exec hi decide_eq_true_iff (by simp [addsOverflow])

/-- subs: CC compares in the integers, OF the signs (44 R254). -/
theorem subsLeaves_of_exec (hi : exec i s = opSubs s d a b) : ∃ t, exec i s = .next t ∧ SubsLeaves s t d a b :=
  arithLeaves_of_exec hi decide_eq_true_iff (by simp [subsOverflow])

end

/-! ## Signed overflow -/

/-- Bit 31 is the sign. -/
theorem getLsbD_31_eq_msb (a : Word) : a.getLsbD 31 = a.msb := (BitVec.msb_eq_getLsbD_last a).symm

/-- Operands of one sign and a result of the other: the true sum does not fit in 32 signed bits (44 R279). -/
theorem addsSigns_iff (a b : Word) : (a.getLsbD 31 = b.getLsbD 31 ∧ (a + b).getLsbD 31 ≠ a.getLsbD 31) ↔
    (a.toInt + b.toInt < -2 ^ 31 ∨ 2 ^ 31 ≤ a.toInt + b.toInt) := by
  have hsigns : a.saddOverflow b = true ↔ a.msb = b.msb ∧ (a + b).msb ≠ a.msb := by
    rw [BitVec.saddOverflow_eq]; simp
  have hrange : a.saddOverflow b = true ↔ 2 ^ 31 ≤ a.toInt + b.toInt ∨ a.toInt + b.toInt < -2 ^ 31 := by
    simp [BitVec.saddOverflow]
  simp only [getLsbD_31_eq_msb]
  rw [← hsigns, hrange, or_comm]

/-- Operands of two signs and a result of the sign of the second: the true difference does not fit in 32 signed bits
(44 R279). -/
theorem subsSigns_iff (a b : Word) : (a.getLsbD 31 ≠ b.getLsbD 31 ∧ (a - b).getLsbD 31 ≠ a.getLsbD 31) ↔
    (a.toInt - b.toInt < -2 ^ 31 ∨ 2 ^ 31 ≤ a.toInt - b.toInt) := by
  have hsigns : a.ssubOverflow b = true ↔ a.msb ≠ b.msb ∧ (a - b).msb ≠ a.msb := by
    rw [BitVec.ssubOverflow_eq]
    cases a.msb <;> cases b.msb <;> simp
  have hrange : a.ssubOverflow b = true ↔ 2 ^ 31 ≤ a.toInt - b.toInt ∨ a.toInt - b.toInt < -2 ^ 31 := by
    simp [BitVec.ssubOverflow]
  simp only [getLsbD_31_eq_msb]
  rw [← hsigns, hrange, or_comm]

/-- OF says that a number does not fit in 32 signed bits, and CC that it is negative (44 R279). -/
def FlagsExact (t : State) (v : Int) : Prop :=
  (t.overflow = true ↔ v < -2 ^ 31 ∨ 2 ^ 31 ≤ v) ∧ (t.cc = true ↔ v < 0)

section

variable {i : Instr} {s t : State} {d : Reg} {a b : Word}

/-- What adds leaves makes its flags those of the true sum. -/
theorem flagsExact_of_addsLeaves (h : AddsLeaves s t d a b) : FlagsExact t (a.toInt + b.toInt) := by
  obtain ⟨-, hcc, hovf, -⟩ := h
  exact ⟨hovf.trans (addsSigns_iff a b), hcc.trans (by omega)⟩

/-- What subs leaves makes its flags those of the true difference. -/
theorem flagsExact_of_subsLeaves (h : SubsLeaves s t d a b) : FlagsExact t (a.toInt - b.toInt) := by
  obtain ⟨-, hcc, hovf, -⟩ := h
  exact ⟨hovf.trans (subsSigns_iff a b), hcc.trans (by omega)⟩

/-- Whatever adds answers next has the flags of the true sum. -/
theorem flagsExact_of_opAdds (hi : exec i s = opAdds s d a b) (h : exec i s = .next t) :
    FlagsExact t (a.toInt + b.toInt) := by
  obtain ⟨u, hu, hleaves⟩ := addsLeaves_of_exec hi
  cases hu.symm.trans h
  exact flagsExact_of_addsLeaves hleaves

/-- Whatever subs answers next has the flags of the true difference. -/
theorem flagsExact_of_opSubs (hi : exec i s = opSubs s d a b) (h : exec i s = .next t) :
    FlagsExact t (a.toInt - b.toInt) := by
  obtain ⟨u, hu, hleaves⟩ := subsLeaves_of_exec hi
  cases hu.symm.trans h
  exact flagsExact_of_subsLeaves hleaves

end

/-! ## The shift of a pair -/

/-- Bit `k` of the low word of a:b shifted right by `n` is bit `k + n` of a:b (44 R263). -/
theorem getLsbD_lowWord_shiftRight (a b : Word) {n k : Nat} (hk : k < 32) :
    (lowWord ((a ++ b : DWord) >>> n)).getLsbD k =
      if k + n < 32 then b.getLsbD (k + n) else a.getLsbD (k + n - 32) := by
  unfold lowWord
  rw [BitVec.getLsbD_extractLsb', BitVec.getLsbD_ushiftRight, BitVec.getLsbD_append, Nat.zero_add, Nat.add_comm n k,
    decide_eq_true hk, Bool.true_and]

/-! ## The statements -/

/-- Settles O1: both forms are the one operation, on a register or on the sign-extended immediate. -/
theorem unsignedArithmetic : Obligations.UnsignedArithmetic := fun _ =>
  ⟨fun _ => ⟨adduLeaves_of_exec rfl, subuLeaves_of_exec rfl⟩,
    fun _ => ⟨adduLeaves_of_exec rfl, subuLeaves_of_exec rfl⟩⟩

/-- Settles O2, as O1. -/
theorem signedArithmetic : Obligations.SignedArithmetic := fun _ =>
  ⟨fun _ => ⟨addsLeaves_of_exec rfl, subsLeaves_of_exec rfl⟩,
    fun _ => ⟨addsLeaves_of_exec rfl, subsLeaves_of_exec rfl⟩⟩

/-- Settles O3: the sign tests of adds and subs are range tests of the true result, and the immediate counts as a signed
number. -/
theorem signedFlagsAreExact : Obligations.SignedFlagsAreExact := fun _ _ =>
  ⟨fun _ => ⟨flagsExact_of_opAdds rfl, flagsExact_of_opSubs rfl⟩,
    fun o => toInt_simm16 o.imm ▸ ⟨flagsExact_of_opAdds rfl, flagsExact_of_opSubs rfl⟩⟩

/-- Settles O4: shl and shra write one register, shr SC besides, and shrd is the low word of a shifted pair. -/
theorem shifts : Obligations.Shifts := by
  refine fun s => ⟨fun o => ⟨onlyIreg_of_exec rfl, shrLeaves_of_exec rfl rfl, onlyIreg_of_exec rfl⟩,
    fun o => ?_, fun o => ?_⟩
  · intro b n
    have hn : (simm16 o.imm).extractLsb' 0 5 = n := extractLsb'_simm16 o.imm
    rw [← hn]
    exact ⟨onlyIreg_of_exec rfl, shrLeaves_of_exec rfl rfl, onlyIreg_of_exec rfl⟩
  · obtain ⟨t, ht, hset, hmem, hframe⟩ := onlyIreg_of_exec (i := .shrd o) (s := s) rfl
    refine ⟨t, ht, hmem, hframe, fun i => ⟨fun hother => ?_, fun hdest k hk => ?_⟩⟩
    · rw [hset, if_neg (by tauto)]
    · rw [hset, if_pos hdest, getLsbD_lowWord_shiftRight _ _ hk]

/-- Settles O5: the twelve are one end, on the register, the zero-extended immediate or the immediate in the high half. -/
theorem logical : Obligations.Logical := by
  refine fun s => ⟨fun o => ?_, fun o => ?_⟩
  · exact ⟨logicLeaves_of_exec rfl, logicLeaves_of_exec rfl, logicLeaves_of_exec rfl, logicLeaves_of_exec rfl⟩
  · intro z h b
    have hh : himm16 o.imm = h := himm16_eq o.imm
    rw [← hh]
    exact ⟨logicLeaves_of_exec rfl, logicLeaves_of_exec rfl, logicLeaves_of_exec rfl, logicLeaves_of_exec rfl,
      logicLeaves_of_exec rfl, logicLeaves_of_exec rfl, logicLeaves_of_exec rfl, logicLeaves_of_exec rfl⟩

end Sys2Proof.Machine

/-! SUPPORT. The control registers: what user mode protects in the PSR, through the delay slot and every control transfer but
bri, and the bits each st.c writes. -/

namespace Sys2Proof.Machine

open Sys2Proof.Claims

/-! ## What a write of a control register leaves -/

/-- Bit k of a merge whose mask is the bits of a set. -/
theorem getLsbD_mergeBits_of_written {mask : Word} {written : Nat → Prop} [DecidablePred written]
    (h : ∀ k < 32, mask.getLsbD k = true ↔ written k) (new old : Word) (k : Nat) :
    (mergeBits mask new old).getLsbD k = if written k then new.getLsbD k else old.getLsbD k := by
  rw [getLsbD_mergeBits]
  by_cases hk : k < 32
  · exact if_congr (h k hk) rfl rfl
  · rw [BitVec.getLsbD_of_ge new k (by omega), BitVec.getLsbD_of_ge old k (by omega), ite_self, ite_self]

/-- Bit k of a merge that keeps the bits of a set. -/
theorem getLsbD_mergeBits_of_kept {mask : Word} {kept : Nat → Prop} [DecidablePred kept]
    (h : ∀ k < 32, mask.getLsbD k = true ↔ kept k) (new old : Word) (k : Nat) :
    (mergeBits (~~~mask) new old).getLsbD k = if kept k then old.getLsbD k else new.getLsbD k := by
  have hnot : ∀ j < 32, (~~~mask).getLsbD j = true ↔ ¬ kept j := fun j hj => by simp [hj, ← h j hj]
  rw [getLsbD_mergeBits_of_written hnot, ite_not]

/-- The PSR bits a user-mode st.c preserves: 0, 1 and 4 to 15 (45 R296). -/
theorem psrUserMask_iff : ∀ k < 32, psrUserMask.getLsbD k = true ↔ k < 2 ∨ (4 ≤ k ∧ k < 16) := by decide

/-- The EPSR bits st.c preserves: 12:0 and 21:17, and in user mode 14:13 and 23:22 too (45 R297). -/
theorem epsrReadOnly_iff (user : Bool) : ∀ k < 32, (epsrReadOnly user).getLsbD k = true ↔
    k < 13 ∨ (17 ≤ k ∧ k < 22) ∨ (user = true ∧ (k = 13 ∨ k = 14 ∨ k = 22 ∨ k = 23)) := by
  cases user <;> decide

/-- The FSR bits st.c writes: 3:0, 8:5 and 21:17 (45 R298). -/
theorem fsrWritable_iff : ∀ k < 32, fsrWritable.getLsbD k = true ↔
    k < 4 ∨ (5 ≤ k ∧ k < 9) ∨ (17 ≤ k ∧ k < 22) := by decide

/-- Bit k of the PSR after st.c (45 R296). -/
theorem getLsbD_writePsr (s : State) (v : Word) (k : Nat) : (writePsr s v).psr.getLsbD k =
    if s.user = true ∧ (k < 2 ∨ (4 ≤ k ∧ k < 16)) then s.psr.getLsbD k else v.getLsbD k := by
  show (if s.user = true then mergeBits (~~~psrUserMask) v s.psr else v).getLsbD k = _
  cases s.user
  · rw [if_neg Bool.false_ne_true, if_neg (by simp)]
  · rw [if_pos rfl, getLsbD_mergeBits_of_kept psrUserMask_iff]
    exact if_congr (by simp) rfl rfl

/-- Bit k of the EPSR after st.c (45 R297). -/
theorem getLsbD_writeEpsr (s : State) (v : Word) (k : Nat) : (writeEpsr s v).epsr.getLsbD k =
    if k < 13 ∨ (17 ≤ k ∧ k < 22) ∨ (s.user = true ∧ (k = 13 ∨ k = 14 ∨ k = 22 ∨ k = 23)) then s.epsr.getLsbD k
    else v.getLsbD k :=
  getLsbD_mergeBits_of_kept (epsrReadOnly_iff s.user) v s.epsr k

/-- Bit k of the FSR after st.c (45 R298). -/
theorem getLsbD_writeFsr (s : State) (v : Word) (k : Nat) : (writeFsr s v).fsr.getLsbD k =
    if k < 4 ∨ (5 ≤ k ∧ k < 9) ∨ (17 ≤ k ∧ k < 22) then v.getLsbD k else s.fsr.getLsbD k :=
  getLsbD_mergeBits_of_written fsrWritable_iff v s.fsr k

/-- The state after st.c to DIRBASE: ITI is stored as 0, and written as 1 it empties the TLB and the instruction cache
(45 R295). -/
theorem writeDirbase_eq (s : State) (v : Word) : writeDirbase s v =
    { s with
      dirbase := setBit v 5 false
      tlb := if v.getLsbD 5 then [] else s.tlb
      icache := if v.getLsbD 5 then [] else s.icache } := by
  unfold writeDirbase
  cases v.getLsbD 5 <;> rfl

/-! ## An index that names no control register -/

/-- An index outside 0 to 5 is none of the six. -/
theorem ne_of_outOfRange {creg c : BitVec 5} (h : 5 < creg.toNat) (hc : c.toNat ≤ 5) : creg ≠ c := by
  rintro rfl
  omega

/-- st.c outside 0 to 5 writes nothing (45 R291). -/
theorem execStc_of_outOfRange {o : StcOps} (s : State) (h : 5 < o.creg.toNat) : execStc o s = .next s := by
  unfold execStc
  dsimp only
  split
  case h_6 => rfl
  all_goals
    rename_i hc
    exact absurd hc (ne_of_outOfRange h (by decide))

/-- ld.c outside 0 to 5 writes the free value it draws (45 R291; log 14). -/
theorem execLdc_of_outOfRange {o : LdcOps} (s : State) (h : 5 < o.creg.toNat) :
    execLdc o s = .next (s.drawn.writeReg o.dest (lowWord s.free)) := by
  unfold execLdc
  split
  case h_7 => rfl
  all_goals
    rename_i hc
    exact absurd hc (ne_of_outOfRange h (by decide))

/-! ## The protected bits of the PSR -/

/-- Bits 0, 1 and 4 to 15 of the PSR are as before, or are trap bits now set (45 R296, 60 R371). -/
def PsrProtected (s t : State) : Prop :=
  ∀ k, k < 2 ∨ (4 ≤ k ∧ k < 16) →
    t.psr.getLsbD k = s.psr.getLsbD k ∨ (8 ≤ k ∧ k < 13 ∧ t.psr.getLsbD k = true)

/-- A next state, if there is one, has the protected bits. -/
def OutProtected (s : State) (o : Out) : Prop := ∀ t, o = .next t → PsrProtected s t

section

variable {s t u : State}

/-- The protected bits look at the PSR alone. -/
theorem psrProtected_of_psr_eq (h : t.psr = s.psr) : PsrProtected s t := fun k _ => .inl (by rw [h])

/-- What an instruction other than ld.c, st.c and the control transfers keeps includes the protected bits. -/
theorem Kept.psrProtected (h : Kept s t) : PsrProtected s t := h.psr

/-- One change after another. -/
theorem PsrProtected.trans (h : PsrProtected s t) (g : PsrProtected t u) : PsrProtected s u := by
  intro k hk
  rcases g k hk with e | e
  · rw [e]
    exact h k hk
  · exact .inr e

/-- U is protected and no trap bit, so it stays. -/
theorem PsrProtected.user (h : PsrProtected s t) (hu : s.user = true) : t.user = true := by
  rcases h 6 (by omega) with e | ⟨h8, _, _⟩
  · exact e.trans hu
  · omega

/-- A next state. -/
theorem outProtected_next (h : PsrProtected s t) : OutProtected s (.next t) := fun _ ht => by cases ht; exact h

/-- A refusal. -/
theorem outProtected_refused (r : Refusal) : OutProtected s (.refused r) := fun _ ht => by cases ht

/-! ## Instructions that are no control transfer -/

/-- st.c in user mode writes no protected bit of the PSR (45 R296). -/
theorem psrProtected_writePsr (hu : s.user = true) (v : Word) : PsrProtected s (writePsr s v) := fun k hk =>
  .inl (by rw [getLsbD_writePsr, if_pos ⟨hu, hk⟩])

/-- st.c. -/
theorem outProtected_execStc (o : StcOps) (hu : s.user = true) : OutProtected s (execStc o s) := by
  unfold execStc
  dsimp only
  split <;> apply outProtected_next
  case h_1 => exact psrProtected_writePsr hu _
  case h_2 => exact psrProtected_of_psr_eq (by rw [writeDirbase_eq])
  all_goals exact psrProtected_of_psr_eq rfl

/-- Every instruction that is no control transfer. -/
theorem outProtected_exec_of_not_transfer {i : Instr} (hc : isControlTransfer i = false) (hu : s.user = true) :
    OutProtected s (exec i s) := by
  rcases exec_cases s hc with ⟨o, rfl⟩ | ⟨o, rfl⟩ | hk
  · exact outProtected_execStc o hu
  · intro t ht
    obtain ⟨e, _⟩ := execLdc_eq_next (o := o) ht
    exact psrProtected_of_psr_eq (by rw [e])
  · exact fun t ht => (hk t ht).psrProtected

/-! ## The delay slot -/

/-- An instruction in a delay slot: one of those that are no control transfer, or a refusal. -/
theorem outProtected_execSlot (i : Instr) (hu : s.user = true) : OutProtected s (execSlot i s) := by
  cases hc : isControlTransfer i
  · cases ht : isTrapCall i
    · rw [execSlot_eq_exec s hc ht]
      exact outProtected_exec_of_not_transfer hc hu
    · rw [execSlot_trapCall s ht]
      exact outProtected_refused _
  · rw [execSlot_controlTransfer s hc]
    exact outProtected_refused _

/-- A word in a delay slot. -/
theorem outProtected_execSlotWord (w : Word) (hu : s.user = true) : OutProtected s (execSlotWord w s) := by
  unfold execSlotWord
  split
  · exact outProtected_execSlot _ hu
  · exact outProtected_next (kept_raise s _).psrProtected

/-- A fetch changes no bit of the PSR but the one of the instruction-access trap. -/
theorem psrProtected_fetch {pc : Word} {r : Option Word} (hf : s.fetch pc = (t, r)) : PsrProtected s t := by
  unfold State.fetch at hf
  split at hf <;> rename_i hp <;> cases hf
  · exact psrProtected_of_psr_eq (by rw [fetchPair_some hp])
  · rw [fetchPair_none hp]
    exact (kept_raise s .instructionAccess).psr

/-- The slot of a delayed branch. -/
theorem outProtected_runSlot (hu : s.user = true) : OutProtected s (runSlot s) := by
  have hpc : PsrProtected s (s.atPc (s.pc + 4#32)) := psrProtected_of_psr_eq rfl
  unfold runSlot
  dsimp only
  split <;> rename_i hf
  · have hfetch := hpc.trans (psrProtected_fetch hf)
    exact fun t ht => hfetch.trans (outProtected_execSlotWord _ (hfetch.user hu) t ht)
  · exact outProtected_next (hpc.trans (psrProtected_fetch hf))

/-- A delayed branch whose end writes no protected bit. -/
theorem outProtected_delaySlot {k : State → Out} (hu : s.user = true) (hk : ∀ u, OutProtected u (k u)) :
    OutProtected s (delaySlot s k) := by
  intro t ht
  obtain ⟨u, hslot, ⟨_, rfl⟩ | ⟨_, hend⟩⟩ := delaySlot_eq_next ht
  · exact outProtected_runSlot hu u hslot
  · exact (outProtected_runSlot hu u hslot).trans (hk (u.atPc s.pc) t hend)

/-! ## The control transfers -/

/-- A jump. -/
theorem outProtected_jump (s : State) (target : Word) : OutProtected s (.next (s.jump target)) :=
  outProtected_next (psrProtected_of_psr_eq rfl)

/-- A branch without a delay slot. -/
theorem outProtected_branchIf (taken : Bool) (target : Word) : OutProtected s (branchIf taken target s) :=
  outProtected_next (psrProtected_of_psr_eq (by cases taken <;> rfl))

/-- A conditional delayed branch. -/
theorem outProtected_delayedIf (taken : Bool) (target : Word) (hu : s.user = true) :
    OutProtected s (delayedIf taken target s) := by
  unfold delayedIf
  split
  · exact outProtected_delaySlot hu fun u => outProtected_jump u target
  · exact outProtected_jump s _

/-- The end of a call. -/
theorem outProtected_link (target : Word) (s : State) : OutProtected s (link target s) :=
  outProtected_next (psrProtected_of_psr_eq rfl)

/-- LCC, which bla writes, is not protected. -/
theorem psrProtected_setLCC (s : State) (b : Bool) : PsrProtected s (s.setLCC b) :=
  (kept_psr s _ fun k hk => by rw [getLsbD_setBit _ _ _ _ (by omega), if_neg (by omega)]).psrProtected

/-- bla. -/
theorem outProtected_execBla (o : SplitOps) (hu : s.user = true) : OutProtected s (execBla o s) := by
  unfold execBla
  split
  · exact outProtected_next (psrProtected_of_psr_eq rfl)
  · exact outProtected_delaySlot (s := s.writeReg o.src2 _) hu fun u =>
      outProtected_next (psrProtected_setLCC (u.jump _) _)

/-- Every control transfer but bri, which may return from a trap (47 R348). -/
theorem outProtected_exec_of_transfer {i : Instr} (hc : isControlTransfer i = true) (hb : isBri i = false)
    (hu : s.user = true) : OutProtected s (exec i s) := by
  cases i
  case br => exact outProtected_delaySlot hu fun u => outProtected_jump u (longTarget u.pc _)
  case call => exact outProtected_delaySlot hu fun u => outProtected_link (longTarget u.pc _) u
  case calli => exact outProtected_delaySlot hu fun u => outProtected_link _ u
  case bc | bnc | bteReg | bteImm | btneReg | btneImm => exact outProtected_branchIf _ _
  case bct | bnct => exact outProtected_delayedIf _ _ hu
  case bla o => exact outProtected_execBla o hu
  case bri => cases hb
  all_goals cases hc

end

/-! ## The statements -/

/-- Settles O57: an instruction that is no control transfer keeps the protected bits itself, a control transfer through its
delay slot and an end that writes at most LCC. -/
theorem userModeProtectsPsr : Obligations.UserModeProtectsPsr := by
  intro i s t hb hu ht
  cases hc : isControlTransfer i
  · exact outProtected_exec_of_not_transfer hc hu t ht
  · exact outProtected_exec_of_transfer hc hb hu t ht

/-- Settles O9: each of the two is a merge under a mask, whose bits are those the rule lists. -/
theorem storePsrAndEpsr : Obligations.StorePsrAndEpsr := fun s src1 =>
  ⟨⟨_, rfl, getLsbD_writePsr s (s.readReg src1), fun _ => rfl, rfl⟩,
    ⟨_, rfl, getLsbD_writeEpsr s (s.readReg src1), fun _ => rfl, rfl⟩⟩

/-- Settles O10: DIRBASE by its equation, FSR by its mask. -/
theorem storeDirbaseFsrFirAndDb : Obligations.StoreDirbaseFsrFirAndDb := by
  refine fun s src1 => ⟨?_, ⟨_, rfl, getLsbD_writeFsr s (s.readReg src1), fun _ => rfl, rfl⟩, rfl, rfl⟩
  have hexec : exec (.stc ⟨2#5, src1⟩) s = .next (writeDirbase s (s.readReg src1)) := rfl
  rw [writeDirbase_eq] at hexec
  exact ⟨_, hexec, fun k => getLsbD_setBit _ 5 k false (by decide), rfl, rfl, fun _ => rfl, rfl⟩

/-- Settles O7: each index reads its register, and where the destination is r0 the bit read is 0 whatever DIRBASE holds. -/
theorem controlRegisterRead : Obligations.ControlRegisterRead := by
  refine fun s dest => ⟨fun creg v hmem => ?_, fun hinv => ⟨_, rfl, ?_⟩,
    ⟨_, rfl, fun i => readReg_writeReg _ dest i _, rfl, rfl, fun _ => rfl, rfl⟩⟩
  · simp only [List.mem_cons, List.not_mem_nil, or_false, Prod.mk.injEq] at hmem
    obtain ⟨rfl, rfl⟩ | ⟨rfl, rfl⟩ | ⟨rfl, rfl⟩ | ⟨rfl, rfl⟩ | ⟨rfl, rfl⟩ := hmem <;> exact onlyIreg_of_exec rfl
  · by_cases hd : dest = 0#5
    · subst hd
      exact BitVec.getLsbD_zero
    · rw [readReg_writeReg, if_pos ⟨rfl, hd⟩]
      exact hinv.itiZero

/-- Settles O8: no index above 5 names a control register. -/
theorem controlRegisterOutOfRange : Obligations.ControlRegisterOutOfRange := fun s _ r h =>
  ⟨execStc_of_outOfRange s h, _, execLdc_of_outOfRange s h, iregSet_writeReg s.drawn r _, fun _ => rfl, rfl⟩

end Sys2Proof.Machine

/-! SUPPORT. Loads and stores: what an access that exits early leaves, what each kind of access that reaches the bus leaves, and
the byte mask of pst.d by pixel size. -/

namespace Sys2Proof.Machine

open Sys2Proof.Claims

/-! ## An access that exits early -/

section

variable {s t : State}

/-- An early exit writes no byte of memory outside the two entries of its walk. -/
theorem access_early_outside {n : Nat} {eff : Word} {w : Bool} (h : s.access n eff w = .early t) :
    SameMemOutside s t (WalkBytes s eff) := by
  rcases access_cases s n eff w with ⟨_, _, e⟩ | ⟨_, _, e⟩ | ⟨u, _, hp, e⟩ | ⟨u, p, _, hp, _, e⟩ | ⟨u, p, _, _, _, e⟩ <;>
    cases e.symm.trans h
  case inl => exact fun _ _ => rfl
  all_goals exact fun b hb => physical_outside hp b hb

/-- An access that goes sets no `exited_early`. -/
theorem access_go_exitedEarly {n : Nat} {eff p : Word} {w : Bool} (h : s.access n eff w = .go t p) :
    t.exitedEarly = s.exitedEarly := by rw [(access_go h).2]

/-- A data access instruction that sets `exited_early` is one whose access exited early, with nothing after it. -/
theorem access_early_of_exec {i : Instr} {a : DataAccess} (hi : dataAccess s i = some a) (hs : s.exitedEarly = false)
    (h : exec i s = .next t) (ht : t.exitedEarly = true) : s.access a.size a.eff a.write = .early t := by
  cases hf : dataRegisterFits i with
  | false => cases (refuses_dataRegister hi hf i (List.mem_singleton_self i)).symm.trans h
  | true =>
    obtain ⟨k, hk, hkeep⟩ := exec_isAccess hi hf
    have hrun := (hk s ⟨s.mem, s.tlb, rfl⟩).symm.trans h
    cases ha : s.access a.size a.eff a.write with
    | early u => rw [ha] at hrun; cases hrun; rfl
    | refuse r => rw [ha] at hrun; cases hrun
    | go u p =>
      rw [ha] at hrun
      have hfalse : t.exitedEarly = false := (hkeep u p t hrun).trans ((access_go_exitedEarly ha).trans hs)
      cases ht.symm.trans hfalse

/-! ## The effective address and the auto-increment -/

/-- The displacement of an integer load or store of one byte has no bits to clear (46 R311). -/
theorem dispEff_one (s : State) (src2 : Reg) (imm : BitVec 16) :
    dispEff 1 s src2 imm = imm.signExtend 32 + s.readReg src2 := by
  rw [dispEff, alignDown_one, simm16]

/-- The auto-increment after a change that leaves the integer file alone (46 R329). -/
theorem autoInc_of_iregs_eq {u : State} (h : u.iregs = s.iregs) (inc : Bool) (src2 : Reg) (eff : Word) :
    AutoInc s (autoInc u inc src2 eff) inc src2 eff := by
  cases inc
  · exact readReg_congr h
  · exact fun i => (readReg_writeReg u src2 i eff).trans (by rw [readReg_congr h])

/-- The auto-increment leaves the floating file alone. -/
@[simp] theorem autoInc_fregs (s : State) (inc : Bool) (src2 : Reg) (eff : Word) :
    (autoInc s inc src2 eff).fregs = s.fregs := by rw [autoInc_eq]

/-! ## Accesses that reach the bus -/

/-- A bus write stores the bytes of the value in the byte order of EPSR.BE (20 R63). -/
theorem storedAt_busWrite {n : Nat} {p : Word} {v : BitVec (8 * n)} (hn : n ≤ 16) (hm : s.mem.wf = true)
    (ht : t.mem = s.mem.busWrite s.be n p v) : StoredAt s t n p v := by
  refine ⟨fun i hi => ?_, fun a ha => ?_⟩
  · rw [ht]
    exact Memory.busWrite_at s.be p v (by omega) hm hi
  · rw [ht, Memory.busWrite_other _ _ _ _ _ ha]

/-- A masked store by a resident access. -/
theorem storeMasked_resident {eff p : Word} (h : s.Resident 8 eff true p) (v : DWord) (mask : BitVec 8)
    (k : State → Out) : s.storeMasked eff v mask k = k { s with mem := maskedMem s p v mask } := by
  rw [storeMasked_eq_run, access_resident h, runAccess]

variable {i : Instr} {n : Nat} {dest src2 : Reg} {inc : Bool} {eff : Word}

/-- An integer load by its end: one register receives the sign-extended value. -/
theorem iloadLeaves_of_exec
    (hi : exec i s = s.load n eff fun s' v => .next (s'.writeReg dest (v.signExtend 32))) : IloadLeaves i s n dest eff := by
  intro p hr
  rw [load_resident hr] at hi
  exact ⟨_, _, holds_busRead s n p, hi, iregSet_writeReg s dest _, fun _ => rfl, rfl⟩

/-- ld.l loads a whole word, which is its own sign extension (46 R314). -/
theorem ldlLeaves_of_exec (hi : exec i s = opLdl s dest eff) : IloadLeaves i s 4 dest eff := by
  refine iloadLeaves_of_exec (hi.trans ?_)
  unfold opLdl
  simp only [BitVec.signExtend_eq]

/-- An integer store ends with the bus write. -/
theorem istoreLeaves_of_exec {v : BitVec (8 * n)} (hn : n ≤ 16) (hi : exec i s = s.store n eff v .next) :
    IstoreLeaves i s n eff v := by
  intro p hm hr
  rw [store_resident hr] at hi
  exact ⟨_, hi, storedAt_busWrite hn hm rfl, rfl⟩

/-- A floating load by its end: a write of the floating file, then the auto-increment. What the write sets is read from the
floating file alone. -/
theorem floadLeaves_of_exec {set : State → BitVec (8 * n) → Prop} {write : State → BitVec (8 * n) → State}
    (hi : exec i s = s.load n eff fun s' v => .next (autoInc (write s' v) inc src2 eff))
    (hframe : ∀ v, write s v = { s with fregs := (write s v).fregs })
    (hset : ∀ t v, t.fregs = (write s v).fregs → set t v) : FloadLeaves i s n set inc src2 eff := by
  intro p hr
  rw [load_resident hr] at hi
  have hw := hframe (s.mem.busRead s.be n p)
  refine ⟨_, _, holds_busRead s n p, hi, hset _ _ (autoInc_fregs _ _ _ _), autoInc_of_iregs_eq ?_ inc src2 eff, ?_, ?_⟩
  · rw [hw]
  · rw [autoInc_eq, hw]
    exact fun _ => rfl
  · rw [autoInc_eq, hw]

/-- fld.l (46 R320). -/
theorem fldlLeaves_of_exec (hi : exec i s = opFldl s dest src2 inc eff) :
    FloadLeaves i s 4 (fun t v => FregSet s t dest v) inc src2 eff :=
  floadLeaves_of_exec (write := fun s' v => s'.writeF dest v) hi (fun _ => rfl)
    fun _ v ht j => (readF_congr ht j).trans (fregSet_writeF s dest v j)

/-- fld.d of an even fdest (46 R321). -/
theorem flddLeaves_of_exec (h0 : dest.getLsbD 0 = false) (hi : exec i s = opFldd s dest src2 inc eff) :
    FloadLeaves i s 8 (fun t v => FpairSet s t dest v) inc src2 eff := by
  unfold opFldd oddPair at hi
  rw [h0] at hi
  exact floadLeaves_of_exec (write := fun s' v => s'.writeFd dest v) hi (fun _ => rfl)
    fun _ v ht j => (readF_congr ht j).trans (fpairSet_writeFd s dest v h0 j)

/-- fld.q of an fdest that is a multiple of 4 (46 R322). -/
theorem fldqLeaves_of_exec (h0 : dest.getLsbD 0 = false) (h1 : dest.getLsbD 1 = false)
    (hi : exec i s = opFldq s dest src2 inc eff) :
    FloadLeaves i s 16 (fun t v => FquadSet s t dest v) inc src2 eff := by
  unfold opFldq oddQuad at hi
  rw [h0, h1] at hi
  exact floadLeaves_of_exec (write := fun s' v => s'.writeFq dest v) hi (fun _ => rfl)
    fun _ v ht j => (readF_congr ht j).trans (fquadSet_writeFq s dest v h0 h1 j)

/-- A floating store ends with the bus write and the auto-increment. -/
theorem fstoreLeaves_of_exec {v : BitVec (8 * n)} (hn : n ≤ 16)
    (hi : exec i s = s.store n eff v fun s' => .next (autoInc s' inc src2 eff)) : FstoreLeaves i s n v inc src2 eff := by
  intro p hm hr
  rw [store_resident hr] at hi
  refine ⟨_, hi, storedAt_busWrite hn hm ?_, autoInc_of_iregs_eq rfl inc src2 eff, ?_⟩
  · rw [autoInc_eq]
  · rw [autoInc_eq]

/-- fst.d of an even fdest, lane by lane (46 R324). -/
theorem fstdLeaves_of_exec (h0 : dest.getLsbD 0 = false) (hi : exec i s = opFstd s dest src2 inc eff) :
    FstoreLeaves i s 8 (s.readF (dest + 1#5) ++ s.readF (dest + 0#5)) inc src2 eff := by
  unfold opFstd oddPair at hi
  rw [h0] at hi
  rw [BitVec.add_zero]
  exact fstoreLeaves_of_exec (by decide) hi

/-- The four lanes of a quad (10 R14). -/
theorem readFq_eq_lanes (s : State) (d : Reg) :
    s.readFq d = s.readF (d + 3#5) ++ s.readF (d + 2#5) ++ s.readF (d + 1#5) ++ s.readF (d + 0#5) := by
  unfold State.readFq State.readFd
  rw [BitVec.add_zero, BitVec.add_assoc, BitVec.append_assoc (w₁ := 32 + 32)]
  rfl

/-- fst.q of an fdest that is a multiple of 4, lane by lane (46 R325). -/
theorem fstqLeaves_of_exec (h0 : dest.getLsbD 0 = false) (h1 : dest.getLsbD 1 = false)
    (hi : exec i s = opFstq s dest src2 inc eff) :
    FstoreLeaves i s 16 (s.readF (dest + 3#5) ++ s.readF (dest + 2#5) ++ s.readF (dest + 1#5) ++ s.readF (dest + 0#5))
      inc src2 eff := by
  unfold opFstq oddQuad at hi
  rw [h0, h1, readFq_eq_lanes] at hi
  exact fstoreLeaves_of_exec (by decide) hi

/-- A pipelined load by its end: the oldest stage is written out, the pipe shifts, and the auto-increment follows (46 R326). -/
theorem ploadLeaves_of_exec {mk : BitVec (8 * n) → Slot}
    (hi : exec i s = s.load n eff fun s' v => finishPfld dest src2 inc eff s' (mk v)) :
    PloadLeaves i s n mk dest inc src2 eff := by
  intro p hr hfit
  obtain ⟨u, hu, hset, hframe⟩ := writeSlot_fits (s := s) hfit
  have hout : s.writeSlot dest (s.pipeL.last false) = .next u := hu
  rw [load_resident hr, finishPfld, hout, andThen_next] at hi
  refine ⟨_, _, holds_busRead s n p, hi, fslotSet_congr rfl (autoInc_fregs _ _ _ _) hset, ?_,
    autoInc_of_iregs_eq ?_ inc src2 eff, ?_, ?_⟩
  · rw [autoInc_eq, hframe]
    rfl
  · rw [hframe]
  · rw [autoInc_eq, hframe]
    exact fun _ => rfl
  · rw [autoInc_eq, hframe]

end

/-! ## The byte mask of a pixel store -/

/-- A bit is a bit of its field. -/
theorem getLsbD_eq_field {m w : Nat} (x : BitVec m) (hw : 0 < w) (k : Nat) :
    x.getLsbD k = (x.extractLsb' (w * (k / w)) w).getLsbD (k % w) := by
  rw [BitVec.getLsbD_extractLsb', Nat.div_add_mod, decide_eq_true (Nat.mod_lt k hw), Bool.true_and]

/-- Every bit of copies of a bit is that bit. -/
theorem getLsbD_spread (b : Bool) {n k : Nat} (h : k < n) : (spread b n).getLsbD k = b := by
  cases b <;> simp [spread, h]

/-- The mask bit of byte `k` is the PM bit of its pixel, which has 1, 2 or 4 bytes (46 R328). -/
theorem getLsbD_pixelMask (ps : BitVec 2) (pm : BitVec 8) (free : DWord) {k : Nat} (hk : k < 8) :
    (pixelMask ps pm free).getLsbD k =
      if ps = 0#2 then pm.getLsbD k
      else if ps = 1#2 then pm.getLsbD (k / 2)
      else if ps = 2#2 then pm.getLsbD (k / 4)
      else free.getLsbD k := by
  unfold pixelMask
  split_ifs
  · rfl
  · rw [getLsbD_eq_field _ (w := 2) (by decide), field_pack4 (fun j => spread (pm.getLsbD j) 2) _ (by omega),
      getLsbD_spread _ (by omega)]
  · rw [getLsbD_eq_field _ (w := 4) (by decide), field_pack2 (fun j => spread (pm.getLsbD j) 4) _ (by omega),
      getLsbD_spread _ (by omega)]
  · rw [BitVec.getLsbD_extractLsb', Nat.zero_add, decide_eq_true hk, Bool.true_and]

/-- A PSR that differs by a write of bits 31:24 reads them as PM (10 R21). -/
theorem pm_of_psr_eq {s t : State} {v : BitVec 8} (h : t.psr = setField s.psr 24 8 v) : t.pm = v := by
  unfold State.pm
  refine BitVec.eq_of_getLsbD_eq fun k hk => ?_
  rw [h, BitVec.getLsbD_extractLsb', getLsbD_setField _ _ _ _ _ (by omega), if_pos (by omega), Nat.add_sub_cancel_left,
    decide_eq_true hk, Bool.true_and]

/-- A write of bits 31:24 keeps every other bit of the PSR. -/
theorem psrKept_pm_of_psr_eq {s t : State} {v : BitVec 8} (h : t.psr = setField s.psr 24 8 v) :
    PsrKept s t [24, 25, 26, 27, 28, 29, 30, 31] := fun k hk => by
  simp only [List.mem_cons, List.not_mem_nil, or_false, not_or] at hk
  rw [h, getLsbD_setField _ _ _ _ _ (by omega), if_neg (by omega)]

/-- The state after the store of pst.d at `p`, before the auto-increment: the masked bytes, PM, and the free value of PS = 3
counted (46 R328). -/
def State.pixelStored (s : State) (p : Word) (v : DWord) : State :=
  { s with
    mem := maskedMem s p v (pixelMask s.ps s.pm s.free)
    psr := setField s.psr 24 8 (pixelsLeft s.ps s.pm s.free)
    freeCount := if s.ps = 3#2 then s.freeCount + 1 else s.freeCount }

/-- pst.d of an even fdest where its access reaches the bus (46 R328). -/
theorem exec_pstd_resident {s : State} {o : ImmOps} {p : Word} (h0 : o.dest.getLsbD 0 = false)
    (hr : s.Resident 8 (dispEff 8 s o.src2 o.imm) true p) :
    exec (.pstd o) s =
      .next (autoInc (s.pixelStored p (s.readFd o.dest)) (o.imm.getLsbD 0) o.src2 (dispEff 8 s o.src2 o.imm)) := by
  have hrun : exec (.pstd o) s =
      if oddPair o.dest then .refused .unalignedFpOperand
      else s.storeMasked (dispEff 8 s o.src2 o.imm) (s.readFd o.dest) (pixelMask s.ps s.pm s.free) fun s' =>
        .next (autoInc ((drawnForPS s').setPM (pixelsLeft s.ps s.pm s.free)) (o.imm.getLsbD 0) o.src2
          (dispEff 8 s o.src2 o.imm)) := rfl
  rw [hrun, oddPair, h0, if_neg Bool.false_ne_true, storeMasked_resident hr, drawnForPS_eq]
  rfl

/-! ## The statements -/

/-- Settles O16: the instruction is its access, which exited early. -/
theorem faultingAccessIsPrecise : Obligations.FaultingAccessIsPrecise := by
  intro i s t a hi hs h ht
  have ha := access_early_of_exec hi hs h ht
  have hearly := access_early ha
  refine ⟨?_, ?_, access_early_outside ha, ?_⟩ <;> rw [hearly]
  rfl

/-- Settles O17: the two forms of each load are one operation on its effective address. -/
theorem integerLoads : Obligations.IntegerLoads := by
  refine fun s => ⟨fun o => ?_, fun o => ?_⟩
  · exact ⟨iloadLeaves_of_exec rfl, iloadLeaves_of_exec rfl, ldlLeaves_of_exec rfl⟩
  · intro disp base
    have hb : dispEff 1 s o.src2 o.imm = disp + base := dispEff_one s o.src2 o.imm
    rw [← hb]
    exact ⟨iloadLeaves_of_exec rfl, iloadLeaves_of_exec rfl, ldlLeaves_of_exec rfl⟩

/-- Settles O18: each store is the bus write of the low bytes of its register. -/
theorem integerStores : Obligations.IntegerStores := by
  intro s o disp base data
  have hb : dispEff 1 s o.src2 o.off = disp + base := dispEff_one s o.src2 o.off
  rw [← hb]
  exact ⟨istoreLeaves_of_exec (by decide) rfl, istoreLeaves_of_exec (by decide) rfl,
    istoreLeaves_of_exec (by decide) rfl⟩

/-- Settles O19, by width. -/
theorem floatLoads : Obligations.FloatLoads := fun _ =>
  ⟨fun _ => ⟨fldlLeaves_of_exec rfl, fun h0 => flddLeaves_of_exec h0 rfl, fun h0 h1 => fldqLeaves_of_exec h0 h1 rfl⟩,
    fun _ => ⟨fldlLeaves_of_exec rfl, fun h0 => flddLeaves_of_exec h0 rfl, fun h0 h1 => fldqLeaves_of_exec h0 h1 rfl⟩⟩

/-- Settles O20, by width. -/
theorem floatStores : Obligations.FloatStores := fun _ =>
  ⟨fun _ => ⟨fstoreLeaves_of_exec (by decide) rfl, fun h0 => fstdLeaves_of_exec h0 rfl,
      fun h0 h1 => fstqLeaves_of_exec h0 h1 rfl⟩,
    fun _ => ⟨fstoreLeaves_of_exec (by decide) rfl, fun h0 => fstdLeaves_of_exec h0 rfl,
      fun h0 h1 => fstqLeaves_of_exec h0 h1 rfl⟩⟩

/-- Settles O21: pfld.l and pfld.d differ in the size of the access and the tag of the value that enters the pipe. -/
theorem pipelinedLoads : Obligations.PipelinedLoads := fun _ =>
  ⟨fun _ => ⟨ploadLeaves_of_exec rfl, ploadLeaves_of_exec rfl⟩,
    fun _ => ⟨ploadLeaves_of_exec rfl, ploadLeaves_of_exec rfl⟩⟩

/-- Settles O22: the byte mask is bit by bit the PM bits of the pixels, and the masked store writes the bytes it names. -/
theorem pixelStore : Obligations.PixelStore := by
  intro s o p eff v stores h0 hm hr
  have hstores {k : Nat} (hk : k < 8) : (pixelMask s.ps s.pm s.free).getLsbD k = stores k :=
    getLsbD_pixelMask s.ps s.pm s.free hk
  have hinc : AutoInc s (autoInc (s.pixelStored p v) (o.imm.getLsbD 0) o.src2 eff) (o.imm.getLsbD 0) o.src2 eff :=
    autoInc_of_iregs_eq rfl _ _ _
  refine ⟨_, exec_pstd_resident h0 hr, fun k hk hb => ?_, fun a ha => ?_, ?_, ?_, hinc, ?_, ?_⟩
  · rw [autoInc_eq]
    exact maskedMem_at hm hk ((hstores hk).trans hb)
  · rw [autoInc_eq]
    exact maskedMem_other fun k hk hb e => ha ⟨k, hk, (hstores hk).symm.trans hb, e⟩
  · rw [autoInc_eq]
    exact pm_of_psr_eq (s := s) rfl
  · rw [autoInc_eq]
    exact psrKept_pm_of_psr_eq (v := pixelsLeft s.ps s.pm s.free) rfl
  · rw [autoInc_eq]
    rfl
  · rw [autoInc_eq]
    rfl

/-- Settles O23: flush is the auto-increment alone, and each transfer one register write. -/
theorem flushAndTransfers : Obligations.FlushAndTransfers := by
  refine fun s => ⟨fun o => ⟨_, rfl, autoInc_of_iregs_eq rfl _ _ _, ?_, autoInc_eq _ _ _ _⟩,
    fun o => ⟨_, rfl, fregSet_writeF s o.dest _, fun _ => rfl, rfl⟩, fun o => onlyIreg_of_exec rfl⟩
  rw [autoInc_eq]
  exact fun _ => rfl

end Sys2Proof.Machine

/-! SUPPORT. Control transfer: what runs in the slot and what a nop there leaves, how each end of a branch reads in the words of
the statements, and what each delayed branch does once its slot has run. -/

namespace Sys2Proof.Machine

open Sys2Proof.Claims

/-! ## What runs in the slot -/

section

variable {s u : State} {w : Word}

/-- A slot whose word is fetched runs that word. -/
theorem runSlot_of_fetch (h : (s.atPc (s.pc + 4#32)).fetch (s.pc + 4#32) = (u, some w)) : runSlot s = execSlotWord w u := by
  unfold runSlot
  simp only [h]

/-- A slot whose fetch faults runs nothing. -/
theorem runSlot_of_fetchFault (h : (s.atPc (s.pc + 4#32)).fetch (s.pc + 4#32) = (u, none)) : runSlot s = .next u := by
  unfold runSlot
  simp only [h]

/-- A word in a slot that decodes runs its instruction. -/
theorem execSlotWord_of_ok {i : Instr} (h : decode w = .ok i) : execSlotWord w s = execSlot i s := by
  rw [execSlotWord, h]

/-- A word in a slot that is no instruction raises the instruction trap. -/
theorem execSlotWord_of_error {e : DecodeError} (h : decode w = .error e) :
    execSlotWord w s = .next (s.raise .instruction) := by
  rw [execSlotWord, h]

/-- A fetch that hits reads the word of the pair that pc selects, and changes nothing. -/
theorem fetch_hit {pc : Word} {pair : DWord} (h : s.icacheHit (alignDown pc 8) = some pair) :
    s.fetch pc = (s, some (selectWord pc pair)) := by
  rw [State.fetch, fetchPair_hit h]

/-- The nop of 30 R126 is shl of r0 by r0 into r0. -/
theorem decode_nop : decode 0xA0000000#32 = .ok (.shlReg ⟨0#5, 0#5, 0#5⟩) := by decide

/-- A write to r0 changes nothing (10 R10). -/
theorem writeReg_zero (s : State) (v : Word) : s.writeReg 0#5 v = s := rfl

/-- A nop in a slot changes nothing. -/
theorem execSlotWord_nop (s : State) : execSlotWord 0xA0000000#32 s = .next s := by
  rw [execSlotWord_of_ok decode_nop]
  exact congrArg Host.Outcome.next (writeReg_zero s _)

/-- A slot that holds a nop leaves pc at the slot, and changes nothing else. -/
theorem runSlot_nop {pair : DWord} (h : s.icacheHit (alignDown (s.pc + 4#32) 8) = some pair)
    (hw : selectWord (s.pc + 4#32) pair = 0xA0000000#32) : runSlot s = .next (s.atPc (s.pc + 4#32)) := by
  have hfetch := fetch_hit (s := s.atPc (s.pc + 4#32)) h
  rw [runSlot_of_fetch hfetch, hw, execSlotWord_nop]

end

/-! ## Targets, conditions and flags in the words of the statements -/

/-- The target of a long branch at pc. -/
theorem longTarget_eq_target (s : State) (off : BitVec 26) : longTarget s.pc off = target s off := longTarget_eq s.pc off

/-- The target of a short branch at pc. -/
theorem shortTarget_eq_target (s : State) (off : BitVec 16) : shortTarget s.pc off = target s off := shortTarget_eq s.pc off

/-- The 5-bit immediate of bte and btne equals a register when their numbers are equal (47 R354). -/
theorem setWidth_eq_iff_toNat (imm5 : BitVec 5) (b : Word) : imm5.setWidth 32 = b ↔ imm5.toNat = b.toNat := by
  rw [← BitVec.toNat_inj, BitVec.toNat_setWidth_of_le (by decide)]

/-- The mask 0x1F00 holds the bits of IT, IN, IAT, DAT and FT (60 R370). -/
theorem trapBits_iff : ∀ k < 32, (0x1F00#32).getLsbD k = true ↔ k = 8 ∨ k = 9 ∨ k = 10 ∨ k = 11 ∨ k = 12 := by decide

/-- No trap bit is set when the PSR is 0 under the mask of the five (47 R348). -/
theorem anyTrapBit_eq_false_iff (s : State) : s.anyTrapBit = false ↔ s.psr &&& 0x1F00#32 = 0#32 := by
  unfold State.anyTrapBit
  simp only [Bool.or_eq_false_iff]
  constructor
  · rintro ⟨⟨⟨⟨h8, h9⟩, h10⟩, h11⟩, h12⟩
    have hclear (k : Nat) (hm : (0x1F00#32).getLsbD k = true) : s.psr.getLsbD k = (0#32).getLsbD k := by
      obtain rfl | rfl | rfl | rfl | rfl := (trapBits_iff k (BitVec.lt_of_getLsbD hm)).1 hm <;> assumption
    rw [and_mask_eq hclear, BitVec.zero_and]
  · intro h
    have hclear (k : Nat) (hm : (0x1F00#32).getLsbD k = true) : s.psr.getLsbD k = false := by
      have hand := congrArg (BitVec.getLsbD · k) h
      simpa [hm] using hand
    exact ⟨⟨⟨⟨hclear 8 rfl, hclear 9 rfl⟩, hclear 10 rfl⟩, hclear 11 rfl⟩, hclear 12 rfl⟩

section

variable {s t : State}

/-- A PSR that differs by a write of bit 3 reads that bit as LCC (10 R21). -/
theorem lcc_of_psr_eq {b : Bool} (h : t.psr = setBit s.psr 3 b) : t.lcc = b := by
  unfold State.lcc
  rw [h, getLsbD_setBit _ _ _ _ (by omega), if_pos rfl]

/-- A write of bit 3 keeps every other bit of the PSR. -/
theorem psrKept_lcc_of_psr_eq {b : Bool} (h : t.psr = setBit s.psr 3 b) : PsrKept s t [3] := fun k hk => by
  rw [h, getLsbD_setBit _ _ _ _ (by omega), if_neg (List.mem_singleton.not.1 hk)]

end

/-! ## The branches before their slot -/

section

variable {s : State}

/-- A branch without a slot jumps when its condition holds, and changes nothing otherwise (47 R340). -/
theorem branchIf_eq {taken : Bool} {p : Prop} [Decidable p] (h : taken = true ↔ p) (addr : Word) :
    branchIf taken addr s = .next (if p then Jumped s addr else s) :=
  congrArg Host.Outcome.next (if_congr h rfl rfl)

/-- A branch without a slot on the negation of a condition. -/
theorem branchIf_eq_of_not {taken : Bool} {p : Prop} [Decidable p] (h : taken = true ↔ ¬ p) (addr : Word) :
    branchIf taken addr s = .next (if p then s else Jumped s addr) := by
  rw [branchIf_eq h, ite_not]

/-- A conditional delayed branch that is taken runs its slot (47 R344). -/
theorem delayedIf_taken {taken : Bool} (h : taken = true) (addr : Word) :
    delayedIf taken addr s = delaySlot s fun s' => .next (s'.jump addr) := if_pos h

/-- A conditional delayed branch that is not taken skips its slot (47 R344). -/
theorem delayedIf_skipped {taken : Bool} (h : taken = false) (addr : Word) :
    delayedIf taken addr s = .next (Jumped s (s.pc + 8#32)) := if_neg (by rw [h]; decide)

/-- br jumps after its slot, from pc at the branch (47 R342). -/
theorem exec_br (off : BitVec 26) (s : State) :
    exec (.br off) s = delaySlot s fun s' => .next (s'.jump (longTarget s'.pc off)) := rfl

/-- call links after its slot, from pc at the branch (47 R346). -/
theorem exec_call (off : BitVec 26) (s : State) :
    exec (.call off) s = delaySlot s fun s' => link (longTarget s'.pc off) s' := rfl

/-- bla of one register changes nothing (47 R345). -/
theorem exec_bla_same {o : SplitOps} (h : o.src1 = o.src2) : exec (.bla o) s = .next s := if_pos h

/-- bla of two registers adds and then runs its slot (47 R345). -/
theorem exec_bla_ne {o : SplitOps} (h : o.src1 ≠ o.src2) :
    exec (.bla o) s = delaySlot (s.writeReg o.src2 (s.readReg o.src1 + s.readReg o.src2))
      (blaEnd o.off (blaLcc (s.readReg o.src1) (s.readReg o.src2))) := if_neg h

end

/-! ## The ends of the branches, after a slot that did not trap -/

section

variable {s u : State}

/-- A delayed branch that only jumps. -/
theorem delaySlot_jump (h : runSlot s = .next u) (ht : u.trapPending = false) (addr : Word) :
    delaySlot s (fun s' => .next (s'.jump addr)) = .next (Jumped u addr) := delaySlot_of_next h ht

/-- A call after its slot: r1 receives the address after the slot, and pc the target (47 R346). -/
theorem called_of_exec {i : Instr} {addr : Word} (hi : exec i s = link addr (u.atPc s.pc)) :
    ∃ t, exec i s = .next t ∧ IregSet u t 1#5 (s.pc + 8#32) ∧ SameMem u t ∧ t = { Jumped u addr with iregs := t.iregs } :=
  ⟨_, hi, iregSet_writeReg u 1#5 (s.pc + 8#32), fun _ => rfl, rfl⟩

/-- The end of bla: the LCC the slot left decides, and then LCC is written (47 R345). -/
theorem blaEnd_leaves (off : BitVec 16) (a b : Word) (s u : State) :
    ∃ t, blaEnd off (blaLcc a b) (u.atPc s.pc) = .next t ∧
      t.pc = (if u.psr.getLsbD 3 then target s off else s.pc + 8#32) ∧
      (t.lcc = true ↔ -a.toInt ≤ b.toInt) ∧ PsrKept u t [3] ∧ SameMem u t ∧
      t = { u with pc := t.pc, pcUpdated := true, psr := t.psr } := by
  refine ⟨_, rfl, ?_, ?_, psrKept_lcc_of_psr_eq (b := blaLcc a b) rfl, fun _ => rfl, rfl⟩
  · rw [← shortTarget_eq_target s off]
    rfl
  · rw [lcc_of_psr_eq (s := u) (b := blaLcc a b) rfl]
    exact decide_eq_true_iff

/-- bri after its slot (47 R348). -/
theorem exec_bri_of_slot (h : runSlot s = .next u) (ht : u.trapPending = false) (src1 : Reg) :
    exec (.bri src1) s = briEnd s.anyTrapBit (s.readReg src1 &&& 0xFFFFFFFC#32) (u.atPc s.pc) := delaySlot_of_next h ht

end

/-- intovr raises the instruction trap when OF is set (47 R351). -/
theorem exec_intovr (s : State) :
    exec .intovr s = .next (if s.epsr.getLsbD 24 = true then s.raise .instruction else s) := rfl

/-! ## The statements -/

/-- Settles O24: the branches without a slot by cases on their condition, bc.t and bnc.t by whether they are taken. -/
theorem conditionalBranches : Obligations.ConditionalBranches := by
  intro s cc
  have hcc : s.branchCC = cc := rfl
  refine ⟨fun off => ?_, fun off => ?_, fun o => ?_, fun o => ?_⟩
  · rw [← longTarget_eq_target]
    exact ⟨branchIf_eq Iff.rfl _, branchIf_eq_of_not (by rw [Bool.not_eq_true', hcc, Bool.not_eq_true]) _⟩
  · rw [← longTarget_eq_target]
    refine ⟨fun h => ?_, fun h => ?_, fun u hu ht => ⟨fun h => ?_, fun h => ?_⟩⟩
    · exact delayedIf_skipped (hcc.trans h) _
    · exact delayedIf_skipped (by rw [hcc, h]; rfl) _
    · exact (delayedIf_taken (hcc.trans h) _).trans (delaySlot_jump hu ht _)
    · exact (delayedIf_taken (by rw [hcc, h]; rfl) _).trans (delaySlot_jump hu ht _)
  · rw [← shortTarget_eq_target]
    exact ⟨branchIf_eq decide_eq_true_iff _, branchIf_eq_of_not decide_eq_true_iff _⟩
  · have heq := setWidth_eq_iff_toNat o.imm5 (s.readReg o.src2)
    rw [← shortTarget_eq_target]
    exact ⟨branchIf_eq (decide_eq_true_iff.trans heq) _, branchIf_eq_of_not (decide_eq_true_iff.trans heq.not) _⟩

/-- Settles O25: each is its slot and then a jump, the calls with the link register before it. -/
theorem delayedJumps : Obligations.DelayedJumps := by
  refine fun s u h ht => ⟨fun off => ?_, fun off => ?_, fun src1 => called_of_exec (delaySlot_of_next h ht)⟩
  · rw [exec_br, delaySlot_of_next h ht, ← longTarget_eq_target]
    rfl
  · rw [← longTarget_eq_target]
    exact called_of_exec ((exec_call off s).trans (delaySlot_of_next h ht))

/-- Settles O26: with distinct registers bla is its add, its slot and its end. -/
theorem branchOnLccAndAdd : Obligations.BranchOnLccAndAdd := by
  refine fun s o => ⟨exec_bla_same, fun hne u h ht => ?_⟩
  rw [exec_bla_ne hne, delaySlot_of_next h ht]
  exact blaEnd_leaves o.off _ _ s u

/-- Settles O27: the trap bits before the slot choose between the jump alone and the trap exit before it. -/
theorem indirectBranch : Obligations.IndirectBranch := by
  refine fun s u src1 h ht => ⟨fun hnone => ?_, fun hsome => ⟨exitPsr u.psr, ?_, getLsbD_exitPsr u.psr⟩⟩
  · rw [exec_bri_of_slot h ht, (anyTrapBit_eq_false_iff s).2 hnone]
    rfl
  · have hany : s.anyTrapBit = true := by rwa [← Bool.not_eq_false, anyTrapBit_eq_false_iff]
    rw [exec_bri_of_slot h ht, hany]
    rfl

/-- Settles O28: the slot leaves the state with pc at the slot, so that the statements about the slot's end apply to it. -/
theorem delayedBranchesComplete : Obligations.DelayedBranchesComplete := by
  intro s pair hit hword ht cc jumps calls
  have hslot := runSlot_nop hit hword
  obtain ⟨br, call, calli⟩ := delayedJumps s _ hslot ht
  obtain ⟨-, delayed, -, -⟩ := conditionalBranches s
  refine ⟨fun off => ⟨br off, call off, ?_, ?_⟩, fun src1 => ⟨calli src1, (indirectBranch s _ src1 hslot ht).1⟩,
    fun o hne => ?_⟩
  · obtain ⟨skips, -, taken⟩ := delayed off
    show exec (.bct off) s = _
    split
    case isTrue h => exact (taken _ hslot ht).1 h
    case isFalse h => exact skips (Bool.eq_false_of_not_eq_true h)
  · obtain ⟨-, skips, taken⟩ := delayed off
    show exec (.bnct off) s = _
    split
    case isTrue h => exact skips h
    case isFalse h => exact (taken _ hslot ht).2 (Bool.eq_false_of_not_eq_true h)
  · have hadd := runSlot_nop (s := s.writeReg o.src2 (s.readReg o.src1 + s.readReg o.src2)) hit hword
    obtain ⟨t, hexec, hpc, hlcc, hpsr, hmem, hframe⟩ := (branchOnLccAndAdd s o).2 hne _ hadd ht
    refine ⟨t, hexec, fun i => ?_, hpc, hlcc, hpsr, hmem, ?_⟩
    · rw [hframe]
      exact readReg_writeReg s o.src2 i _
    · rw [hframe]
      rfl

/-- Settles O29: each is a delayed branch of its slot, which ends where the slot traps. -/
theorem trapInSlot : Obligations.TrapInSlot := by
  intro s u ht t
  refine ⟨fun h => ⟨fun off => ⟨?_, ?_, fun hcc => ?_, fun hcc => ?_⟩,
    fun src1 => ⟨delaySlot_of_trap h ht, delaySlot_of_trap h ht⟩⟩, fun o hne h => ?_⟩
  · rw [exec_br, delaySlot_of_trap h ht]
  · rw [exec_call, delaySlot_of_trap h ht]
  · exact (delayedIf_taken hcc _).trans (delaySlot_of_trap h ht)
  · exact (delayedIf_taken (by rw [hcc]; rfl) _).trans (delaySlot_of_trap h ht)
  · exact (exec_bla_ne hne).trans (delaySlot_of_trap h ht)

/-- Settles O30: the fetch decides whether the slot runs, the word what it runs. -/
theorem slotRunsInstruction : Obligations.SlotRunsInstruction := by
  refine fun s u => ⟨fun w hf => ⟨fun i hi => ?_, fun e he => ?_⟩, runSlot_of_fetchFault⟩ <;> rw [runSlot_of_fetch hf]
  · rw [execSlotWord_of_ok hi]
    exact ⟨execSlot_controlTransfer u, execSlot_trapCall u, execSlot_eq_exec u⟩
  · rw [execSlotWord_of_error he, raise_instruction]

/-- Settles O31: intovr by cases on OF, the others as they stand. -/
theorem trapAndLock : Obligations.TrapAndLock := by
  refine fun s => ⟨fun _ => congrArg Host.Outcome.next (raise_instruction s), fun h => ?_, fun h => ?_, rfl, rfl⟩
  · rw [exec_intovr, if_pos h, raise_instruction]
  · rw [exec_intovr, if_neg (by rw [h]; decide)]

end Sys2Proof.Machine

/-! SUPPORT. Trap entry and exit, the sampling of the external interrupt, and the invariant of the reset state. -/

namespace Sys2Proof.Machine

/-! ## Trap entry -/

section

variable {s : State} {savepc : Word}

/-- An external interrupt after a transfer saves the address pc was written with (60 R380). -/
theorem faultAddress_external_of_pcUpdated (he : s.trapExternal = true) (hp : s.pcUpdated = true) :
    s.faultAddress savepc = s.pc := by
  rw [State.faultAddress, if_pos he, if_pos hp]

/-- An external interrupt after another instruction saves the address of the next one (60 R380). -/
theorem faultAddress_external_of_not_pcUpdated (he : s.trapExternal = true) (hp : s.pcUpdated = false) :
    s.faultAddress savepc = savepc + 4#32 := by
  rw [State.faultAddress, if_pos he, if_neg (Bool.eq_false_iff.1 hp)]

/-- A trap in a delay slot saves the address of the slot (60 R380). -/
theorem faultAddress_slot (he : s.trapExternal = false) (hd : s.trapInDelaySlot = true) :
    s.faultAddress savepc = savepc + 4#32 := by
  rw [State.faultAddress, if_neg (Bool.eq_false_iff.1 he), if_pos hd]

/-- Every other trap saves the address of its instruction (60 R380). -/
theorem faultAddress_instruction (he : s.trapExternal = false) (hd : s.trapInDelaySlot = false) :
    s.faultAddress savepc = savepc := by
  rw [State.faultAddress, if_neg (Bool.eq_false_iff.1 he), if_neg (Bool.eq_false_iff.1 hd)]

end

/-- Settles O46: the four cases of the saved address, and the PSR bit by bit. -/
theorem trapEntry : Obligations.TrapEntry := fun s savepc =>
  ⟨s.faultAddress savepc, entryPsr s.psr, rfl, faultAddress_external_of_pcUpdated,
    faultAddress_external_of_not_pcUpdated, faultAddress_slot, faultAddress_instruction, getLsbD_entryPsr s.psr⟩

/-! ## Trap exit after trap entry -/

/-- Bit k of the PSR after an entry and an exit: U and IM come back from PU and PIM, which keep the copies, and bits 14:8 are
clear (60 R380, R386). -/
theorem getLsbD_exitPsr_entryPsr (p : Word) (k : Nat) : (exitPsr (entryPsr p)).getLsbD k =
    if k = 7 then p.getLsbD 6 else if k = 5 then p.getLsbD 4 else if 8 ≤ k ∧ k < 15 then false else p.getLsbD k := by
  simp only [getLsbD_exitPsr, getLsbD_entryPsr]
  by_cases h6 : k = 6
  · subst h6; rfl
  by_cases h4 : k = 4
  · subst h4; rfl
  by_cases hc : 8 ≤ k ∧ k < 15
  · rw [if_neg h6, if_neg h4, if_pos hc, if_neg (by omega), if_neg (by omega), if_pos hc]
  · rw [if_neg h6, if_neg h4, if_neg hc, if_neg hc, if_neg (by omega : ¬ (k = 6 ∨ k = 4))]

/-- Settles O47: the exit restores the snapshot of the entry, and the PSR bit by bit. -/
theorem trapExitUndoesEntry : Obligations.TrapExitUndoesEntry := by
  intro s savepc t
  have hpsr : t.psr = exitPsr (entryPsr s.psr) := rfl
  refine ⟨getLsbD_exitPsr_entryPsr s.psr 6, getLsbD_exitPsr_entryPsr s.psr 4, rfl, rfl, rfl, rfl, rfl, rfl, rfl, rfl, rfl,
    fun k h8 h15 => ?_, fun k hk => ?_⟩ <;> rw [hpsr, getLsbD_exitPsr_entryPsr, if_neg (by omega), if_neg (by omega)]
  · exact if_pos ⟨h8, h15⟩
  · exact if_neg (by omega)

/-! ## The external interrupt -/

section

variable {s : State}

/-- With no request the pin reads 0 (60 R392). -/
theorem sampleInterrupt_of_none (h : s.extIntr = false) : s.sampleInterrupt = s.setIntPin false :=
  if_neg (Bool.eq_false_iff.1 h)

/-- A request with interrupts disabled is dropped (60 R392). -/
theorem sampleInterrupt_of_masked (h : s.extIntr = true) (hm : s.im = false) :
    s.sampleInterrupt = { s with extIntr := false } := by
  rw [State.sampleInterrupt, if_pos h, if_neg (Bool.eq_false_iff.1 hm)]

/-- A request with interrupts enabled raises the external interrupt and is consumed (60 R392). -/
theorem sampleInterrupt_of_enabled (h : s.extIntr = true) (hm : s.im = true) :
    s.sampleInterrupt =
      { ((s.raise .interrupt).setIntPin true) with extIntr := false, trapExternal := true } := by
  rw [State.sampleInterrupt, if_pos h, if_pos hm]

end

/-- Settles O48: the three cases of the sampling. -/
theorem interruptSampling : Obligations.InterruptSampling := fun s =>
  ⟨fun h => ⟨_, sampleInterrupt_of_none h, fun _ => getLsbD_setBit s.epsr 17 _ false (by decide)⟩,
    sampleInterrupt_of_masked, sampleInterrupt_of_enabled⟩

/-! ## The invariant after reset -/

/-- Settles O55: memory, the TLB and the instruction cache are empty, and pc, FIR, DIRBASE, EPSR and FSR hold their reset
values. -/
theorem resetInvariant : Obligations.ResetInvariant where
  pcAligned := trapVector_aligned
  firAligned := rfl
  memWf := rfl
  tlbSorted := rfl
  icacheSorted := rfl
  itiZero := BitVec.getLsbD_zero
  epsrKept := rfl
  fsrKept := BitVec.zero_and

end Sys2Proof.Machine

/-! SUPPORT. The adder pipe over several instructions: each of the twelve that advance it moves every stage one further and
hands its last stage to the fdest that receives it. -/

namespace Sys2Proof.Machine

open Sys2Proof.Claims

/-! ## One advance of the adder pipe -/

/-- From `s` to `t` the first two stages of the adder pipe move one further, and the last one is written to `out`, if there is
such an fdest (41 R171). -/
structure AdderShift (s t : State) (out : Option Reg) : Prop where
  second : t.pipeA.s1 = s.pipeA.s0
  last : t.pipeA.s2 = s.pipeA.s1
  written : ∀ d, out = some d → FslotSet s t d s.pipeA.s2

section

variable {s t s' t' : State} {o : FpOps} {d : Reg} {v : Slot} {out : Option Reg}

/-- An advance looks at the floating file and the adder pipe alone. -/
theorem AdderShift.congr (h : AdderShift s t out) (hs : s'.fregs = s.fregs) (ht : t'.fregs = t.fregs)
    (hsa : s'.pipeA = s.pipeA) (hta : t'.pipeA = t.pipeA) : AdderShift s' t' out where
  second := by rw [hsa, hta, h.second]
  last := by rw [hsa, hta, h.last]
  written := fun d hd => hsa ▸ fslotSet_congr hs ht (h.written d hd)

/-- An instruction that answers a next state meets what it is refused without. -/
theorem of_next_of_refused {p : Prop} {x : Out} {r : Refusal} (h : x = .next t) (hr : ¬ p → x = .refused r) : p :=
  Classical.byContradiction fun hp => nomatch h.symm.trans (hr hp)

/-- The precisions that advance the pipe are not the one that traps (30 R120). -/
theorem not_ds_of_legal (h : (!(o.s && !o.r)) = true) : ¬ Ds o := by
  rintro ⟨hs, hr⟩
  rw [hs, hr] at h
  cases h

/-! ## The shared operations -/

/-- The end of an instruction of the adder pipe. -/
theorem adderShift_of_finishPiped (h : finishPiped s .adder d v = .next t) : AdderShift s t (some d) := by
  obtain ⟨-, hset, he⟩ := finishPiped_eq_next h
  refine ⟨by rw [he]; rfl, by rw [he]; rfl, ?_⟩
  rintro _ ⟨⟩
  exact hset

/-- What enters the adder pipe at the end of an instruction. -/
theorem pipeA_s0_of_finishPiped (h : finishPiped s .adder d v = .next t) : t.pipeA.s0 = v := by
  obtain ⟨-, -, he⟩ := finishPiped_eq_next h
  rw [he]
  rfl

/-- pfadd and pfsub, when they answer, end in the adder pipe with their result. -/
theorem finishPiped_of_opPiped {op : Config.FpOp} (hd : ¬ Ds o) (h : opPiped op .adder o s = .next t) :
    finishPiped s .adder o.dest (fpArith op s.rm o.r (src s o.s o.src1) (src2OrLast s o s.pipeA.s2)) = .next t := by
  obtain ⟨hs, -⟩ := of_next_of_refused h (opPiped_refused hd)
  exact (opPiped_of_fit hd hs).symm.trans h

/-- pfix and pftrunc. -/
theorem adderShift_of_opFix {rm : BitVec 2} (hr : o.r = true) (h : opFix true rm o s = .next t) :
    AdderShift s t (some o.dest) := by
  obtain ⟨hs, -⟩ := of_next_of_refused h (opFix_refused hr)
  rw [opFix_of_fit hr hs] at h
  exact (adderShift_of_finishPiped h).congr rfl rfl rfl rfl

/-- pfamov. -/
theorem adderShift_of_opMove (h : opMove true o s = .next t) : AdderShift s t (some o.dest) := by
  obtain ⟨hs, -⟩ := of_next_of_refused h opMove_refused
  rw [opMove_of_fit hs] at h
  exact adderShift_of_finishPiped h

/-- The compares. -/
theorem adderShift_of_opCompare {rel : Config.FpRel} (h : opCompare rel o s = .next t) :
    AdderShift s t (some o.dest) := by
  obtain ⟨hs, -⟩ := of_next_of_refused h opCompare_refused
  rw [opCompare_of_fit hs, andThen_eq_next] at h
  obtain ⟨u, hu, ht⟩ := h
  cases ht
  exact (adderShift_of_finishPiped hu).congr rfl rfl rfl rfl

/-- The dual-operation instructions: those of the multiplier write its last stage out and not the adder's (42 R212). -/
theorem adderShift_of_opDual {isM : Bool} {addOp : Config.FpOp} {dpc : BitVec 4} (hd : ¬ Ds o)
    (h : opDual isM addOp dpc o s = .next t) : AdderShift s t (if isM then none else some o.dest) := by
  obtain ⟨hs, -⟩ := of_next_of_refused h (opDual_refused hd)
  rw [opDual_of_fit hd hs] at h
  obtain ⟨u, hu, ht⟩ := andThen_eq_next.1 h
  obtain ⟨-, hset, he⟩ := writeSlot_eq_next hu
  rw [dualLoads_eq] at ht
  cases ht
  refine ⟨by rw [he]; rfl, by rw [he]; rfl, fun d hd => ?_⟩
  cases isM <;> cases hd
  exact fslotSet_congr rfl rfl hset

/-! ## The twelve instructions -/

/-- Each of the twelve advances the adder pipe. -/
theorem adderShift_of_exec {i : Instr} (ha : advancesAdder i = true) (h : exec i s = .next t) :
    AdderShift s t (adderWritesTo i) := by
  cases i
  case pfadd | pfsub => exact adderShift_of_finishPiped (finishPiped_of_opPiped (not_ds_of_legal ha) h)
  case pfix | pftrunc => exact adderShift_of_opFix ha h
  case pfamov => exact adderShift_of_opMove h
  case pfgt | pfle | pfeq => exact adderShift_of_opCompare h
  case pfam | pfsm => exact adderShift_of_opDual (isM := false) (not_ds_of_legal ha) h
  case pfmam | pfmsm => exact adderShift_of_opDual (isM := true) (not_ds_of_legal ha) h
  all_goals cases ha

end

/-- Settles O45: what enters with the first instruction moves one stage further with each of the next two, and the fourth
writes it out. -/
theorem adderLatency : Obligations.AdderLatency := by
  intro s s1 s2 s3 s4 i1 i2 i3 i4 a1 a2 a3 a4 h1 h2 h3 h4
  have shift2 := adderShift_of_exec a2 h2
  have shift3 := adderShift_of_exec a3 h3
  have shift4 := adderShift_of_exec a4 h4
  have hlast : s3.pipeA.s2 = s1.pipeA.s0 := shift3.last.trans shift2.second
  refine ⟨fun d hd => hlast ▸ shift4.written d hd, hlast, shift4.last.trans shift3.second, ?_⟩
  rintro o rfl
  exact pipeA_s0_of_finishPiped (finishPiped_of_opPiped (not_ds_of_legal a1) h1)

end Sys2Proof.Machine

/-! SUPPORT. The host's messages: what a post leaves waiting, what the drain of each message does, and that a core step leaves
the mailbox and the wait alone. -/

namespace Sys2Proof.Machine

/-! ## Posting -/

/-- An empty union is one of empty mailboxes. -/
theorem Mailbox.eq_empty_of_union {a b : Mailbox} (h : a.union b = Mailbox.empty) : a = Mailbox.empty := by
  cases a
  simp_all [Mailbox.union, Mailbox.empty]

section

variable {s : State} {m : Mailbox}

/-- A post into a mailbox where messages wait adds to them. -/
theorem post_of_waiting (h : s.mailbox ≠ Mailbox.empty) (m : Mailbox) :
    s.post m = { s with mailbox := s.mailbox.union m } := if_neg h

/-- What waits after a post (60 R396). -/
theorem post_mailbox (s : State) (m : Mailbox) : (s.post m).mailbox = s.mailbox.union m := by
  by_cases h : s.mailbox = Mailbox.empty
  · rw [State.post, if_pos h, h, Mailbox.empty_union]
  · rw [post_of_waiting h]

/-- A message posted leaves the mailbox not empty. -/
theorem post_mailbox_ne_empty (hm : m ≠ Mailbox.empty) : (s.post m).mailbox ≠ Mailbox.empty := by
  rw [post_mailbox]
  intro h
  have hs := Mailbox.eq_empty_of_union h
  rw [hs, Mailbox.empty_union] at h
  exact hm h

/-- Posting the same messages again changes nothing (60 R396). -/
theorem post_post (hm : m ≠ Mailbox.empty) : (s.post m).post m = s.post m := by
  rw [post_of_waiting (post_mailbox_ne_empty hm), post_mailbox, Mailbox.union_self, ← post_mailbox]

end

/-! ## The drain -/

section

variable {s : State}

/-- A drain with no RESET in it (60 R396, R397). -/
theorem drain_of_not_reset {m : Mailbox} (hm : s.mailbox = m) (hr : m.reset = false) :
    s.drain = { s with
      extIntr := s.extIntr || m.interrupt
      halted := drainHalted m s.halted (Config.haltAfterResume s.freeCount)
      killed := s.killed || m.kill
      mailbox := Mailbox.empty } := by
  subst hm
  unfold State.drain State.drainReset
  cases hi : s.mailbox.interrupt <;> simp [hr]

/-- A drain of RESET without INTERRUPT is the reset event, with what HALT, RESUME and KILL add to it (60 R396, R397). -/
theorem drain_of_reset (hr : s.mailbox.reset = true) (hi : s.mailbox.interrupt = false) :
    s.drain = { s.resetEvent with
      halted := drainHalted s.mailbox s.halted (Config.haltAfterResume s.freeCount)
      killed := s.killed || s.mailbox.kill
      mailbox := Mailbox.empty } := by
  unfold State.drain State.drainReset
  simp [hr, hi]

/-- INTERRUPT alone. -/
theorem drain_interrupt (h : s.mailbox = { Mailbox.empty with interrupt := true }) :
    s.drain = { s with extIntr := true, mailbox := Mailbox.empty } := by
  simpa [drainHalted, Mailbox.empty] using drain_of_not_reset h rfl

/-- HALT alone. -/
theorem drain_halt (h : s.mailbox = { Mailbox.empty with halt := true }) :
    s.drain = { s with halted := true, mailbox := Mailbox.empty } := by
  simpa [drainHalted, Mailbox.empty] using drain_of_not_reset h rfl

/-- RESUME alone. -/
theorem drain_resume (h : s.mailbox = { Mailbox.empty with resume := true }) :
    s.drain = { s with halted := false, mailbox := Mailbox.empty } := by
  simpa [drainHalted, Mailbox.empty] using drain_of_not_reset h rfl

/-- KILL alone. -/
theorem drain_kill (h : s.mailbox = { Mailbox.empty with kill := true }) :
    s.drain = { s with killed := true, mailbox := Mailbox.empty } := by
  simpa [drainHalted, Mailbox.empty] using drain_of_not_reset h rfl

/-- Without HALT and RESUME a drain leaves `halted` as it was. -/
theorem drainHalted_of_neither {m : Mailbox} {halted haltLast : Bool} (hh : m.halt = false) (hr : m.resume = false) :
    drainHalted m halted haltLast = halted := by
  simp [drainHalted, hh, hr]

end

/-! ## The wait for the drain -/

section

variable {s : State}

/-- Messages whose wait is over are drained (log 23). -/
theorem hostMessages_of_delay_zero (hm : s.mailbox ≠ Mailbox.empty) (hd : s.drainDelay = 0) :
    s.hostMessages = s.drain.drawn := by
  rw [State.hostMessages, if_neg hm, hd]

/-- Messages whose wait is not over wait one step less (log 23). -/
theorem hostMessages_of_delay_succ {n : Nat} (hm : s.mailbox ≠ Mailbox.empty) (hd : s.drainDelay = n + 1) :
    s.hostMessages = { s with drainDelay := n } := by
  rw [State.hostMessages, if_neg hm, hd]

/-- No step after KILL (40 R165). -/
theorem step_of_killed (h : s.killed = true) : step s = .fault .killed := if_pos h

/-- A halted core with no message waiting stays (40 R141). -/
theorem step_of_halted (hk : s.killed = false) (hh : s.halted = true) (hm : s.mailbox = Mailbox.empty) :
    step s = .next s := by
  have hs : s.hostMessages = s := if_pos hm
  simp [step, hostStep, hs, hk, hh]

end

/-! ## The core leaves the messages alone -/

/-- The messages that wait, and for how many steps (60 R396; log 23). -/
def State.waiting (s : State) : Mailbox × Nat := (s.mailbox, s.drainDelay)

/-- A next state, if there is one, has the messages `w` waiting. -/
def OutWaiting (w : Mailbox × Nat) (o : Out) : Prop := ∀ t, o = .next t → t.waiting = w

section

variable {w : Mailbox × Nat} {s t : State}

/-- A next state. -/
theorem outWaiting_next (h : s.waiting = w) : OutWaiting w (.next s) := fun _ ht => by cases ht; exact h

/-- A refusal. -/
theorem outWaiting_refused (r : Refusal) : OutWaiting w (.refused r) := fun _ ht => by cases ht

/-- One operation after another. -/
theorem outWaiting_andThen {o : Out} {f : State → Out} (h : OutWaiting w o)
    (hf : ∀ u, u.waiting = w → OutWaiting w (f u)) : OutWaiting w (andThen o f) := by
  intro t ht
  obtain ⟨u, hu, ht⟩ := andThen_eq_next.1 ht
  exact hf u (h u hu) t ht

/-- What an instruction other than ld.c, st.c and the control transfers keeps includes the messages. -/
theorem Kept.waiting (k : Kept s t) : t.waiting = s.waiting := by
  rw [State.waiting, k.mailbox, k.drainDelay, State.waiting]

/-! ### Instructions -/

/-- Every instruction that is no control transfer. -/
theorem outWaiting_exec_of_not_transfer {i : Instr} (hc : isControlTransfer i = false) (h : s.waiting = w) :
    OutWaiting w (exec i s) := by
  rcases exec_cases s hc with ⟨o, rfl⟩ | ⟨o, rfl⟩ | hk
  · intro t ht
    rw [execStc_eq_next (o := o) ht]
    exact h
  · intro t ht
    rw [(execLdc_eq_next (o := o) ht).1]
    exact h
  · exact fun t ht => (hk t ht).waiting.trans h

/-- An instruction in a delay slot: one of those that are no control transfer, or a refusal. -/
theorem outWaiting_execSlot (i : Instr) (h : s.waiting = w) : OutWaiting w (execSlot i s) := by
  cases hc : isControlTransfer i
  · cases ht : isTrapCall i
    · rw [execSlot_eq_exec s hc ht]
      exact outWaiting_exec_of_not_transfer hc h
    · rw [execSlot_trapCall s ht]
      exact outWaiting_refused _
  · rw [execSlot_controlTransfer s hc]
    exact outWaiting_refused _

/-- A word in a delay slot. -/
theorem outWaiting_execSlotWord (x : Word) (h : s.waiting = w) : OutWaiting w (execSlotWord x s) := by
  unfold execSlotWord
  split
  · exact outWaiting_execSlot _ h
  · exact outWaiting_next h

/-- The fetch of a pair. -/
theorem fetchPair_waiting {pc : Word} {r : Option DWord} (hf : s.fetchPair pc = (t, r)) : t.waiting = s.waiting := by
  cases r with
  | some q => rw [fetchPair_some hf]; rfl
  | none => rw [fetchPair_none hf]; rfl

/-- The fetch of a word. -/
theorem fetch_waiting {pc : Word} {r : Option Word} (hf : s.fetch pc = (t, r)) : t.waiting = s.waiting := by
  unfold State.fetch at hf
  split at hf <;> cases hf
  · exact fetchPair_waiting (by assumption)
  · exact fetchPair_waiting (by assumption)

/-- The slot of a delayed branch. -/
theorem outWaiting_runSlot (h : s.waiting = w) : OutWaiting w (runSlot s) := by
  unfold runSlot
  dsimp only
  split <;> rename_i hf
  · exact outWaiting_execSlotWord _ ((fetch_waiting hf).trans h)
  · exact outWaiting_next ((fetch_waiting hf).trans h)

/-- A delayed branch. -/
theorem outWaiting_delaySlot {k : State → Out} (h : s.waiting = w)
    (hk : ∀ u, u.waiting = w → OutWaiting w (k u)) : OutWaiting w (delaySlot s k) := by
  refine outWaiting_andThen (outWaiting_runSlot h) fun u hu => ?_
  dsimp only
  split
  · exact outWaiting_next hu
  · exact hk _ hu

/-- A jump. -/
theorem outWaiting_jump (target : Word) (h : s.waiting = w) : OutWaiting w (.next (s.jump target)) := outWaiting_next h

/-- The end of a call. -/
theorem outWaiting_link (target : Word) (h : s.waiting = w) : OutWaiting w (link target s) := outWaiting_next h

/-- A branch without a delay slot. -/
theorem outWaiting_branchIf (taken : Bool) (target : Word) (h : s.waiting = w) :
    OutWaiting w (branchIf taken target s) :=
  outWaiting_next (by cases taken <;> exact h)

/-- A conditional delayed branch. -/
theorem outWaiting_delayedIf (taken : Bool) (target : Word) (h : s.waiting = w) :
    OutWaiting w (delayedIf taken target s) := by
  unfold delayedIf
  split
  · exact outWaiting_delaySlot h fun _ hu => outWaiting_jump target hu
  · exact outWaiting_jump _ h

/-- bla. -/
theorem outWaiting_execBla (o : SplitOps) (h : s.waiting = w) : OutWaiting w (execBla o s) := by
  unfold execBla
  split
  · exact outWaiting_next h
  · exact outWaiting_delaySlot (s := s.writeReg o.src2 _) h fun _ hu => outWaiting_next hu

/-- The end of bri, with the trap exit or without. -/
theorem outWaiting_briEnd (ret : Bool) (target : Word) (h : s.waiting = w) : OutWaiting w (briEnd ret target s) :=
  outWaiting_next (by cases ret <;> exact h)

/-- Every instruction. -/
theorem outWaiting_exec (i : Instr) (h : s.waiting = w) : OutWaiting w (exec i s) := by
  cases hc : isControlTransfer i
  · exact outWaiting_exec_of_not_transfer hc h
  cases i
  case br => exact outWaiting_delaySlot h fun u hu => outWaiting_jump (longTarget u.pc _) hu
  case call => exact outWaiting_delaySlot h fun u hu => outWaiting_link (longTarget u.pc _) hu
  case calli => exact outWaiting_delaySlot h fun _ hu => outWaiting_link _ hu
  case bri => exact outWaiting_delaySlot h fun _ hu => outWaiting_briEnd _ _ hu
  case bc | bnc | bteReg | bteImm | btneReg | btneImm => exact outWaiting_branchIf _ _ h
  case bct | bnct => exact outWaiting_delayedIf _ _ h
  case bla o => exact outWaiting_execBla o h
  all_goals cases hc

/-- Every word. -/
theorem outWaiting_execWord (x : Word) (h : s.waiting = w) : OutWaiting w (execWord x s) := by
  unfold execWord
  split
  · exact outWaiting_exec _ h
  · exact outWaiting_next h

/-! ### The step -/

/-- The interrupt sampled or not, after the high half. -/
theorem sampleAfterHigh_waiting (s : State) : s.sampleAfterHigh.waiting = s.waiting := by
  unfold State.sampleAfterHigh State.sampleInterrupt
  split_ifs <;> rfl

/-- The trap a step takes, or the advance of pc. -/
theorem trapOrAdvance_waiting (s : State) (savepc : Word) : (s.trapOrAdvance savepc).waiting = s.waiting := by
  unfold State.trapOrAdvance
  split_ifs <;> rfl

/-- The high half of a pair. -/
theorem outWaiting_highHalf (pair : DWord) (h : s.waiting = w) : OutWaiting w (highHalf pair s) :=
  outWaiting_andThen (outWaiting_execWord _ h) fun u hu =>
    outWaiting_next ((trapOrAdvance_waiting _ _).trans ((sampleAfterHigh_waiting u).trans hu))

/-- The low half of a pair, and the high half after it. -/
theorem outWaiting_lowHalf (pair : DWord) (h : s.waiting = w) : OutWaiting w (lowHalf pair s) := by
  refine outWaiting_andThen (outWaiting_execWord _ h) fun u hu => ?_
  split_ifs
  · exact outWaiting_next hu
  · exact outWaiting_next hu
  · exact outWaiting_highHalf pair hu

/-- The pair of a step. -/
theorem outWaiting_runPair (h : s.waiting = w) : OutWaiting w (runPair s) := by
  cases hf : s.fetchPair s.pc with
  | mk u r =>
    have hu := (fetchPair_waiting hf).trans h
    cases r with
    | none =>
      rw [runPair_of_fault hf]
      exact outWaiting_next hu
    | some pair =>
      rw [runPair_of_fetch hf]
      split
      · exact outWaiting_highHalf pair hu
      · exact outWaiting_lowHalf pair hu

/-- A step of the running core. -/
theorem outWaiting_coreStep (h : s.waiting = w) : OutWaiting w (coreStep s) :=
  outWaiting_andThen (outWaiting_runPair (s := s.beginStep) h) fun _ hu => outWaiting_next hu

/-- What waits after a step is what the wait and the drain before it leave. -/
theorem waiting_of_step (h : step s = .next t) : t.waiting = s.hostMessages.waiting := by
  rcases step_eq_next h with ⟨rfl, -⟩ | hc
  · rfl
  · exact outWaiting_coreStep rfl t hc

/-- A step that finds the wait over leaves no message. -/
theorem mailbox_of_step_delay_zero (hm : s.mailbox ≠ Mailbox.empty) (hd : s.drainDelay = 0) (h : step s = .next t) :
    t.mailbox = Mailbox.empty := by
  have hw := waiting_of_step h
  rw [hostMessages_of_delay_zero hm hd] at hw
  exact congrArg Prod.fst hw

/-- A step that finds the wait not over lessens it, and leaves the messages. -/
theorem waiting_of_step_delay_succ {n : Nat} (hm : s.mailbox ≠ Mailbox.empty) (hd : s.drainDelay = n + 1)
    (h : step s = .next t) : t.mailbox = s.mailbox ∧ t.drainDelay = n := by
  have hw := waiting_of_step h
  rw [hostMessages_of_delay_succ hm hd] at hw
  exact Prod.ext_iff.1 hw

end

/-- Settles O53: the steps that execute nothing, posting, the wait, and the drain message by message. -/
theorem hostMessages : Obligations.HostMessages := by
  intro s
  refine ⟨step_of_killed, step_of_halted, fun m => ⟨post_mailbox s m, post_post⟩, fun hm => ?_, rfl, drain_interrupt,
    drain_halt, drain_resume, drain_kill, fun hr hi hh hres => ?_⟩
  · exact ⟨hostMessages_of_delay_zero hm, fun _ => hostMessages_of_delay_succ hm, fun t ht =>
      ⟨fun hd => mailbox_of_step_delay_zero hm hd ht, fun _ hd => waiting_of_step_delay_succ hm hd ht⟩⟩
  · rw [drain_of_reset hr hi]
    exact ⟨rfl, rfl, rfl, rfl, drainHalted_of_neither hh hres, rfl, rfl, rfl⟩

end Sys2Proof.Machine
